-- ==== Sys2Proof/Word.lean ====
section
/-! DEFINITION. The word types of the device (00_scope, Conventions: a word is 16 bits; device time is 32 bits). -/

namespace Sys2Proof

/-- A window word, 16 bits, bit 15 the most significant. -/
abbrev Word := BitVec 16

/-- A byte of a command or record word. -/
abbrev Byte := BitVec 8

/-- A value of device time, modulo 2^32 (R4). -/
abbrev Time := BitVec 32

end Sys2Proof
end

