-- ==== Sys2Proof/Syntax.lean ====
section
/-! DEFINITION. The commands: one constructor for each row of spec/opcode_table.json, in the table's order. -/

namespace Sys2Proof

/-- The order in which one tick reaches the timebase and the input unit.
R112 and R130 give both: the acceptance may be taken before or after that tick's advance. -/
inductive TickOrder where
  | advanceFirst
  | samplesFirst
  deriving DecidableEq, Repr

/-- Where the SAFE# sample of a CLK period stands when a tick comes in that period. The spec leaves it open: a safe entry and a tick
may be taken in either order (R156), and so may, on each line, a safe entry and a pulse end (R105). Before the tick, or behind it
and behind the pulse ends that its advance reaches on the lines `ended`, one bit a line (Log 34). -/
inductive SafeOrder where
  | afterTick (ended : BitVec 16 := 0)
  | beforeTick
  deriving DecidableEq, Repr

/-- The orders within a CLK period that brings a tick. -/
structure ClkOrder where
  tick : TickOrder
  safe : SafeOrder
  deriving DecidableEq, Repr

/-- The two blocks that present a withdrawal to the wait list (R133). -/
inductive Withdrawer where
  | firingUnit
  | commandUnit
  deriving DecidableEq, Repr

/-- Whether the occurrence that a row moves goes on in that row, or stays in hand with no request outstanding and goes on at a later
HANDOFF, so that other rows can be taken in between (R55, R73, R119, R141, R188; Log 32). -/
inductive AfterEffect where
  | goesOn
  | staysInHand
  deriving DecidableEq, Repr

/-- Whether a block that waits for the due queue has presented its request when the queue grants an operation, or presents it only
during that operation (R46, R55, R60, R136; Log 31). -/
inductive RequestPresence where
  | presented
  | notYet
  deriving DecidableEq, Repr

/-- How far a command's row takes the oldest command: out of the FIFO and to the owner of what it works on, or out of the FIFO only,
to be EXECUTING until a later row of its kind gives it to the owner (R170; Log 30). -/
inductive CommandReach where
  | owner
  | unit
  deriving DecidableEq, Repr

/-- Which news a NEWS row takes the oldest item of: the input unit's EDGE news, or that of the other blocks. An EDGE may be taken
before or after an occurrence's news (R141; Log 9). -/
inductive NewsPath where
  | edge
  | other
  deriving DecidableEq, Repr

/-- One cycle at the bus pins: whether CS#, RD# and WR# are asserted, A3 to A0 and D15 to D0 (R184). -/
structure BusCycle where
  select : Bool
  readStrobe : Bool
  writeStrobe : Bool
  addr : BitVec 4
  data : Word
  deriving DecidableEq, Repr

/-- One access of the host to the window: A3 to A0 and, for a write, D15 to D0 (R184). -/
inductive BusAccess where
  | read (addr : BitVec 4)
  | write (addr : BitVec 4) (data : Word)
  deriving DecidableEq, Repr

/-- One step of the device. A step with no operand finds what it works on in the state.
`clk` of TICK is the most CLK periods that may pass up to the tick, where not given as many as the largest prescaler.
`steady` and `low` of TICK_EDGE are the CLK samples of TICK at its last level and the low ones after them, before the high sample
the row ends with (R1, R2; Log 4, Log 27).
`samples` of the SAFE rows are the CLK samples of SAFE# at the row's level, where not given the four that accept it (R154; Log 17).
`order`, `safe`, `after`, `asked`, `arms`, `path` and `reach` choose among the orders the spec leaves open, and are each explained
at their type. `asked` is of the firing unit's request. -/
inductive Instr where
  | hardReset
  | powerOn
  | tick (pins : BitVec 16) (order : TickOrder) (clk : Nat := 65536) (safe : SafeOrder := .afterTick)
  | tickEdge (steady : Nat) (pins : BitVec 16) (order : TickOrder) (low : Nat := 1) (safe : SafeOrder := .afterTick)
  | inputAccept
  | safeAsserted (samples : Nat := 4) (order : TickOrder := .advanceFirst) (safe : SafeOrder := .afterTick)
  | safeReleased (samples : Nat := 4) (order : TickOrder := .advanceFirst) (safe : SafeOrder := .afterTick)
  | handoff (after : AfterEffect := .goesOn)
  | driveEffect (after : AfterEffect := .goesOn)
  | toggleEffect (after : AfterEffect := .goesOn)
  | pulseEffect (after : AfterEffect := .goesOn)
  | pulseEnd (line : Fin 16)
  | flagEffect (after : AfterEffect := .goesOn)
  | insert (after : AfterEffect := .goesOn) (asked : RequestPresence := .presented)
  | reinsertion
  | remove (after : AfterEffect := .goesOn) (asked : RequestPresence := .presented)
  | move (asked : RequestPresence := .presented)
  | clear (arms : RequestPresence := .presented)
  | waitPlacement
  | matched
  | timeout
  | withdrawal (requester : Withdrawer) (after : AfterEffect := .goesOn)
  | news (path : NewsPath := .other)
  | holdoff
  | stageWrite (data : Word)
  | resultRead
  | noteRead
  | timeLoRead
  | flagValueWrite (data : Word)
  | flagSelectWrite (data : Word)
  | intEnableWrite (data : Word)
  | errorWrite (data : Word)
  | badAddress (access : BusAccess)
  | clearStage (operand : Byte)
  | nop (reach : CommandReach := .owner)
  | badCode (reach : CommandReach := .owner)
  | define (reach : CommandReach := .owner)
  | defineArm (reach : CommandReach := .owner)
  | arm (reach : CommandReach := .owner)
  | cancel (reach : CommandReach := .owner)
  | retime (reach : CommandReach := .owner)
  | release (reach : CommandReach := .owner)
  | query (reach : CommandReach := .owner)
  | setTime (reach : CommandReach := .owner)
  | runTime (reach : CommandReach := .owner)
  | holdTime (reach : CommandReach := .owner)
  | setTick (reach : CommandReach := .owner)
  | setLine (reach : CommandReach := .owner)
  | configLine (reach : CommandReach := .owner)
  | configInput (reach : CommandReach := .owner)
  | configNotify (reach : CommandReach := .owner)
  | configSafe (reach : CommandReach := .owner)
  | forceSafe (reach : CommandReach := .owner)
  | resume (reach : CommandReach := .owner)
  | resetSchedule (reach : CommandReach := .owner)
  | resetDevice (reach : CommandReach := .owner)
  | commandWrite (data : Word)
  | resetReleased
  deriving DecidableEq, Repr

end Sys2Proof
end

