-- ==== Sys2Proof/Decode.lean ====
section
/-! DEFINITION. Words of the opcode table. The table gives no row any bits (its rows are steps of a block, with empty
fields), so no word spells a command. The COMMAND word's codes are data of COMMAND_WRITE and are read in
Machine/Operands.lean (11.3). -/

namespace Sys2Proof

/-- No row of spec/opcode_table.json gives bits, so every word is refused (Log 25). -/
def decodeTableWord (nbits w : Nat) : Option Instr :=
  match nbits, w with
  | _, _ => none

end Sys2Proof
end

