-- ==== Sys2Proof/Config.lean ====
section
/-! DEFINITION. The constants the manual fixes. None is open, so there is no free value here. -/

namespace Sys2Proof.Config

/-- The arm horizon, 2^30 (R11). -/
abbrev armHorizon : Nat := 1073741824

/-- The stale bound, 2^24 (R11). -/
abbrev staleBound : Nat := 16777216

/-- Half the range of device time, 2^31: at this distance a time is reached (R10). -/
abbrev halfRange : Nat := 2147483648

/-- Wait entries the wait list can hold (R124). -/
abbrev waitCapacity : Nat := 32

/-- Words the staging list can hold (R165). -/
abbrev stageCapacity : Nat := 16

/-- The budget of commands and unread results (R167). -/
abbrev commandBudget : Nat := 8

/-- The largest count a 16-bit saturating counter holds (R18, R138). -/
abbrev counterMax : Nat := 65535

/-- The late limit that means no limit (R17). -/
abbrev noLateLimit : Word := 65535

/-- The least CLK distance between counted TICK edges (R2). -/
abbrev tickSpacing : Nat := 256

/-- The prescaler after reset (R1). -/
abbrev resetPrescaler : Nat := 1000

/-- Argument words of DEFINE and DEFINE_ARM (R26, R27). -/
abbrev defineWords : Nat := 13

/-- The value IDENT reads (R186). -/
abbrev ident : Word := 0x4C81

/-- The code of CLEAR_STAGE (11.3). -/
abbrev clearStageCode : Byte := 0xFF

end Sys2Proof.Config
end

