-- ==== Sys2Proof/Machine/State.lean ====
section
/-! DEFINITION. The state of the device, block by block as 00_scope's block overview lists them, and its values after reset. -/

namespace Sys2Proof.Machine

/-- A slot of the action table, 0 to 127. -/
abbrev SlotId := Fin 128

/-- An output line or a machine input, 0 to 15. -/
abbrev LineId := Fin 16

/-- A condition flag, 0 to 63. -/
abbrev FlagId := Fin 64

/-! ## The definition part of a slot (02, section 2.1) -/

inductive FlagOp where
  | set
  | clear
  | toggle
  deriving DecidableEq, Repr

inductive Condition where
  | level0
  | level1
  | rise
  | fall
  deriving DecidableEq, Repr

/-- The follow slot of a wait and its offset, absent together (R125). -/
structure Follow where
  slot : SlotId
  offset : Word
  deriving DecidableEq, Repr

/-- The operand of WAIT. An absent deadline offset means no deadline (section 2.1, note 2). -/
structure WaitSpec where
  flag : FlagId
  condition : Condition
  deadlineOffset : Option (BitVec 24)
  follow : Option Follow
  timeout : Option SlotId
  deriving DecidableEq, Repr

/-- The kind of an action with the target and operand that kind has. -/
inductive Action where
  | drive (line : LineId) (level : Bool)
  | toggle (line : LineId)
  | pulse (line : LineId) (width : Word)
  | flag (target : FlagId) (op : FlagOp)
  | arm (target : SlotId) (chainOffset : Word)
  | cancel (target : SlotId)
  | wait (spec : WaitSpec)
  | mark
  deriving DecidableEq, Repr

inductive DueSpec where
  | absolute (time : Time)
  | relative (offset : Time)
  deriving DecidableEq, Repr

/-- A flag and the level it must have (R17). -/
structure Guard where
  flag : FlagId
  level : Bool
  deriving DecidableEq, Repr

inductive LatePolicy where
  | fireLate
  | skip
  deriving DecidableEq, Repr

inductive MissPolicy where
  | catchUp
  | drop
  deriving DecidableEq, Repr

inductive PastPolicy where
  | reject
  | fire
  deriving DecidableEq, Repr

inductive NotifyPolicy where
  | none
  | exceptions
  | done
  | each
  deriving DecidableEq, Repr

structure Definition where
  action : Action
  due : DueSpec
  guard : Option Guard
  intervalA : BitVec 24
  intervalB : BitVec 24
  repeatCount : Word
  lateLimit : Word
  latePolicy : LatePolicy
  missPolicy : MissPolicy
  pastPolicy : PastPolicy
  notify : NotifyPolicy
  tag : Byte
  deriving DecidableEq, Repr

/-! ## The slot record (02, section 2.2) -/

inductive SlotState where
  | free
  | held
  | armed
  | firing
  | waiting
  | done
  deriving DecidableEq, Repr

inductive Phase where
  | a
  | b
  deriving DecidableEq, Repr

structure Slot where
  state : SlotState
  defn : Option Definition
  due : Option Time
  phase : Phase
  remaining : Option Nat
  taken : Nat
  misses : Nat
  lastLateness : Nat
  deriving DecidableEq, Repr

/-- A slot after hard reset, RESET_DEVICE and RELEASE (R37, R42). -/
def Slot.unused : Slot where
  state := .free
  defn := Option.none
  due := Option.none
  phase := .a
  remaining := Option.none
  taken := 0
  misses := 0
  lastLateness := 0

/-! ## The due queue (03) -/

structure DueEntry where
  slot : SlotId
  due : Time
  deriving DecidableEq, Repr

/-- The operations of the due queue (R45). -/
inductive DueOperation where
  | insert
  | remove
  | move
  | handoff
  | clear
  deriving DecidableEq, Repr

structure DueQueue where
  entries : List DueEntry
  inFlight : Option DueOperation
  passedOver : Bool
  deriving DecidableEq, Repr

/-! ## Notifications (08) -/

/-- The sixteen notification kinds, in the order of their codes (11.4). -/
inductive Kind where
  | fired
  | late
  | skippedLate
  | skippedGuard
  | missed
  | done
  | cancelled
  | matched
  | timeout
  | armFailed
  | pulseCut
  | retriggered
  | suppressed
  | edge
  | safeEntered
  | safeExited
  deriving DecidableEq, Repr

/-- The 145 sources (R138): slots 0 to 127, inputs 128 to 143, the safe controller 144. -/
inductive Source where
  | slot (i : SlotId)
  | input (i : LineId)
  | safe
  deriving DecidableEq, Repr

/-- News on its way to the notification queue (R139). -/
structure NewsItem where
  source : Source
  kind : Kind
  time : Time
  deriving DecidableEq, Repr

structure NoteRecord where
  source : Source
  tag : Byte
  lastKind : Kind
  count : Nat
  seen : BitVec 16
  time : Time
  age : Nat
  deriving DecidableEq, Repr

/-- The notification queue. `inFlight` is the news its producers have sent and it has not yet taken, oldest first
(R139, R153; Log 9). -/
structure NoteQueue where
  records : List NoteRecord
  threshold : Nat
  holdoff : Word
  urgent : BitVec 16
  attention : Bool
  inFlight : List NewsItem
  deriving DecidableEq, Repr

/-! ## The firing unit (04) -/

/-- What the firing unit has asked another block and not yet been answered (04, table; R69, R87). -/
inductive Request where
  | drive (line : LineId) (level : Bool)
  | toggle (line : LineId)
  | pulse (line : LineId) (width : Word)
  | flag (target : FlagId) (op : FlagOp)
  | insert (target : SlotId) (due : Time)
  | remove (target : SlotId)
  | withdraw (target : SlotId)
  | place (spec : WaitSpec)
  | reinsert (due : Time)
  deriving DecidableEq, Repr

/-- The slot in hand with its occurrence context. The firing unit is idle when there is none (R62; Log 12). With no request
outstanding it has been released and not yet checked while it has no outcome, its effect is over and it is not yet counted while
`counted` is false, and then it is counted and not yet ended (R63; Log 32). -/
structure Occurrence where
  slot : SlotId
  due : Time
  time : Time
  lateness : Nat
  late : Bool
  outcome : Option Kind
  selfCancel : Bool
  request : Option Request
  counted : Bool
  deriving DecidableEq, Repr

/-! ## The wait list (07) -/

structure WaitEntry where
  slot : SlotId
  flag : FlagId
  condition : Condition
  start : Time
  deadline : Option Time
  follow : Option Follow
  timeout : Option SlotId
  deriving DecidableEq, Repr

/-- A follow or timeout arm not yet taken by the due queue: target, due, time of the wait end and waiting slot. -/
structure PendingArm where
  target : SlotId
  due : Time
  endTime : Time
  waiting : SlotId
  deriving DecidableEq, Repr

structure WaitList where
  entries : List WaitEntry
  arms : List PendingArm
  deriving DecidableEq, Repr

/-! ## The line unit (05) -/

structure Pulse where
  endTime : Time
  owner : SlotId
  deriving DecidableEq, Repr

structure Line where
  intended : Bool
  driven : Bool
  active : Bool
  safe : Bool
  pulse : Option Pulse
  deriving DecidableEq, Repr

structure LineUnit where
  lines : Vector Line 16
  safeDrive : Bool
  deriving DecidableEq, Repr

/-! ## The input unit and the flag bank (06) -/

inductive EdgeSelection where
  | none
  | rise
  | fall
  | both
  deriving DecidableEq, Repr

structure Input where
  raw : Bool
  q : Nat
  candidate : Nat
  edge : EdgeSelection
  notify : Bool
  deriving DecidableEq, Repr

/-- A new level the input unit has accepted and handed to the flag bank, which has not yet taken it (R110).
It carries what the settings in force at the acceptance decided (R111, R122) and the time of the acceptance (R112; Log 6). -/
structure Acceptance where
  input : LineId
  level : Bool
  included : Bool
  notify : Bool
  time : Time
  deriving DecidableEq, Repr

/-- A flag-change event on its way to the wait list (R115). -/
structure FlagEvent where
  flag : FlagId
  value : Bool
  deriving DecidableEq, Repr

structure InputUnit where
  inputs : Vector Input 16
  handed : List Acceptance
  deriving DecidableEq, Repr

structure FlagBank where
  flags : Vector Bool 64
  events : List FlagEvent
  deriving DecidableEq, Repr

/-! ## Timebase (01) and safe controller (09) -/

inductive RunState where
  | hold
  | run
  deriving DecidableEq, Repr

inductive TickSource where
  | internal
  | external
  deriving DecidableEq, Repr

/-- The spacing check is absent while no edge has been counted, else the CLK periods since the last counted edge. `tickSample` is
the last CLK sample of TICK, high being true (R2; Log 27). -/
structure Timebase where
  time : Time
  desired : RunState
  freeze : Bool
  source : TickSource
  prescaler : Nat
  prescalerCount : Nat
  spacing : Option Nat
  tickSample : Bool
  deriving DecidableEq, Repr

inductive SafeState where
  | run
  | safe
  deriving DecidableEq, Repr

inductive SafePolicy where
  | continue_
  | freeze
  deriving DecidableEq, Repr

structure SafeController where
  state : SafeState
  policy : SafePolicy
  asserted : Bool
  candidate : Nat
  deriving DecidableEq, Repr

/-! ## Bus window and command unit (10, 11) -/

/-- The ERROR bits, in the order of their positions (11.2). -/
inductive ErrorBit where
  | stageOverflow
  | cmdRefused
  | noteEmptyRead
  | resultEmptyRead
  | badAddress
  | tickFast
  deriving DecidableEq, Repr

structure Window where
  staging : List Word
  error : BitVec 6
  intEnable : BitVec 3
  flagSelect : BitVec 3
  timeHi : Word
  resultCursor : Nat
  noteCursor : Nat
  noteTimeHi : Word
  deriving DecidableEq, Repr

/-- An accepted command: code, operand byte and argument words (R167). -/
structure Command where
  code : Byte
  operand : Byte
  args : List Word
  deriving DecidableEq, Repr

/-- The commands the command unit executes (11.3). CLEAR_STAGE is not among them: it is never queued (R166). -/
inductive Opcode where
  | nop
  | define
  | defineArm
  | arm
  | cancel
  | retime
  | release
  | query
  | setTime
  | runTime
  | holdTime
  | setTick
  | setLine
  | configLine
  | configInput
  | configNotify
  | configSafe
  | forceSafe
  | resume
  | resetSchedule
  | resetDevice
  deriving DecidableEq, Repr

/-- What a command that is executing still waits for (R170): to be given to the owner of what it works on (`taken`; Log 30), its
claim on a slot, its due-queue request, the wait list, or the firing unit becoming idle. A CANCEL waits as `cancel` while its slot
is FIRING (R22), as `remove` once its REMOVE is presented to the due queue, and as `withdraw` once its withdrawal is presented to the
wait list (R33, R55, R133). -/
inductive Work where
  | taken
  | define (slot : SlotId)
  | arm (slot : SlotId) (given : Option Time)
  | cancel (slot : SlotId)
  | remove (slot : SlotId)
  | withdraw (slot : SlotId)
  | retime (slot : SlotId) (due : Time)
  | release (slot : SlotId)
  | query (slot : SlotId)
  | setTime (time : Time)
  | clear
  deriving DecidableEq, Repr

structure Executing where
  command : Command
  work : Work
  deriving DecidableEq, Repr

/-- The eleven statuses, in the order of their codes (R171, 11.4). -/
inductive Status where
  | ok
  | badCode
  | argCount
  | badSlot
  | badState
  | badArg
  | tooFar
  | past
  | notePending
  | notEmpty
  | safeActive
  deriving DecidableEq, Repr

structure ResultRecord where
  code : Byte
  operand : Byte
  status : Status
  data : List Word
  deriving DecidableEq, Repr

/-- The execution state is IDLE when no command is executing (R170). -/
structure CommandUnit where
  fifo : List Command
  executing : Option Executing
  results : List ResultRecord
  deriving DecidableEq, Repr

/-- The pins the state must remember: RESET# held asserted (R164), the level of SAFE# (R154), the word the last read access
returned on D15 to D0, the level of TICK (R2), and the levels of IN0 to IN15, bit i for INi (R108; Log 27, Log 33). -/
structure Pins where
  resetHeld : Bool
  safeLow : Bool
  readWord : Word
  tickHigh : Bool
  inputs : BitVec 16
  deriving DecidableEq, Repr

/-- The whole device, and the queue of steps waiting to be taken. -/
structure State where
  timebase : Timebase
  slots : Vector Slot 128
  dueQueue : DueQueue
  firing : Option Occurrence
  waitList : WaitList
  lineUnit : LineUnit
  inputUnit : InputUnit
  flagBank : FlagBank
  noteQueue : NoteQueue
  safeController : SafeController
  window : Window
  commandUnit : CommandUnit
  pins : Pins
  pending : List Instr
  deriving DecidableEq, Repr

/-- No step of the device faults: every command, in every state, is answered with a next state. -/
inductive Fault where
  deriving DecidableEq, Repr

/-- `notModelled` is what Dispatch would answer for a command without a meaning. No arm answers it. Safe. -/
inductive Refusal where
  | notModelled (mnemonic : String)
  deriving DecidableEq, Repr

/-- The outcome of one step of this device. -/
abbrev Result := Host.Outcome State Fault Refusal

/-! ## Values after reset -/

def Timebase.reset : Timebase where
  time := 0
  desired := .hold
  freeze := false
  source := .internal
  prescaler := Config.resetPrescaler
  prescalerCount := 0
  spacing := none
  tickSample := false

def Line.reset : Line where
  intended := false
  driven := false
  active := true
  safe := false
  pulse := none

def Input.reset : Input where
  raw := false
  q := 2
  candidate := 0
  edge := .none
  notify := false

def NoteQueue.reset : NoteQueue where
  records := []
  threshold := 1
  holdoff := 0
  urgent := 0
  attention := false
  inFlight := []

def SafeController.reset : SafeController where
  state := .run
  policy := .continue_
  asserted := false
  candidate := 0

def Window.reset : Window where
  staging := []
  error := 0
  intEnable := 0
  flagSelect := 0
  timeHi := 0
  resultCursor := 0
  noteCursor := 0
  noteTimeHi := 0

/-- The device after hard reset, with RESET# released, SAFE# high and nothing waiting to be taken
(R42, R61, R107, R123, R137, R153, R163, R164). The pins' own values are Log 16, Log 17, Log 27 and Log 33. -/
def State.reset : State where
  timebase := Timebase.reset
  slots := Vector.replicate 128 Slot.unused
  dueQueue := ⟨[], none, false⟩
  firing := none
  waitList := ⟨[], []⟩
  lineUnit := ⟨Vector.replicate 16 Line.reset, false⟩
  inputUnit := ⟨Vector.replicate 16 Input.reset, []⟩
  flagBank := ⟨Vector.replicate 64 false, []⟩
  noteQueue := NoteQueue.reset
  safeController := SafeController.reset
  window := Window.reset
  commandUnit := ⟨[], none, []⟩
  pins := ⟨false, false, 0, false, 0⟩
  pending := []

end Sys2Proof.Machine
end

