-- ==== Sys2Proof/Machine/Time.lean ====
section
/-! DEFINITION. Modular comparison of time values (01, section 1.4) and the two halves of a time. -/

namespace Sys2Proof.Machine

/-- The distance d = (t − n) mod 2^32 of R10. -/
def distance (t n : Time) : Nat := (t - n).toNat

/-- `t` is reached at `n`: d is 0, or 2^31 or more (R10). -/
def reached (t n : Time) : Bool :=
  decide (distance t n = 0 ∨ Config.halfRange ≤ distance t n)

/-- `a` is earlier than `b`: (b − a) mod 2^32 lies in 1 to 2^31 − 1 (R10). -/
def earlier (a b : Time) : Bool :=
  decide (1 ≤ distance b a ∧ distance b a < Config.halfRange)

/-- The lateness of a reached `t` at `n`, (n − t) mod 2^32 (R10). -/
def lateBy (t n : Time) : Nat := distance n t

/-- A 32-bit quantity carried low half first (00_scope, Words and bits). -/
def timeOfHalves (low high : Word) : Time := high ++ low

def lowHalf (t : Time) : Word := t.extractLsb' 0 16

def highHalf (t : Time) : Word := t.extractLsb' 16 16

end Sys2Proof.Machine
end

