-- ==== Sys2Proof/Machine/Ops.lean ====
section
/-! DEFINITION. The named reads and updates of the state that the blocks share. -/

namespace Sys2Proof.Machine

/-! ## Reads -/

/-- The present device time. -/
def State.now (s : State) : Time := s.timebase.time

def State.slot (s : State) (i : SlotId) : Slot := s.slots[i]

def State.line (s : State) (n : LineId) : Line := s.lineUnit.lines[n]

def State.input (s : State) (i : LineId) : Input := s.inputUnit.inputs[i]

def State.flag (s : State) (f : FlagId) : Bool := s.flagBank.flags[f]

/-- Device time runs when the desired run state is RUN and the safe-freeze mark is clear (R4). -/
def Timebase.running (b : Timebase) : Bool := b.desired == .run && !b.freeze

/-- What an absent definition reads as. The policy and the tag are those R14 gives for a FREE slot. The rest is read in no
reachable state, because a slot outside FREE has a definition (R14; Log 21). -/
def Definition.absent : Definition where
  action := .mark
  due := .absolute 0
  guard := none
  intervalA := 0
  intervalB := 0
  repeatCount := 0
  lateLimit := Config.noLateLimit
  latePolicy := .fireLate
  missPolicy := .catchUp
  pastPolicy := .reject
  notify := .exceptions
  tag := 0

def Slot.definition (sl : Slot) : Definition := sl.defn.getD Definition.absent

/-! ## Updates, one field each -/

def State.setSlot (s : State) (i : SlotId) (sl : Slot) : State :=
  { s with slots := s.slots.set i sl }

def State.setLine (s : State) (n : LineId) (l : Line) : State :=
  { s with lineUnit := { s.lineUnit with lines := s.lineUnit.lines.set n l } }

def State.setInput (s : State) (i : LineId) (x : Input) : State :=
  { s with inputUnit := { s.inputUnit with inputs := s.inputUnit.inputs.set i x } }

def State.setEntries (s : State) (es : List DueEntry) : State :=
  { s with dueQueue := { s.dueQueue with entries := es } }

def State.setPassedOver (s : State) (b : Bool) : State :=
  { s with dueQueue := { s.dueQueue with passedOver := b } }

def State.setFiring (s : State) (o : Option Occurrence) : State :=
  { s with firing := o }

def State.setWaitEntries (s : State) (es : List WaitEntry) : State :=
  { s with waitList := { s.waitList with entries := es } }

def State.setArms (s : State) (as : List PendingArm) : State :=
  { s with waitList := { s.waitList with arms := as } }

def State.setTimebase (s : State) (b : Timebase) : State :=
  { s with timebase := b }

def State.setSafe (s : State) (c : SafeController) : State :=
  { s with safeController := c }

def State.setWindow (s : State) (w : Window) : State :=
  { s with window := w }

def State.setNotes (s : State) (q : NoteQueue) : State :=
  { s with noteQueue := q }

def State.setCommands (s : State) (u : CommandUnit) : State :=
  { s with commandUnit := u }

def State.setPins (s : State) (p : Pins) : State :=
  { s with pins := p }

/-! ## News, errors and results -/

/-- A producer sends news to the notification queue, which takes it at a NEWS step (R139, R141). -/
def State.send (s : State) (source : Source) (kind : Kind) (time : Time) : State :=
  s.setNotes { s.noteQueue with inFlight := s.noteQueue.inFlight ++ [⟨source, kind, time⟩] }

/-- The position of an ERROR bit (11.2). -/
def ErrorBit.position : ErrorBit → Nat
  | .stageOverflow => 0
  | .cmdRefused => 1
  | .noteEmptyRead => 2
  | .resultEmptyRead => 3
  | .badAddress => 4
  | .tickFast => 5

/-- A sticky ERROR bit is set (R180). -/
def State.raise (s : State) (b : ErrorBit) : State :=
  s.setWindow { s.window with error := s.window.error ||| (1#6 <<< b.position) }

/-- The command's result record is written to the tail of the result FIFO and the command unit becomes IDLE in the same
step (R170, R172). -/
def State.complete (s : State) (c : Command) (status : Status) (data : List Word) : State :=
  s.setCommands { s.commandUnit with
    executing := none, results := s.commandUnit.results ++ [⟨c.code, c.operand, status, data⟩] }

/-- The command unit stays EXECUTING until what the command waits for comes (R170). -/
def State.waitFor (s : State) (c : Command) (w : Work) : State :=
  s.setCommands { s.commandUnit with executing := some ⟨c, w⟩ }

/-! ## The bus and RESET# -/

/-- While RESET# is asserted every block is held at its reset values and no write is taken (R164). -/
def State.unlessHeld (s : State) (f : State → State) : State :=
  if s.pins.resetHeld then s else f s

/-- The word a read access returns on D15 to D0 (Log 16). -/
def State.returnWord (s : State) (w : Word) : State :=
  s.setPins { s.pins with readWord := w }

/-- A read while RESET# is asserted is not taken and returns 0 (R164). -/
def State.readUnlessHeld (s : State) (f : State → State) : State :=
  if s.pins.resetHeld then s.returnWord 0 else f s

/-- A word whose bit k is the k-th level of the list. -/
def wordOfLevels : List Bool → Word
  | [] => 0
  | b :: bs => ((wordOfLevels bs) <<< 1) ||| (if b then 1 else 0)

/-- The lines, or inputs, 0 to 15 in ascending order. -/
def allLines : List LineId := [0, 1, 2, 3, 4, 5, 6, 7, 8, 9, 10, 11, 12, 13, 14, 15]

end Sys2Proof.Machine
end

