-- ==== Sys2Proof/Machine/Flags.lean ====
section
/-! DEFINITION. The condition flag bank (06, section 6.3) and the FLAG effect's computation. -/

namespace Sys2Proof.Machine

/-- A flag takes a value. A change is reported to the wait list, and a write of the value held reports nothing (R115). -/
def State.setFlag (s : State) (f : FlagId) (v : Bool) : State :=
  if s.flag f = v then s
  else { s with flagBank := ⟨s.flagBank.flags.set f v, s.flagBank.events ++ [⟨f, v⟩]⟩ }

/-- SET makes the flag 1, CLEAR 0, and TOGGLE inverts the value as it stands (R119). -/
def FlagOp.apply (op : FlagOp) (v : Bool) : Bool :=
  match op with
  | .set => true
  | .clear => false
  | .toggle => !v

/-- Flag 8g + k of group g (R114). -/
def groupFlag (g : BitVec 3) (k : Fin 8) : FlagId :=
  ⟨8 * g.toNat + k.val, by have := g.isLt; have := k.isLt; omega⟩

/-- The level flag of an input (R114). -/
def levelFlag (i : LineId) : FlagId := ⟨i.val, by omega⟩

/-- The edge latch of an input (R114). -/
def edgeLatch (i : LineId) : FlagId := ⟨16 + i.val, by omega⟩

/-- The positions of a group in ascending order. -/
def groupPositions : List (Fin 8) := [0, 1, 2, 3, 4, 5, 6, 7]

/-- The eight values of a group, bit k being flag 8g + k (R116). -/
def State.groupWord (s : State) (g : BitVec 3) : Word :=
  wordOfLevels (groupPositions.map fun k => s.flag (groupFlag g k))

/-- A masked write to a group, in ascending flag order: bit 8 + k of the word is the mask of flag 8g + k and bit k its value
(R117, 11.2). -/
def State.writeGroup (s : State) (g : BitVec 3) (w : Word) : State :=
  groupPositions.foldl
    (fun s k => if w.getLsbD (8 + k.val) then s.setFlag (groupFlag g k) (w.getLsbD k.val) else s) s

/-- A write to FLAG_VALUE: groups 0 and 1 hold the level flags and are not written (R117, R118). -/
def State.flagValueWrite (s : State) (w : Word) : State :=
  if s.window.flagSelect.toNat < 2 then s.raise .badAddress
  else s.writeGroup s.window.flagSelect w

/-- A write to FLAG_SELECT takes the whole word as a group number (R116). -/
def State.flagSelectWrite (s : State) (w : Word) : State :=
  if w.toNat < 8 then s.setWindow { s.window with flagSelect := w.extractLsb' 0 3 }
  else s.raise .badAddress

/-- FLAG_VALUE_WRITE (R117). -/
def execFlagValueWrite (data : Word) (s : State) : Result :=
  .next (s.unlessHeld fun s => s.flagValueWrite data)

/-- FLAG_SELECT_WRITE (R116). -/
def execFlagSelectWrite (data : Word) (s : State) : Result :=
  .next (s.unlessHeld fun s => s.flagSelectWrite data)

end Sys2Proof.Machine
end

