-- ==== Sys2Proof/Machine/Notify.lean ====
section
/-! DEFINITION. The notification queue (08): filtering, records, reading through the NOTE port, attention. -/

namespace Sys2Proof.Machine

/-- The code of a kind (11.4). -/
def Kind.code : Kind → Nat
  | .fired => 0
  | .late => 1
  | .skippedLate => 2
  | .skippedGuard => 3
  | .missed => 4
  | .done => 5
  | .cancelled => 6
  | .matched => 7
  | .timeout => 8
  | .armFailed => 9
  | .pulseCut => 10
  | .retriggered => 11
  | .suppressed => 12
  | .edge => 13
  | .safeEntered => 14
  | .safeExited => 15

/-- The set that holds one kind: bit k is kind code k (11.4). -/
def Kind.mask (k : Kind) : BitVec 16 := 1#16 <<< k.code

/-- The number of a source (R138). -/
def Source.number : Source → Nat
  | .slot i => i.val
  | .input i => 128 + i.val
  | .safe => 144

/-- Which kinds a slot's notify policy passes (R89). EDGE, SAFE_ENTERED and SAFE_EXITED are never addressed to a slot. -/
def NotifyPolicy.passes (p : NotifyPolicy) (k : Kind) : Bool :=
  match p with
  | .none => false
  | .each => true
  | .exceptions => !(k == .fired || k == .matched || k == .retriggered || k == .done)
  | .done => !(k == .fired || k == .matched || k == .retriggered)

/-- Whether the queue keeps an item: a slot's by the slot's policy as the item arrives, the others always (R139). -/
def State.keeps (s : State) (n : NewsItem) : Bool :=
  match n.source with
  | .slot i => (s.slot i).definition.notify.passes n.kind
  | .input _ => true
  | .safe => true

/-- The tag a new record takes (R140). -/
def State.sourceTag (s : State) : Source → Byte
  | .slot i => (s.slot i).definition.tag
  | .input _ => 0
  | .safe => 0

/-- A kept item merged into its source's record (R140). -/
def NoteRecord.merge (r : NoteRecord) (n : NewsItem) : NoteRecord :=
  { r with
    lastKind := n.kind
    count := min 255 (r.count + 1)
    seen := r.seen ||| n.kind.mask
    time := n.time }

/-- The record a kept item creates (R140). -/
def NoteRecord.create (n : NewsItem) (tag : Byte) : NoteRecord where
  source := n.source
  tag := tag
  lastKind := n.kind
  count := 1
  seen := n.kind.mask
  time := n.time
  age := 0

/-- A kept item goes into its source's record, or makes one at the tail (R140). -/
def takeInto (n : NewsItem) (tag : Byte) : List NoteRecord → List NoteRecord
  | [] => [NoteRecord.create n tag]
  | r :: rs => if r.source = n.source then r.merge n :: rs else r :: takeInto n tag rs

/-- When attention is on (R148). -/
def NoteQueue.wantsAttention (q : NoteQueue) : Bool :=
  match q.records with
  | [] => false
  | r :: _ =>
    decide (q.threshold ≤ q.records.length)
      || (q.holdoff != 0 && decide (q.holdoff.toNat ≤ r.age))
      || q.records.any fun r => (r.seen &&& q.urgent) != 0

/-- Attention is recomputed in the same step as the event that can change it (R148). -/
def NoteQueue.recompute (q : NoteQueue) : NoteQueue := { q with attention := q.wantsAttention }

/-- The records change and attention follows in the same step (R148). -/
def State.setRecords (s : State) (rs : List NoteRecord) : State :=
  s.setNotes (NoteQueue.recompute { s.noteQueue with records := rs })

/-- How an item reaches the queue: from the input unit, or from another block (R141; Log 9). -/
def NewsItem.path (n : NewsItem) : NewsPath :=
  match n.source with
  | .input _ => .edge
  | .slot _ => .other
  | .safe => .other

/-- The queue takes the oldest news in flight on one path (R139, R140, R141). -/
def State.takeNews (s : State) (p : NewsPath) : State :=
  match s.noteQueue.inFlight.find? (·.path == p) with
  | none => s
  | some n =>
    let t := s.setNotes { s.noteQueue with inFlight := s.noteQueue.inFlight.eraseP (·.path == p) }
    if s.keeps n then t.setRecords (takeInto n (s.sourceTag n.source) s.noteQueue.records) else t

/-- Every record's age rises by one at a tick, stopping at 65,535, and attention follows (R147, R148). -/
def State.ageRecords (s : State) : State :=
  s.setRecords (s.noteQueue.records.map fun r => { r with age := min Config.counterMax (r.age + 1) })

/-- The notification queue holds a record for a slot (R25). -/
def State.hasRecord (s : State) (i : SlotId) : Bool :=
  s.noteQueue.records.any fun r => r.source == .slot i

/-- Word 1 of a record: source in bits 7 to 0, tag in bits 15 to 8 (11.4). -/
def NoteRecord.word1 (r : NoteRecord) : Word := r.tag ++ BitVec.ofNat 8 r.source.number

/-- Word 5 of a record: last kind code in bits 3 to 0, count in bits 15 to 8 (11.4). -/
def NoteRecord.word5 (r : NoteRecord) : Word := BitVec.ofNat 8 r.count ++ BitVec.ofNat 8 r.lastKind.code

/-- A read of the NOTE port (R142, R143, R144). -/
def State.noteRead (s : State) : State :=
  match s.noteQueue.records with
  | [] => (s.raise .noteEmptyRead).returnWord 0
  | r :: rest =>
    match s.window.noteCursor with
    | 0 => (s.setWindow { s.window with noteCursor := 1 }).returnWord r.word1
    | 1 => (s.setWindow { s.window with noteCursor := 2 }).returnWord r.seen
    | 2 => (s.setWindow { s.window with noteCursor := 3, noteTimeHi := highHalf r.time }).returnWord (lowHalf r.time)
    | 3 => (s.setWindow { s.window with noteCursor := 4 }).returnWord s.window.noteTimeHi
    | _ => ((s.setWindow { s.window with noteCursor := 0 }).setRecords rest).returnWord r.word5

/-- The oldest record's age has reached a holdoff that is not 0 (R148). -/
def NoteQueue.holdoffMet (q : NoteQueue) : Bool :=
  match q.records with
  | [] => false
  | r :: _ => q.holdoff != 0 && decide (q.holdoff.toNat ≤ r.age)

/-- The holdoff turns attention on (R148). -/
def State.holdoffStep (s : State) : State :=
  if s.noteQueue.holdoffMet then s.setNotes s.noteQueue.recompute else s

/-- NEWS (R139, R140). -/
def execNews (s : State) (path : NewsPath := .other) : Result := .next (s.unlessHeld fun s => s.takeNews path)

/-- HOLDOFF (R148; Log 18). -/
def execHoldoff (s : State) : Result := .next (s.unlessHeld State.holdoffStep)

/-- NOTE_READ (R142). -/
def execNoteRead (s : State) : Result := .next (s.readUnlessHeld State.noteRead)

end Sys2Proof.Machine
end

