-- ==== Sys2Proof/Machine/Operands.lean ====
section
/-! DEFINITION. Operand forms: the command codes, the DEFINE argument words and their validation (11.3, R24, R187), and the
words of QUERY and of a result record (11.4). -/

namespace Sys2Proof.Machine

/-! ## Codes -/

/-- The command a code names (11.3). FFh is CLEAR_STAGE, which is never queued (R166). -/
def Opcode.ofCode (c : Byte) : Option Opcode :=
  match c.toNat with
  | 0x00 => some .nop
  | 0x10 => some .define
  | 0x11 => some .defineArm
  | 0x12 => some .arm
  | 0x13 => some .cancel
  | 0x14 => some .retime
  | 0x15 => some .release
  | 0x16 => some .query
  | 0x20 => some .setTime
  | 0x21 => some .runTime
  | 0x22 => some .holdTime
  | 0x23 => some .setTick
  | 0x30 => some .setLine
  | 0x31 => some .configLine
  | 0x32 => some .configInput
  | 0x33 => some .configNotify
  | 0x34 => some .configSafe
  | 0x40 => some .forceSafe
  | 0x41 => some .resume
  | 0x50 => some .resetSchedule
  | 0x5A => some .resetDevice
  | _ => none

/-- The code of a status (11.4). -/
def Status.code : Status → Nat
  | .ok => 0
  | .badCode => 1
  | .argCount => 2
  | .badSlot => 3
  | .badState => 4
  | .badArg => 5
  | .tooFar => 6
  | .past => 7
  | .notePending => 8
  | .notEmpty => 9
  | .safeActive => 10

/-! ## Numbers out of bytes -/

/-- Bits `hi` down to `lo` of a word, as a number. -/
def bits (w : Word) (hi lo : Nat) : Nat := (w.extractLsb' lo (hi + 1 - lo)).toNat

def slotOf (n : Nat) : Option SlotId := if h : n < 128 then some ⟨n, h⟩ else none

def lineOf (n : Nat) : Option LineId := if h : n < 16 then some ⟨n, h⟩ else none

def flagOf (n : Nat) : Option FlagId := if h : n < 64 then some ⟨n, h⟩ else none

/-- A level carried as a number: 0 or 1, other values out of range (11.3). -/
def levelOf (n : Nat) : Option Bool :=
  match n with
  | 0 => some false
  | 1 => some true
  | _ => none

/-- A field that may be absent: none is out of range, `some none` is absent (R187). -/
def orAbsent {α : Type} (byte : Nat) (present : Option α) : Option (Option α) :=
  if byte = 255 then some none else present.map some

/-! ## The DEFINE argument words -/

/-- The k-th argument word, counted from 1 as the layout does. -/
def argWord (ws : List Word) (k : Nat) : Word := ws.getD (k - 1) 0

def flagOpOf (n : Nat) : Option FlagOp :=
  match n with
  | 0 => some .set
  | 1 => some .clear
  | 2 => some .toggle
  | _ => none

def conditionOf (n : Nat) : Option Condition :=
  match n with
  | 0 => some .level0
  | 1 => some .level1
  | 2 => some .rise
  | 3 => some .fall
  | _ => none

def notifyOf (n : Nat) : NotifyPolicy :=
  match n with
  | 0 => .none
  | 1 => .exceptions
  | 2 => .done
  | _ => .each

/-- A slot byte other than the slot being defined (R24). -/
def otherSlot (self : SlotId) (byte : Nat) : Option SlotId :=
  (slotOf byte).bind fun i => if i = self then none else some i

/-- The wait spec of words 1, 10, 11, 12 and 13. A deadline offset of 0 means no deadline (section 2.1, note 2). -/
def parseWait (self : SlotId) (ws : List Word) : Option WaitSpec := do
  let flag ← flagOf (bits (argWord ws 10) 7 0)
  let condition ← conditionOf (bits (argWord ws 1) 14 12)
  let offset : BitVec 24 := (argWord ws 10).extractLsb' 8 8 ++ argWord ws 11
  let follow ← orAbsent (bits (argWord ws 13) 7 0) (otherSlot self (bits (argWord ws 13) 7 0))
  let timeout ← orAbsent (bits (argWord ws 13) 15 8) (otherSlot self (bits (argWord ws 13) 15 8))
  return { flag := flag
           condition := condition
           deadlineOffset := if offset = 0 then none else some offset
           follow := follow.map fun i => ⟨i, argWord ws 12⟩
           timeout := timeout }

/-- The kind with its target and operand: words 1, 10 and 11, and those of the wait spec (R24, R187). -/
def parseAction (self : SlotId) (ws : List Word) : Option Action :=
  let target := bits (argWord ws 10) 7 0
  let operand := argWord ws 11
  match bits (argWord ws 1) 3 0 with
  | 0 => do return .drive (← lineOf target) (← levelOf operand.toNat)
  | 1 => do return .toggle (← lineOf target)
  | 2 => if operand = 0 then none else do return .pulse (← lineOf target) operand
  | 3 => if target < 16 then none else do return .flag (← flagOf target) (← flagOpOf (bits operand 1 0))
  | 4 => do return .arm (← slotOf target) operand
  | 5 => do return .cancel (← slotOf target)
  | 6 => do return .wait (← parseWait self ws)
  | 7 => some .mark
  | _ => none

/-- The due spec of words 1, 3 and 4; a RELATIVE offset is at most 2^30 (R24). -/
def parseDue (ws : List Word) : Option DueSpec :=
  let value := timeOfHalves (argWord ws 3) (argWord ws 4)
  if bits (argWord ws 1) 4 4 = 0 then some (.absolute value)
  else if Config.armHorizon < value.toNat then none
  else some (.relative value)

/-- The guard of words 1 and 2; a flag byte of 255 makes it absent and its level is not examined (R187). -/
def parseGuard (ws : List Word) : Option (Option Guard) :=
  orAbsent (bits (argWord ws 2) 7 0) do
    return { flag := ← flagOf (bits (argWord ws 2) 7 0), level := ← levelOf (bits (argWord ws 1) 11 10) }

def Action.isWait : Action → Bool
  | .wait _ => true
  | .drive _ _ => false
  | .toggle _ => false
  | .pulse _ _ => false
  | .flag _ _ => false
  | .arm _ _ => false
  | .cancel _ => false
  | .mark => false

/-- What R24 refuses of the recurrence fields: interval B or a repeat count above 1 without interval A, and a WAIT that recurs. -/
def recurrenceAllowed (isWait : Bool) (a b : BitVec 24) (repeatCount : Word) : Bool :=
  if a = 0 then b == 0 && decide (repeatCount.toNat ≤ 1) else !isWait

/-- The definition the thirteen words carry for a slot, or none where validation refuses it with BAD_ARG (R24, R187). -/
def parseDefinition (self : SlotId) (ws : List Word) : Option Definition := do
  let action ← parseAction self ws
  let due ← parseDue ws
  let guard ← parseGuard ws
  let a : BitVec 24 := (argWord ws 7).extractLsb' 0 8 ++ argWord ws 5
  let b : BitVec 24 := (argWord ws 7).extractLsb' 8 8 ++ argWord ws 6
  if recurrenceAllowed action.isWait a b (argWord ws 8) then
    return { action := action
             due := due
             guard := guard
             intervalA := a
             intervalB := b
             repeatCount := argWord ws 8
             lateLimit := argWord ws 9
             latePolicy := if bits (argWord ws 1) 5 5 = 0 then .fireLate else .skip
             missPolicy := if bits (argWord ws 1) 6 6 = 0 then .catchUp else .drop
             pastPolicy := if bits (argWord ws 1) 7 7 = 0 then .reject else .fire
             notify := notifyOf (bits (argWord ws 1) 9 8)
             tag := (argWord ws 2).extractLsb' 8 8 }
  else none

/-! ## Other argument words -/

/-- The prescaler word: 0 carries 65,536, and 1 to 255 are out of range (R9). -/
def prescalerOf (w : Word) : Option Nat :=
  if w = 0 then some 65536 else if w.toNat < 256 then none else some w.toNat

def tickSourceOf (w : Word) : Option TickSource :=
  match w.toNat with
  | 0 => some .internal
  | 1 => some .external
  | _ => none

def safePolicyOf (w : Word) : Option SafePolicy :=
  match w.toNat with
  | 0 => some .continue_
  | 1 => some .freeze
  | _ => none

def edgeSelectionOf (n : Nat) : EdgeSelection :=
  match n with
  | 0 => .none
  | 1 => .rise
  | 2 => .fall
  | _ => .both

/-! ## QUERY and result words -/

/-- The code of a slot state in QUERY (11.4). FIRING is never reported (R38): 3 is the code the table leaves out. -/
def SlotState.code : SlotState → Nat
  | .free => 0
  | .held => 1
  | .armed => 2
  | .firing => 3
  | .waiting => 4
  | .done => 5

/-- The code of a kind (11.3). -/
def Action.code : Action → Nat
  | .drive _ _ => 0
  | .toggle _ => 1
  | .pulse _ _ => 2
  | .flag _ _ => 3
  | .arm _ _ => 4
  | .cancel _ => 5
  | .wait _ => 6
  | .mark => 7

/-- QUERY data word 1: state, kind, and the marks that current due and remaining are present (R38, 11.4). -/
def Slot.queryHead (sl : Slot) : Word :=
  BitVec.ofNat 16 (sl.state.code
    + 16 * (match sl.defn with | some d => d.action.code | none => 0)
    + (if sl.due.isSome then 256 else 0)
    + (if sl.remaining.isSome then 512 else 0))

/-- The eight data words of QUERY (R38). -/
def Slot.queryWords (sl : Slot) : List Word :=
  [sl.queryHead, BitVec.ofNat 16 (sl.remaining.getD 0), BitVec.ofNat 16 sl.taken, BitVec.ofNat 16 sl.misses,
    lowHalf (sl.due.getD 0), highHalf (sl.due.getD 0),
    lowHalf (BitVec.ofNat 32 sl.lastLateness), highHalf (BitVec.ofNat 32 sl.lastLateness)]

/-- The words of a result record: code and operand, status and data count, then the data (R172, 11.4). -/
def ResultRecord.words (r : ResultRecord) : List Word :=
  (r.code ++ r.operand) :: BitVec.ofNat 16 (r.status.code + 256 * r.data.length) :: r.data

end Sys2Proof.Machine
end

