-- ==== Sys2Proof/WellFormed.lean ====
section
/-! DEFINITION. Which commands are steps of the device. -/

namespace Sys2Proof

/-- The access is one that R184 answers with ERROR.BAD_ADDRESS whatever the state:
any access to Fh, and a write to STATUS, RESULT, NOTE, NOTE_COUNT, TIME_LO, TIME_HI, LINE_LEVELS, INPUT_LEVELS or IDENT. -/
def BusAccess.isBad : BusAccess → Bool
  | .read a => a == 0xF
  | .write a _ =>
    a == 0x0 || a == 0x5 || a == 0x6 || a == 0x7 || a == 0x8 || a == 0x9 || a == 0xC || a == 0xD || a == 0xE || a == 0xF

/-- A COMMAND_WRITE carries a code other than CLEAR_STAGE (R167), a BAD_ADDRESS an access that R184 calls bad.
Every other command is well formed with any operand. -/
def Instr.wellFormed : Instr → Bool
  | .commandWrite w => w.extractLsb' 8 8 != Config.clearStageCode
  | .badAddress a => a.isBad
  | .hardReset | .powerOn | .tick _ _ _ _ | .tickEdge _ _ _ _ _ | .inputAccept | .safeAsserted _ _ _ | .safeReleased _ _ _
  | .handoff _ | .driveEffect _ | .toggleEffect _ | .pulseEffect _ | .pulseEnd _ | .flagEffect _ | .insert _ _ | .reinsertion
  | .remove _ _ | .move _ | .clear _ | .waitPlacement | .matched | .timeout | .withdrawal _ _ | .news _ | .holdoff
  | .stageWrite _ | .resultRead | .noteRead | .timeLoRead | .flagValueWrite _ | .flagSelectWrite _ | .intEnableWrite _
  | .errorWrite _ | .clearStage _ | .nop _ | .badCode _ | .define _ | .defineArm _ | .arm _ | .cancel _ | .retime _
  | .release _ | .query _ | .setTime _ | .runTime _ | .holdTime _ | .setTick _ | .setLine _ | .configLine _ | .configInput _
  | .configNotify _ | .configSafe _ | .forceSafe _ | .resume _ | .resetSchedule _ | .resetDevice _ | .resetReleased => true

end Sys2Proof
end

