-- ==== Sys2Proof/Machine/BusWindow.lean ====
section
/-! DEFINITION. The bus window (10, 11): staging, COMMAND, RESULT, the ERROR register, INT, and the reads without a side
effect. -/

namespace Sys2Proof.Machine

/-! ## Staging and COMMAND -/

/-- A STAGE write appends a word, or sets STAGE_OVERFLOW when the list holds 16 (R165). -/
def State.stageWrite (s : State) (w : Word) : State :=
  if s.window.staging.length < Config.stageCapacity then
    s.setWindow { s.window with staging := s.window.staging ++ [w] }
  else s.raise .stageOverflow

/-- CLEAR_STAGE empties the staging list in the access itself (R166). -/
def State.clearStage (s : State) : State := s.setWindow { s.window with staging := [] }

/-- Commands accepted and not yet completed (R169). -/
def State.commandsPending (s : State) : Nat :=
  s.commandUnit.fifo.length + (if s.commandUnit.executing.isSome then 1 else 0)

/-- The budget in use: commands waiting, the one executing, and result records not fully read (R167). -/
def State.budgetUsed (s : State) : Nat := s.commandsPending + s.commandUnit.results.length

/-- A COMMAND write is accepted with the staging list, or refused with the list kept (R167, R168). -/
def State.issueCommand (s : State) (code operand : Byte) : State :=
  if s.budgetUsed < Config.commandBudget then
    (s.setCommands { s.commandUnit with
      fifo := s.commandUnit.fifo ++ [⟨code, operand, s.window.staging⟩] }).clearStage
  else s.raise .cmdRefused

/-- A write to COMMAND: the code in bits 15 to 8, the operand byte in bits 7 to 0 (11.3). A word with the code of CLEAR_STAGE
acts as R166 gives. -/
def State.commandWrite (s : State) (w : Word) : State :=
  if w.extractLsb' 8 8 = Config.clearStageCode then s.clearStage
  else s.issueCommand (w.extractLsb' 8 8) (w.extractLsb' 0 8)

/-! ## RESULT -/

/-- A read of RESULT: the word the cursor selects; the last word removes the record (R173, R174). -/
def State.resultRead (s : State) : State :=
  match s.commandUnit.results with
  | [] => (s.raise .resultEmptyRead).returnWord 0
  | r :: rest =>
    if s.window.resultCursor + 1 < r.words.length then
      (s.setWindow { s.window with resultCursor := s.window.resultCursor + 1 }).returnWord
        (r.words.getD s.window.resultCursor 0)
    else
      ((s.setWindow { s.window with resultCursor := 0 }).setCommands { s.commandUnit with results := rest }).returnWord
        (r.words.getD s.window.resultCursor 0)

/-! ## Time, ERROR, INT_ENABLE, bad addresses -/

/-- A read of TIME_LO returns the low half and loads the TIME_HI latch (R13). -/
def State.timeLoRead (s : State) : State :=
  (s.setWindow { s.window with timeHi := highHalf s.now }).returnWord (lowHalf s.now)

/-- A write to ERROR clears the bits written as 1 (R181). -/
def State.errorWrite (s : State) (w : Word) : State :=
  s.setWindow { s.window with error := s.window.error &&& ~~~(w.extractLsb' 0 6) }

/-- A write to INT_ENABLE replaces the set (R152). -/
def State.intEnableWrite (s : State) (w : Word) : State :=
  s.setWindow { s.window with intEnable := w.extractLsb' 0 3 }

/-- An access that R184 calls bad changes nothing but ERROR.BAD_ADDRESS; a read of Fh returns 0. -/
def State.badAccess (s : State) (a : BusAccess) : State :=
  if a.isBad then
    match a with
    | .read _ => (s.raise .badAddress).returnWord 0
    | .write _ _ => s.raise .badAddress
  else s

/-! ## INT and the reads without a side effect -/

/-- INT is asserted while an enabled cause is on: NOTE, RESULT, ERROR (R151). -/
def State.intAsserted (s : State) : Bool :=
  (s.noteQueue.attention && s.window.intEnable.getLsbD 0)
    || (!s.commandUnit.results.isEmpty && s.window.intEnable.getLsbD 1)
    || (s.window.error != 0 && s.window.intEnable.getLsbD 2)

/-- STATUS, bit 0 first (R185, 11.2). -/
def State.statusWord (s : State) : Word :=
  wordOfLevels
    [s.safeController.state == .safe, s.safeController.asserted, s.safeController.policy == .freeze,
      s.timebase.desired == .run, s.timebase.freeze, s.timebase.running, s.commandUnit.executing.isSome,
      s.noteQueue.attention, s.timebase.source == .external, s.intAsserted]

/-- The word a read of a register returns while RESET# is released, for every address of the window (11.1). -/
def State.registerWord (s : State) (addr : BitVec 4) : Word :=
  match addr.toNat with
  | 0x0 => s.statusWord
  | 0x1 => s.window.error.setWidth 16
  | 0x2 => s.window.intEnable.setWidth 16
  | 0x3 => BitVec.ofNat 16 s.window.staging.length
  | 0x4 => BitVec.ofNat 16 (s.commandsPending + 256 * s.commandUnit.results.length)
  | 0x5 =>
    match s.commandUnit.results with
    | [] => 0
    | r :: _ => r.words.getD s.window.resultCursor 0
  | 0x6 => s.noteRead.pins.readWord
  | 0x7 => BitVec.ofNat 16 (s.noteQueue.records.length + 256 * s.window.noteCursor)
  | 0x8 => lowHalf s.now
  | 0x9 => s.window.timeHi
  | 0xA => s.window.flagSelect.setWidth 16
  | 0xB => s.groupWord s.window.flagSelect
  | 0xC => wordOfLevels (s.lineUnit.lines.toList.map Line.driven)
  | 0xD => wordOfLevels (s.inputUnit.inputs.toList.map Input.raw)
  | 0xE => Config.ident
  | _ => 0

/-- The word a read access returns: 0 while RESET# is asserted (R164). -/
def readRegister (addr : BitVec 4) (s : State) : Word :=
  if s.pins.resetHeld then 0 else s.registerWord addr

/-! ## Meanings -/

/-- STAGE_WRITE (R165). -/
def execStageWrite (data : Word) (s : State) : Result := .next (s.unlessHeld fun s => s.stageWrite data)

/-- COMMAND_WRITE (R167). -/
def execCommandWrite (data : Word) (s : State) : Result := .next (s.unlessHeld fun s => s.commandWrite data)

/-- CLEAR_STAGE; the low byte is not examined (R166). -/
def execClearStage (_operand : Byte) (s : State) : Result := .next (s.unlessHeld State.clearStage)

/-- RESULT_READ (R173). -/
def execResultRead (s : State) : Result := .next (s.readUnlessHeld State.resultRead)

/-- TIME_LO_READ (R13). -/
def execTimeLoRead (s : State) : Result := .next (s.readUnlessHeld State.timeLoRead)

/-- ERROR_WRITE (R181). -/
def execErrorWrite (data : Word) (s : State) : Result := .next (s.unlessHeld fun s => s.errorWrite data)

/-- INT_ENABLE_WRITE (R152). -/
def execIntEnableWrite (data : Word) (s : State) : Result := .next (s.unlessHeld fun s => s.intEnableWrite data)

/-- BAD_ADDRESS (R184). -/
def execBadAddress (access : BusAccess) (s : State) : Result :=
  match access with
  | .read _ => .next (s.readUnlessHeld fun s => s.badAccess access)
  | .write _ _ => .next (s.unlessHeld fun s => s.badAccess access)

end Sys2Proof.Machine
end

