-- ==== Sys2Proof/Machine/Wait.lean ====
section
/-! DEFINITION. The wait list (07): matching, deadlines, withdrawal, the arms of ended waits. -/

namespace Sys2Proof.Machine

/-- A level condition already met by the wait flag's value. An edge condition never is (R126, test 1). -/
def Condition.metAtEntry (c : Condition) (v : Bool) : Bool :=
  match c with
  | .level0 => !v
  | .level1 => v
  | .rise => false
  | .fall => false

/-- A change to `v` meets the condition (R128). -/
def Condition.metByChange (c : Condition) (v : Bool) : Bool :=
  match c with
  | .level1 => v
  | .rise => v
  | .level0 => !v
  | .fall => !v

/-- The entry's deadline is reached at `now` (R129). -/
def WaitEntry.expired (e : WaitEntry) (now : Time) : Bool :=
  match e.deadline with
  | some d => reached d now
  | none => false

/-- The event meets the entry (R128). -/
def WaitEntry.metBy (e : WaitEntry) (v : FlagEvent) : Bool :=
  e.flag == v.flag && e.condition.metByChange v.value

/-- The device time at which the wait list takes a flag-change event. While an entry's deadline is reached and not yet expired,
the wait list has not taken the last advance, so the time is the one before it (R128, R130; Log 8). -/
def State.waitTime (s : State) : Time :=
  if s.waitList.entries.any (·.expired s.now) then s.now - 1 else s.now

/-- A slot whose wait has ended, with its counters and phase kept (R40). -/
def Slot.finished (sl : Slot) : Slot := { sl with state := .done, due := none }

/-- A slot taken out of the schedule by a cancel or RESET_SCHEDULE, its counters and phase kept (R33, R41). -/
def Slot.takenOut (sl : Slot) : Slot := { sl with state := .held, due := none }

/-- The follow arm of a wait that matched at `time` (R127, R128). -/
def followArm (f : Option Follow) (time : Time) (waiting : SlotId) : List PendingArm :=
  match f with
  | some f => [⟨f.slot, time + f.offset.setWidth 32, time, waiting⟩]
  | none => []

/-- The timeout arm of a wait that timed out at `time`, which is its due (R127, R129). -/
def timeoutArm (t : Option SlotId) (time : Time) (waiting : SlotId) : List PendingArm :=
  match t with
  | some t => [⟨t, time, time, waiting⟩]
  | none => []

/-- A wait ends: the slot becomes DONE, its news is sent and its arm joins the pending list (R40, R127 to R129). -/
def State.endWait (s : State) (i : SlotId) (kind : Kind) (time : Time) (arms : List PendingArm) : State :=
  ((s.setSlot i (s.slot i).finished).send (.slot i) kind time).setArms (s.waitList.arms ++ arms)

def State.endMatched (time : Time) (s : State) (e : WaitEntry) : State :=
  s.endWait e.slot .matched time (followArm e.follow time e.slot)

/-- The expiry time is the deadline (R129, R134). -/
def State.endExpired (s : State) (e : WaitEntry) : State :=
  s.endWait e.slot .timeout (e.deadline.getD s.now) (timeoutArm e.timeout (e.deadline.getD s.now) e.slot)

/-- The wait list takes the oldest flag-change event and ends every entry it meets, in entry order (R128). -/
def State.takeFlagEvent (s : State) : State :=
  match s.flagBank.events with
  | [] => s
  | v :: rest =>
    let ended := s.waitList.entries.filter (·.metBy v)
    let kept := s.waitList.entries.filter fun e => !e.metBy v
    ended.foldl (State.endMatched s.waitTime)
      (State.setWaitEntries { s with flagBank := { s.flagBank with events := rest } } kept)

/-- The wait list takes the advance and ends every entry whose deadline is reached, in entry order (R129). -/
def State.expireDeadlines (s : State) : State :=
  let ended := s.waitList.entries.filter (·.expired s.now)
  let kept := s.waitList.entries.filter fun e => !e.expired s.now
  ended.foldl State.endExpired (s.setWaitEntries kept)

/-- The wait list takes every flag-change event in flight, oldest first. -/
def State.takeFlagEvents (s : State) : State :=
  s.flagBank.events.foldl (fun s _ => s.takeFlagEvent) s

/-- A WAITING slot's entry is removed and the slot becomes HELD; nothing is armed and the wait list sends no news (R133). -/
def State.withdraw (s : State) (i : SlotId) : State :=
  (s.setWaitEntries (s.waitList.entries.filter (·.slot != i))).setSlot i (s.slot i).takenOut

/-- MATCHED (R128). -/
def execMatched (s : State) : Result := .next (s.unlessHeld State.takeFlagEvent)

/-- TIMEOUT (R129). -/
def execTimeout (s : State) : Result := .next (s.unlessHeld State.expireDeadlines)

end Sys2Proof.Machine
end

