-- ==== Sys2Proof/Machine/Due.lean ====
section
/-! DEFINITION. The due queue (03): order, arm-time checks, requests and the arbiter. -/

namespace Sys2Proof.Machine

/-! ## Order -/

/-- An entry is placed after every entry whose due is not later and before the first whose due is later (R44). -/
def insertEntry (e : DueEntry) : List DueEntry → List DueEntry
  | [] => [e]
  | x :: xs => if earlier e.due x.due then e :: x :: xs else x :: insertEntry e xs

def removeEntry (i : SlotId) (es : List DueEntry) : List DueEntry := es.filter (·.slot != i)

/-! ## Arm-time checks -/

inductive ArmCheck where
  | placed (due : Time)
  | tooFar
  | past
  deriving DecidableEq, Repr

/-- The classification of a due against the reference time `r` (R52), with the stale floor of R53. -/
def armCheck (due r : Time) (p : PastPolicy) : ArmCheck :=
  if distance due r ≤ Config.armHorizon then .placed due
  else if distance due r < Config.halfRange then .tooFar
  else match p with
    | .reject => .past
    | .fire => if Config.staleBound ≤ lateBy due r then .placed (r - BitVec.ofNat 32 Config.staleBound) else .placed due

/-- The occurrences one arm allows: the repeat count, absent for an unbounded slot (R18, R29). -/
def Definition.allowance (d : Definition) : Option Nat :=
  if d.repeatCount = 0 then none else some d.repeatCount.toNat

/-- The arm values of section 2.2 (R29). -/
def Slot.armedAt (sl : Slot) (due : Time) : Slot :=
  { sl with
    state := .armed
    due := some due
    phase := .a
    remaining := sl.definition.allowance
    taken := 0
    misses := 0
    lastLateness := 0 }

/-- The entry is placed and the slot becomes ARMED in the same step (R20, R29). -/
def State.placeArm (s : State) (i : SlotId) (due : Time) : State :=
  (s.setEntries (insertEntry ⟨i, due⟩ s.dueQueue.entries)).setSlot i ((s.slot i).armedAt due)

inductive ArmOutcome where
  | placed
  | badState
  | tooFar
  | past
  deriving DecidableEq, Repr

/-- An INSERT made for an arm: state check, arm-time checks, placement (R28, R30, R52). -/
def State.insertArm (s : State) (i : SlotId) (due r : Time) : ArmOutcome × State :=
  match (s.slot i).state with
  | .held | .done =>
    match armCheck due r (s.slot i).definition.pastPolicy with
    | .placed d => (.placed, s.placeArm i d)
    | .tooFar => (.tooFar, s.setSlot i { s.slot i with state := .held })
    | .past => (.past, s.setSlot i { s.slot i with state := .held })
  | .free | .armed | .firing | .waiting => (.badState, s)

/-- The status the host gets for an arm's outcome (R54). -/
def ArmOutcome.status : ArmOutcome → Status
  | .placed => .ok
  | .badState => .badState
  | .tooFar => .tooFar
  | .past => .past

/-- The due a host arm forms at the present time (R15). -/
def DueSpec.form (d : DueSpec) (now : Time) : Time :=
  match d with
  | .absolute t => t
  | .relative offset => now + offset

/-- The due of ARM, from its argument words or from the stored due spec (R15, R31). -/
def State.hostDue (s : State) (i : SlotId) (given : Option Time) : Time :=
  match given with
  | some t => t
  | none => (s.slot i).definition.due.form s.now

/-! ## Removal and retiming -/

/-- An ARMED slot's entry is taken out and the slot becomes HELD (R55). -/
def State.takeOut (s : State) (i : SlotId) : State :=
  (s.setEntries (removeEntry i s.dueQueue.entries)).setSlot i (s.slot i).takenOut

/-- A MOVE of an ARMED slot: checks, then the entry is replaced and the current due with it. A refused MOVE changes nothing
(R36, R56). -/
def State.moveEntry (s : State) (i : SlotId) (due : Time) : ArmOutcome × State :=
  if (s.slot i).state = .armed then
    match armCheck due s.now (s.slot i).definition.pastPolicy with
    | .placed d =>
      (.placed, (s.setEntries (insertEntry ⟨i, d⟩ (removeEntry i s.dueQueue.entries))).setSlot i
        { s.slot i with due := some d })
    | .tooFar => (.tooFar, s)
    | .past => (.past, s)
  else (.badState, s)

/-- A slot under CLEAR: HELD if it was ARMED or WAITING, else unchanged (R41). -/
def Slot.swept (sl : Slot) : Slot :=
  if sl.state = .armed ∨ sl.state = .waiting then sl.takenOut else sl

/-- CLEAR empties the due queue and the wait list in one step; pending arms are kept and the mark is clear (R41, R60, R136). -/
def State.sweep (s : State) : State :=
  { ((s.setEntries []).setWaitEntries []).setPassedOver false with slots := s.slots.map Slot.swept }

/-! ## Requests and the arbiter -/

/-- The command unit's request at the due queue (R46). -/
inductive CommandRequest where
  | insert (slot : SlotId) (given : Option Time)
  | remove (slot : SlotId)
  | move (slot : SlotId) (due : Time)
  | clear
  deriving DecidableEq, Repr

/-- The request the executing command presents. A command whose slot is FIRING is held and presents none; RESET_SCHEDULE
presents CLEAR while the firing unit is idle. A presented REMOVE stands until the queue takes it, whatever the slot's state by
then (R22, R46, R50, R55, R60; Log 13). -/
def State.commandRequest (s : State) : Option (Command × CommandRequest) :=
  match s.commandUnit.executing with
  | none => none
  | some x =>
    match x.work with
    | .arm i given => if (s.slot i).state = .firing then none else some (x.command, .insert i given)
    | .retime i due => if (s.slot i).state = .firing then none else some (x.command, .move i due)
    | .remove i => if (s.slot i).state = .firing then none else some (x.command, .remove i)
    | .clear => if s.firing.isNone then some (x.command, .clear) else none
    | .taken => none
    | .define _ => none
    | .cancel _ => none
    | .withdraw _ => none
    | .release _ => none
    | .query _ => none
    | .setTime _ => none

/-- The wait list presents its oldest pending arm, but holds it back while the target is FIRING (R131). -/
def State.waitRequest (s : State) : Option PendingArm :=
  match s.waitList.arms with
  | [] => none
  | a :: _ => if (s.slot a.target).state = .firing then none else some a

/-- The firing unit's request, if it is one for the due queue (R46). -/
def State.firingRequest (s : State) : Option (Occurrence × Request) :=
  match s.firing with
  | none => none
  | some o =>
    match o.request with
    | some (.insert t d) => some (o, .insert t d)
    | some (.remove t) => some (o, .remove t)
    | some (.reinsert d) => some (o, .reinsert d)
    | _ => none

/-- The head of the queue, if it is reached and the firing unit is idle (R48). -/
def State.releaseReady (s : State) : Option DueEntry :=
  match s.firing, s.dueQueue.entries with
  | none, e :: _ => if reached e.due s.now then some e else none
  | _, _ => none

/-- What the arbiter can grant (R47). -/
inductive Grant where
  | firing (o : Occurrence) (r : Request)
  | release (e : DueEntry)
  | waitArm (a : PendingArm)
  | command (c : Command) (r : CommandRequest)
  deriving DecidableEq, Repr

/-- The wait list's request `w` if one waits, otherwise the command unit's (R47). -/
def State.waitOrCommand (s : State) (w : Option PendingArm) : Option Grant :=
  match w with
  | some a => some (.waitArm a)
  | none => s.commandRequest.map fun (c, r) => .command c r

/-- A request of the wait list or the command unit is waiting (R47). -/
def State.othersWait (s : State) : Bool := (s.waitOrCommand s.waitRequest).isSome

/-- What the due queue grants when it has no operation in flight, the firing unit presents `f` and the wait list `w` (R47). -/
def State.grantAmong (s : State) (f : Option (Occurrence × Request)) (w : Option PendingArm) : Option Grant :=
  if s.dueQueue.inFlight.isSome then none
  else match f with
    | some (o, r) => some (.firing o r)
    | none =>
      match s.releaseReady with
      | some e =>
        if (s.waitOrCommand w).isSome && s.dueQueue.passedOver then s.waitOrCommand w else some (.release e)
      | none => s.waitOrCommand w

/-- What the due queue grants (R47). -/
def State.grant (s : State) : Option Grant := s.grantAmong s.firingRequest s.waitRequest

/-- What an operation of the due queue has been granted to. A request of the firing unit that was not yet presented at the grant
waits for the end of the operation (R46, R55; Log 31). -/
def State.grantAt (s : State) (asked : RequestPresence) : Option Grant :=
  match asked with
  | .presented => s.grant
  | .notYet => s.grantAmong none s.waitRequest

/-- The wait list's request as a CLEAR finds it: an arm not yet presented waits for the end of the CLEAR (R60, R136; Log 31). -/
def State.waitRequestAtClear (s : State) (p : RequestPresence) : Option PendingArm :=
  match p with
  | .presented => s.waitRequest
  | .notYet => none

/-- MOVE: the arbiter has granted RETIME's request (R36, R56). -/
def State.moveStep (s : State) (asked : RequestPresence) : State :=
  match s.grantAt asked with
  | some (.command c (.move i due)) =>
    ((s.setPassedOver false).moveEntry i due).2.complete c ((s.setPassedOver false).moveEntry i due).1.status []
  | _ => s

/-- CLEAR: the arbiter has granted RESET_SCHEDULE's request (R41, R60, R136, R177). -/
def State.clearStep (s : State) (p : RequestPresence) : State :=
  match s.grantAmong s.firingRequest (s.waitRequestAtClear p) with
  | some (.command c .clear) => s.sweep.complete c .ok []
  | _ => s

/-- MOVE (R56). -/
def execMove (s : State) (asked : RequestPresence := .presented) : Result :=
  .next (s.unlessHeld fun s => s.moveStep asked)

/-- CLEAR (R60). -/
def execClear (s : State) (arms : RequestPresence := .presented) : Result :=
  .next (s.unlessHeld fun s => s.clearStep arms)

end Sys2Proof.Machine
end

