-- ==== Sys2Proof/Machine/Commands.lean ====
section
/-! DEFINITION. How the command unit executes a command (10, section 10.4), and the commands on slots (02, sections 2.4 to 2.7).
A command's row takes the oldest command out of the FIFO when the command unit is IDLE and that command is of the row's kind.
In that row or in a later one it gives the command to the owner of what it works on. The same row takes a held claim up again once
its slot is no longer FIRING (R22, R170; Log 13, Log 30). -/

namespace Sys2Proof.Machine

/-- One row of the command unit on the commands that `mine` holds of: `start` for one to give to its owner, `resume` for one that
waits. The command unit becomes EXECUTING as it takes the oldest command, and the row ends there or gives it to the owner (R170;
Log 30). -/
def State.takeCommand (s : State) (mine : Command → Bool) (reach : CommandReach) (start : Command → State → State)
    (resume : Executing → State → State) : State :=
  match s.commandUnit.executing with
  | some x => if mine x.command then (if x.work = .taken then start x.command s else resume x s) else s
  | none =>
    match s.commandUnit.fifo with
    | [] => s
    | c :: rest =>
      if mine c then
        let t := s.setCommands { s.commandUnit with fifo := rest }
        match reach with
        | .owner => start c t
        | .unit => t.waitFor c .taken
      else s

/-- A row of the command unit on a command of kind `op`. -/
def State.runCommand (s : State) (op : Opcode) (reach : CommandReach) (start : Command → State → State)
    (resume : Executing → State → State) : State :=
  s.takeCommand (Opcode.ofCode ·.code = some op) reach start resume

/-- A command that never waits is never taken up again: there is nothing to do. -/
def noResume (_ : Executing) (s : State) : State := s

/-- The argument count and the slot number, the first two checks of a command on a slot (R21). -/
def Command.onSlot (c : Command) (counts : List Nat) (s : State) (k : SlotId → State) : State :=
  if c.args.length ∈ counts then
    match slotOf c.operand.toNat with
    | some i => k i
    | none => s.complete c .badSlot []
  else s.complete c .argCount []

/-! ## DEFINE and DEFINE_ARM -/

/-- The "After DEFINE" values of section 2.2 (R26). -/
def Slot.defined (d : Definition) : Slot where
  state := .held
  defn := some d
  due := none
  phase := .a
  remaining := d.allowance
  taken := 0
  misses := 0
  lastLateness := 0

/-- Orders 4 to 6 of R21 for DEFINE and DEFINE_ARM, then the definition is written (R24, R25, R26). -/
def State.defineSlot (s : State) (c : Command) (i : SlotId) (k : State → State) : State :=
  match (s.slot i).state with
  | .free | .held | .done =>
    if s.hasRecord i then s.complete c .notePending []
    else match parseDefinition i c.args with
      | none => s.complete c .badArg []
      | some d => k (s.setSlot i (Slot.defined d))
  | .armed | .firing | .waiting => s.complete c .badState []

/-- A claim on a slot: held while the slot is FIRING, else taken (R21, R22). -/
def State.claim (s : State) (c : Command) (i : SlotId) (w : Work) (k : State → State) : State :=
  if (s.slot i).state = .firing then s.waitFor c w else k s

def State.takeDefine (s : State) (c : Command) (i : SlotId) : State :=
  s.claim c i (.define i) fun s => s.defineSlot c i fun s => s.complete c .ok []

/-- The arm part's insert is presented to the due queue once the definition is written (R27, R28). -/
def State.takeDefineArm (s : State) (c : Command) (i : SlotId) : State :=
  s.claim c i (.define i) fun s => s.defineSlot c i fun s => s.waitFor c (.arm i none)

def resumeDefine (x : Executing) (s : State) : State :=
  match x.work with
  | .define i => s.takeDefine x.command i
  | _ => s

def resumeDefineArm (x : Executing) (s : State) : State :=
  match x.work with
  | .define i => s.takeDefineArm x.command i
  | _ => s

/-! ## ARM and RETIME -/

/-- The 32-bit time of two argument words, low half first. -/
def givenTime (args : List Word) : Option Time :=
  match args with
  | [low, high] => some (timeOfHalves low high)
  | _ => none

/-- ARM presents its insert to the due queue, where the state and the due are judged (R21 note 1, R28, R31). -/
def startArm (c : Command) (s : State) : State :=
  c.onSlot [0, 2] s fun i => s.waitFor c (.arm i (givenTime c.args))

/-- RETIME presents its move to the due queue, where the state and the due are judged (R36, R56). -/
def startRetime (c : Command) (s : State) : State :=
  c.onSlot [2] s fun i => s.waitFor c (.retime i ((givenTime c.args).getD 0))

/-! ## CANCEL -/

/-- CANCEL is judged against the slot's state: BAD_STATE unless the slot is ARMED, WAITING or FIRING. It then waits for the due
queue, for the wait list, or for the occurrence to end (R33). -/
def State.judgeCancel (s : State) (c : Command) (i : SlotId) : State :=
  match (s.slot i).state with
  | .armed => s.waitFor c (.remove i)
  | .waiting => s.waitFor c (.withdraw i)
  | .firing => s.waitFor c (.cancel i)
  | .free | .held | .done => s.complete c .badState []

def startCancel (c : Command) (s : State) : State := c.onSlot [0] s fun i => s.judgeCancel c i

def resumeCancel (x : Executing) (s : State) : State :=
  match x.work with
  | .cancel i => s.judgeCancel x.command i
  | _ => s

/-! ## RELEASE and QUERY -/

def State.takeRelease (s : State) (c : Command) (i : SlotId) : State :=
  s.claim c i (.release i) fun s =>
    match (s.slot i).state with
    | .held | .done => (s.setSlot i Slot.unused).complete c .ok []
    | .free | .armed | .firing | .waiting => s.complete c .badState []

def resumeRelease (x : Executing) (s : State) : State :=
  match x.work with
  | .release i => s.takeRelease x.command i
  | _ => s

def State.takeQuery (s : State) (c : Command) (i : SlotId) : State :=
  s.claim c i (.query i) fun s => s.complete c .ok (s.slot i).queryWords

def resumeQuery (x : Executing) (s : State) : State :=
  match x.work with
  | .query i => s.takeQuery x.command i
  | _ => s

/-! ## RESET_SCHEDULE -/

/-- RESET_SCHEDULE presents CLEAR to the due queue (R41, R177). -/
def startResetSchedule (c : Command) (s : State) : State :=
  match c.args with
  | [] => s.waitFor c .clear
  | _ :: _ => s.complete c .argCount []

/-! ## NOP and codes that name no command -/

/-- A command with no argument words that changes nothing else. -/
def startNop (c : Command) (s : State) : State :=
  match c.args with
  | [] => s.complete c .ok []
  | _ :: _ => s.complete c .argCount []

/-- A code that names no command is answered with BAD_CODE (R171). -/
def State.badCodeStep (s : State) (reach : CommandReach) : State :=
  s.takeCommand (Opcode.ofCode ·.code = none) reach (fun c s => s.complete c .badCode []) noResume

/-! ## Meanings -/

/-- NOP (R176). -/
def execNop (s : State) (reach : CommandReach := .owner) : Result :=
  .next (s.unlessHeld fun s => s.runCommand .nop reach startNop noResume)

/-- BAD_CODE (R171). -/
def execBadCode (s : State) (reach : CommandReach := .owner) : Result := .next (s.unlessHeld fun s => s.badCodeStep reach)

/-- DEFINE (R26). -/
def execDefine (s : State) (reach : CommandReach := .owner) : Result :=
  .next (s.unlessHeld fun s =>
    s.runCommand .define reach (fun c s => c.onSlot [Config.defineWords] s fun i => s.takeDefine c i) resumeDefine)

/-- DEFINE_ARM (R27). -/
def execDefineArm (s : State) (reach : CommandReach := .owner) : Result :=
  .next (s.unlessHeld fun s =>
    s.runCommand .defineArm reach (fun c s => c.onSlot [Config.defineWords] s fun i => s.takeDefineArm c i) resumeDefineArm)

/-- ARM (R31). -/
def execArm (s : State) (reach : CommandReach := .owner) : Result :=
  .next (s.unlessHeld fun s => s.runCommand .arm reach startArm noResume)

/-- CANCEL (R33). -/
def execCancel (s : State) (reach : CommandReach := .owner) : Result :=
  .next (s.unlessHeld fun s => s.runCommand .cancel reach startCancel resumeCancel)

/-- RETIME (R36). -/
def execRetime (s : State) (reach : CommandReach := .owner) : Result :=
  .next (s.unlessHeld fun s => s.runCommand .retime reach startRetime noResume)

/-- RELEASE (R37). -/
def execRelease (s : State) (reach : CommandReach := .owner) : Result :=
  .next (s.unlessHeld fun s =>
    s.runCommand .release reach (fun c s => c.onSlot [0] s fun i => s.takeRelease c i) resumeRelease)

/-- QUERY (R38). -/
def execQuery (s : State) (reach : CommandReach := .owner) : Result :=
  .next (s.unlessHeld fun s => s.runCommand .query reach (fun c s => c.onSlot [0] s fun i => s.takeQuery c i) resumeQuery)

/-- RESET_SCHEDULE (R41, R177). -/
def execResetSchedule (s : State) (reach : CommandReach := .owner) : Result :=
  .next (s.unlessHeld fun s => s.runCommand .resetSchedule reach startResetSchedule noResume)

end Sys2Proof.Machine
end

