-- ==== Sys2Proof/Machine/Reset.lean ====
section
/-! DEFINITION. Hard reset and the release of RESET# (10, section 10.1). -/

namespace Sys2Proof.Machine

/-- Every block at its reset values and all work in flight abandoned (R42, R61, R107, R123, R137, R153, R163, R164). The pins'
levels and the steps waiting to be taken are not the device's to reset. -/
def State.resetBlocks (s : State) : State :=
  { State.reset with pins := s.pins, pending := s.pending }

/-- RESET# is asserted or released. -/
def State.holdReset (s : State) (held : Bool) : State :=
  s.setPins { s.pins with resetHeld := held }

/-- HARD_RESET: the assertion of RESET#, which holds every block at its reset values until the release (R164). -/
def execHardReset (s : State) : Result := .next (s.resetBlocks.holdReset true)

/-- POWER_ON: an assertion of RESET# that ends by itself; the step is whole, so its end is part of it. A RESET# pin that is
asserted goes on holding the device (R164; Log 15). -/
def execPowerOn (s : State) : Result := .next s.resetBlocks

/-- RESET_RELEASED: the hold of every block at its reset values ends (R164). A release with no assertion changes nothing. -/
def execResetReleased (s : State) : Result :=
  .next (if s.pins.resetHeld then s.resetBlocks.holdReset false else s)

end Sys2Proof.Machine
end

