-- ==== Sys2Proof/Machine/Lines.lean ====
section
/-! DEFINITION. The line unit (05): levels, pulses, safe entry and exit. -/

namespace Sys2Proof.Machine

/-- The intended level changes, and the driven level follows while the safe drive mark is off (R91). -/
def Line.setIntended (l : Line) (safeDrive v : Bool) : Line :=
  { l with intended := v, driven := if safeDrive then l.driven else v }

/-- PULSE_CUT goes to the owner of a line's pulse, with the present time (R102). -/
def State.reportCut (s : State) (l : Line) : State :=
  match l.pulse with
  | some p => s.send (.slot p.owner) .pulseCut s.now
  | none => s

/-- A line is set to a level by DRIVE, TOGGLE or SET_LINE. A pulse on it is cut first, in the same event (R98, R99, R101). -/
def State.forceLine (s : State) (n : LineId) (v : Bool) : State :=
  (s.reportCut (s.line n)).setLine n ({ s.line n with pulse := none }.setIntended s.lineUnit.safeDrive v)

/-- TOGGLE inverts the intended level as it stands (R99). -/
def State.toggleLine (s : State) (n : LineId) : State :=
  s.forceLine n (!(s.line n).intended)

/-- The three answers of the line unit to a PULSE (R72). -/
inductive PulseAnswer where
  | started
  | retriggered
  | suppressed
  deriving DecidableEq, Repr

/-- A PULSE request: suppressed in SAFE (R97), a retrigger on a line with a pulse (R94), else a start (R93). -/
def State.pulseLine (s : State) (n : LineId) (width : Word) (owner : SlotId) : PulseAnswer × State :=
  if s.lineUnit.safeDrive then (.suppressed, s)
  else
    let p : Pulse := ⟨s.now + width.setWidth 32, owner⟩
    match (s.line n).pulse with
    | some old =>
      (.retriggered, (s.send (.slot old.owner) .retriggered s.now).setLine n { s.line n with pulse := some p })
    | none =>
      (.started, s.setLine n ({ s.line n with pulse := some p }.setIntended false (s.line n).active))

/-- A line whose pulse's end time is reached at `now` (R95). -/
def Line.pulseOver (l : Line) (now : Time) : Bool :=
  match l.pulse with
  | some p => reached p.endTime now
  | none => false

/-- A pulse end: the line goes to its inactive level, with no news (R95). -/
def Line.endPulse (l : Line) (safeDrive : Bool) : Line :=
  { l with pulse := none }.setIntended safeDrive (!l.active)

/-- The line unit ends the pulse of one line if its end time is reached (R95). -/
def State.endPulse (s : State) (n : LineId) : State :=
  if (s.line n).pulseOver s.now then s.setLine n ((s.line n).endPulse s.lineUnit.safeDrive) else s

/-- Every pulse whose end time is reached ends, at an advance or a SET_TIME (R8, R95). -/
def State.endReachedPulses (s : State) : State :=
  allLines.foldl State.endPulse s

/-- Safe entry on one line (R105). -/
def Line.enterSafe (l : Line) : Line :=
  { l with
    intended := if l.pulse.isSome then !l.active else l.intended
    driven := l.safe
    pulse := none }

/-- Safe entry at the line unit: PULSE_CUT in ascending line order, then every line at its safe level, as one event (R105). -/
def State.linesEnterSafe (s : State) : State :=
  let s := allLines.foldl (fun s n => s.reportCut (s.line n)) s
  { s with lineUnit := ⟨s.lineUnit.lines.map Line.enterSafe, true⟩ }

/-- Safe exit at the line unit: every driven level becomes the intended level (R106). -/
def State.linesExitSafe (s : State) : State :=
  { s with lineUnit := ⟨s.lineUnit.lines.map fun l => { l with driven := l.intended }, false⟩ }

/-- The line is one a SET_LINE of this half and mask selects; bit k of the mask covers line 8h + k (11.3). -/
def setLineSelects (half : Nat) (w : Word) (n : LineId) : Bool :=
  n.val / 8 == half && w.getLsbD (8 + n.val % 8)

/-- SET_LINE's effect, in ascending line order (R101). -/
def State.setLines (s : State) (half : Nat) (w : Word) : State :=
  allLines.foldl (fun s n => if setLineSelects half w n then s.forceLine n (w.getLsbD (n.val % 8)) else s) s

/-- CONFIG_LINE's effect: in SAFE the driven level becomes the new safe level in the same step (R103, R104). -/
def Line.configure (l : Line) (safeDrive active safe : Bool) : Line :=
  { l with active := active, safe := safe, driven := if safeDrive then safe else l.driven }

/-- PULSE_END on a line (R95). -/
def execPulseEnd (line : LineId) (s : State) : Result :=
  .next (s.unlessHeld fun s => s.endPulse line)

end Sys2Proof.Machine
end

