-- ==== Sys2Proof/Machine/Safe.lean ====
section
/-! DEFINITION. The safe controller (09): the SAFE# qualifier, entry and exit. -/

namespace Sys2Proof.Machine

/-- A safe entry, as one step: the state, the lines with PULSE_CUT, the freeze mark under FREEZE, SAFE_ENTERED (R156, R162). -/
def State.enterSafe (s : State) : State :=
  let s := (s.setSafe { s.safeController with state := .safe }).linesEnterSafe
  let s := if s.safeController.policy = .freeze then s.setTimebase { s.timebase with freeze := true } else s
  s.send .safe .safeEntered s.now

/-- A safe exit, as one step: the state, the freeze mark, the lines, SAFE_EXITED (R160, R162). -/
def State.exitSafe (s : State) : State :=
  let s := (s.setSafe { s.safeController with state := .run }).setTimebase { s.timebase with freeze := false }
  s.linesExitSafe.send .safe .safeExited s.now

/-- A cause of safe entry acts in RUN and changes nothing in SAFE (R155, R156, R157). -/
def State.causeSafe (s : State) : State :=
  match s.safeController.state with
  | .run => s.enterSafe
  | .safe => s

/-- One CLK sample of SAFE#, low being asserted (R154). -/
def State.sampleSafe (s : State) (low : Bool) : State :=
  let c := s.safeController
  if low = c.asserted then s.setSafe { c with candidate := 0 }
  else if c.candidate < 3 then s.setSafe { c with candidate := c.candidate + 1 }
  else
    let s := s.setSafe { c with candidate := 0, asserted := low }
    if low then s.causeSafe else s

/-- `n` CLK samples of SAFE# in a row at one level, as one calculation (R154). -/
def State.sampleSafeTimes (s : State) (n : Nat) (low : Bool) : State :=
  let c := s.safeController
  if n = 0 then s
  else if low = c.asserted then s.setSafe { c with candidate := 0 }
  else if c.candidate + n ≤ 3 then s.setSafe { c with candidate := c.candidate + n }
  else
    let s := s.setSafe { c with candidate := 0, asserted := low }
    if low then s.causeSafe else s

end Sys2Proof.Machine
end

