-- ==== Sys2Proof/Machine/Control.lean ====
section
/-! DEFINITION. The commands on the timebase, lines, inputs, notification queue and safe controller, and RESET_DEVICE. -/

namespace Sys2Proof.Machine

/-! ## Timebase -/

/-- Device time becomes the new value. The pulse ends of the last advance come first, then those the new time reaches
(R7, R8; Log 5). -/
def State.replaceTime (s : State) (t : Time) : State :=
  (s.endReachedPulses.setTimebase { s.timebase with time := t }).endReachedPulses

/-- SET_TIME waits for the firing unit to be idle, then needs the due queue and the wait list, arms included, empty (R7). -/
def State.takeSetTime (s : State) (c : Command) (t : Time) : State :=
  if s.firing.isSome then s.waitFor c (.setTime t)
  else if s.dueQueue.entries.isEmpty && s.waitList.entries.isEmpty && s.waitList.arms.isEmpty then
    (s.replaceTime t).complete c .ok []
  else s.complete c .notEmpty []

def startSetTime (c : Command) (s : State) : State :=
  match givenTime c.args with
  | some t => s.takeSetTime c t
  | none => s.complete c .argCount []

def resumeSetTime (x : Executing) (s : State) : State :=
  match x.work with
  | .setTime t => s.takeSetTime x.command t
  | _ => s

/-- RUN_TIME and HOLD_TIME set the desired run state and nothing else (R5, R6). -/
def startDesire (r : RunState) (c : Command) (s : State) : State :=
  match c.args with
  | [] => (s.setTimebase { s.timebase with desired := r }).complete c .ok []
  | _ :: _ => s.complete c .argCount []

/-- SET_TICK, its checks in the order of R9. -/
def startSetTick (c : Command) (s : State) : State :=
  match c.args with
  | [source, prescaler] =>
    if s.timebase.desired = .run then s.complete c .badState []
    else match tickSourceOf source, prescalerOf prescaler with
      | some src, some p =>
        (s.setTimebase { s.timebase with source := src, prescaler := p, prescalerCount := 0, spacing := none }).complete
          c .ok []
      | _, _ => s.complete c .badArg []
  | _ => s.complete c .argCount []

/-! ## Lines and inputs -/

/-- SET_LINE (R101). -/
def startSetLine (c : Command) (s : State) : State :=
  match c.args with
  | [w] => if c.operand.toNat < 2 then (s.setLines c.operand.toNat w).complete c .ok [] else s.complete c .badArg []
  | _ => s.complete c .argCount []

/-- CONFIG_LINE: active level in bits 1 to 0, safe level in bits 5 to 4 (R103, R104, 11.3). -/
def startConfigLine (c : Command) (s : State) : State :=
  match c.args with
  | [w] =>
    match lineOf c.operand.toNat, levelOf (bits w 1 0), levelOf (bits w 5 4) with
    | some n, some active, some safe =>
      if (s.line n).pulse.isSome then s.complete c .badState []
      else (s.setLine n ((s.line n).configure s.lineUnit.safeDrive active safe)).complete c .ok []
    | _, _, _ => s.complete c .badArg []
  | _ => s.complete c .argCount []

/-- The settings a CONFIG_INPUT word carries, with the candidate count restarted (R122, 11.3). -/
def Input.configure (x : Input) (w : Word) : Input :=
  { x with
    q := bits w 3 0
    edge := edgeSelectionOf (bits w 5 4)
    notify := w.getLsbD 8
    candidate := 0 }

/-- CONFIG_INPUT (R122). -/
def startConfigInput (c : Command) (s : State) : State :=
  match c.args with
  | [w] =>
    match lineOf c.operand.toNat with
    | some i => (s.setInput i ((s.input i).configure w)).complete c .ok []
    | none => s.complete c .badArg []
  | _ => s.complete c .argCount []

/-! ## Notification queue and safe controller -/

/-- CONFIG_NOTIFY: threshold, holdoff, urgent mask, and attention recomputed in the same step (R150). -/
def startConfigNotify (c : Command) (s : State) : State :=
  match c.args with
  | [threshold, holdoff, urgent] =>
    if 1 ≤ threshold.toNat ∧ threshold.toNat ≤ 145 then
      (s.setNotes (NoteQueue.recompute
        { s.noteQueue with threshold := threshold.toNat, holdoff := holdoff, urgent := urgent })).complete c .ok []
    else s.complete c .badArg []
  | _ => s.complete c .argCount []

/-- CONFIG_SAFE (R161). -/
def startConfigSafe (c : Command) (s : State) : State :=
  match c.args with
  | [w] =>
    match safePolicyOf w with
    | some p => (s.setSafe { s.safeController with policy := p }).complete c .ok []
    | none => s.complete c .badArg []
  | _ => s.complete c .argCount []

/-- FORCE_SAFE (R155). -/
def startForceSafe (c : Command) (s : State) : State :=
  match c.args with
  | [] => s.causeSafe.complete c .ok []
  | _ :: _ => s.complete c .argCount []

/-- RESUME, its checks in the order of R159. -/
def startResume (c : Command) (s : State) : State :=
  match c.args with
  | [] =>
    match s.safeController.state with
    | .run => s.complete c .badState []
    | .safe => if s.safeController.asserted then s.complete c .safeActive [] else s.exitSafe.complete c .ok []
  | _ :: _ => s.complete c .argCount []

/-! ## RESET_DEVICE -/

/-- RESET_DEVICE: every block as after hard reset, and its own OK record in the result FIFO (R178). -/
def startResetDevice (c : Command) (s : State) : State :=
  match c.args with
  | [] => s.resetBlocks.complete c .ok []
  | _ :: _ => s.complete c .argCount []

/-! ## Meanings -/

/-- SET_TIME (R7). -/
def execSetTime (s : State) (reach : CommandReach := .owner) : Result :=
  .next (s.unlessHeld fun s => s.runCommand .setTime reach startSetTime resumeSetTime)

/-- RUN_TIME (R5). -/
def execRunTime (s : State) (reach : CommandReach := .owner) : Result :=
  .next (s.unlessHeld fun s => s.runCommand .runTime reach (startDesire .run) noResume)

/-- HOLD_TIME (R6). -/
def execHoldTime (s : State) (reach : CommandReach := .owner) : Result :=
  .next (s.unlessHeld fun s => s.runCommand .holdTime reach (startDesire .hold) noResume)

/-- SET_TICK (R9). -/
def execSetTick (s : State) (reach : CommandReach := .owner) : Result :=
  .next (s.unlessHeld fun s => s.runCommand .setTick reach startSetTick noResume)

/-- SET_LINE (R101). -/
def execSetLine (s : State) (reach : CommandReach := .owner) : Result :=
  .next (s.unlessHeld fun s => s.runCommand .setLine reach startSetLine noResume)

/-- CONFIG_LINE (R103). -/
def execConfigLine (s : State) (reach : CommandReach := .owner) : Result :=
  .next (s.unlessHeld fun s => s.runCommand .configLine reach startConfigLine noResume)

/-- CONFIG_INPUT (R122). -/
def execConfigInput (s : State) (reach : CommandReach := .owner) : Result :=
  .next (s.unlessHeld fun s => s.runCommand .configInput reach startConfigInput noResume)

/-- CONFIG_NOTIFY (R150). -/
def execConfigNotify (s : State) (reach : CommandReach := .owner) : Result :=
  .next (s.unlessHeld fun s => s.runCommand .configNotify reach startConfigNotify noResume)

/-- CONFIG_SAFE (R161). -/
def execConfigSafe (s : State) (reach : CommandReach := .owner) : Result :=
  .next (s.unlessHeld fun s => s.runCommand .configSafe reach startConfigSafe noResume)

/-- FORCE_SAFE (R155). -/
def execForceSafe (s : State) (reach : CommandReach := .owner) : Result :=
  .next (s.unlessHeld fun s => s.runCommand .forceSafe reach startForceSafe noResume)

/-- RESUME (R159). -/
def execResume (s : State) (reach : CommandReach := .owner) : Result :=
  .next (s.unlessHeld fun s => s.runCommand .resume reach startResume noResume)

/-- RESET_DEVICE (R178). -/
def execResetDevice (s : State) (reach : CommandReach := .owner) : Result :=
  .next (s.unlessHeld fun s => s.runCommand .resetDevice reach startResetDevice noResume)

end Sys2Proof.Machine
end

