-- ==== Sys2Proof/Machine/Firing.lean ====
section
/-! DEFINITION. The firing unit (04): one occurrence from its release to its ending, and the steps that take its requests.
HANDOFF goes as far as the first request to another block. The step that takes a request goes on from there (Log 11). Either may
leave the occurrence in hand, to go on at a later HANDOFF (Log 32). -/

namespace Sys2Proof.Machine

/-! ## Counting (R81) -/

/-- Occurrences taken rises by one, stopping at 65,535, and a bounded slot's remaining falls by one (R81). -/
def Slot.counted (sl : Slot) : Slot :=
  { sl with taken := min Config.counterMax (sl.taken + 1), remaining := sl.remaining.map (· - 1) }

/-! ## Recurrence (R83 to R86) -/

/-- The interval of a phase (R16). -/
def Definition.interval (d : Definition) : Phase → Nat
  | .a => d.intervalA.toNat
  | .b => d.intervalB.toNat

/-- The phase turns over when interval B is not 0, and stays A when it is 0 (R16, R83). -/
def Definition.turn (d : Definition) (p : Phase) : Phase :=
  if d.intervalB = 0 then .a
  else match p with
    | .a => .b
    | .b => .a

/-- The phase after `k` turns. -/
def Definition.turns (d : Definition) (p : Phase) (k : Nat) : Phase :=
  if d.intervalB = 0 then (if k = 0 then p else .a)
  else if k % 2 = 0 then p else d.turn p

/-- The sum of the next `k` intervals from phase `p`. -/
def Definition.span (d : Definition) (p : Phase) (k : Nat) : Nat :=
  if d.intervalB = 0 then k * d.intervalA.toNat
  else (k / 2) * (d.interval p + d.interval (d.turn p)) + (if k % 2 = 0 then 0 else d.interval p)

/-- How many intervals lie at or before a lateness: the least k whose span exceeds it. The firing unit computes the whole
advance as one calculation (R85). -/
def Definition.missed (d : Definition) (p : Phase) (late : Nat) : Nat :=
  if d.intervalB = 0 then late / d.intervalA.toNat + 1
  else
    let pair := d.interval p + d.interval (d.turn p)
    2 * (late / pair) + (if late % pair < d.interval p then 1 else 2)

/-- The steps a DROP advance takes: until the candidate is ahead or remaining reaches 0 (R85). -/
def Definition.dropSteps (d : Definition) (p : Phase) (late : Nat) (remaining : Option Nat) : Nat :=
  match remaining with
  | none => d.missed p late
  | some r => min (d.missed p late) r

/-- The slot after a DROP advance of `k` steps from phase `p` (R85). -/
def Slot.dropped (sl : Slot) (p : Phase) (k : Nat) : Slot :=
  { sl with
    phase := sl.definition.turns p k
    misses := min Config.counterMax (sl.misses + k)
    remaining := sl.remaining.map (· - k) }

/-! ## Endings (R82) -/

/-- The slot leaves the schedule and the firing unit becomes idle in the same step (R82). -/
def State.endInState (s : State) (i : SlotId) (st : SlotState) : State :=
  (s.setSlot i { s.slot i with state := st, due := none }).setFiring none

/-- Ending 3: DONE, with DONE news (R82). -/
def State.endDone (s : State) (o : Occurrence) : State :=
  (s.send (.slot o.slot) .done o.time).endInState o.slot .done

/-- The firing unit presents a request and keeps the slot in hand (R69, R87). -/
def State.request (s : State) (o : Occurrence) (r : Request) : State :=
  s.setFiring (some { o with request := some r })

/-- A DROP or forced advance from a reached candidate (R85, R86). -/
def State.dropAdvance (s : State) (o : Occurrence) (candidate : Time) (p : Phase) : State :=
  let sl := s.slot o.slot
  let k := sl.definition.dropSteps p (lateBy candidate o.time) sl.remaining
  let s := (s.setSlot o.slot (sl.dropped p k)).send (.slot o.slot) .missed o.time
  if (sl.dropped p k).remaining = some 0 then s.endDone o
  else s.request o (.reinsert (candidate + BitVec.ofNat 32 (sl.definition.span p k)))

/-- Ending 4: the candidate next due, and what the miss policy makes of it (R83, R84, R85, R86). -/
def State.recur (s : State) (o : Occurrence) : State :=
  let sl := s.slot o.slot
  let d := sl.definition
  let candidate := o.due + BitVec.ofNat 32 (d.interval sl.phase)
  let p := d.turn sl.phase
  if reached candidate o.time && (decide (Config.staleBound ≤ o.lateness) || d.missPolicy == .drop) then
    s.dropAdvance o candidate p
  else (s.setSlot o.slot { sl with phase := p }).request o (.reinsert candidate)

/-- The ending after counting, by the first test of R82 that holds. A WAIT whose effect is applied ends by the wait list's
answer instead. -/
def State.endOccurrence (s : State) (o : Occurrence) : State :=
  let sl := s.slot o.slot
  if o.selfCancel then (s.send (.slot o.slot) .cancelled o.time).endInState o.slot .held
  else if sl.remaining = some 0 ∨ sl.definition.intervalA = 0 then s.endDone o
  else s.recur o

/-- The outcome kind is sent and the occurrence counted (R81, R88). -/
def State.report (s : State) (o : Occurrence) (k : Kind) : State :=
  (s.send (.slot o.slot) k o.time).setSlot o.slot (s.slot o.slot).counted

/-- The occurrence once it has been counted with outcome kind `k` (R63). -/
def Occurrence.reported (o : Occurrence) (k : Kind) : Occurrence :=
  { o with outcome := some k, request := none, counted := true }

/-- The occurrence is counted and stays in hand (R81, R88). -/
def State.count (s : State) (o : Occurrence) (k : Kind) : State := (s.report o k).setFiring (some (o.reported k))

/-- From the end of the effect to the end of the occurrence, or to its reinsertion request (R63). -/
def State.finish (s : State) (o : Occurrence) (k : Kind) : State := (s.count o k).endOccurrence (o.reported k)

/-- The effect is over, with outcome kind `k`: the occurrence goes on at once, or stays in hand with no request outstanding
(R63, R73, R119; Log 32). -/
def State.afterEffect (s : State) (a : AfterEffect) (o : Occurrence) (k : Kind) : State :=
  match a with
  | .goesOn => s.finish o k
  | .staysInHand => s.setFiring (some { o with outcome := some k, request := none, counted := false })

/-- The outcome kind of an applied effect (R68). -/
def Occurrence.appliedKind (o : Occurrence) : Kind := if o.late then .late else .fired

/-! ## From the release to the effect -/

/-- The guard passes when it is absent or its flag has the wanted level (R67). -/
def State.guardPasses (s : State) : Option Guard → Bool
  | none => true
  | some g => s.flag g.flag == g.level

/-- An applied effect: a request to the owner of the state, or what the firing unit does itself (R69, R74 to R79). -/
def State.applyEffect (s : State) (a : AfterEffect) (o : Occurrence) : Action → State
  | .drive n v => s.request o (.drive n v)
  | .toggle n => s.request o (.toggle n)
  | .pulse n w => s.request o (.pulse n w)
  | .flag f op => s.request o (.flag f op)
  | .arm t offset =>
    if t = o.slot then (s.send (.slot o.slot) .armFailed o.time).afterEffect a o o.appliedKind
    else s.request o (.insert t (o.due + offset.setWidth 32))
  | .cancel t =>
    if t = o.slot then s.afterEffect a { o with selfCancel := true } o.appliedKind
    else match (s.slot t).state with
      | .armed => s.request o (.remove t)
      | .waiting => s.request o (.withdraw t)
      | .free | .held | .firing | .done => s.afterEffect a o o.appliedKind
  | .wait w => (s.report o o.appliedKind).request (o.reported o.appliedKind) (.place w)
  | .mark => s.afterEffect a o o.appliedKind

/-- Lateness is above a limit that is not "no limit" (R66). -/
def Definition.isLate (d : Definition) (late : Nat) : Bool :=
  d.lateLimit != Config.noLateLimit && decide (d.lateLimit.toNat < late)

/-- The stale check, the late check and the guard check, then the effect (R63, R65, R66, R67). -/
def State.decideOccurrence (s : State) (a : AfterEffect) (o : Occurrence) : State :=
  let d := (s.slot o.slot).definition
  if Config.staleBound ≤ o.lateness then s.afterEffect a o .skippedLate
  else if d.isLate o.lateness && d.latePolicy == .skip then s.afterEffect a o .skippedLate
  else if s.guardPasses d.guard then s.applyEffect a { o with late := d.isLate o.lateness } d.action
  else s.afterEffect a { o with late := d.isLate o.lateness } .skippedGuard

/-- The occurrence the firing unit takes at a release: the occurrence time is the present device time (R62, R64). -/
def Occurrence.start (e : DueEntry) (now : Time) : Occurrence where
  slot := e.slot
  due := e.due
  time := now
  lateness := lateBy e.due now
  late := false
  outcome := none
  selfCancel := false
  request := none
  counted := false

/-- The slot becomes FIRING with its current due kept, and its last lateness is written (R39, R64). -/
def Slot.fire (sl : Slot) (late : Nat) : Slot := { sl with state := .firing, lastLateness := late }

/-- A presented REMOVE of the slot released is withdrawn, and the command is held until the occurrence ends (R22, R50). -/
def Work.heldBy (w : Work) (i : SlotId) : Work := if w = .remove i then .cancel i else w

/-- A held CANCEL is presented at the end of the occurrence: a REMOVE of a slot left ARMED, a withdrawal of one left WAITING. Of a
slot left in another state the CANCEL row answers BAD_STATE (R22, R33, R46). -/
def Work.presentedFor (w : Work) (i : SlotId) (st : SlotState) : Work :=
  if w = .cancel i then
    match st with
    | .armed => .remove i
    | .waiting => .withdraw i
    | .free | .held | .firing | .done => w
  else w

/-- What the executing command waits for changes. -/
def State.mapWork (s : State) (f : Work → Work) : State :=
  s.setCommands { s.commandUnit with
    executing := s.commandUnit.executing.map fun x => { x with work := f x.work } }

/-- The head leaves the queue and the firing unit has it in hand (R39, R47, R48, R50, R62). -/
def State.takeHead (s : State) (e : DueEntry) : State :=
  (((((s.setPassedOver (s.othersWait || s.dueQueue.passedOver)).setEntries s.dueQueue.entries.tail).setSlot e.slot
    ((s.slot e.slot).fire (lateBy e.due s.now))).setFiring (some (Occurrence.start e s.now))).mapWork
    (·.heldBy e.slot))

/-- An occurrence in hand with no request outstanding goes on: by its checks and effect, by its counting, or by its end. It goes as
far as it can, or to the next of these (R63; Log 32). -/
def State.goOn (s : State) (a : AfterEffect) (o : Occurrence) : State :=
  match o.request, o.outcome with
  | some _, _ => s
  | none, none => s.decideOccurrence a o
  | none, some k =>
    if o.counted then s.endOccurrence o
    else match a with
      | .goesOn => s.finish o k
      | .staysInHand => s.count o k

/-- The arbiter's release of the reached head: the occurrence runs to its first request, or stays in hand (R48, R63; Log 32). -/
def State.releaseHead (s : State) (a : AfterEffect) (e : DueEntry) : State :=
  match a with
  | .goesOn => (s.takeHead e).decideOccurrence .goesOn (Occurrence.start e s.now)
  | .staysInHand => s.takeHead e

/-- HANDOFF: the arbiter grants the release of the reached head, or the occurrence left in hand goes on (R48, R63; Log 32). -/
def State.handoffStep (s : State) (a : AfterEffect) : State :=
  match s.firing with
  | some o => s.goOn a o
  | none =>
    match s.grant with
    | some (.release e) => s.releaseHead a e
    | _ => s

/-! ## The steps that take the firing unit's requests -/

/-- The line unit takes a DRIVE request (R98). -/
def State.driveStep (s : State) (after : AfterEffect) : State :=
  match s.firing with
  | none => s
  | some o =>
    match o.request with
    | some (.drive n v) => (s.forceLine n v).afterEffect after o o.appliedKind
    | _ => s

/-- The line unit takes a TOGGLE request (R99). -/
def State.toggleStep (s : State) (after : AfterEffect) : State :=
  match s.firing with
  | none => s
  | some o =>
    match o.request with
    | some (.toggle n) => (s.toggleLine n).afterEffect after o o.appliedKind
    | _ => s

/-- The outcome kind of a PULSE by the line unit's answer (R68, R72). -/
def PulseAnswer.kind (a : PulseAnswer) (o : Occurrence) : Kind :=
  match a with
  | .started => o.appliedKind
  | .retriggered => o.appliedKind
  | .suppressed => .suppressed

/-- The line unit takes a PULSE request (R93, R94, R97). Where the occurrence stays in hand, a SET_LINE or a safe entry can cut the
pulse before the outcome kind is sent, so the two kinds come in either order (R97, R141; Log 9, Log 32). -/
def State.pulseStep (s : State) (after : AfterEffect) : State :=
  match s.firing with
  | none => s
  | some o =>
    match o.request with
    | some (.pulse n w) => (s.pulseLine n w o.slot).2.afterEffect after o ((s.pulseLine n w o.slot).1.kind o)
    | _ => s

/-- The flag bank takes a FLAG request (R73, R119). -/
def State.flagStep (s : State) (after : AfterEffect) : State :=
  match s.firing with
  | none => s
  | some o =>
    match o.request with
    | some (.flag f op) => (s.setFlag f (op.apply (s.flag f))).afterEffect after o o.appliedKind
    | _ => s

/-- A refused chained arm reports ARM_FAILED (R54, R74, R132). -/
def ArmOutcome.reportTo (r : ArmOutcome) (s : State) (i : SlotId) (time : Time) : State :=
  if r = .placed then s else s.send (.slot i) .armFailed time

/-- INSERT: the due queue takes the arm the arbiter has granted (R28, R47, R54). -/
def State.insertStep (s : State) (after : AfterEffect) (asked : RequestPresence) : State :=
  match s.grantAt asked with
  | some (.firing o (.insert t due)) =>
    let r := s.insertArm t due o.time
    (r.1.reportTo r.2 o.slot o.time).afterEffect after o o.appliedKind
  | some (.waitArm a) =>
    let r := ((s.setPassedOver false).setArms s.waitList.arms.tail).insertArm a.target a.due a.endTime
    r.1.reportTo r.2 a.waiting a.endTime
  | some (.command c (.insert i given)) =>
    let r := (s.setPassedOver false).insertArm i (s.hostDue i given) s.now
    r.2.complete c r.1.status []
  | _ => s

/-- The queue places a reinsertion without checks, the slot becomes ARMED and the firing unit idle, and a held CANCEL of the slot
is presented as a REMOVE (R33, R57, R87). -/
def State.reinsert (s : State) (i : SlotId) (due : Time) : State :=
  (((s.setEntries (insertEntry ⟨i, due⟩ s.dueQueue.entries)).setSlot i
    { s.slot i with state := .armed, due := some due }).setFiring none).mapWork (·.presentedFor i .armed)

/-- REINSERTION (R57). -/
def State.reinsertionStep (s : State) : State :=
  match s.grant with
  | some (.firing o (.reinsert due)) => s.reinsert o.slot due
  | _ => s

/-- A CANCEL effect takes its ARMED target out and reports CANCELLED to it. A target that an operation in flight when it asked has
left in another state is left so (R34, R55, R76; Log 31). A host CANCEL takes its ARMED slot out, and ends BAD_STATE where the queue
finds the slot no longer ARMED (R33, R55). -/
def State.removeStep (s : State) (after : AfterEffect) (asked : RequestPresence) : State :=
  match s.grantAt asked with
  | some (.firing o (.remove t)) =>
    if (s.slot t).state = .armed then
      ((s.takeOut t).send (.slot t) .cancelled o.time).afterEffect after o o.appliedKind
    else s.afterEffect after o o.appliedKind
  | some (.command c (.remove i)) =>
    if (s.slot i).state = .armed then ((s.setPassedOver false).takeOut i).complete c .ok []
    else (s.setPassedOver false).complete c .badState []
  | _ => s

/-- The wait list takes the firing unit's withdrawal (R76, R133). -/
def State.firingWithdrawal (s : State) (after : AfterEffect) : State :=
  match s.firing with
  | none => s
  | some o =>
    match o.request with
    | some (.withdraw t) =>
      if (s.slot t).state = .waiting then
        ((s.withdraw t).send (.slot t) .cancelled o.time).afterEffect after o o.appliedKind
      else s.afterEffect after o o.appliedKind
    | _ => s

/-- The wait list takes the withdrawal of a host CANCEL. Where a match or timeout has ended the wait first, the withdrawal finds no
entry and the CANCEL ends BAD_STATE (R33, R133). -/
def State.commandWithdrawal (s : State) : State :=
  match s.commandUnit.executing with
  | none => s
  | some x =>
    match x.work with
    | .withdraw i =>
      if (s.slot i).state = .waiting then (s.withdraw i).complete x.command .ok []
      else s.complete x.command .badState []
    | _ => s

/-- The entry of a WAIT occurrence (R125). -/
def WaitSpec.entry (w : WaitSpec) (i : SlotId) (start : Time) : WaitEntry where
  slot := i
  flag := w.flag
  condition := w.condition
  start := start
  deadline := w.deadlineOffset.map fun d => start + d.setWidth 32
  follow := w.follow
  timeout := w.timeout

/-- The wait list's answer to a placement, by the first test of R126 that holds (R78, R126, R127). A match at entry and a timeout
at entry by a full list carry the start time, as R127 and R134 give, also where an advance came during the occurrence and R88's
"the device time at which the wait list took the event" is another (Log 28). The deadline test uses the present device time, also
where the wait list has not yet taken the last advance, and the arm of a timeout at entry then precedes the arms of the entries
that advance expires (Log 29). -/
def State.place (s : State) (o : Occurrence) (w : WaitSpec) : State :=
  let e := w.entry o.slot o.time
  if w.condition.metAtEntry (s.flag w.flag) then
    (s.endWait o.slot .matched o.time (followArm w.follow o.time o.slot)).setFiring none
  else if e.expired s.now then
    (s.endWait o.slot .timeout (e.deadline.getD s.now) (timeoutArm w.timeout (e.deadline.getD s.now) o.slot)).setFiring none
  else if Config.waitCapacity ≤ s.waitList.entries.length then
    (s.endWait o.slot .timeout o.time (timeoutArm w.timeout o.time o.slot)).setFiring none
  else
    (((s.setWaitEntries (s.waitList.entries ++ [e])).setSlot o.slot
      { s.slot o.slot with state := .waiting, due := none }).setFiring none).mapWork (·.presentedFor o.slot .waiting)

/-- WAIT_PLACEMENT. The flag-change events reported before its read reach the wait list before it, so it first takes those
in flight: none of them reaches the new entry (R121, R126; Log 7). -/
def State.placementStep (s : State) : State :=
  match s.firing with
  | none => s
  | some o =>
    match o.request with
    | some (.place w) => s.takeFlagEvents.place o w
    | _ => s

/-- HANDOFF (R48, R63). -/
def execHandoff (s : State) (after : AfterEffect := .goesOn) : Result := .next (s.unlessHeld fun s => s.handoffStep after)

/-- DRIVE_EFFECT (R98). -/
def execDriveEffect (s : State) (after : AfterEffect := .goesOn) : Result := .next (s.unlessHeld fun s => s.driveStep after)

/-- TOGGLE_EFFECT (R99). -/
def execToggleEffect (s : State) (after : AfterEffect := .goesOn) : Result := .next (s.unlessHeld fun s => s.toggleStep after)

/-- PULSE_EFFECT (R93). -/
def execPulseEffect (s : State) (after : AfterEffect := .goesOn) : Result := .next (s.unlessHeld fun s => s.pulseStep after)

/-- FLAG_EFFECT (R119). -/
def execFlagEffect (s : State) (after : AfterEffect := .goesOn) : Result := .next (s.unlessHeld fun s => s.flagStep after)

/-- INSERT (R28). -/
def execInsert (s : State) (after : AfterEffect := .goesOn) (asked : RequestPresence := .presented) : Result :=
  .next (s.unlessHeld fun s => s.insertStep after asked)

/-- REINSERTION (R57). -/
def execReinsertion (s : State) : Result := .next (s.unlessHeld State.reinsertionStep)

/-- REMOVE (R55). -/
def execRemove (s : State) (after : AfterEffect := .goesOn) (asked : RequestPresence := .presented) : Result :=
  .next (s.unlessHeld fun s => s.removeStep after asked)

/-- WAIT_PLACEMENT (R126). -/
def execWaitPlacement (s : State) : Result := .next (s.unlessHeld State.placementStep)

/-- WITHDRAWAL (R133). -/
def execWithdrawal (requester : Withdrawer) (s : State) (after : AfterEffect := .goesOn) : Result :=
  match requester with
  | .firingUnit => .next (s.unlessHeld fun s => s.firingWithdrawal after)
  | .commandUnit => .next (s.unlessHeld State.commandWithdrawal)

end Sys2Proof.Machine
end

