-- ==== Sys2Proof/Machine/Inputs.lean ====
section
/-! DEFINITION. The input unit (06, sections 6.1 and 6.2): sampling, qualification, acceptance. -/

namespace Sys2Proof.Machine

/-- Whether an edge to `level` is one the selection includes (R111). -/
def EdgeSelection.includes (e : EdgeSelection) (level : Bool) : Bool :=
  match e with
  | .none => false
  | .rise => level
  | .fall => !level
  | .both => true

/-- One sample of one input (R108, R109). An acceptance is handed to the flag bank with what the settings of this moment
decide for it (R110, R122). -/
def State.sampleInput (level : Bool) (s : State) (i : LineId) : State :=
  let x := { s.input i with raw := level }
  if level = s.flag (levelFlag i) then s.setInput i { x with candidate := 0 }
  else if x.candidate < x.q then s.setInput i { x with candidate := x.candidate + 1 }
  else
    let t := s.setInput i { x with candidate := 0 }
    { t with inputUnit := { t.inputUnit with
        handed := t.inputUnit.handed ++ [⟨i, level, x.edge.includes level, x.notify, s.now⟩] } }

/-- The sixteen samples of one tick, in ascending order (R108). -/
def State.sampleInputs (pins : BitVec 16) (s : State) : State :=
  allLines.foldl (fun s i => s.sampleInput (pins.getLsbD i.val) i) s

/-- The flag bank takes one acceptance: the level flag, then the latch if the edge is included, then EDGE news if the switch
was on (R110, R112). -/
def State.accept (s : State) (a : Acceptance) : State :=
  let t := s.setFlag (levelFlag a.input) a.level
  let t := if a.included then t.setFlag (edgeLatch a.input) true else t
  if a.included && a.notify then t.send (.input a.input) .edge a.time else t

/-- The flag bank takes the oldest acceptance handed to it (R110). -/
def State.takeAcceptance (s : State) : State :=
  match s.inputUnit.handed with
  | [] => s
  | a :: rest => State.accept { s with inputUnit := { s.inputUnit with handed := rest } } a

/-- The flag bank takes every acceptance handed to it, oldest first. -/
def State.takeAcceptances (s : State) : State :=
  s.inputUnit.handed.foldl (fun s _ => s.takeAcceptance) s

/-- INPUT_ACCEPT (R110). -/
def execInputAccept (s : State) : Result := .next (s.unlessHeld State.takeAcceptance)

end Sys2Proof.Machine
end

