-- ==== Sys2Proof/Machine/Ticks.lean ====
section
/-! DEFINITION. The timebase (01): ticks from either source, the advance, and what passes with every CLK period. The rows that stand
for CLK periods are here: TICK, TICK_EDGE, SAFE_ASSERTED and SAFE_RELEASED (Log 4, Log 17, Log 27). -/

namespace Sys2Proof.Machine

/-- Running device time advances by one, held device time does not (R4). The due queue, the wait list and the line unit take
the advance at their own steps: HANDOFF, TIMEOUT and PULSE_END. -/
def State.advance (s : State) : State :=
  if s.timebase.running then s.setTimebase { s.timebase with time := s.timebase.time + 1 } else s

/-- What the tick before left in flight is taken before the next tick: acceptances, flag changes, deadlines and pulse ends of
the last advance (R95, R109, R128, R129; Log 5). A flag change and a deadline that are both left may be taken in either order (R130),
and the model's choice is the flag change first, so the match wins. A TIMEOUT row before that tick takes the other order (Log 35). -/
def State.settle (s : State) : State :=
  s.takeAcceptances.takeFlagEvents.expireDeadlines.endReachedPulses

/-- One tick delivered to the timebase, the input unit and the notification queue (R3). With `samplesFirst` the acceptances
of the tick, and the matches they make, come before its advance (R112, R130; Log 5). -/
def State.deliverTick (s : State) (pins : BitVec 16) (order : TickOrder) : State :=
  match order with
  | .advanceFirst => (s.settle.advance.sampleInputs pins).ageRecords
  | .samplesFirst => (s.settle.sampleInputs pins).takeAcceptances.takeFlagEvents.advance.ageRecords

/-- The lines whose pulse ends are taken between a tick and the SAFE# sample of its CLK period (R105; Log 34). -/
def linesEnded : SafeOrder → List LineId
  | .afterTick ended => allLines.filter fun n => ended.getLsbD n.val
  | .beforeTick => []

/-- One tick of a CLK period, with the pulse ends of its advance that come before the period's SAFE# sample, taken as the rows
PULSE_END take them (R95, R105; Log 34). -/
def State.tickInPeriod (s : State) (pins : BitVec 16) (order : ClkOrder) : State :=
  (linesEnded order.safe).foldl State.endPulse (s.deliverTick pins order.tick)

/-! ## One CLK period -/

/-- One CLK period under the internal source: at the period that brings the prescaler count to the prescaler the count restarts and
one tick is produced. The external source leaves the count (R1; Log 4). -/
def State.countClk (s : State) (order : ClkOrder) : State :=
  match s.timebase.source with
  | .internal =>
    if s.timebase.prescaler ≤ s.timebase.prescalerCount + 1 then
      (s.setTimebase { s.timebase with prescalerCount := 0 }).tickInPeriod s.pins.inputs order
    else s.setTimebase { s.timebase with prescalerCount := s.timebase.prescalerCount + 1 }
  | .external => s

/-- An edge on TICK is counted: one tick, and the spacing check records the edge (R2). -/
def State.countEdge (s : State) (order : ClkOrder) : State :=
  (s.setTimebase { s.timebase with spacing := some 0 }).tickInPeriod s.pins.inputs order

/-- The spacing check judges a rising edge, one CLK period after its count was last taken (R2). -/
def State.judgeEdge (s : State) (order : ClkOrder) : State :=
  match s.timebase.spacing with
  | none => s.countEdge order
  | some n =>
    if Config.tickSpacing ≤ n + 1 then s.countEdge order
    else (s.setTimebase { s.timebase with spacing := some (n + 1) }).raise .tickFast

/-- TICK is sampled. A high sample that follows a low one is a rising edge, which the external source judges and the internal source
does not count. The sample is taken under either source (R1, R2; Log 27). -/
def State.sampleTick (s : State) (order : ClkOrder) : State :=
  let t := s.setTimebase { s.timebase with tickSample := s.pins.tickHigh }
  match s.timebase.source with
  | .internal => t
  | .external =>
    if s.pins.tickHigh && !s.timebase.tickSample then t.judgeEdge order
    else t.setTimebase { t.timebase with spacing := t.timebase.spacing.map (· + 1) }

/-- The tick sources in one CLK period: TICK is sampled, the count of the selected source moves, and a tick that comes due is
delivered (R1, R2). -/
def State.runSources (s : State) (order : ClkOrder) : State := (s.sampleTick order).countClk order

/-- One CLK period: the tick sources run, and SAFE# is sampled at its present level, behind them or before them (R1, R2, R154; Log 3,
Log 4). Where a tick and an acceptance of SAFE# fall in one period the spec leaves their order open, and `order.safe` gives it: a
tick behind the entry's freeze mark leaves device time unchanged (R156), and a pulse whose end the tick's advance reaches ends before
the entry on the lines that `order.safe` names, while the entry cuts it on the others (R105; Log 34). -/
def State.clkPeriod (s : State) (order : ClkOrder) : State :=
  match order.safe with
  | .beforeTick => (s.sampleSafe s.pins.safeLow).runSources order
  | .afterTick _ => (s.runSources order).sampleSafe s.pins.safeLow

/-! ## Many CLK periods -/

/-- The timebase after `n` CLK periods with TICK at the level `high`, none of which brings a tick or a rising edge (R1, R2). -/
def Timebase.quiet (b : Timebase) (high : Bool) (n : Nat) : Timebase :=
  if n = 0 then b
  else match b.source with
    | .internal => { b with prescalerCount := b.prescalerCount + n, tickSample := high }
    | .external => { b with spacing := b.spacing.map (· + n), tickSample := high }

/-- `n` CLK periods, none of which brings a tick or a rising edge (R1, R2, R154). -/
def State.quietClk (s : State) (n : Nat) : State :=
  (s.setTimebase (s.timebase.quiet s.pins.tickHigh n)).sampleSafeTimes n s.pins.safeLow

/-- The CLK periods that pass before the one that brings the internal source's next tick (R1). -/
def Timebase.beforeTick (b : Timebase) : Nat := b.prescaler - (b.prescalerCount + 1)

/-- `n` CLK periods with no rising edge of TICK, by as many internal ticks as they bring. `fuel` is at least their number. -/
def State.passClk (order : ClkOrder) : (fuel n : Nat) → State → State
  | 0, n, s => s.quietClk n
  | fuel + 1, n, s =>
    if s.timebase.source = .external ∨ n ≤ s.timebase.beforeTick then s.quietClk n
    else State.passClk order fuel (n - (s.timebase.beforeTick + 1)) ((s.quietClk s.timebase.beforeTick).clkPeriod order)

/-- `n` CLK periods with the pins as they are: the first may find a rising edge of TICK, and no later one does (R1, R2, R154). -/
def State.clkPeriods (s : State) (n : Nat) (order : ClkOrder) : State :=
  match n with
  | 0 => s
  | n + 1 => (s.clkPeriod order).passClk order n n

/-! ## The rows -/

/-- The levels at the input pins (Log 33). -/
def State.showInputs (s : State) (pins : BitVec 16) : State :=
  s.setPins { s.pins with inputs := pins }

/-- TICK is at a level. -/
def State.showTick (s : State) (high : Bool) : State :=
  s.setPins { s.pins with tickHigh := high }

/-- SAFE# is at a level, low being asserted. -/
def State.showSafe (s : State) (low : Bool) : State :=
  s.setPins { s.pins with safeLow := low }

/-- TICK: the CLK periods up to the internal source's tick, at most `clk` of them, with the levels its samples find. In each of them
TICK and SAFE# are sampled too. The row has no effect under the external source (R1, R154; Log 4, Log 27). -/
def State.internalTick (s : State) (clk : Nat) (pins : BitVec 16) (order : ClkOrder) : State :=
  match s.timebase.source with
  | .internal =>
    let t := s.showInputs pins
    if clk ≤ s.timebase.beforeTick then t.quietClk clk else (t.quietClk s.timebase.beforeTick).clkPeriod order
  | .external => s

/-- TICK_EDGE: for `steady` CLK periods TICK is at its last sampled level, for `low` periods it is low, and then it is high for one.
Under the internal source the prescaler count moves with every period (R1, R2, R154; Log 4, Log 27). -/
def State.externalEdge (s : State) (steady low : Nat) (pins : BitVec 16) (order : ClkOrder) : State :=
  let s := ((s.showInputs pins).showTick s.timebase.tickSample).clkPeriods steady order
  let s := (s.showTick false).clkPeriods low order
  (s.showTick true).clkPeriod order

/-- SAFE_ASSERTED and SAFE_RELEASED: SAFE# is at a level for `samples` CLK periods. Four in a row are what R154 accepts, and three
or fewer are a glitch (R154; Log 4, Log 17). -/
def State.holdSafePin (s : State) (low : Bool) (samples : Nat) (order : ClkOrder) : State :=
  (s.showSafe low).clkPeriods samples order

/-- TICK (R1). While RESET# is held the row leaves the levels at IN0 to IN15 too, by the model's choice (Log 36). -/
def execTick (pins : BitVec 16) (order : TickOrder) (s : State) (clk : Nat := 65536) (safe : SafeOrder := .afterTick) : Result :=
  .next (s.unlessHeld fun s => s.internalTick clk pins ⟨order, safe⟩)

/-- TICK_EDGE (R2). While RESET# is held the row leaves the levels at TICK and IN0 to IN15 too, by the model's choice (Log 36). -/
def execTickEdge (steady : Nat) (pins : BitVec 16) (order : TickOrder) (s : State) (low : Nat := 1)
    (safe : SafeOrder := .afterTick) : Result :=
  .next (s.unlessHeld fun s => s.externalEdge steady low pins ⟨order, safe⟩)

/-- SAFE_ASSERTED (R154). While RESET# is held the row leaves the level at SAFE# too, by the model's choice: a pin that goes low
during the hold is given by a row behind the release, of no CLK periods where none is meant to pass (R163; Log 36). -/
def execSafeAsserted (s : State) (samples : Nat := 4) (order : TickOrder := .advanceFirst)
    (safe : SafeOrder := .afterTick) : Result :=
  .next (s.unlessHeld fun s => s.holdSafePin true samples ⟨order, safe⟩)

/-- SAFE_RELEASED (R154). While RESET# is held the row leaves the level at SAFE# too, by the model's choice (R163; Log 36). -/
def execSafeReleased (s : State) (samples : Nat := 4) (order : TickOrder := .advanceFirst)
    (safe : SafeOrder := .afterTick) : Result :=
  .next (s.unlessHeld fun s => s.holdSafePin false samples ⟨order, safe⟩)

end Sys2Proof.Machine
end

