-- ==== Sys2Proof/Machine/Dispatch.lean ====
section
/-! DEFINITION. One arm for each command, in the table's order. -/

namespace Sys2Proof.Machine

def exec (i : Instr) (s : State) : Host.Outcome State Fault Refusal :=
  match i with
  | .hardReset => Sys2Proof.Machine.execHardReset s
  | .powerOn => Sys2Proof.Machine.execPowerOn s
  | .tick pins order clk safe => Sys2Proof.Machine.execTick pins order s clk safe
  | .tickEdge steady pins order low safe => Sys2Proof.Machine.execTickEdge steady pins order s low safe
  | .inputAccept => Sys2Proof.Machine.execInputAccept s
  | .safeAsserted samples order safe => Sys2Proof.Machine.execSafeAsserted s samples order safe
  | .safeReleased samples order safe => Sys2Proof.Machine.execSafeReleased s samples order safe
  | .handoff after => Sys2Proof.Machine.execHandoff s after
  | .driveEffect after => Sys2Proof.Machine.execDriveEffect s after
  | .toggleEffect after => Sys2Proof.Machine.execToggleEffect s after
  | .pulseEffect after => Sys2Proof.Machine.execPulseEffect s after
  | .pulseEnd line => Sys2Proof.Machine.execPulseEnd line s
  | .flagEffect after => Sys2Proof.Machine.execFlagEffect s after
  | .insert after asked => Sys2Proof.Machine.execInsert s after asked
  | .reinsertion => Sys2Proof.Machine.execReinsertion s
  | .remove after asked => Sys2Proof.Machine.execRemove s after asked
  | .move asked => Sys2Proof.Machine.execMove s asked
  | .clear arms => Sys2Proof.Machine.execClear s arms
  | .waitPlacement => Sys2Proof.Machine.execWaitPlacement s
  | .matched => Sys2Proof.Machine.execMatched s
  | .timeout => Sys2Proof.Machine.execTimeout s
  | .withdrawal requester after => Sys2Proof.Machine.execWithdrawal requester s after
  | .news path => Sys2Proof.Machine.execNews s path
  | .holdoff => Sys2Proof.Machine.execHoldoff s
  | .stageWrite data => Sys2Proof.Machine.execStageWrite data s
  | .resultRead => Sys2Proof.Machine.execResultRead s
  | .noteRead => Sys2Proof.Machine.execNoteRead s
  | .timeLoRead => Sys2Proof.Machine.execTimeLoRead s
  | .flagValueWrite data => Sys2Proof.Machine.execFlagValueWrite data s
  | .flagSelectWrite data => Sys2Proof.Machine.execFlagSelectWrite data s
  | .intEnableWrite data => Sys2Proof.Machine.execIntEnableWrite data s
  | .errorWrite data => Sys2Proof.Machine.execErrorWrite data s
  | .badAddress access => Sys2Proof.Machine.execBadAddress access s
  | .clearStage operand => Sys2Proof.Machine.execClearStage operand s
  | .nop reach => Sys2Proof.Machine.execNop s reach
  | .badCode reach => Sys2Proof.Machine.execBadCode s reach
  | .define reach => Sys2Proof.Machine.execDefine s reach
  | .defineArm reach => Sys2Proof.Machine.execDefineArm s reach
  | .arm reach => Sys2Proof.Machine.execArm s reach
  | .cancel reach => Sys2Proof.Machine.execCancel s reach
  | .retime reach => Sys2Proof.Machine.execRetime s reach
  | .release reach => Sys2Proof.Machine.execRelease s reach
  | .query reach => Sys2Proof.Machine.execQuery s reach
  | .setTime reach => Sys2Proof.Machine.execSetTime s reach
  | .runTime reach => Sys2Proof.Machine.execRunTime s reach
  | .holdTime reach => Sys2Proof.Machine.execHoldTime s reach
  | .setTick reach => Sys2Proof.Machine.execSetTick s reach
  | .setLine reach => Sys2Proof.Machine.execSetLine s reach
  | .configLine reach => Sys2Proof.Machine.execConfigLine s reach
  | .configInput reach => Sys2Proof.Machine.execConfigInput s reach
  | .configNotify reach => Sys2Proof.Machine.execConfigNotify s reach
  | .configSafe reach => Sys2Proof.Machine.execConfigSafe s reach
  | .forceSafe reach => Sys2Proof.Machine.execForceSafe s reach
  | .resume reach => Sys2Proof.Machine.execResume s reach
  | .resetSchedule reach => Sys2Proof.Machine.execResetSchedule s reach
  | .resetDevice reach => Sys2Proof.Machine.execResetDevice s reach
  | .commandWrite data => Sys2Proof.Machine.execCommandWrite data s
  | .resetReleased => Sys2Proof.Machine.execResetReleased s

end Sys2Proof.Machine
end

