-- ==== Sys2Proof/Machine/Step.lean ====
section
/-! DEFINITION. One step: the command at the front of the queue, or one CLK period when none is waiting. -/

namespace Sys2Proof.Machine

/-- The state with its queue replaced. -/
def State.setPending (s : State) (q : List Instr) : State := { s with pending := q }

/-- The front command is taken and executed on the state with the queue's rest. On an empty queue one CLK period passes,
its advance first and its SAFE# sample behind the tick (Log 3). -/
def step (s : State) : Host.Outcome State Fault Refusal :=
  match s.pending with
  | [] => .next (s.unlessHeld fun s => s.clkPeriod ⟨.advanceFirst, .afterTick⟩)
  | c :: rest => exec c (s.setPending rest)

/-- The command that a table word spells is put at the front of the queue. No row gives bits, so no word spells one (Log 25). -/
def State.withFetchWord (s : State) (nbits w : Nat) : State :=
  match decodeTableWord nbits w with
  | none => s
  | some c => s.setPending (c :: s.pending)

end Sys2Proof.Machine
end

