-- ==== Sys2Proof/Machine/BusCycle.lean ====
section
/-! DEFINITION. A cycle at the bus pins: whether the window takes it, and the row it is (11, section 11.1). -/

namespace Sys2Proof

/-- The access the window takes from a cycle: CS# asserted and exactly one of RD# and WR# (R184). -/
def BusCycle.access (c : BusCycle) : Option BusAccess :=
  if c.select && c.readStrobe != c.writeStrobe then
    some (if c.readStrobe then .read c.addr else .write c.addr c.data)
  else none

/-- The row of an access, by the table of the window. A read without a side effect has none (11.1, R166, R184; Log 19). -/
def BusAccess.row (a : BusAccess) : Option Instr :=
  match a with
  | .read addr =>
    match addr.toNat with
    | 0x5 => some .resultRead
    | 0x6 => some .noteRead
    | 0x8 => some .timeLoRead
    | 0xF => some (.badAddress a)
    | _ => none
  | .write addr data =>
    match addr.toNat with
    | 0x1 => some (.errorWrite data)
    | 0x2 => some (.intEnableWrite data)
    | 0x3 => some (.stageWrite data)
    | 0x4 =>
      some (if data.extractLsb' 8 8 = Config.clearStageCode then .clearStage (data.extractLsb' 0 8) else .commandWrite data)
    | 0xA => some (.flagSelectWrite data)
    | 0xB => some (.flagValueWrite data)
    | _ => some (.badAddress a)

end Sys2Proof

namespace Sys2Proof.Machine

/-- The effect of a bus cycle: none where it is not taken, that of its row, or the word a read without a side effect returns
(R164, R184). -/
def State.busCycle (s : State) (c : BusCycle) : Result :=
  match c.access with
  | none => .next s
  | some a =>
    match a.row, a with
    | some i, _ => exec i s
    | none, .read addr => .next (s.returnWord (readRegister addr s))
    | none, .write _ _ => .next s

end Sys2Proof.Machine
end

