-- ==== Sys2Proof/Safety.lean ====
section
/-! DEFINITION. What the statements speak of: the conditions under which a step is taken, the events of the spec as relations
between the state before and the state after, and the laws every step keeps. -/

namespace Sys2Proof.Machine

/-! ## When a step is taken -/

/-- RESET# is not asserted (R164). -/
def State.Released (s : State) : Prop := s.pins.resetHeld = false

/-- A row of kind `op` and reach `r` gives `c` to its owner and leaves `rest` in the FIFO: the command unit is IDLE, `c` is the oldest
command and the row goes that far, or an earlier row has taken `c` out of the FIFO (R170; Log 30). -/
def State.Gives (s : State) (op : Opcode) (c : Command) (rest : List Command) (r : CommandReach) : Prop :=
  s.Released ∧ Opcode.ofCode c.code = some op
    ∧ ((s.commandUnit.executing = none ∧ s.commandUnit.fifo = c :: rest ∧ r = .owner)
      ∨ (s.commandUnit.executing = some ⟨c, .taken⟩ ∧ s.commandUnit.fifo = rest))

/-- The command unit is EXECUTING `c`, of kind `op`, which waits for `w` (R170). -/
def State.IsExecuting (s : State) (op : Opcode) (c : Command) (w : Work) : Prop :=
  s.Released ∧ s.commandUnit.executing = some ⟨c, w⟩ ∧ Opcode.ofCode c.code = some op

/-- The firing unit has `o` in hand and has presented `r` (R69). -/
def State.InHand (s : State) (o : Occurrence) (r : Request) : Prop :=
  s.Released ∧ s.firing = some o ∧ o.request = some r

/-- No sample of SAFE# up to a row's tick can freeze device time: the pin is not asserted, its level is the qualified one, or a safe
entry would be none or would not freeze (R154, R156, R157). -/
def State.NoFreezeAhead (s : State) : Prop :=
  s.pins.safeLow = false ∨ s.safeController.asserted = true ∨ s.safeController.state = .safe
    ∨ s.safeController.policy = .continue_

/-- The row `k`, taken in `s`, is a counted tick: a TICK that reaches the prescaler under the internal source (R1), or under the
external source a rising edge that the spacing check counts (R2); and SAFE# freezes nothing before it or together with it. -/
def State.CountsTick (s : State) (k : Instr) : Prop :=
  s.NoFreezeAhead
    ∧ ((s.timebase.source = .internal ∧ ∃ pins order clk safe, k = .tick pins order clk safe ∧ 0 < clk
        ∧ s.timebase.prescaler ≤ s.timebase.prescalerCount + clk)
      ∨ (s.timebase.source = .external ∧ ∃ steady pins order low safe, k = .tickEdge steady pins order low safe
        ∧ (s.timebase.tickSample = false ∨ 0 < low)
        ∧ (s.timebase.spacing = none ∨ ∃ n, s.timebase.spacing = some n ∧ 256 ≤ n + (steady + low + 1))))

/-- The rows `cs` are executed one after another. -/
def Runs : List Instr → State → State → Prop
  | [], s, t => t = s
  | c :: cs, s, t => ∃ m, exec c s = .next m ∧ Runs cs m t

/-! ## The command unit and the news, after a step -/

/-- The command unit once `c` is answered, with `rest` in the FIFO (R170, R172). -/
def CommandUnit.answered (u : CommandUnit) (rest : List Command) (c : Command) (status : Status) (data : List Word) :
    CommandUnit where
  fifo := rest
  executing := none
  results := u.results ++ [⟨c.code, c.operand, status, data⟩]

/-- The command unit while `c` waits, with `rest` in the FIFO (R170). -/
def CommandUnit.waiting (u : CommandUnit) (rest : List Command) (c : Command) (w : Work) : CommandUnit where
  fifo := rest
  executing := some ⟨c, w⟩
  results := u.results

/-- The row of the commands of a kind (10.6). -/
def Opcode.row : Opcode → CommandReach → Instr
  | .nop, r => .nop r
  | .define, r => .define r
  | .defineArm, r => .defineArm r
  | .arm, r => .arm r
  | .cancel, r => .cancel r
  | .retime, r => .retime r
  | .release, r => .release r
  | .query, r => .query r
  | .setTime, r => .setTime r
  | .runTime, r => .runTime r
  | .holdTime, r => .holdTime r
  | .setTick, r => .setTick r
  | .setLine, r => .setLine r
  | .configLine, r => .configLine r
  | .configInput, r => .configInput r
  | .configNotify, r => .configNotify r
  | .configSafe, r => .configSafe r
  | .forceSafe, r => .forceSafe r
  | .resume, r => .resume r
  | .resetSchedule, r => .resetSchedule r
  | .resetDevice, r => .resetDevice r

/-- An executing CANCEL that waits for `a` waits for `b` instead; any other command waits as before (R22, R33, R50). -/
def CommandUnit.ClaimMoved (u v : CommandUnit) (a b : Work) : Prop :=
  (∀ c, u.executing = some ⟨c, a⟩ → v = { u with executing := some ⟨c, b⟩ })
    ∧ ((∀ c, u.executing ≠ some ⟨c, a⟩) → v = u)

/-- The notification queue once its producers have sent `news`, in that order (R139). -/
def NoteQueue.sent (q : NoteQueue) (news : List NewsItem) : NoteQueue := { q with inFlight := q.inFlight ++ news }

/-- The PULSE_CUT news of an event that ends the pulses of the selected lines, in ascending line order (R102). -/
def State.cutNews (s : State) (selected : LineId → Bool) : List NewsItem :=
  allLines.filterMap fun n =>
    if selected n then (s.line n).pulse.map fun p => ⟨.slot p.owner, .pulseCut, s.now⟩ else none

/-- A line forced to a level: its pulse is cut, and the driven level follows outside SAFE (R98, R99, R101). -/
def Line.forced (l : Line) (safeDrive level : Bool) : Line :=
  { l with intended := level, driven := if safeDrive then l.driven else level, pulse := none }

/-- A line after its pulse has ended (R95). -/
def Line.ended (l : Line) (safeDrive : Bool) : Line :=
  { l with intended := !l.active, driven := if safeDrive then l.driven else !l.active, pulse := none }

/-! ## Safe entry and exit (R105, R106, R156, R160) -/

/-- A safe entry, whole. -/
def SafeEntry (s t : State) : Prop :=
  t.lineUnit.safeDrive = true
    ∧ (∀ n, t.line n = { s.line n with
        intended := if (s.line n).pulse.isSome then !(s.line n).active else (s.line n).intended
        driven := (s.line n).safe
        pulse := none })
    ∧ t = { s with
        safeController := { s.safeController with state := .safe }
        lineUnit := t.lineUnit
        timebase := { s.timebase with freeze := s.timebase.freeze || s.safeController.policy == .freeze }
        noteQueue := s.noteQueue.sent (s.cutNews (fun _ => true) ++ [⟨.safe, .safeEntered, s.now⟩]) }

/-- A safe exit, whole. -/
def SafeExit (s t : State) : Prop :=
  t.lineUnit.safeDrive = false
    ∧ (∀ n, t.line n = { s.line n with driven := (s.line n).intended })
    ∧ t = { s with
        safeController := { s.safeController with state := .run }
        lineUnit := t.lineUnit
        timebase := { s.timebase with freeze := false }
        noteQueue := s.noteQueue.sent [⟨.safe, .safeExited, s.now⟩] }

/-! ## The due queue (R44, R28 to R30, R52) -/

/-- `e` is placed behind the entries that are not later and before the first that is later (R44). -/
def PlacedIn (e : DueEntry) (es after : List DueEntry) : Prop :=
  ∃ front back, es = front ++ back ∧ after = front ++ e :: back
    ∧ (∀ x ∈ front, earlier e.due x.due = false) ∧ (∀ x, back.head? = some x → earlier e.due x.due = true)

/-- An arm of slot `i` taken by the due queue, with its outcome (R28, R29, R30). -/
def ArmTaken (s : State) (i : SlotId) (due r : Time) (out : ArmOutcome) (t : State) : Prop :=
  (((s.slot i).state = .held ∨ (s.slot i).state = .done) →
    match armCheck due r (s.slot i).definition.pastPolicy with
    | .placed d =>
      out = .placed ∧ ∃ es, PlacedIn ⟨i, d⟩ s.dueQueue.entries es ∧ t = { s with
        dueQueue := { s.dueQueue with entries := es }
        slots := s.slots.set i { s.slot i with
          state := .armed
          due := some d
          phase := .a
          remaining := if (s.slot i).definition.repeatCount = 0 then none
            else some (s.slot i).definition.repeatCount.toNat
          taken := 0
          misses := 0
          lastLateness := 0 } }
    | .tooFar => out = .tooFar ∧ t = { s with slots := s.slots.set i { s.slot i with state := .held } }
    | .past => out = .past ∧ t = { s with slots := s.slots.set i { s.slot i with state := .held } })
  ∧ (¬ ((s.slot i).state = .held ∨ (s.slot i).state = .done) → out = .badState ∧ t = s)

/-! ## Occurrences (04) -/

/-- What the stepping of a DROP advance works on (R85). -/
structure DropPoint where
  candidate : Time
  phase : Phase
  misses : Nat
  remaining : Option Nat

/-- One step of a DROP advance (R85). -/
def DropPoint.next (w : DropPoint) (d : Definition) : DropPoint where
  candidate := w.candidate + BitVec.ofNat 32 (d.interval w.phase)
  phase := d.turn w.phase
  misses := min 65535 (w.misses + 1)
  remaining := w.remaining.map (· - 1)

/-- A DROP advance, step by step: it goes on while the candidate is reached at `time` and remaining is not 0 (R85). -/
inductive DropRun (d : Definition) (time : Time) : DropPoint → DropPoint → Prop
  | stop (w : DropPoint) (h : reached w.candidate time = false ∨ w.remaining = some 0) : DropRun d time w w
  | step (w z : DropPoint) (h : reached w.candidate time = true) (r : w.remaining ≠ some 0)
      (rest : DropRun d time (w.next d) z) : DropRun d time w z

/-- `t` is `s` with slot `i` replaced, the firing unit as given, and news to slot `i` sent with the occurrence time. -/
def SlotNews (s t : State) (i : SlotId) (sl : Slot) (firing : Option Occurrence) (time : Time) (kinds : List Kind) : Prop :=
  t = { s with
    slots := s.slots.set i sl
    firing := firing
    noteQueue := s.noteQueue.sent (kinds.map fun k => ⟨.slot i, k, time⟩) }

/-- The occurrence is counted with outcome kind `k` and stays in hand (R81, R88). -/
def Counted (o : Occurrence) (k : Kind) (s t : State) : Prop :=
  SlotNews s t o.slot
    { s.slot o.slot with
      taken := min 65535 ((s.slot o.slot).taken + 1)
      remaining := (s.slot o.slot).remaining.map (· - 1) }
    (some { o with outcome := some k, request := none, counted := true }) o.time [k]

/-- The ending of a counted occurrence, by the first test that holds (R82 to R86). -/
def Ended (o : Occurrence) (s t : State) : Prop :=
  let sl := s.slot o.slot
  let d := sl.definition
  let candidate := o.due + BitVec.ofNat 32 (d.interval sl.phase)
  let after := d.turn sl.phase
  let again (c : Time) : Option Occurrence := some { o with request := some (.reinsert c) }
  (o.selfCancel = true → SlotNews s t o.slot { sl with state := .held, due := none } none o.time [.cancelled])
  ∧ (o.selfCancel = false → sl.remaining = some 0 ∨ d.intervalA = 0 →
    SlotNews s t o.slot { sl with state := .done, due := none } none o.time [.done])
  ∧ (o.selfCancel = false → ¬ (sl.remaining = some 0 ∨ d.intervalA = 0) →
    (reached candidate o.time = false ∨ (o.lateness < Config.staleBound ∧ d.missPolicy = .catchUp) →
      SlotNews s t o.slot { sl with phase := after } (again candidate) o.time [])
    ∧ (reached candidate o.time = true → Config.staleBound ≤ o.lateness ∨ d.missPolicy = .drop →
      ∃ w, DropRun d o.time ⟨candidate, after, sl.misses, sl.remaining⟩ w
        ∧ (w.remaining = some 0 → SlotNews s t o.slot
            { sl with phase := w.phase, misses := w.misses, remaining := w.remaining, state := .done, due := none }
            none o.time [.missed, .done])
        ∧ (w.remaining ≠ some 0 → SlotNews s t o.slot
            { sl with phase := w.phase, misses := w.misses, remaining := w.remaining }
            (again w.candidate) o.time [.missed])))

/-- Counting and then the ending of an occurrence whose outcome kind is `k` (R63, R81 to R88). -/
def Ending (o : Occurrence) (k : Kind) (s t : State) : Prop :=
  ∃ m, Counted o k s m ∧ Ended { o with outcome := some k, request := none, counted := true } m t

/-- The effect of the occurrence is over, with outcome kind `k`: it goes on at once, or stays in hand with no request outstanding
(R63, R73, R119; Log 32). -/
def EffectTaken (a : AfterEffect) (o : Occurrence) (k : Kind) (s t : State) : Prop :=
  match a with
  | .goesOn => Ending o k s t
  | .staysInHand => t = { s with firing := some { o with outcome := some k, request := none, counted := false } }

/-- The state with a request of the occurrence presented (R69). -/
def State.presenting (s : State) (o : Occurrence) (r : Request) : State :=
  { s with firing := some { o with request := some r } }

/-- The effect of an occurrence whose checks have passed (R69 to R79). -/
def Applied (a : AfterEffect) (o : Occurrence) (s t : State) : Prop :=
  match (s.slot o.slot).definition.action with
  | .drive n v => t = s.presenting o (.drive n v)
  | .toggle n => t = s.presenting o (.toggle n)
  | .pulse n w => t = s.presenting o (.pulse n w)
  | .flag f op => t = s.presenting o (.flag f op)
  | .arm target offset =>
    (target = o.slot → EffectTaken a o o.appliedKind
      { s with noteQueue := s.noteQueue.sent [⟨.slot o.slot, .armFailed, o.time⟩] } t)
    ∧ (target ≠ o.slot → t = s.presenting o (.insert target (o.due + offset.setWidth 32)))
  | .cancel target =>
    (target = o.slot → EffectTaken a { o with selfCancel := true } o.appliedKind s t)
    ∧ (target ≠ o.slot → (s.slot target).state = .armed → t = s.presenting o (.remove target))
    ∧ (target ≠ o.slot → (s.slot target).state = .waiting → t = s.presenting o (.withdraw target))
    ∧ (target ≠ o.slot → (s.slot target).state ≠ .armed → (s.slot target).state ≠ .waiting →
      EffectTaken a o o.appliedKind s t)
  | .wait w => ∃ m, Counted o o.appliedKind s m
    ∧ t = m.presenting { o with outcome := some o.appliedKind, counted := true } (.place w)
  | .mark => EffectTaken a o o.appliedKind s t

/-- From the release to the effect: the stale check, the late check, the guard check (R63 to R68). -/
def Performed (a : AfterEffect) (o : Occurrence) (s t : State) : Prop :=
  let d := (s.slot o.slot).definition
  let late := d.lateLimit ≠ 65535 ∧ d.lateLimit.toNat < o.lateness
  let passes := ∀ g, d.guard = some g → s.flag g.flag = g.level
  (Config.staleBound ≤ o.lateness → EffectTaken a o .skippedLate s t)
  ∧ (o.lateness < Config.staleBound → late ∧ d.latePolicy = .skip → EffectTaken a o .skippedLate s t)
  ∧ (o.lateness < Config.staleBound → ¬ (late ∧ d.latePolicy = .skip) →
    ∃ mark, (mark = true ↔ late)
      ∧ (¬ passes → EffectTaken a { o with late := mark } .skippedGuard s t)
      ∧ (passes → Applied a { o with late := mark } s t))

/-! ## Waits (07) -/

/-- A wait of slot `i` ends at `time`: the slot is DONE, its news is sent and its arm, if any, is pending (R40, R127 to R129). -/
def WaitEnded (s t : State) (i : SlotId) (k : Kind) (time : Time) (arms : List PendingArm) : Prop :=
  t = { s with
    slots := s.slots.set i { s.slot i with state := .done, due := none }
    noteQueue := s.noteQueue.sent [⟨.slot i, k, time⟩]
    waitList := { s.waitList with arms := s.waitList.arms ++ arms }
    firing := none }

/-! ## Attention and INT (R148, R151) -/

/-- A cause of attention holds (R148). -/
def NoteQueue.Cause (q : NoteQueue) : Prop :=
  ∃ r rest, q.records = r :: rest
    ∧ (q.threshold ≤ q.records.length ∨ (q.holdoff ≠ 0 ∧ q.holdoff.toNat ≤ r.age)
      ∨ ∃ x ∈ q.records, ∃ k : Kind, x.seen.getLsbD k.code = true ∧ q.urgent.getLsbD k.code = true)

/-- An enabled cause of INT is on (R151). -/
def State.IntCause (s : State) : Prop :=
  (s.noteQueue.attention = true ∧ s.window.intEnable.getLsbD 0 = true)
    ∨ (s.commandUnit.results ≠ [] ∧ s.window.intEnable.getLsbD 1 = true)
    ∨ (s.window.error ≠ 0 ∧ s.window.intEnable.getLsbD 2 = true)

/-! ## Ticks (R3, R4, R108 to R112, R147) -/

/-- What is in flight before a tick is taken first, by the rows that take it: the acceptances, the flag changes, the deadlines and
the pulse ends of the last advance (R95, R109, R128, R129; Log 5). That the flag changes come before the deadlines is the model's
choice (R130; Log 35). -/
def Settled (s t : State) : Prop :=
  ∃ a b, Runs (List.replicate s.inputUnit.handed.length .inputAccept) s a
    ∧ Runs (List.replicate a.flagBank.events.length .matched) a b
    ∧ Runs (.timeout :: allLines.map Instr.pulseEnd) b t

/-- Nothing is in flight: no acceptance, no flag change, no deadline reached, no pulse end reached. -/
def State.NothingInFlight (s : State) : Prop :=
  s.inputUnit.handed = [] ∧ s.flagBank.events = []
    ∧ (∀ e ∈ s.waitList.entries, ∀ d, e.deadline = some d → reached d s.now = false)
    ∧ ∀ n p, (s.line n).pulse = some p → reached p.endTime s.now = false

/-- The sample of input `i` is accepted: it differs from the level flag and the candidate count is at Q (R109). -/
def State.Accepts (s : State) (pins : BitVec 16) (i : LineId) : Prop :=
  pins.getLsbD i.val ≠ s.flag (levelFlag i) ∧ (s.input i).q ≤ (s.input i).candidate

/-- Whether an edge to `level` is included, by the table of R111. -/
def Included (e : EdgeSelection) (level : Bool) : Prop :=
  (e = .rise ∧ level = true) ∨ (e = .fall ∧ level = false) ∨ e = .both

/-- `made` are the acceptances of one tick's samples, in ascending input order, with the time `now` (R109, R110, R112). -/
def State.Made (s : State) (pins : BitVec 16) (now : Time) (made : List Acceptance) : Prop :=
  made.map Acceptance.input = allLines.filter (fun i =>
      pins.getLsbD i.val != s.flag (levelFlag i) && decide ((s.input i).q ≤ (s.input i).candidate))
    ∧ ∀ a ∈ made, a.level = pins.getLsbD a.input.val ∧ (a.included = true ↔ Included (s.input a.input).edge a.level)
      ∧ a.notify = (s.input a.input).notify ∧ a.time = now

/-- Device time after a counted tick (R4). -/
def Timebase.ticked (b : Timebase) : Timebase :=
  { b with time := if b.desired = .run ∧ b.freeze = false then b.time + 1 else b.time }

/-- Every record ages by one, and attention follows (R147, R148). -/
def Aged (s t : State) : Prop :=
  ∃ on, t = { s with noteQueue := { s.noteQueue with
      records := s.noteQueue.records.map fun r => { r with age := if r.age < 65535 then r.age + 1 else 65535 }
      attention := on } }
    ∧ (on = true ↔ t.noteQueue.Cause)

/-- One tick delivered to a state with nothing in flight. With `samplesFirst` the acceptances of the tick, and the matches they
make, are taken by their rows before its advance (R3, R108, R109, R112, R130; Log 5). -/
def Delivered (s t : State) (pins : BitVec 16) (order : TickOrder) : Prop :=
  ∃ (inputs : Vector Input 16) (made : List Acceptance),
    (∀ i : LineId, inputs[i] = { s.input i with
      raw := pins.getLsbD i.val
      candidate := if pins.getLsbD i.val = s.flag (levelFlag i) then 0
        else if (s.input i).candidate < (s.input i).q then (s.input i).candidate + 1 else 0 })
    ∧ match order with
      | .advanceFirst =>
        s.Made pins s.timebase.ticked.time made
          ∧ Aged { s with timebase := s.timebase.ticked, inputUnit := ⟨inputs, s.inputUnit.handed ++ made⟩ } t
      | .samplesFirst =>
        s.Made pins s.timebase.time made
          ∧ ∃ a b, Runs (List.replicate (s.inputUnit.handed ++ made).length .inputAccept)
              { s with inputUnit := ⟨inputs, s.inputUnit.handed ++ made⟩ } a
            ∧ Runs (List.replicate a.flagBank.events.length .matched) a b
            ∧ Aged { b with timebase := b.timebase.ticked } t

/-- One tick, whole: what is in flight is taken, then the tick is delivered. What it leaves alone, and what it does where nothing
is in flight, is said again field by field. -/
structure Ticked (s t : State) (levels : BitVec 16) (order : TickOrder) : Prop where
  whole : ∃ m, Settled s m ∧ Delivered m t levels order
  timebase : t.timebase = { s.timebase with
    time := if s.timebase.desired = .run ∧ s.timebase.freeze = false then s.timebase.time + 1 else s.timebase.time }
  dueQueue : t.dueQueue = s.dueQueue
  firing : t.firing = s.firing
  safeController : t.safeController = s.safeController
  window : t.window = s.window
  commandUnit : t.commandUnit = s.commandUnit
  pins : t.pins = s.pins
  pending : t.pending = s.pending
  records : t.noteQueue.records = s.noteQueue.records.map fun r => { r with age := min 65535 (r.age + 1) }
  settings : t.noteQueue.threshold = s.noteQueue.threshold ∧ t.noteQueue.holdoff = s.noteQueue.holdoff
    ∧ t.noteQueue.urgent = s.noteQueue.urgent
  attention : t.noteQueue.attention = true ↔ t.noteQueue.Cause
  raw : ∀ i, (t.input i).raw = levels.getLsbD i.val
  lines : s.NothingInFlight → t.lineUnit = s.lineUnit
  equalSample : s.NothingInFlight → ∀ i, levels.getLsbD i.val = s.flag (levelFlag i) →
    t.input i = { s.input i with raw := levels.getLsbD i.val, candidate := 0 } ∧ t.flag (levelFlag i) = s.flag (levelFlag i)
  countedSample : s.NothingInFlight → ∀ i, levels.getLsbD i.val ≠ s.flag (levelFlag i) →
    (s.input i).candidate < (s.input i).q →
    t.input i = { s.input i with raw := levels.getLsbD i.val, candidate := (s.input i).candidate + 1 }
      ∧ t.flag (levelFlag i) = s.flag (levelFlag i)
  acceptedSample : s.NothingInFlight → ∀ i, s.Accepts levels i →
    t.input i = { s.input i with raw := levels.getLsbD i.val, candidate := 0 }
  handedOver : s.NothingInFlight → order = .advanceFirst → s.Made levels t.now t.inputUnit.handed
  untouched : s.NothingInFlight → (order = .advanceFirst ∨ ∀ i, ¬ s.Accepts levels i) →
    t.slots = s.slots ∧ t.waitList = s.waitList ∧ t.flagBank = s.flagBank
      ∧ t.noteQueue = { s.noteQueue with records := t.noteQueue.records, attention := t.noteQueue.attention }
  otherFlags : s.NothingInFlight → ∀ f, (∀ i, s.Accepts levels i → f ≠ levelFlag i ∧ f ≠ edgeLatch i) → t.flag f = s.flag f
  takenBefore : s.NothingInFlight → order = .samplesFirst → t.inputUnit.handed = [] ∧ ∀ i, s.Accepts levels i →
    t.flag (levelFlag i) = levels.getLsbD i.val
      ∧ (Included (s.input i).edge (levels.getLsbD i.val) → t.flag (edgeLatch i) = true
        ∧ ((s.input i).notify = true → ⟨.input i, .edge, s.now⟩ ∈ t.noteQueue.inFlight))
      ∧ (¬ Included (s.input i).edge (levels.getLsbD i.val) → t.flag (edgeLatch i) = s.flag (edgeLatch i))

/-- One tick in a CLK period: the tick, and behind it the pulse ends that come before the period's SAFE# sample, by the rows that
take them (R95, R105; Log 34). -/
def TickTaken (s t : State) (levels : BitVec 16) (order : ClkOrder) : Prop :=
  ∃ m, Ticked s m levels order.tick ∧ Runs ((linesEnded order.safe).map Instr.pulseEnd) m t

/-- The spacing check judges an edge detected one CLK period after its count was last taken: a counted edge is one tick and restarts
the count, another one only sets ERROR.TICK_FAST, bit 5 (R2). -/
def EdgeJudged (s t : State) (pins : BitVec 16) (order : ClkOrder) : Prop :=
  (∀ n, s.timebase.spacing = some n → n + 1 < 256 → t = { s with
    timebase := { s.timebase with spacing := some (n + 1) }
    window := { s.window with error := s.window.error ||| 0x20 } })
  ∧ ((s.timebase.spacing = none ∨ ∃ n, s.timebase.spacing = some n ∧ 256 ≤ n + 1) →
    TickTaken { s with timebase := { s.timebase with spacing := some 0 } } t pins order)

/-- One CLK sample of SAFE# at the level `low`, by the table of R154; the acceptance of the asserted level enters SAFE from RUN
(R155, R156, R157). -/
def SafeSampled (s t : State) (low : Bool) : Prop :=
  (low = s.safeController.asserted →
    t = { s with safeController := { s.safeController with candidate := 0 } })
  ∧ (low ≠ s.safeController.asserted → s.safeController.candidate < 3 →
    t = { s with safeController := { s.safeController with candidate := s.safeController.candidate + 1 } })
  ∧ (low ≠ s.safeController.asserted → 3 ≤ s.safeController.candidate →
    (low = false ∨ s.safeController.state = .safe →
      t = { s with safeController := { s.safeController with candidate := 0, asserted := low } })
    ∧ (low = true → s.safeController.state = .run →
      SafeEntry { s with safeController := { s.safeController with candidate := 0, asserted := true } } t))

/-- The tick sources in one CLK period. TICK is sampled and a rising edge judged (R2), and the prescaler count moves and restarts
with a tick (R1). That TICK is sampled under the internal source is the model's choice (Log 27). -/
def SourcesRun (order : ClkOrder) (s t : State) : Prop :=
  (s.timebase.source = .internal → s.timebase.prescalerCount + 1 < s.timebase.prescaler → t = { s with
      timebase := { s.timebase with prescalerCount := s.timebase.prescalerCount + 1, tickSample := s.pins.tickHigh } })
  ∧ (s.timebase.source = .internal → s.timebase.prescaler ≤ s.timebase.prescalerCount + 1 → TickTaken { s with
      timebase := { s.timebase with prescalerCount := 0, tickSample := s.pins.tickHigh } } t s.pins.inputs order)
  ∧ (s.timebase.source = .external → s.pins.tickHigh = false ∨ s.timebase.tickSample = true → t = { s with
      timebase := { s.timebase with spacing := s.timebase.spacing.map (· + 1), tickSample := s.pins.tickHigh } })
  ∧ (s.timebase.source = .external → s.pins.tickHigh = true → s.timebase.tickSample = false →
      EdgeJudged { s with timebase := { s.timebase with tickSample := true } } t s.pins.inputs order)

/-- One CLK period: the tick sources run, and SAFE# is sampled by the table of R154, before them or behind them (R105, R156;
Log 34). -/
def ClkPassed (order : ClkOrder) (s t : State) : Prop :=
  match order.safe with
  | .beforeTick => ∃ m, SafeSampled s m s.pins.safeLow ∧ SourcesRun order m t
  | .afterTick _ => ∃ m, SourcesRun order s m ∧ SafeSampled m t s.pins.safeLow

/-- CLK periods one after another (R1, R2, R154). -/
def PeriodsPass (order : ClkOrder) : Nat → State → State → Prop
  | 0, s, t => t = s
  | n + 1, s, t => ∃ m, PeriodsPass order n s m ∧ ClkPassed order m t

/-! ## Laws every step keeps -/

/-- The firing unit has the slot in hand. -/
def State.inHandOf (s : State) (i : SlotId) : Prop := ∃ o, s.firing = some o ∧ o.slot = i

/-- R20: the due queue, the wait list and the firing unit hold a slot exactly when its state says so. With it: the due of an
entry and of the slot in hand is the slot's current due (R43), a slot outside ARMED and FIRING has none (R18), a slot has a
definition exactly outside FREE (R14), and the wait list holds at most 32 entries (R124). -/
structure SlotLaw (s : State) : Prop where
  armed : ∀ i, (s.slot i).state = .armed ↔ ∃ e ∈ s.dueQueue.entries, e.slot = i
  waiting : ∀ i, (s.slot i).state = .waiting ↔ ∃ e ∈ s.waitList.entries, e.slot = i
  firing : ∀ i, (s.slot i).state = .firing ↔ s.inHandOf i
  queueNodup : (s.dueQueue.entries.map DueEntry.slot).Nodup
  waitNodup : (s.waitList.entries.map WaitEntry.slot).Nodup
  entryDue : ∀ e ∈ s.dueQueue.entries, (s.slot e.slot).due = some e.due
  handDue : ∀ o, s.firing = some o → (s.slot o.slot).due = some o.due
  noDue : ∀ i, (s.slot i).state ≠ .armed → (s.slot i).state ≠ .firing → (s.slot i).due = none
  free : ∀ i, (s.slot i).state = .free ↔ (s.slot i).defn = none
  capacity : s.waitList.entries.length ≤ 32
  whole : s.dueQueue.inFlight = none

/-- R19: for a bounded slot, what is left, what was taken and what was skipped make the repeat count, and an occurrence not yet
counted, or an arm, leaves at least one (R81). An unbounded slot has no remaining (R18). -/
structure AllowanceLaw (s : State) : Prop where
  unbounded : ∀ i d, (s.slot i).defn = some d → d.repeatCount = 0 → (s.slot i).remaining = none
  bounded : ∀ i d, (s.slot i).defn = some d → d.repeatCount ≠ 0 →
    ∃ r, (s.slot i).remaining = some r ∧ r + (s.slot i).taken + (s.slot i).misses = d.repeatCount.toNat
  armed : ∀ i, (s.slot i).state = .armed → (s.slot i).remaining ≠ some 0
  inHand : ∀ o, s.firing = some o → (∃ w, o.request = some (.place w)) ∨ (o.counted = true ∧ o.request = none)
    ∨ (s.slot o.slot).remaining ≠ some 0
  counted : ∀ o, s.firing = some o → o.counted = true → o.outcome ≠ none

/-- R91 and R92: the safe drive mark agrees with the safe state; in SAFE every driven level is the safe level and no line has a
pulse; in RUN every driven level is the intended level; and a line with a pulse intends its active level. With it, the freeze
mark is set only in SAFE (R158). -/
structure LineLaw (s : State) : Prop where
  mark : s.lineUnit.safeDrive = true ↔ s.safeController.state = .safe
  safeDriven : s.lineUnit.safeDrive = true → ∀ n, (s.line n).driven = (s.line n).safe ∧ (s.line n).pulse = none
  runDriven : s.lineUnit.safeDrive = false → ∀ n, (s.line n).driven = (s.line n).intended
  pulseActive : ∀ n, (s.line n).pulse ≠ none → (s.line n).intended = (s.line n).active
  freeze : s.timebase.freeze = true → s.safeController.state = .safe

/-- R138, R142, R148: one record for a source; counts, ages and settings in their ranges; the cursor inside the oldest record;
and attention as its causes say. -/
structure NoteLaw (s : State) : Prop where
  sources : (s.noteQueue.records.map NoteRecord.source).Nodup
  counts : ∀ r ∈ s.noteQueue.records, 1 ≤ r.count ∧ r.count ≤ 255 ∧ r.age ≤ 65535 ∧ r.seen.getLsbD r.lastKind.code = true
  threshold : 1 ≤ s.noteQueue.threshold ∧ s.noteQueue.threshold ≤ 145
  cursor : s.window.noteCursor ≤ 4 ∧ (s.noteQueue.records = [] → s.window.noteCursor = 0)
  attention : s.noteQueue.attention = true ↔ s.noteQueue.Cause

/-- R165, R167, R172, R173: at most 16 staged words, the budget of eight, a result record of 2 or 10 words, and the cursor
inside the oldest record. -/
structure PathLaw (s : State) : Prop where
  staging : s.window.staging.length ≤ 16
  budget : s.commandUnit.fifo.length + (if s.commandUnit.executing.isSome then 1 else 0) + s.commandUnit.results.length ≤ 8
  data : ∀ r ∈ s.commandUnit.results, r.data.length = 0 ∨ (r.data.length = 8 ∧ r.status = .ok)
  cursor : s.window.resultCursor ≤ 9 ∧ (s.commandUnit.results = [] → s.window.resultCursor = 0)
    ∧ ∀ r rest, s.commandUnit.results = r :: rest → s.window.resultCursor < 2 + r.data.length

/-- R1, R9, R109, R122, R154: the qualifiers' counts and the prescaler stay in their ranges. -/
structure CountLaw (s : State) : Prop where
  inputs : ∀ i, (s.input i).q ≤ 15 ∧ (s.input i).candidate ≤ (s.input i).q
  safe : s.safeController.candidate ≤ 3
  prescaler : 256 ≤ s.timebase.prescaler ∧ s.timebase.prescaler ≤ 65536
    ∧ s.timebase.prescalerCount < s.timebase.prescaler

end Sys2Proof.Machine
end

