-- ==== Sys2Proof/Certificates/Slice0/Obligations.lean ====
section
/-! DEFINITION. The statements for the provers. -/

open Sys2Proof Sys2Proof.Machine

/-! ## The queue of steps, reset, RESET# -/

/-- The command at the front of the queue is executed on the state with the queue's rest. No command, with any operands and in
any state, ends in a fault or a refusal, and none touches the queue. -/
def Obligations.StepTakesTheFrontCommand : Prop :=
  (∀ (s : State) (c : Instr) (rest : List Instr), s.pending = c :: rest →
    step s = exec c { s with pending := rest })
  ∧ ∀ (c : Instr) (s : State), ∃ t, exec c s = .next t ∧ t.pending = s.pending

/-- The model's choice (Log 3, Log 34): on an empty queue one CLK period passes, its advance first and its SAFE# sample behind the
tick. TICK is sampled and a rising edge judged (R2), the prescaler count moves and restarts with a tick (R1), and SAFE# is sampled by
the table of R154. -/
def Obligations.EmptyQueuePassesOneClkPeriod : Prop :=
  ∀ s : State, s.pending = [] →
    (s.pins.resetHeld = true → step s = .next s)
    ∧ (s.Released → ∃ t, step s = .next t ∧ ClkPassed ⟨.advanceFirst, .afterTick⟩ s t)

/-- What reset leaves in every block, by the tables at the head of the chapters. The pins' own values and the empty queue are
the model's (Log 1, Log 16, Log 17, Log 27, Log 33), as is the last sample of TICK, and are not stated here. -/
def Obligations.ResetLeavesTheStatedValues : Prop :=
  State.reset.timebase = ⟨0, .hold, false, .internal, 1000, 0, none, State.reset.timebase.tickSample⟩
  ∧ (∀ i, State.reset.slot i = ⟨.free, none, none, .a, none, 0, 0, 0⟩)
  ∧ State.reset.dueQueue = ⟨[], none, false⟩
  ∧ State.reset.firing = none
  ∧ State.reset.waitList = ⟨[], []⟩
  ∧ State.reset.lineUnit.safeDrive = false
  ∧ (∀ n, State.reset.line n = ⟨false, false, true, false, none⟩)
  ∧ (∀ i, State.reset.input i = ⟨false, 2, 0, .none, false⟩)
  ∧ State.reset.inputUnit.handed = []
  ∧ (∀ f, State.reset.flag f = false)
  ∧ State.reset.flagBank.events = []
  ∧ State.reset.noteQueue = ⟨[], 1, 0, 0, false, []⟩
  ∧ State.reset.safeController = ⟨.run, .continue_, false, 0⟩
  ∧ State.reset.window = ⟨[], 0, 0, 0, 0, 0, 0, 0⟩
  ∧ State.reset.commandUnit = ⟨[], none, []⟩

/-- HARD_RESET, POWER_ON and RESET_RELEASED put every block at its reset values (R164). What a pin-held device does at power-on
and the release without an assertion are the model's choice (Log 15). -/
def Obligations.ResetRowsSetEveryBlock : Prop :=
  ∀ s : State,
    exec .hardReset s = .next { State.reset with pins := { s.pins with resetHeld := true }, pending := s.pending }
    ∧ exec .powerOn s = .next { State.reset with pins := s.pins, pending := s.pending }
    ∧ (s.pins.resetHeld = true →
      exec .resetReleased s =
        .next { State.reset with pins := { s.pins with resetHeld := false }, pending := s.pending })
    ∧ (s.Released → exec .resetReleased s = .next s)

/-- While RESET# is asserted no access is taken and every block keeps its values; a read returns 0 (R164). That the rows of the input
pins leave the levels at the pins as well is the model's choice (Log 36). -/
def Obligations.AssertedResetTakesNothing : Prop :=
  ∀ (c : Instr) (s : State), s.pins.resetHeld = true → c ≠ .hardReset → c ≠ .powerOn → c ≠ .resetReleased →
    ((c = .resultRead ∨ c = .noteRead ∨ c = .timeLoRead ∨ ∃ a, c = .badAddress (.read a)) →
      exec c s = .next { s with pins := { s.pins with readWord := 0 } })
    ∧ (¬ (c = .resultRead ∨ c = .noteRead ∨ c = .timeLoRead ∨ ∃ a, c = .badAddress (.read a)) → exec c s = .next s)
    ∧ ∀ a, readRegister a s = 0

/-- R186: IDENT reads 4C81h in every state in which a read is taken, with its three fields, after any reset as before. -/
def Obligations.IdentReadsTheDeviceCode : Prop :=
  (∀ s : State, s.Released → readRegister 0xE s = 0x4C81)
  ∧ (∀ s : State, s.Released → (readRegister 0xE s).extractLsb' 8 8 = 0x4C
    ∧ (readRegister 0xE s).extractLsb' 4 4 = 0x8 ∧ (readRegister 0xE s).extractLsb' 0 4 = 0x1)
  ∧ ∀ (c : Instr) (s t : State), s.Released → exec c s = .next t → t.Released → readRegister 0xE t = readRegister 0xE s

/-! ## Ticks, inputs -/

/-- TICK under the internal source: below the prescaler only the count moves with the CLK periods; at the prescaler it restarts and
one tick is delivered, in the last of them (R1, R3). SAFE# is sampled in every one (R154), and so is TICK, by the model's choice
(Log 4, Log 27). Where a safe entry under FREEZE meets the tick, device time advances once more, or stays where the mark is taken
first (R156). Under the external source the row has no effect. The flags of an input are those of R114, and an edge is included by
the table of R111. -/
def Obligations.InternalTickCountsAndSamples : Prop :=
  (∀ i : LineId, (levelFlag i).val = i.val ∧ (edgeLatch i).val = 16 + i.val)
  ∧ (∀ (e : EdgeSelection) (level : Bool), e.includes level = true ↔ Included e level)
  ∧ ∀ (s : State) (pins : BitVec 16) (order : TickOrder) (clk : Nat) (safe : SafeOrder), s.Released →
    let shown : State := { s with pins := { s.pins with inputs := pins } }
    (s.timebase.source = .external → exec (.tick pins order clk safe) s = .next s)
    ∧ (s.timebase.source = .internal → clk = 0 ∨ s.timebase.prescalerCount + clk < s.timebase.prescaler →
      ∃ t, exec (.tick pins order clk safe) s = .next t ∧ PeriodsPass ⟨order, safe⟩ clk shown t
        ∧ t.now = s.now ∧ t.timebase.prescalerCount = s.timebase.prescalerCount + clk
        ∧ (0 < clk → s.pins.safeLow = s.safeController.asserted → t = { shown with
            timebase := { s.timebase with
              prescalerCount := s.timebase.prescalerCount + clk, tickSample := s.pins.tickHigh }
            safeController := { s.safeController with candidate := 0 } }))
    ∧ (s.timebase.source = .internal → 0 < clk → s.timebase.prescaler ≤ s.timebase.prescalerCount + clk →
      ∃ m t, exec (.tick pins order clk safe) s = .next t
        ∧ PeriodsPass ⟨order, safe⟩ (s.timebase.prescaler - (s.timebase.prescalerCount + 1)) shown m
        ∧ m.timebase.source = .internal ∧ m.timebase.prescaler ≤ m.timebase.prescalerCount + 1 ∧ ClkPassed ⟨order, safe⟩ m t)
    ∧ (s.timebase.source = .internal → s.timebase.prescaler = s.timebase.prescalerCount + 1 → 0 < clk →
      s.timebase.desired = .run → s.timebase.freeze = false → s.pins.safeLow = true →
      s.safeController = ⟨.run, .freeze, false, 3⟩ →
      ∃ t, exec (.tick pins order clk safe) s = .next t ∧ t.safeController.state = .safe ∧ t.timebase.freeze = true
        ∧ t.now = if safe = .beforeTick then s.now else s.now + 1)

/-- TICK_EDGE: TICK is sampled `steady` times at its last level, `low` times low and then high, each in a CLK period. A high sample
after a low one is a rising edge, which the spacing check judges; a counted edge is one tick (R2, R3). A high sample after a high one
is no edge. SAFE# is sampled in every period (R154). That the periods under the internal source are those of R1, with the pin
followed and sampled, is the model's choice (Log 4, Log 27). -/
def Obligations.ExternalEdgeIsJudgedBySpacing : Prop :=
  ∀ (s : State) (steady : Nat) (pins : BitVec 16) (order : TickOrder) (low : Nat) (safe : SafeOrder),
    s.Released → ∃ a b t, exec (.tickEdge steady pins order low safe) s = .next t
      ∧ PeriodsPass ⟨order, safe⟩ steady
          { s with pins := { s.pins with tickHigh := s.timebase.tickSample, inputs := pins } } a
      ∧ PeriodsPass ⟨order, safe⟩ low { a with pins := { a.pins with tickHigh := false } } b
      ∧ ClkPassed ⟨order, safe⟩ { b with pins := { b.pins with tickHigh := true } } t
      ∧ t.pins = { s.pins with tickHigh := true, inputs := pins } ∧ t.timebase.tickSample = true
      ∧ (s.timebase.source = .external →
        b.now = s.now ∧ b.timebase.spacing = s.timebase.spacing.map (· + (steady + low))
        ∧ b.timebase.tickSample = (if low = 0 then s.timebase.tickSample else false)
        ∧ (s.timebase.tickSample = true → low = 0 → t.now = s.now ∧ t.window = s.window
          ∧ t.timebase.spacing = s.timebase.spacing.map (· + (steady + low + 1)))
        ∧ (s.timebase.tickSample = false ∨ 0 < low →
          (∀ n, s.timebase.spacing = some n → n + (steady + low + 1) < 256 → t.now = s.now
            ∧ t.timebase.spacing = some (n + (steady + low + 1))
            ∧ t.window = { s.window with error := s.window.error ||| 0x20 })
          ∧ (s.timebase.spacing = none ∨ (∃ n, s.timebase.spacing = some n ∧ 256 ≤ n + (steady + low + 1)) →
            t.timebase.spacing = some 0 ∧ t.window = s.window)))

/-- INPUT_ACCEPT: the level flag, then the latch if the edge is included, then EDGE news if the switch was on (R110, R112,
R115). With nothing handed over, nothing changes. The flags of an input are those of R114, and whether the edge is included was
decided by the table of R111. -/
def Obligations.AcceptanceSetsLevelThenLatchThenNews : Prop :=
  (∀ i : LineId, (levelFlag i).val = i.val ∧ (edgeLatch i).val = 16 + i.val)
  ∧ (∀ level, EdgeSelection.none.includes level = false ∧ EdgeSelection.rise.includes level = level
    ∧ EdgeSelection.fall.includes level = !level ∧ EdgeSelection.both.includes level = true)
  ∧ ∀ s : State, s.Released →
    (s.inputUnit.handed = [] → exec .inputAccept s = .next s)
    ∧ ∀ a rest, s.inputUnit.handed = a :: rest → ∃ t, exec .inputAccept s = .next t
      ∧ t.flag (levelFlag a.input) = a.level
      ∧ t.flag (edgeLatch a.input) = (a.included || s.flag (edgeLatch a.input))
      ∧ (∀ f, f ≠ levelFlag a.input → f ≠ edgeLatch a.input → t.flag f = s.flag f)
      ∧ t = { s with
          inputUnit := { s.inputUnit with handed := rest }
          flagBank := ⟨t.flagBank.flags, s.flagBank.events
            ++ (if s.flag (levelFlag a.input) = a.level then [] else [⟨levelFlag a.input, a.level⟩])
            ++ (if a.included = true ∧ s.flag (edgeLatch a.input) = false then [⟨edgeLatch a.input, true⟩] else [])⟩
          noteQueue := s.noteQueue.sent
            (if a.included = true ∧ a.notify = true then [⟨.input a.input, .edge, a.time⟩] else []) }

/-! ## Safe state -/

/-- SAFE_ASSERTED and SAFE_RELEASED are CLK samples of the pin at one level, four of them where not given otherwise (Log 17). Each is
one CLK period (Log 4), in which R154 qualifies the pin. Four in a row are accepted and three are not. The acceptance of the asserted
level enters SAFE from RUN (R156) and changes nothing in SAFE (R157), and that of the other level changes the qualified level only. -/
def Obligations.SafePinLevelIsQualified : Prop :=
  ∀ (s : State) (low : Bool) (samples : Nat) (order : TickOrder) (safe : SafeOrder), s.Released → ∃ t,
    exec (if low then .safeAsserted samples order safe else .safeReleased samples order safe) s = .next t
    ∧ PeriodsPass ⟨order, safe⟩ samples { s with pins := { s.pins with safeLow := low } } t
    ∧ t.pins.safeLow = low
    ∧ (s.safeController.asserted = low → t.safeController.asserted = low ∧ t.safeController.state = s.safeController.state
      ∧ (0 < samples → t.safeController.candidate = 0))
    ∧ (s.safeController.asserted = !low → s.safeController.candidate + samples ≤ 3 →
      t.safeController = { s.safeController with candidate := s.safeController.candidate + samples })
    ∧ (s.safeController.asserted = !low → 0 < samples → 4 ≤ s.safeController.candidate + samples →
      t.safeController.asserted = low ∧ t.safeController.candidate = 0
      ∧ (low = true → t.safeController.state = .safe)
      ∧ (low = false → t.safeController.state = s.safeController.state))

/-- FORCE_SAFE (R155, R156, R157). -/
def Obligations.ForceSafeEntersSafe : Prop :=
  ∀ (s : State) (c : Command) (rest : List Command) (reach : CommandReach), s.Gives .forceSafe c rest reach →
    (c.args ≠ [] → exec (.forceSafe reach) s = .next { s with commandUnit := s.commandUnit.answered rest c .argCount [] })
    ∧ (c.args = [] → s.safeController.state = .safe →
      exec (.forceSafe reach) s = .next { s with commandUnit := s.commandUnit.answered rest c .ok [] })
    ∧ (c.args = [] → s.safeController.state = .run → ∃ t, exec (.forceSafe reach) s = .next t
      ∧ SafeEntry { s with commandUnit := s.commandUnit.answered rest c .ok [] } t)

/-- RESUME, its checks in the order of R159 and its effect (R160). -/
def Obligations.ResumeLeavesSafe : Prop :=
  ∀ (s : State) (c : Command) (rest : List Command) (reach : CommandReach), s.Gives .resume c rest reach →
    (c.args ≠ [] → exec (.resume reach) s = .next { s with commandUnit := s.commandUnit.answered rest c .argCount [] })
    ∧ (c.args = [] → s.safeController.state = .run →
      exec (.resume reach) s = .next { s with commandUnit := s.commandUnit.answered rest c .badState [] })
    ∧ (c.args = [] → s.safeController.state = .safe → s.safeController.asserted = true →
      exec (.resume reach) s = .next { s with commandUnit := s.commandUnit.answered rest c .safeActive [] })
    ∧ (c.args = [] → s.safeController.state = .safe → s.safeController.asserted = false →
      ∃ t, exec (.resume reach) s = .next t ∧ SafeExit { s with commandUnit := s.commandUnit.answered rest c .ok [] } t)

/-! ## Timebase commands -/

/-- R5: RUN_TIME, in every state of the timebase and of the safe controller, the counted tick that meets it, in either order,
and the RESUME that ends a SAFE after it. -/
def Obligations.RunTimeSetsTheDesiredState : Prop :=
  ∀ (s : State) (c : Command) (rest : List Command) (reach : CommandReach), s.Gives .runTime c rest reach →
    (c.args ≠ [] → exec (.runTime reach) s = .next { s with commandUnit := s.commandUnit.answered rest c .argCount [] })
    ∧ (c.args = [] → exec (.runTime reach) s = .next { s with
        timebase := { s.timebase with desired := .run }, commandUnit := s.commandUnit.answered rest c .ok [] })
    ∧ (c.args = [] → ∀ k t u v,
        exec (.runTime reach) s = .next t → s.CountsTick k → exec k t = .next u → exec k s = .next v →
        (s.timebase.freeze = false → u.now = s.now + 1)
        ∧ (s.timebase.freeze = true → u.now = s.now)
        ∧ (s.timebase.desired = .hold → v.now = s.now))
    ∧ (c.args = [] → ∀ t u later, exec (.runTime reach) s = .next t → exec (.resume later) t = .next u →
        s.safeController.state = .safe → u.safeController.state = .run → u.timebase.running = true)

/-- R6: HOLD_TIME, in every state of the timebase and of the safe controller, the counted tick that meets it, in either order,
and a RESUME after it. -/
def Obligations.HoldTimeClearsTheDesiredState : Prop :=
  ∀ (s : State) (c : Command) (rest : List Command) (reach : CommandReach), s.Gives .holdTime c rest reach →
    (c.args ≠ [] → exec (.holdTime reach) s = .next { s with commandUnit := s.commandUnit.answered rest c .argCount [] })
    ∧ (c.args = [] → exec (.holdTime reach) s = .next { s with
        timebase := { s.timebase with desired := .hold }, commandUnit := s.commandUnit.answered rest c .ok [] })
    ∧ (c.args = [] → ∀ k t u v,
        exec (.holdTime reach) s = .next t → s.CountsTick k → exec k t = .next u → exec k s = .next v →
        u.now = s.now ∧ (s.timebase.running = true → v.now = s.now + 1))
    ∧ (c.args = [] → ∀ t u later, exec (.holdTime reach) s = .next t → exec (.resume later) t = .next u → u.timebase.running = false)

/-- R9: SET_TICK, its checks in their order, its effect, and the source the ticks come from afterwards. Under the internal source an
edge on TICK is not counted and not judged (R1). That a TICK_EDGE row under that source stands for CLK periods of the prescaler count,
and that TICK is sampled in them, so that its last sample is high afterwards, is the model's choice (Log 4, Log 27). -/
def Obligations.SetTickSelectsSourceAndPrescaler : Prop :=
  ∀ (s : State) (c : Command) (rest : List Command) (reach : CommandReach), s.Gives .setTick c rest reach →
    (c.args.length ≠ 2 →
      exec (.setTick reach) s = .next { s with commandUnit := s.commandUnit.answered rest c .argCount [] })
    ∧ ∀ source prescaler, c.args = [source, prescaler] →
      (s.timebase.desired = .run →
        exec (.setTick reach) s = .next { s with commandUnit := s.commandUnit.answered rest c .badState [] })
      ∧ (s.timebase.desired = .hold → 1 < source.toNat →
        exec (.setTick reach) s = .next { s with commandUnit := s.commandUnit.answered rest c .badArg [] })
      ∧ (s.timebase.desired = .hold → 1 ≤ prescaler.toNat → prescaler.toNat ≤ 255 →
        exec (.setTick reach) s = .next { s with commandUnit := s.commandUnit.answered rest c .badArg [] })
      ∧ (s.timebase.desired = .hold → source.toNat ≤ 1 → (prescaler.toNat = 0 ∨ 256 ≤ prescaler.toNat) →
        ∃ t, exec (.setTick reach) s = .next t
          ∧ t = { s with
              timebase := { s.timebase with
                source := if source.toNat = 0 then .internal else .external
                prescaler := if prescaler.toNat = 0 then 65536 else prescaler.toNat
                prescalerCount := 0
                spacing := none }
              commandUnit := s.commandUnit.answered rest c .ok [] }
          ∧ (source.toNat = 0 → ∀ steady pins order low safe, ∃ u, exec (.tickEdge steady pins order low safe) t = .next u
            ∧ u.timebase.spacing = none ∧ u.window = t.window ∧ u.timebase.tickSample = true
            ∧ (steady + low + 1 < t.timebase.prescaler →
              u.now = t.now ∧ u.timebase.prescalerCount = steady + low + 1))
          ∧ (source.toNat = 1 → ∀ pins order clk safe, exec (.tick pins order clk safe) t = .next t)
          ∧ (s.timebase.source = .internal → ∀ steady pins order low safe,
            ∃ u, exec (.tickEdge steady pins order low safe) s = .next u
            ∧ u.timebase.spacing = s.timebase.spacing ∧ u.window = s.window ∧ u.timebase.tickSample = true
            ∧ (s.timebase.prescalerCount + (steady + low + 1) < s.timebase.prescaler →
              u.now = s.now ∧ u.timebase.prescalerCount = s.timebase.prescalerCount + (steady + low + 1)))
          ∧ (s.timebase.source = .external → ∀ pins order clk safe, exec (.tick pins order clk safe) s = .next s))

/-- SET_TIME, fresh from the FIFO or taken up again once the firing unit is idle (R7), and the pulses it ends (R8). A pulse whose
end the last advance had reached ends with it (Log 5). -/
def Obligations.SetTimeReplacesDeviceTime : Prop :=
  (∀ (s : State) (c : Command) (rest : List Command) (reach : CommandReach), s.Gives .setTime c rest reach → c.args.length ≠ 2 →
    exec (.setTime reach) s = .next { s with commandUnit := s.commandUnit.answered rest c .argCount [] })
  ∧ ∀ (s : State) (c : Command) (rest : List Command) (reach : CommandReach) (time : Time),
    ((∃ low high, s.Gives .setTime c rest reach ∧ c.args = [low, high] ∧ time = high ++ low)
      ∨ (s.IsExecuting .setTime c (.setTime time) ∧ s.commandUnit.fifo = rest)) →
    (s.firing ≠ none →
      exec (.setTime reach) s = .next { s with commandUnit := s.commandUnit.waiting rest c (.setTime time) })
    ∧ (s.firing = none → (s.dueQueue.entries ≠ [] ∨ s.waitList.entries ≠ [] ∨ s.waitList.arms ≠ []) →
      exec (.setTime reach) s = .next { s with commandUnit := s.commandUnit.answered rest c .notEmpty [] })
    ∧ (s.firing = none → s.dueQueue.entries = [] → s.waitList.entries = [] → s.waitList.arms = [] →
      ∃ t, exec (.setTime reach) s = .next t
        ∧ (∀ n p, (s.line n).pulse = some p → reached p.endTime time = true ∨ reached p.endTime s.now = true →
          t.line n = (s.line n).ended s.lineUnit.safeDrive)
        ∧ (∀ n, (∀ p, (s.line n).pulse = some p → reached p.endTime time = false ∧ reached p.endTime s.now = false) →
          t.line n = s.line n)
        ∧ t.lineUnit.safeDrive = s.lineUnit.safeDrive
        ∧ t = { s with
            timebase := { s.timebase with time := time }
            lineUnit := t.lineUnit
            commandUnit := s.commandUnit.answered rest c .ok [] })

/-! ## Lines, inputs, settings -/

/-- SET_LINE: its checks, the cuts in ascending order and the levels of the selected lines (R101). -/
def Obligations.SetLineSetsTheSelectedLines : Prop :=
  ∀ (s : State) (c : Command) (rest : List Command) (reach : CommandReach), s.Gives .setLine c rest reach →
    (c.args.length ≠ 1 →
      exec (.setLine reach) s = .next { s with commandUnit := s.commandUnit.answered rest c .argCount [] })
    ∧ ∀ w, c.args = [w] →
      (2 ≤ c.operand.toNat →
        exec (.setLine reach) s = .next { s with commandUnit := s.commandUnit.answered rest c .badArg [] })
      ∧ (c.operand.toNat < 2 → ∃ t, exec (.setLine reach) s = .next t
        ∧ (∀ n, n.val / 8 = c.operand.toNat → w.getLsbD (8 + n.val % 8) = true →
          t.line n = (s.line n).forced s.lineUnit.safeDrive (w.getLsbD (n.val % 8)))
        ∧ (∀ n, ¬ (n.val / 8 = c.operand.toNat ∧ w.getLsbD (8 + n.val % 8) = true) → t.line n = s.line n)
        ∧ t.lineUnit.safeDrive = s.lineUnit.safeDrive
        ∧ t = { s with
            lineUnit := t.lineUnit
            noteQueue := s.noteQueue.sent
              (s.cutNews fun n => n.val / 8 == c.operand.toNat && w.getLsbD (8 + n.val % 8))
            commandUnit := s.commandUnit.answered rest c .ok [] })

/-- CONFIG_LINE: its checks in their order, and the safe level acting at once in SAFE (R103, R104). -/
def Obligations.ConfigLineSetsActiveAndSafeLevels : Prop :=
  ∀ (s : State) (c : Command) (rest : List Command) (reach : CommandReach), s.Gives .configLine c rest reach →
    (c.args.length ≠ 1 →
      exec (.configLine reach) s = .next { s with commandUnit := s.commandUnit.answered rest c .argCount [] })
    ∧ ∀ w, c.args = [w] →
      ((15 < c.operand.toNat ∨ 1 < (w.extractLsb' 0 2).toNat ∨ 1 < (w.extractLsb' 4 2).toNat) →
        exec (.configLine reach) s = .next { s with commandUnit := s.commandUnit.answered rest c .badArg [] })
      ∧ ∀ n : LineId, c.operand.toNat = n.val → (w.extractLsb' 0 2).toNat ≤ 1 → (w.extractLsb' 4 2).toNat ≤ 1 →
        ((s.line n).pulse ≠ none →
          exec (.configLine reach) s = .next { s with commandUnit := s.commandUnit.answered rest c .badState [] })
        ∧ ((s.line n).pulse = none → exec (.configLine reach) s = .next { s with
            lineUnit := { s.lineUnit with lines := s.lineUnit.lines.set n { s.line n with
              active := w.getLsbD 0
              safe := w.getLsbD 4
              driven := if s.lineUnit.safeDrive then w.getLsbD 4 else (s.line n).driven } }
            commandUnit := s.commandUnit.answered rest c .ok [] })

/-- CONFIG_INPUT (R122), CONFIG_NOTIFY (R150) and CONFIG_SAFE (R161): their checks and the settings they replace. -/
def Obligations.SettingsCommandsReplaceTheirSettings : Prop :=
  (∀ (s : State) (c : Command) (rest : List Command) (reach : CommandReach), s.Gives .configInput c rest reach →
    (c.args.length ≠ 1 →
      exec (.configInput reach) s = .next { s with commandUnit := s.commandUnit.answered rest c .argCount [] })
    ∧ ∀ w, c.args = [w] →
      (15 < c.operand.toNat →
        exec (.configInput reach) s = .next { s with commandUnit := s.commandUnit.answered rest c .badArg [] })
      ∧ ∀ i : LineId, c.operand.toNat = i.val → ∃ e : EdgeSelection,
        (e = .none ↔ (w.extractLsb' 4 2).toNat = 0) ∧ (e = .rise ↔ (w.extractLsb' 4 2).toNat = 1)
        ∧ (e = .fall ↔ (w.extractLsb' 4 2).toNat = 2) ∧ (e = .both ↔ (w.extractLsb' 4 2).toNat = 3)
        ∧ exec (.configInput reach) s = .next { s with
            inputUnit := { s.inputUnit with inputs := s.inputUnit.inputs.set i { s.input i with
              q := (w.extractLsb' 0 4).toNat, edge := e, notify := w.getLsbD 8, candidate := 0 } }
            commandUnit := s.commandUnit.answered rest c .ok [] })
  ∧ (∀ (s : State) (c : Command) (rest : List Command) (reach : CommandReach), s.Gives .configNotify c rest reach →
    (c.args.length ≠ 3 →
      exec (.configNotify reach) s = .next { s with commandUnit := s.commandUnit.answered rest c .argCount [] })
    ∧ ∀ threshold holdoff urgent, c.args = [threshold, holdoff, urgent] →
      (¬ (1 ≤ threshold.toNat ∧ threshold.toNat ≤ 145) →
        exec (.configNotify reach) s = .next { s with commandUnit := s.commandUnit.answered rest c .badArg [] })
      ∧ (1 ≤ threshold.toNat → threshold.toNat ≤ 145 → ∃ on, exec (.configNotify reach) s = .next { s with
          noteQueue := { s.noteQueue with
            threshold := threshold.toNat, holdoff := holdoff, urgent := urgent, attention := on }
          commandUnit := s.commandUnit.answered rest c .ok [] }
        ∧ (on = true ↔ NoteQueue.Cause { s.noteQueue with
            threshold := threshold.toNat, holdoff := holdoff, urgent := urgent })))
  ∧ (∀ (s : State) (c : Command) (rest : List Command) (reach : CommandReach), s.Gives .configSafe c rest reach →
    (c.args.length ≠ 1 →
      exec (.configSafe reach) s = .next { s with commandUnit := s.commandUnit.answered rest c .argCount [] })
    ∧ ∀ w, c.args = [w] →
      (1 < w.toNat →
        exec (.configSafe reach) s = .next { s with commandUnit := s.commandUnit.answered rest c .badArg [] })
      ∧ (w.toNat ≤ 1 → exec (.configSafe reach) s = .next { s with
          safeController := { s.safeController with policy := if w.toNat = 0 then .continue_ else .freeze }
          commandUnit := s.commandUnit.answered rest c .ok [] }))

/-! ## The command path -/

/-- R176: NOP is answered behind every command accepted before it, and changes nothing else. It is not answered while another
command executes or stands before it. -/
def Obligations.NopIsAnsweredInItsTurn : Prop :=
  (∀ (s : State) (c : Command) (rest : List Command) (reach : CommandReach), s.Gives .nop c rest reach →
    (c.args = [] → exec (.nop reach) s = .next { s with commandUnit := s.commandUnit.answered rest c .ok [] })
    ∧ (c.args ≠ [] → exec (.nop reach) s = .next { s with commandUnit := s.commandUnit.answered rest c .argCount [] }))
  ∧ (∀ (s : State) (x : Executing) (reach : CommandReach), s.commandUnit.executing = some x →
    Opcode.ofCode x.command.code ≠ some .nop → exec (.nop reach) s = .next s)
  ∧ ∀ (s : State) (c : Command) (rest : List Command) (reach : CommandReach), s.commandUnit.executing = none →
    s.commandUnit.fifo = c :: rest → Opcode.ofCode c.code ≠ some .nop → exec (.nop reach) s = .next s

/-- A code that names no command is answered with BAD_CODE whatever its words (R171). The codes that name one are those of
section 11.3. -/
def Obligations.UnknownCodeIsAnsweredBadCode : Prop :=
  (∀ (s : State) (c : Command) (rest : List Command) (reach : CommandReach), s.Released →
    ((s.commandUnit.executing = none ∧ s.commandUnit.fifo = c :: rest ∧ reach = .owner)
      ∨ (s.commandUnit.executing = some ⟨c, .taken⟩ ∧ s.commandUnit.fifo = rest)) →
    c.code ∉ [0x00, 0x10, 0x11, 0x12, 0x13, 0x14, 0x15, 0x16, 0x20, 0x21, 0x22, 0x23, 0x30, 0x31, 0x32, 0x33, 0x34, 0x40,
      0x41, 0x50, 0x5A] →
    exec (.badCode reach) s = .next { s with commandUnit := s.commandUnit.answered rest c .badCode [] })
  ∧ ∀ op ∈ [(0x00, Opcode.nop), (0x10, .define), (0x11, .defineArm), (0x12, .arm), (0x13, .cancel), (0x14, .retime),
      (0x15, .release), (0x16, .query), (0x20, .setTime), (0x21, .runTime), (0x22, .holdTime), (0x23, .setTick),
      (0x30, .setLine), (0x31, .configLine), (0x32, .configInput), (0x33, .configNotify), (0x34, .configSafe),
      (0x40, .forceSafe), (0x41, .resume), (0x50, .resetSchedule), (0x5A, .resetDevice)],
    Opcode.ofCode op.1 = some op.2

/-- DEFINE validation refuses exactly the cases of R24 and R187. A byte of a wait spec is bad when it is above 127 and not 255,
or names the slot being defined. -/
def Obligations.DefinitionRefusedExactlyInTheListedCases : Prop :=
  ∀ (self : SlotId) (ws : List Word),
    let w (k : Nat) : Word := ws.getD (k - 1) 0
    let kind := ((w 1).extractLsb' 0 4).toNat
    let target := ((w 10).extractLsb' 0 8).toNat
    let operand := (w 11).toNat
    let guard := ((w 2).extractLsb' 0 8).toNat
    let noA := w 5 = 0 ∧ (w 7).extractLsb' 0 8 = 0
    let noB := w 6 = 0 ∧ (w 7).extractLsb' 8 8 = 0
    let badSlot (b : Nat) : Prop := (127 < b ∧ b ≠ 255) ∨ b = self.val
    parseDefinition self ws = none ↔
      (7 < kind
        ∨ (kind ≤ 2 ∧ 15 < target)
        ∨ (kind = 0 ∧ 1 < operand)
        ∨ (kind = 2 ∧ operand = 0)
        ∨ (kind = 3 ∧ (target < 16 ∨ 63 < target ∨ ((w 11).extractLsb' 0 2).toNat = 3))
        ∨ ((kind = 4 ∨ kind = 5) ∧ 127 < target)
        ∨ (kind = 6 ∧ (63 < target ∨ 3 < ((w 1).extractLsb' 12 3).toNat
          ∨ badSlot ((w 13).extractLsb' 0 8).toNat ∨ badSlot ((w 13).extractLsb' 8 8).toNat ∨ ¬ noA))
        ∨ ((w 1).getLsbD 4 = true ∧ 2 ^ 30 < ((w 4) ++ (w 3)).toNat)
        ∨ (guard ≠ 255 ∧ (63 < guard ∨ 1 < ((w 1).extractLsb' 10 2).toNat))
        ∨ (noA ∧ ¬ noB)
        ∨ (noA ∧ 1 < (w 8).toNat))

/-- An accepted definition holds what its thirteen words carry, at the positions and in the codes of section 11.3. -/
def Obligations.AcceptedDefinitionHoldsItsWords : Prop :=
  ∀ (self : SlotId) (ws : List Word) (d : Definition), parseDefinition self ws = some d →
    let w (k : Nat) : Word := ws.getD (k - 1) 0
    let kind := ((w 1).extractLsb' 0 4).toNat
    let target := ((w 10).extractLsb' 0 8).toNat
    let offset : BitVec 24 := (w 10).extractLsb' 8 8 ++ w 11
    let slotByte (b : Nat) (i : Option SlotId) : Prop := (i = none ↔ b = 255) ∧ ∀ x, i = some x → x.val = b
    d.due = (if (w 1).getLsbD 4 then .relative (w 4 ++ w 3) else .absolute (w 4 ++ w 3))
    ∧ (d.latePolicy = .skip ↔ (w 1).getLsbD 5 = true)
    ∧ (d.missPolicy = .drop ↔ (w 1).getLsbD 6 = true)
    ∧ (d.pastPolicy = .fire ↔ (w 1).getLsbD 7 = true)
    ∧ (d.notify = .none ↔ ((w 1).extractLsb' 8 2).toNat = 0)
    ∧ (d.notify = .exceptions ↔ ((w 1).extractLsb' 8 2).toNat = 1)
    ∧ (d.notify = .done ↔ ((w 1).extractLsb' 8 2).toNat = 2)
    ∧ (d.notify = .each ↔ ((w 1).extractLsb' 8 2).toNat = 3)
    ∧ (d.guard = none ↔ ((w 2).extractLsb' 0 8).toNat = 255)
    ∧ (∀ g, d.guard = some g → g.flag.val = ((w 2).extractLsb' 0 8).toNat
      ∧ (g.level = true ↔ ((w 1).extractLsb' 10 2).toNat = 1))
    ∧ d.tag = (w 2).extractLsb' 8 8
    ∧ d.intervalA = (w 7).extractLsb' 0 8 ++ w 5 ∧ d.intervalB = (w 7).extractLsb' 8 8 ++ w 6
    ∧ d.repeatCount = w 8 ∧ d.lateLimit = w 9
    ∧ match d.action with
      | .drive n v => kind = 0 ∧ n.val = target ∧ (v = true ↔ w 11 = 1)
      | .toggle n => kind = 1 ∧ n.val = target
      | .pulse n width => kind = 2 ∧ n.val = target ∧ width = w 11
      | .flag f op => kind = 3 ∧ f.val = target ∧ (op = .set ↔ ((w 11).extractLsb' 0 2).toNat = 0)
        ∧ (op = .clear ↔ ((w 11).extractLsb' 0 2).toNat = 1) ∧ (op = .toggle ↔ ((w 11).extractLsb' 0 2).toNat = 2)
      | .arm i chain => kind = 4 ∧ i.val = target ∧ chain = w 11
      | .cancel i => kind = 5 ∧ i.val = target
      | .wait spec => kind = 6 ∧ spec.flag.val = target
        ∧ (spec.condition = .level0 ↔ ((w 1).extractLsb' 12 3).toNat = 0)
        ∧ (spec.condition = .level1 ↔ ((w 1).extractLsb' 12 3).toNat = 1)
        ∧ (spec.condition = .rise ↔ ((w 1).extractLsb' 12 3).toNat = 2)
        ∧ (spec.condition = .fall ↔ ((w 1).extractLsb' 12 3).toNat = 3)
        ∧ spec.deadlineOffset = (if offset = 0 then none else some offset)
        ∧ slotByte ((w 13).extractLsb' 0 8).toNat (spec.follow.map Follow.slot)
        ∧ (∀ f, spec.follow = some f → f.offset = w 12)
        ∧ slotByte ((w 13).extractLsb' 8 8).toNat spec.timeout
      | .mark => kind = 7

/-- DEFINE: the checks of R21 in their order, the claim held while the slot is FIRING (R22), NOTE_PENDING (R25), and the values
after an accepted DEFINE (R26). A held claim is judged by the same checks when it is taken up again. -/
def Obligations.DefineJudgesAndWritesTheSlot : Prop :=
  (∀ (s : State) (c : Command) (rest : List Command) (reach : CommandReach), s.Gives .define c rest reach →
    (c.args.length ≠ 13 → exec (.define reach) s = .next { s with commandUnit := s.commandUnit.answered rest c .argCount [] })
    ∧ (c.args.length = 13 → 127 < c.operand.toNat →
      exec (.define reach) s = .next { s with commandUnit := s.commandUnit.answered rest c .badSlot [] }))
  ∧ ∀ (s : State) (c : Command) (rest : List Command) (reach : CommandReach) (i : SlotId),
    ((s.Gives .define c rest reach ∧ c.args.length = 13 ∧ c.operand.toNat = i.val)
      ∨ (s.IsExecuting .define c (.define i) ∧ s.commandUnit.fifo = rest)) →
    ((s.slot i).state = .firing →
      exec (.define reach) s = .next { s with commandUnit := s.commandUnit.waiting rest c (.define i) })
    ∧ ((s.slot i).state = .armed ∨ (s.slot i).state = .waiting →
      exec (.define reach) s = .next { s with commandUnit := s.commandUnit.answered rest c .badState [] })
    ∧ ((s.slot i).state = .free ∨ (s.slot i).state = .held ∨ (s.slot i).state = .done →
      ((∃ r ∈ s.noteQueue.records, r.source = .slot i) →
        exec (.define reach) s = .next { s with commandUnit := s.commandUnit.answered rest c .notePending [] })
      ∧ ((∀ r ∈ s.noteQueue.records, r.source ≠ .slot i) → parseDefinition i c.args = none →
        exec (.define reach) s = .next { s with commandUnit := s.commandUnit.answered rest c .badArg [] })
      ∧ ((∀ r ∈ s.noteQueue.records, r.source ≠ .slot i) → ∀ d, parseDefinition i c.args = some d →
        exec (.define reach) s = .next { s with
          slots := s.slots.set i
            ⟨.held, some d, none, .a, if d.repeatCount = 0 then none else some d.repeatCount.toNat, 0, 0, 0⟩
          commandUnit := s.commandUnit.answered rest c .ok [] }))

/-- DEFINE_ARM: as DEFINE, but an accepted definition goes on to its arm part, which waits for the due queue (R27, R28). -/
def Obligations.DefineArmDefinesThenAsksToArm : Prop :=
  (∀ (s : State) (c : Command) (rest : List Command) (reach : CommandReach), s.Gives .defineArm c rest reach →
    (c.args.length ≠ 13 → exec (.defineArm reach) s = .next { s with commandUnit := s.commandUnit.answered rest c .argCount [] })
    ∧ (c.args.length = 13 → 127 < c.operand.toNat →
      exec (.defineArm reach) s = .next { s with commandUnit := s.commandUnit.answered rest c .badSlot [] }))
  ∧ ∀ (s : State) (c : Command) (rest : List Command) (reach : CommandReach) (i : SlotId),
    ((s.Gives .defineArm c rest reach ∧ c.args.length = 13 ∧ c.operand.toNat = i.val)
      ∨ (s.IsExecuting .defineArm c (.define i) ∧ s.commandUnit.fifo = rest)) →
    ((s.slot i).state = .firing →
      exec (.defineArm reach) s = .next { s with commandUnit := s.commandUnit.waiting rest c (.define i) })
    ∧ ((s.slot i).state = .armed ∨ (s.slot i).state = .waiting →
      exec (.defineArm reach) s = .next { s with commandUnit := s.commandUnit.answered rest c .badState [] })
    ∧ ((s.slot i).state = .free ∨ (s.slot i).state = .held ∨ (s.slot i).state = .done →
      ((∃ r ∈ s.noteQueue.records, r.source = .slot i) →
        exec (.defineArm reach) s = .next { s with commandUnit := s.commandUnit.answered rest c .notePending [] })
      ∧ ((∀ r ∈ s.noteQueue.records, r.source ≠ .slot i) → parseDefinition i c.args = none →
        exec (.defineArm reach) s = .next { s with commandUnit := s.commandUnit.answered rest c .badArg [] })
      ∧ ((∀ r ∈ s.noteQueue.records, r.source ≠ .slot i) → ∀ d, parseDefinition i c.args = some d →
        exec (.defineArm reach) s = .next { s with
          slots := s.slots.set i
            ⟨.held, some d, none, .a, if d.repeatCount = 0 then none else some d.repeatCount.toNat, 0, 0, 0⟩
          commandUnit := s.commandUnit.waiting rest c (.arm i none) }))

/-- ARM, RETIME, CANCEL and RESET_SCHEDULE: their checks in their order, after which they wait for the due queue, the wait list
or the end of the occurrence (R21, R22, R31, R33, R36, R41, R170). -/
def Obligations.SlotCommandsAskTheOwnerOfTheSlot : Prop :=
  (∀ (s : State) (c : Command) (rest : List Command) (reach : CommandReach), s.Gives .arm c rest reach →
    (c.args.length ≠ 0 → c.args.length ≠ 2 →
      exec (.arm reach) s = .next { s with commandUnit := s.commandUnit.answered rest c .argCount [] })
    ∧ (c.args.length = 0 ∨ c.args.length = 2 → 127 < c.operand.toNat →
      exec (.arm reach) s = .next { s with commandUnit := s.commandUnit.answered rest c .badSlot [] })
    ∧ (c.args = [] → ∀ i : SlotId, c.operand.toNat = i.val →
      exec (.arm reach) s = .next { s with commandUnit := s.commandUnit.waiting rest c (.arm i none) })
    ∧ ∀ low high, c.args = [low, high] → ∀ i : SlotId, c.operand.toNat = i.val →
      exec (.arm reach) s = .next { s with commandUnit := s.commandUnit.waiting rest c (.arm i (some (high ++ low))) })
  ∧ (∀ (s : State) (c : Command) (rest : List Command) (reach : CommandReach), s.Gives .retime c rest reach →
    (c.args.length ≠ 2 → exec (.retime reach) s = .next { s with commandUnit := s.commandUnit.answered rest c .argCount [] })
    ∧ (c.args.length = 2 → 127 < c.operand.toNat →
      exec (.retime reach) s = .next { s with commandUnit := s.commandUnit.answered rest c .badSlot [] })
    ∧ ∀ low high, c.args = [low, high] → ∀ i : SlotId, c.operand.toNat = i.val →
      exec (.retime reach) s = .next { s with commandUnit := s.commandUnit.waiting rest c (.retime i (high ++ low)) })
  ∧ (∀ (s : State) (c : Command) (rest : List Command) (reach : CommandReach), s.Gives .cancel c rest reach →
    (c.args ≠ [] → exec (.cancel reach) s = .next { s with commandUnit := s.commandUnit.answered rest c .argCount [] })
    ∧ (c.args = [] → 127 < c.operand.toNat →
      exec (.cancel reach) s = .next { s with commandUnit := s.commandUnit.answered rest c .badSlot [] }))
  ∧ (∀ (s : State) (c : Command) (rest : List Command) (reach : CommandReach) (i : SlotId),
    ((s.Gives .cancel c rest reach ∧ c.args = [] ∧ c.operand.toNat = i.val)
      ∨ (s.IsExecuting .cancel c (.cancel i) ∧ s.commandUnit.fifo = rest)) →
    ((s.slot i).state = .armed →
      exec (.cancel reach) s = .next { s with commandUnit := s.commandUnit.waiting rest c (.remove i) })
    ∧ ((s.slot i).state = .waiting →
      exec (.cancel reach) s = .next { s with commandUnit := s.commandUnit.waiting rest c (.withdraw i) })
    ∧ ((s.slot i).state = .firing →
      exec (.cancel reach) s = .next { s with commandUnit := s.commandUnit.waiting rest c (.cancel i) })
    ∧ ((s.slot i).state = .free ∨ (s.slot i).state = .held ∨ (s.slot i).state = .done →
      exec (.cancel reach) s = .next { s with commandUnit := s.commandUnit.answered rest c .badState [] }))
  ∧ (∀ (s : State) (c : Command) (reach : CommandReach) (i : SlotId),
    s.IsExecuting .cancel c (.remove i) ∨ s.IsExecuting .cancel c (.withdraw i) → exec (.cancel reach) s = .next s)
  ∧ ∀ (s : State) (c : Command) (rest : List Command) (reach : CommandReach), s.Gives .resetSchedule c rest reach →
    (c.args ≠ [] →
      exec (.resetSchedule reach) s = .next { s with commandUnit := s.commandUnit.answered rest c .argCount [] })
    ∧ (c.args = [] → exec (.resetSchedule reach) s = .next { s with commandUnit := s.commandUnit.waiting rest c .clear })

/-- RELEASE: its checks, the claim held while the slot is FIRING, and the slot back at its reset values (R21, R22, R37). -/
def Obligations.ReleaseReturnsTheSlotToFree : Prop :=
  (∀ (s : State) (c : Command) (rest : List Command) (reach : CommandReach), s.Gives .release c rest reach →
    (c.args ≠ [] → exec (.release reach) s = .next { s with commandUnit := s.commandUnit.answered rest c .argCount [] })
    ∧ (c.args = [] → 127 < c.operand.toNat →
      exec (.release reach) s = .next { s with commandUnit := s.commandUnit.answered rest c .badSlot [] }))
  ∧ ∀ (s : State) (c : Command) (rest : List Command) (reach : CommandReach) (i : SlotId),
    ((s.Gives .release c rest reach ∧ c.args = [] ∧ c.operand.toNat = i.val)
      ∨ (s.IsExecuting .release c (.release i) ∧ s.commandUnit.fifo = rest)) →
    ((s.slot i).state = .firing →
      exec (.release reach) s = .next { s with commandUnit := s.commandUnit.waiting rest c (.release i) })
    ∧ ((s.slot i).state = .free ∨ (s.slot i).state = .armed ∨ (s.slot i).state = .waiting →
      exec (.release reach) s = .next { s with commandUnit := s.commandUnit.answered rest c .badState [] })
    ∧ ((s.slot i).state = .held ∨ (s.slot i).state = .done →
      exec (.release reach) s = .next { s with
        slots := s.slots.set i ⟨.free, none, none, .a, none, 0, 0, 0⟩
        commandUnit := s.commandUnit.answered rest c .ok [] })

/-- QUERY: its checks, the claim held while the slot is FIRING, and its eight data words with the fields of word 1 (R38, 11.4). -/
def Obligations.QueryReportsTheRuntimePart : Prop :=
  (∀ (s : State) (c : Command) (rest : List Command) (reach : CommandReach), s.Gives .query c rest reach →
    (c.args ≠ [] → exec (.query reach) s = .next { s with commandUnit := s.commandUnit.answered rest c .argCount [] })
    ∧ (c.args = [] → 127 < c.operand.toNat →
      exec (.query reach) s = .next { s with commandUnit := s.commandUnit.answered rest c .badSlot [] }))
  ∧ ∀ (s : State) (c : Command) (rest : List Command) (reach : CommandReach) (i : SlotId),
    ((s.Gives .query c rest reach ∧ c.args = [] ∧ c.operand.toNat = i.val)
      ∨ (s.IsExecuting .query c (.query i) ∧ s.commandUnit.fifo = rest)) →
    ((s.slot i).state = .firing →
      exec (.query reach) s = .next { s with commandUnit := s.commandUnit.waiting rest c (.query i) })
    ∧ ((s.slot i).state ≠ .firing → ∃ head : Word,
      let words : List Word := [head, BitVec.ofNat 16 ((s.slot i).remaining.getD 0), BitVec.ofNat 16 (s.slot i).taken,
        BitVec.ofNat 16 (s.slot i).misses, ((s.slot i).due.getD 0).extractLsb' 0 16,
        ((s.slot i).due.getD 0).extractLsb' 16 16, (BitVec.ofNat 32 (s.slot i).lastLateness).extractLsb' 0 16,
        (BitVec.ofNat 32 (s.slot i).lastLateness).extractLsb' 16 16]
      exec (.query reach) s = .next { s with commandUnit := s.commandUnit.answered rest c .ok words }
      ∧ (head.extractLsb' 0 3).toNat = (match (s.slot i).state with
          | .free => 0 | .held => 1 | .armed => 2 | .firing => 3 | .waiting => 4 | .done => 5)
      ∧ (head.extractLsb' 4 4).toNat = (match (s.slot i).defn with
          | none => 0
          | some d => match d.action with
            | .drive _ _ => 0 | .toggle _ => 1 | .pulse _ _ => 2 | .flag _ _ => 3
            | .arm _ _ => 4 | .cancel _ => 5 | .wait _ => 6 | .mark => 7)
      ∧ head.getLsbD 8 = (s.slot i).due.isSome ∧ head.getLsbD 9 = (s.slot i).remaining.isSome
      ∧ head.getLsbD 3 = false ∧ head.extractLsb' 10 6 = 0)

/-- RESET_DEVICE: every block as after hard reset, its own OK record in the result FIFO, and nothing done with argument words
(R178). -/
def Obligations.ResetDeviceResetsEveryBlock : Prop :=
  ∀ (s : State) (c : Command) (rest : List Command) (reach : CommandReach), s.Gives .resetDevice c rest reach →
    (c.args ≠ [] →
      exec (.resetDevice reach) s = .next { s with commandUnit := s.commandUnit.answered rest c .argCount [] })
    ∧ (c.args = [] → exec (.resetDevice reach) s = .next { State.reset with
        commandUnit := ⟨[], none, [⟨c.code, c.operand, .ok, []⟩]⟩, pins := s.pins, pending := s.pending })

/-! ## The bus window -/

/-- STAGE_WRITE appends a word, or sets STAGE_OVERFLOW when the list holds 16 (R165). -/
def Obligations.StageWriteAppendsOrOverflows : Prop :=
  ∀ (s : State) (w : Word), s.Released →
    (s.window.staging.length < 16 →
      exec (.stageWrite w) s = .next { s with window := { s.window with staging := s.window.staging ++ [w] } })
    ∧ (16 ≤ s.window.staging.length →
      exec (.stageWrite w) s = .next { s with window := { s.window with error := s.window.error ||| 0x01 } })

/-- COMMAND_WRITE is judged by the budget of eight, and takes the staging list or leaves it (R167, R168). The oldest accepted command
is taken out of the FIFO by an IDLE command unit, which is EXECUTING it from then on (R170; Log 30), and a row of another kind does
not take it. -/
def Obligations.CommandWriteIsJudgedByTheBudget : Prop :=
  (∀ (s : State) (w : Word), s.Released → w.extractLsb' 8 8 ≠ 0xFF →
    let sum := s.commandUnit.fifo.length + (if s.commandUnit.executing = none then 0 else 1) + s.commandUnit.results.length
    (sum ≤ 7 → exec (.commandWrite w) s = .next { s with
      commandUnit := { s.commandUnit with
        fifo := s.commandUnit.fifo ++ [⟨w.extractLsb' 8 8, w.extractLsb' 0 8, s.window.staging⟩] }
      window := { s.window with staging := [] } })
    ∧ (8 ≤ sum →
      exec (.commandWrite w) s = .next { s with window := { s.window with error := s.window.error ||| 0x02 } }))
  ∧ (∀ (s : State) (op : Opcode) (c : Command) (rest : List Command), s.Released → s.commandUnit.executing = none →
    s.commandUnit.fifo = c :: rest → Opcode.ofCode c.code = some op →
    exec (op.row .unit) s = .next { s with commandUnit := s.commandUnit.waiting rest c .taken })
  ∧ (∀ (s : State) (c : Command) (rest : List Command), s.Released → s.commandUnit.executing = none →
    s.commandUnit.fifo = c :: rest → Opcode.ofCode c.code = none →
    exec (.badCode .unit) s = .next { s with commandUnit := s.commandUnit.waiting rest c .taken })
  ∧ (∀ (s : State) (op : Opcode) (reach : CommandReach), s.commandUnit.executing = none →
    (∀ c rest, s.commandUnit.fifo = c :: rest → Opcode.ofCode c.code ≠ some op) → exec (op.row reach) s = .next s)
  ∧ ∀ (s : State) (op : Opcode) (reach : CommandReach) (x : Executing), s.commandUnit.executing = some x →
    Opcode.ofCode x.command.code ≠ some op → exec (op.row reach) s = .next s

/-- R166: CLEAR_STAGE empties the staging list in the access itself and changes nothing else, whatever its low byte, the
budget and the rest of the state. -/
def Obligations.ClearStageEmptiesTheStagingList : Prop :=
  ∀ (s : State) (operand : Byte), s.Released →
    exec (.clearStage operand) s = .next { s with window := { s.window with staging := [] } }

/-- RESULT_READ: the word the cursor selects; the last word removes the record; an empty FIFO returns 0 and sets the error bit
(R172, R173, R174, 11.4). The word returned is `pins.readWord` (Log 16). -/
def Obligations.ResultReadReturnsTheRecordWordByWord : Prop :=
  ∀ s : State, s.Released →
    (s.commandUnit.results = [] → exec .resultRead s = .next { s with
      window := { s.window with error := s.window.error ||| 0x08 }, pins := { s.pins with readWord := 0 } })
    ∧ ∀ r rest, s.commandUnit.results = r :: rest → ∃ word : Word,
      (s.window.resultCursor = 0 → word = r.code ++ r.operand)
      ∧ (s.window.resultCursor = 1 → r.data.length ≤ 15 → (word.extractLsb' 0 4).toNat = (match r.status with
          | .ok => 0 | .badCode => 1 | .argCount => 2 | .badSlot => 3 | .badState => 4 | .badArg => 5 | .tooFar => 6
          | .past => 7 | .notePending => 8 | .notEmpty => 9 | .safeActive => 10)
        ∧ (word.extractLsb' 8 4).toNat = r.data.length ∧ word.extractLsb' 4 4 = 0 ∧ word.extractLsb' 12 4 = 0)
      ∧ (∀ k, s.window.resultCursor = k + 2 → k < r.data.length → r.data[k]? = some word)
      ∧ (s.window.resultCursor + 1 < 2 + r.data.length → exec .resultRead s = .next { s with
          window := { s.window with resultCursor := s.window.resultCursor + 1 }
          pins := { s.pins with readWord := word } })
      ∧ (2 + r.data.length ≤ s.window.resultCursor + 1 → exec .resultRead s = .next { s with
          window := { s.window with resultCursor := 0 }
          commandUnit := { s.commandUnit with results := rest }
          pins := { s.pins with readWord := word } })

/-- NOTE_READ: the five words of the oldest record, the time latch, the removal at word 5 with attention recomputed, and the
empty read (R142, R143, R144, 11.4). The word returned is `pins.readWord` (Log 16). -/
def Obligations.NoteReadReturnsTheRecordWordByWord : Prop :=
  ∀ s : State, s.Released →
    (s.noteQueue.records = [] → exec .noteRead s = .next { s with
      window := { s.window with error := s.window.error ||| 0x04 }, pins := { s.pins with readWord := 0 } })
    ∧ ∀ r rest, s.noteQueue.records = r :: rest →
      (s.window.noteCursor = 0 → exec .noteRead s = .next { s with
        window := { s.window with noteCursor := 1 }
        pins := { s.pins with readWord := r.tag ++ (match r.source with
          | .slot i => BitVec.ofNat 8 i.val
          | .input i => BitVec.ofNat 8 (128 + i.val)
          | .safe => 144#8) } })
      ∧ (s.window.noteCursor = 1 → exec .noteRead s = .next { s with
        window := { s.window with noteCursor := 2 }, pins := { s.pins with readWord := r.seen } })
      ∧ (s.window.noteCursor = 2 → exec .noteRead s = .next { s with
        window := { s.window with noteCursor := 3, noteTimeHi := r.time.extractLsb' 16 16 }
        pins := { s.pins with readWord := r.time.extractLsb' 0 16 } })
      ∧ (s.window.noteCursor = 3 → exec .noteRead s = .next { s with
        window := { s.window with noteCursor := 4 }, pins := { s.pins with readWord := s.window.noteTimeHi } })
      ∧ (s.window.noteCursor = 4 → ∃ on, exec .noteRead s = .next { s with
          window := { s.window with noteCursor := 0 }
          noteQueue := { s.noteQueue with records := rest, attention := on }
          pins := { s.pins with readWord := BitVec.ofNat 8 r.count ++ BitVec.ofNat 8 (match r.lastKind with
            | .fired => 0 | .late => 1 | .skippedLate => 2 | .skippedGuard => 3 | .missed => 4 | .done => 5 | .cancelled => 6
            | .matched => 7 | .timeout => 8 | .armFailed => 9 | .pulseCut => 10 | .retriggered => 11 | .suppressed => 12
            | .edge => 13 | .safeEntered => 14 | .safeExited => 15) } }
        ∧ (on = true ↔ NoteQueue.Cause { s.noteQueue with records := rest }))

/-- TIME_LO_READ returns the low half of device time and loads the TIME_HI latch with the high half of the same value (R13). -/
def Obligations.TimeLowReadLatchesTheHighHalf : Prop :=
  ∀ s : State, s.Released →
    ∃ t, exec .timeLoRead s = .next t
      ∧ t = { s with
          window := { s.window with timeHi := s.timebase.time.extractLsb' 16 16 }
          pins := { s.pins with readWord := s.timebase.time.extractLsb' 0 16 } }
      ∧ readRegister 0x9 t ++ t.pins.readWord = s.timebase.time

/-- FLAG_VALUE_WRITE: the masked flags of the selected group take their values, each change reported in ascending order; groups
0 and 1 are refused (R115, R117, R118). -/
def Obligations.FlagValueWriteSetsTheMaskedFlags : Prop :=
  ∀ (s : State) (w : Word), s.Released →
    (s.window.flagSelect.toNat < 2 →
      exec (.flagValueWrite w) s = .next { s with window := { s.window with error := s.window.error ||| 0x10 } })
    ∧ (2 ≤ s.window.flagSelect.toNat → ∃ t, exec (.flagValueWrite w) s = .next t
      ∧ (∀ f : FlagId, t.flag f = if f.val / 8 = s.window.flagSelect.toNat ∧ w.getLsbD (8 + f.val % 8) = true then
          w.getLsbD (f.val % 8) else s.flag f)
      ∧ t = { s with flagBank := ⟨t.flagBank.flags, s.flagBank.events ++ groupPositions.filterMap fun k =>
          if w.getLsbD (8 + k.val) = true ∧ s.flag (groupFlag s.window.flagSelect k) ≠ w.getLsbD k.val then
            some ⟨groupFlag s.window.flagSelect k, w.getLsbD k.val⟩ else none⟩ })

/-- FLAG_SELECT_WRITE (R116), INT_ENABLE_WRITE (R152) and ERROR_WRITE (R181). -/
def Obligations.RegisterWritesReplaceOrClear : Prop :=
  ∀ (s : State) (w : Word), s.Released →
    (w.toNat ≤ 7 → exec (.flagSelectWrite w) s = .next { s with
      window := { s.window with flagSelect := BitVec.ofNat 3 w.toNat } })
    ∧ (7 < w.toNat →
      exec (.flagSelectWrite w) s = .next { s with window := { s.window with error := s.window.error ||| 0x10 } })
    ∧ exec (.intEnableWrite w) s = .next { s with window := { s.window with intEnable := w.extractLsb' 0 3 } }
    ∧ ∃ e : BitVec 6, exec (.errorWrite w) s = .next { s with window := { s.window with error := e } }
      ∧ ∀ k, e.getLsbD k = (s.window.error.getLsbD k && !w.getLsbD k)

/-- BAD_ADDRESS: an access to Fh, or a write to a read-only register, sets the error bit and changes nothing else; the read of
Fh returns 0 (R184). Which accesses these are is a clause of its own. So are which cycles the window takes, the row each access is,
and the effect of a cycle. -/
def Obligations.BadAccessSetsOnlyTheErrorBit : Prop :=
  (∀ a, (BusAccess.read a).isBad = true ↔ a = 0xF)
  ∧ (∀ a d, (BusAccess.write a d).isBad = true ↔ a ∈ [0x0, 0x5, 0x6, 0x7, 0x8, 0x9, 0xC, 0xD, 0xE, 0xF])
  ∧ (∀ c : BusCycle, (c.select = true → c.readStrobe = true → c.writeStrobe = false → c.access = some (.read c.addr))
    ∧ (c.select = true → c.readStrobe = false → c.writeStrobe = true → c.access = some (.write c.addr c.data))
    ∧ (c.select = false ∨ c.readStrobe = c.writeStrobe → ∀ s : State, s.busCycle c = .next s))
  ∧ ((BusAccess.read 0x5).row = some .resultRead ∧ (BusAccess.read 0x6).row = some .noteRead
    ∧ (BusAccess.read 0x8).row = some .timeLoRead
    ∧ (∀ a, (BusAccess.read a).isBad = true → (BusAccess.read a).row = some (.badAddress (.read a)))
    ∧ (∀ a, a ∉ [0x5, 0x6, 0x8, 0xF] → (BusAccess.read a).row = none))
  ∧ (∀ d, (BusAccess.write 0x1 d).row = some (.errorWrite d) ∧ (BusAccess.write 0x2 d).row = some (.intEnableWrite d)
    ∧ (BusAccess.write 0x3 d).row = some (.stageWrite d)
    ∧ (d.extractLsb' 8 8 = 0xFF → (BusAccess.write 0x4 d).row = some (.clearStage (d.extractLsb' 0 8)))
    ∧ (d.extractLsb' 8 8 ≠ 0xFF → (BusAccess.write 0x4 d).row = some (.commandWrite d))
    ∧ (BusAccess.write 0xA d).row = some (.flagSelectWrite d) ∧ (BusAccess.write 0xB d).row = some (.flagValueWrite d)
    ∧ ∀ a, (BusAccess.write a d).isBad = true → (BusAccess.write a d).row = some (.badAddress (.write a d)))
  ∧ (∀ (s : State) (c : BusCycle) (a : BusAccess), c.access = some a →
    (∀ i, a.row = some i → s.busCycle c = exec i s)
    ∧ (a.row = none → s.busCycle c = .next { s with pins := { s.pins with readWord := readRegister c.addr s } }))
  ∧ ∀ s : State, s.Released →
    (∀ a, (BusAccess.read a).isBad = true → exec (.badAddress (.read a)) s = .next { s with
      window := { s.window with error := s.window.error ||| 0x10 }, pins := { s.pins with readWord := 0 } })
    ∧ ∀ a d, (BusAccess.write a d).isBad = true →
      exec (.badAddress (.write a d)) s = .next { s with window := { s.window with error := s.window.error ||| 0x10 } }

/-- The reads without a side effect, bit by bit, and the level of INT that STATUS shows (R91, R108, R116, R146, R151, R165,
R169, R180, R185). -/
def Obligations.WindowReadsShowTheLiveState : Prop :=
  ∀ s : State, s.Released →
    (s.intAsserted = true ↔ s.IntCause)
    ∧ ((readRegister 0x0 s).getLsbD 0 = true ↔ s.safeController.state = .safe)
    ∧ ((readRegister 0x0 s).getLsbD 1 = true ↔ s.safeController.asserted = true)
    ∧ ((readRegister 0x0 s).getLsbD 2 = true ↔ s.safeController.policy = .freeze)
    ∧ ((readRegister 0x0 s).getLsbD 3 = true ↔ s.timebase.desired = .run)
    ∧ ((readRegister 0x0 s).getLsbD 4 = true ↔ s.timebase.freeze = true)
    ∧ ((readRegister 0x0 s).getLsbD 5 = true ↔ s.timebase.desired = .run ∧ s.timebase.freeze = false)
    ∧ ((readRegister 0x0 s).getLsbD 6 = true ↔ s.commandUnit.executing ≠ none)
    ∧ ((readRegister 0x0 s).getLsbD 7 = true ↔ s.noteQueue.attention = true)
    ∧ ((readRegister 0x0 s).getLsbD 8 = true ↔ s.timebase.source = .external)
    ∧ ((readRegister 0x0 s).getLsbD 9 = true ↔ s.IntCause)
    ∧ (readRegister 0x0 s).extractLsb' 10 6 = 0
    ∧ readRegister 0x1 s = s.window.error.setWidth 16
    ∧ readRegister 0x2 s = s.window.intEnable.setWidth 16
    ∧ readRegister 0x3 s = BitVec.ofNat 16 s.window.staging.length
    ∧ readRegister 0x4 s = BitVec.ofNat 16 (s.commandUnit.fifo.length
        + (if s.commandUnit.executing = none then 0 else 1) + 256 * s.commandUnit.results.length)
    ∧ readRegister 0x7 s = BitVec.ofNat 16 (s.noteQueue.records.length + 256 * s.window.noteCursor)
    ∧ readRegister 0x9 s = s.window.timeHi
    ∧ readRegister 0xA s = s.window.flagSelect.setWidth 16
    ∧ (∀ k : Fin 8, (readRegister 0xB s).getLsbD k.val = s.flag (groupFlag s.window.flagSelect k))
    ∧ (readRegister 0xB s).extractLsb' 8 8 = 0
    ∧ (∀ n : LineId, (readRegister 0xC s).getLsbD n.val = (s.line n).driven)
    ∧ (∀ i : LineId, (readRegister 0xD s).getLsbD i.val = (s.input i).raw)

/-! ## The due queue -/

/-- The comparisons of R10, and how a time value that is ahead becomes reached and stays reached. -/
def Obligations.TimesCompareByModularDistance : Prop :=
  (∀ t n : Time, ((t - n).toNat = 0 → reached t n = true ∧ lateBy t n = 0)
    ∧ (1 ≤ (t - n).toNat → (t - n).toNat ≤ 2 ^ 31 - 1 → reached t n = false)
    ∧ (2 ^ 31 ≤ (t - n).toNat → reached t n = true ∧ lateBy t n = (n - t).toNat
      ∧ 1 ≤ lateBy t n ∧ lateBy t n ≤ 2 ^ 31))
  ∧ (∀ a b : Time, (earlier a b = true ↔ 1 ≤ (b - a).toNat ∧ (b - a).toNat ≤ 2 ^ 31 - 1)
    ∧ earlier a a = false ∧ ((b - a).toNat = 2 ^ 31 → earlier a b = false ∧ earlier b a = false))
  ∧ ∀ t n : Time, reached t n = false → ∀ k : Nat,
    (k < (t - n).toNat → reached t (n + BitVec.ofNat 32 k) = false)
    ∧ ((t - n).toNat ≤ k → k ≤ (t - n).toNat + 2 ^ 31 →
      reached t (n + BitVec.ofNat 32 k) = true ∧ lateBy t (n + BitVec.ofNat 32 k) = k - (t - n).toNat)

/-- The arm-time checks by the distance from the reference time, with the stale floor (R52, R53). -/
def Obligations.ArmTimeChecksClassifyTheDue : Prop :=
  ∀ (due r : Time) (p : PastPolicy),
    ((due - r).toNat ≤ 2 ^ 30 → armCheck due r p = .placed due)
    ∧ (2 ^ 30 + 1 ≤ (due - r).toNat → (due - r).toNat ≤ 2 ^ 31 - 1 → armCheck due r p = .tooFar)
    ∧ (2 ^ 31 ≤ (due - r).toNat → p = .reject → armCheck due r p = .past)
    ∧ (2 ^ 31 ≤ (due - r).toNat → (due - r).toNat ≤ 2 ^ 32 - 2 ^ 24 → p = .fire →
      armCheck due r p = .placed (r - BitVec.ofNat 32 (2 ^ 24)))
    ∧ (2 ^ 32 - 2 ^ 24 + 1 ≤ (due - r).toNat → p = .fire → armCheck due r p = .placed due)

/-- What each requester presents (R46, R131), and the due queue's choice among what is ready (R47, R48). An operation that was in
flight when the firing unit asked was granted among the other requests (R55; Log 31). -/
def Obligations.DueQueueGrantsByTheTable : Prop :=
  (∀ (s : State) (c : Command) (i : SlotId) (given : Option Time) (due : Time),
    (s.commandUnit.executing = some ⟨c, .arm i given⟩ →
      s.commandRequest = if (s.slot i).state = .firing then none else some (c, .insert i given))
    ∧ (s.commandUnit.executing = some ⟨c, .retime i due⟩ →
      s.commandRequest = if (s.slot i).state = .firing then none else some (c, .move i due))
    ∧ (s.commandUnit.executing = some ⟨c, .remove i⟩ →
      s.commandRequest = if (s.slot i).state = .firing then none else some (c, .remove i))
    ∧ (s.commandUnit.executing = some ⟨c, .clear⟩ →
      s.commandRequest = if s.firing = none then some (c, .clear) else none)
    ∧ (s.commandUnit.executing = none → s.commandRequest = none)
    ∧ ∀ w, s.commandUnit.executing = some ⟨c, w⟩ →
      w ∈ [.taken, .define i, .cancel i, .withdraw i, .release i, .query i, .setTime due] → s.commandRequest = none)
  ∧ (∀ s : State, s.waitList.arms = [] → s.waitRequest = none)
  ∧ (∀ (s : State) (f : Option (Occurrence × Request)) (w : Option PendingArm), s.dueQueue.inFlight ≠ none →
    s.grant = none ∧ s.grantAmong f w = none)
  ∧ (∀ s : State, s.grantAt .presented = s.grant ∧ (s.firingRequest = none → s.grantAt .notYet = s.grant)
    ∧ (s.dueQueue.inFlight = none → s.firing ≠ none →
      (∀ a, s.waitRequest = some a → s.grantAt .notYet = some (.waitArm a))
      ∧ (∀ c r, s.waitRequest = none → s.commandRequest = some (c, r) → s.grantAt .notYet = some (.command c r))
      ∧ (s.waitRequest = none → s.commandRequest = none → s.grantAt .notYet = none)))
  ∧ (∀ (s : State) (a : PendingArm) (rest : List PendingArm), s.waitList.arms = a :: rest →
    s.waitRequest = if (s.slot a.target).state = .firing then none else some a)
  ∧ (∀ (s : State) (o : Occurrence) (r : Request), s.firingRequest = some (o, r) ↔
    s.firing = some o ∧ o.request = some r
      ∧ ((∃ target due, r = .insert target due) ∨ (∃ target, r = .remove target) ∨ ∃ due, r = .reinsert due))
  ∧ (∀ (s : State) (e : DueEntry), s.releaseReady = some e ↔
    s.firing = none ∧ (∃ rest, s.dueQueue.entries = e :: rest) ∧ reached e.due s.now = true)
  ∧ ∀ s : State, s.dueQueue.inFlight = none →
    (∀ o r, s.firingRequest = some (o, r) → s.grant = some (.firing o r))
    ∧ (s.firingRequest = none →
      (∀ e, s.releaseReady = some e → s.waitRequest = none → s.commandRequest = none → s.grant = some (.release e))
      ∧ (∀ e, s.releaseReady = some e → s.dueQueue.passedOver = false → s.grant = some (.release e))
      ∧ (∀ e a, s.releaseReady = some e → s.dueQueue.passedOver = true → s.waitRequest = some a →
        s.grant = some (.waitArm a))
      ∧ (∀ e c r, s.releaseReady = some e → s.dueQueue.passedOver = true → s.waitRequest = none →
        s.commandRequest = some (c, r) → s.grant = some (.command c r))
      ∧ (∀ a, s.releaseReady = none → s.waitRequest = some a → s.grant = some (.waitArm a))
      ∧ (∀ c r, s.releaseReady = none → s.waitRequest = none → s.commandRequest = some (c, r) →
        s.grant = some (.command c r))
      ∧ (s.releaseReady = none → s.waitRequest = none → s.commandRequest = none → s.grant = none))

/-- INSERT, for each of the three requesters: the arm is taken with its reference time, its outcome goes to the requester, and a
wait-list or command request that is granted clears the passed-over mark (R28, R47, R52, R54, R74, R132). `asked` is whether the firing
unit had presented its request at the grant (Log 31). -/
def Obligations.InsertTakesTheGrantedArm : Prop :=
  ∀ (s : State) (after : AfterEffect) (asked : RequestPresence), s.Released →
    (∀ o target due, s.grantAt asked = some (.firing o (.insert target due)) → ∃ out m t,
      exec (.insert after asked) s = .next t ∧ ArmTaken s target due o.time out m
      ∧ (out = .placed → EffectTaken after o o.appliedKind m t)
      ∧ (out ≠ .placed → EffectTaken after o o.appliedKind
        { m with noteQueue := m.noteQueue.sent [⟨.slot o.slot, .armFailed, o.time⟩] } t))
    ∧ (∀ a, s.grantAt asked = some (.waitArm a) → ∃ out m,
      ArmTaken { s with
        dueQueue := { s.dueQueue with passedOver := false }
        waitList := { s.waitList with arms := s.waitList.arms.tail } } a.target a.due a.endTime out m
      ∧ (out = .placed → exec (.insert after asked) s = .next m)
      ∧ (out ≠ .placed → exec (.insert after asked) s = .next
        { m with noteQueue := m.noteQueue.sent [⟨.slot a.waiting, .armFailed, a.endTime⟩] }))
    ∧ ∀ c i given, s.grantAt asked = some (.command c (.insert i given)) → ∃ due out m,
      (∀ t, given = some t → due = t)
      ∧ (given = none → ∀ t, (s.slot i).definition.due = .absolute t → due = t)
      ∧ (given = none → ∀ offset, (s.slot i).definition.due = .relative offset → due = s.now + offset)
      ∧ ArmTaken { s with dueQueue := { s.dueQueue with passedOver := false } } i due s.now out m
      ∧ exec (.insert after asked) s = .next
          { m with commandUnit := s.commandUnit.answered s.commandUnit.fifo c (match out with
            | .placed => .ok | .badState => .badState | .tooFar => .tooFar | .past => .past) [] }

/-- MOVE takes the old entry out and places the new one, or changes nothing in the queue and the slot (R36, R56). CLEAR empties
the due queue and the wait list, leaves every ARMED or WAITING slot HELD and keeps the pending arms, those not yet presented at
its grant among them (R41, R60, R136; Log 31). -/
def Obligations.MoveAndClearTakeTheGrantedRequest : Prop :=
  (∀ (s : State) (asked : RequestPresence) (c : Command) (i : SlotId) (due : Time), s.Released →
    s.grantAt asked = some (.command c (.move i due)) →
    ((s.slot i).state ≠ .armed → exec (.move asked) s = .next { s with
      dueQueue := { s.dueQueue with passedOver := false }
      commandUnit := s.commandUnit.answered s.commandUnit.fifo c .badState [] })
    ∧ ((s.slot i).state = .armed → match armCheck due s.now (s.slot i).definition.pastPolicy with
      | .placed d => ∃ es, PlacedIn ⟨i, d⟩ (s.dueQueue.entries.filter fun e => e.slot ≠ i) es
        ∧ exec (.move asked) s = .next { s with
          dueQueue := { s.dueQueue with entries := es, passedOver := false }
          slots := s.slots.set i { s.slot i with due := some d }
          commandUnit := s.commandUnit.answered s.commandUnit.fifo c .ok [] }
      | .tooFar => exec (.move asked) s = .next { s with
          dueQueue := { s.dueQueue with passedOver := false }
          commandUnit := s.commandUnit.answered s.commandUnit.fifo c .tooFar [] }
      | .past => exec (.move asked) s = .next { s with
          dueQueue := { s.dueQueue with passedOver := false }
          commandUnit := s.commandUnit.answered s.commandUnit.fifo c .past [] }))
  ∧ (∀ s : State, s.waitRequestAtClear .presented = s.waitRequest ∧ s.waitRequestAtClear .notYet = none)
  ∧ (∀ (s : State) (c : Command), s.commandUnit.executing = some ⟨c, .clear⟩ → s.firing = none → s.dueQueue.inFlight = none →
    s.releaseReady = none ∨ s.dueQueue.passedOver = true →
      s.grantAmong s.firingRequest none = some (.command c .clear))
  ∧ ∀ (s : State) (c : Command) (arms : RequestPresence), s.Released →
    s.grantAmong s.firingRequest (s.waitRequestAtClear arms) = some (.command c .clear) → ∃ t, exec (.clear arms) s = .next t
    ∧ (∀ i, (s.slot i).state = .armed ∨ (s.slot i).state = .waiting →
      t.slot i = { s.slot i with state := .held, due := none })
    ∧ (∀ i, (s.slot i).state ≠ .armed → (s.slot i).state ≠ .waiting → t.slot i = s.slot i)
    ∧ t = { s with
        dueQueue := { s.dueQueue with entries := [], passedOver := false }
        waitList := { s.waitList with entries := [] }
        slots := t.slots
        commandUnit := s.commandUnit.answered s.commandUnit.fifo c .ok [] }

/-- REMOVE, for a CANCEL effect (R34, R55, R76) and for a host CANCEL (R33): the entry of an ARMED slot is taken out. A CANCEL
effect has no effect on a target no longer ARMED, and a host CANCEL whose slot is no longer ARMED ends BAD_STATE. The host's REMOVE is
also taken after the release, where the firing unit had not yet asked (R55; Log 31). -/
def Obligations.RemoveTakesTheEntryOut : Prop :=
  (∀ (s : State) (o : Occurrence) (target : SlotId) (after : AfterEffect) (asked : RequestPresence), s.Released →
    s.grantAt asked = some (.firing o (.remove target)) → ∃ t, exec (.remove after asked) s = .next t
      ∧ ((s.slot target).state = .armed → EffectTaken after o o.appliedKind { s with
          dueQueue := { s.dueQueue with entries := s.dueQueue.entries.filter fun e => e.slot ≠ target }
          slots := s.slots.set target { s.slot target with state := .held, due := none }
          noteQueue := s.noteQueue.sent [⟨.slot target, .cancelled, o.time⟩] } t)
      ∧ ((s.slot target).state ≠ .armed → EffectTaken after o o.appliedKind s t))
  ∧ ∀ (s : State) (c : Command) (i : SlotId) (after : AfterEffect) (asked : RequestPresence), s.Released →
    s.grantAt asked = some (.command c (.remove i)) →
    ((s.slot i).state = .armed → exec (.remove after asked) s = .next { s with
      dueQueue := { s.dueQueue with entries := s.dueQueue.entries.filter fun e => e.slot ≠ i, passedOver := false }
      slots := s.slots.set i { s.slot i with state := .held, due := none }
      commandUnit := s.commandUnit.answered s.commandUnit.fifo c .ok [] })
    ∧ ((s.slot i).state ≠ .armed → exec (.remove after asked) s = .next { s with
      dueQueue := { s.dueQueue with passedOver := false }
      commandUnit := s.commandUnit.answered s.commandUnit.fifo c .badState [] })

/-! ## The firing unit -/

/-- HANDOFF: the reached head leaves the queue, the slot becomes FIRING, and the occurrence goes through its checks to its first
request or its end, and a presented REMOVE of the slot is withdrawn (R39, R47, R48, R50, R62 to R68). The row may leave the occurrence
in hand before its checks, before it is counted or before its end, and a later HANDOFF goes on from there (R63; Log 32). Where the
release is not what the queue grants, nothing changes. -/
def Obligations.HandoffReleasesTheReachedHead : Prop :=
  ∀ (s : State) (after : AfterEffect), s.Released →
    (∀ e rest, s.dueQueue.inFlight = none → s.firing = none → s.dueQueue.entries = e :: rest →
      reached e.due s.now = true →
      ((s.waitRequest = none ∧ s.commandRequest = none) ∨ s.dueQueue.passedOver = false) →
      let o : Occurrence := ⟨e.slot, e.due, s.now, (s.now - e.due).toNat, false, none, false, none, false⟩
      ∃ mark unit t, (mark = true ↔ s.dueQueue.passedOver = true ∨ s.waitRequest ≠ none ∨ s.commandRequest ≠ none)
        ∧ s.commandUnit.ClaimMoved unit (.remove e.slot) (.cancel e.slot)
        ∧ exec (.handoff after) s = .next t
        ∧ (let released : State := { s with
            dueQueue := { s.dueQueue with entries := rest, passedOver := mark }
            slots := s.slots.set e.slot { s.slot e.slot with state := .firing, lastLateness := (s.now - e.due).toNat }
            firing := some o
            commandUnit := unit }
          (after = .goesOn → Performed .goesOn o released t) ∧ (after = .staysInHand → t = released)))
    ∧ (∀ o, s.firing = some o → o.request = none → o.outcome = none →
      ∃ t, exec (.handoff after) s = .next t ∧ Performed after o s t)
    ∧ (∀ o k, s.firing = some o → o.request = none → o.outcome = some k → o.counted = false →
      ∃ t, exec (.handoff after) s = .next t ∧ (after = .goesOn → Ending o k s t)
        ∧ (after = .staysInHand → Counted o k s t))
    ∧ (∀ o k, s.firing = some o → o.request = none → o.outcome = some k → o.counted = true →
      ∃ t, exec (.handoff after) s = .next t ∧ Ended o s t)
    ∧ (∀ o, s.firing = some o → o.request ≠ none → exec (.handoff after) s = .next s)
    ∧ (s.firing = none → (s.dueQueue.entries = []
        ∨ (∀ e rest, s.dueQueue.entries = e :: rest → reached e.due s.now = false)
        ∨ (s.dueQueue.passedOver = true ∧ (s.waitRequest ≠ none ∨ s.commandRequest ≠ none))) →
      exec (.handoff after) s = .next s)

/-- DRIVE_EFFECT, TOGGLE_EFFECT and FLAG_EFFECT: what the owner does with the request, with PULSE_CUT before the outcome kind,
and the end of the occurrence. After the effect the occurrence may stay in hand, so that other rows, as the wait list's arms on a
flag's change, can be taken before it ends (R70, R71, R73, R88, R98, R99, R115, R119; Log 32). -/
def Obligations.LineAndFlagEffectsAreTaken : Prop :=
  (∀ (s : State) (o : Occurrence) (n : LineId) (v : Bool) (after : AfterEffect), s.InHand o (.drive n v) →
    ∃ t, exec (.driveEffect after) s = .next t ∧ EffectTaken after o o.appliedKind { s with
      lineUnit := { s.lineUnit with lines := s.lineUnit.lines.set n ((s.line n).forced s.lineUnit.safeDrive v) }
      noteQueue := s.noteQueue.sent (s.cutNews (· == n)) } t)
  ∧ (∀ (s : State) (o : Occurrence) (n : LineId) (after : AfterEffect), s.InHand o (.toggle n) →
    ∃ t, exec (.toggleEffect after) s = .next t ∧ EffectTaken after o o.appliedKind { s with
      lineUnit := { s.lineUnit with
        lines := s.lineUnit.lines.set n ((s.line n).forced s.lineUnit.safeDrive (!(s.line n).intended)) }
      noteQueue := s.noteQueue.sent (s.cutNews (· == n)) } t)
  ∧ ∀ (s : State) (o : Occurrence) (f : FlagId) (op : FlagOp) (after : AfterEffect), s.InHand o (.flag f op) → ∃ v t,
    v = (match op with | .set => true | .clear => false | .toggle => !s.flag f)
    ∧ exec (.flagEffect after) s = .next t
    ∧ (v = s.flag f → EffectTaken after o o.appliedKind s t)
    ∧ (v ≠ s.flag f → EffectTaken after o o.appliedKind
      { s with flagBank := ⟨s.flagBank.flags.set f v, s.flagBank.events ++ [⟨f, v⟩]⟩ } t)

/-- PULSE_EFFECT: suppressed in SAFE, a start on a line with no pulse, a retrigger on a line with one (R72, R93, R94, R97). Where the
occurrence stays in hand, its outcome kind is sent by a later row, so that a cut of the pulse can come before it (R141; Log 9, Log 32). -/
def Obligations.PulseEffectStartsRetriggersOrIsSuppressed : Prop :=
  ∀ (s : State) (o : Occurrence) (n : LineId) (w : Word) (after : AfterEffect), s.InHand o (.pulse n w) →
    ∃ t, exec (.pulseEffect after) s = .next t
      ∧ (s.lineUnit.safeDrive = true → EffectTaken after o .suppressed s t)
      ∧ (s.lineUnit.safeDrive = false → (s.line n).pulse = none → EffectTaken after o o.appliedKind { s with
          lineUnit := { s.lineUnit with lines := s.lineUnit.lines.set n { s.line n with
            intended := (s.line n).active
            driven := (s.line n).active
            pulse := some ⟨s.now + w.setWidth 32, o.slot⟩ } } } t)
      ∧ (s.lineUnit.safeDrive = false → ∀ p, (s.line n).pulse = some p → EffectTaken after o o.appliedKind { s with
          lineUnit := { s.lineUnit with lines := s.lineUnit.lines.set n { s.line n with
            pulse := some ⟨s.now + w.setWidth 32, o.slot⟩ } }
          noteQueue := s.noteQueue.sent [⟨.slot p.owner, .retriggered, s.now⟩] } t)

/-- PULSE_END: a pulse whose end time is reached ends at the inactive level with no news; any other line is left (R95). -/
def Obligations.PulseEndGoesToTheInactiveLevel : Prop :=
  ∀ (s : State) (n : LineId), s.Released →
    (∀ p, (s.line n).pulse = some p → reached p.endTime s.now = true → exec (.pulseEnd n) s = .next { s with
      lineUnit := { s.lineUnit with lines := s.lineUnit.lines.set n ((s.line n).ended s.lineUnit.safeDrive) } })
    ∧ ((∀ p, (s.line n).pulse = some p → reached p.endTime s.now = false) → exec (.pulseEnd n) s = .next s)

/-- REINSERTION: the entry is placed without checks, the slot becomes ARMED at it and the firing unit idle, and a held CANCEL of
the slot presents its REMOVE (R33, R57, R87). -/
def Obligations.ReinsertionArmsTheSlotAgain : Prop :=
  ∀ (s : State) (o : Occurrence) (due : Time), s.InHand o (.reinsert due) → s.dueQueue.inFlight = none →
    ∃ es unit, PlacedIn ⟨o.slot, due⟩ s.dueQueue.entries es
      ∧ s.commandUnit.ClaimMoved unit (.cancel o.slot) (.remove o.slot)
      ∧ exec .reinsertion s = .next { s with
        dueQueue := { s.dueQueue with entries := es }
        slots := s.slots.set o.slot { s.slot o.slot with state := .armed, due := some due }
        firing := none
        commandUnit := unit }

/-! ## The wait list -/

/-- WAIT_PLACEMENT: the flag changes in flight are taken first (Log 7), then the first test of R126 that holds decides
(R125, R126, R127). A held CANCEL of a slot left WAITING presents its withdrawal (R33). The times of a wait that ends at entry are
the start time and the deadline (Log 28), and the deadline test uses the present device time (Log 29). -/
def Obligations.PlacementDecidesByTheFirstTest : Prop :=
  ∀ (s : State) (o : Occurrence) (w : WaitSpec), s.InHand o (.place w) →
    ∃ m t, Runs (List.replicate s.flagBank.events.length .matched) s m ∧ exec .waitPlacement s = .next t
      ∧ (let met := (w.condition = .level0 ∧ m.flag w.flag = false) ∨ (w.condition = .level1 ∧ m.flag w.flag = true)
        let deadline := w.deadlineOffset.map fun offset => o.time + offset.setWidth 32
        let follow : List PendingArm := match w.follow with
          | some f => [⟨f.slot, o.time + f.offset.setWidth 32, o.time, o.slot⟩]
          | none => []
        let timeout (time : Time) : List PendingArm := match w.timeout with
          | some i => [⟨i, time, time, o.slot⟩]
          | none => []
        (met → WaitEnded m t o.slot .matched o.time follow)
        ∧ (¬ met → ∀ d, deadline = some d → reached d m.now = true → WaitEnded m t o.slot .timeout d (timeout d))
        ∧ (¬ met → (∀ d, deadline = some d → reached d m.now = false) → 32 ≤ m.waitList.entries.length →
          WaitEnded m t o.slot .timeout o.time (timeout o.time))
        ∧ (¬ met → (∀ d, deadline = some d → reached d m.now = false) → m.waitList.entries.length < 32 →
          ∃ unit, m.commandUnit.ClaimMoved unit (.cancel o.slot) (.withdraw o.slot) ∧ t = { m with
            commandUnit := unit
            waitList := { m.waitList with entries := m.waitList.entries
              ++ [⟨o.slot, w.flag, w.condition, o.time, deadline, w.follow, w.timeout⟩] }
            slots := m.slots.set o.slot { m.slot o.slot with state := .waiting, due := none }
            firing := none }))

/-- MATCHED: one flag-change event ends every entry it meets, in entry order (R128). The match time is the one before the last
advance while a deadline that advance reached has not yet expired (R130; Log 8). -/
def Obligations.FlagChangeEndsTheEntriesItMeets : Prop :=
  ∀ s : State, s.Released →
    (s.flagBank.events = [] → exec .matched s = .next s)
    ∧ ∀ v rest, s.flagBank.events = v :: rest → ∃ time t,
      let met (e : WaitEntry) : Bool := e.flag == v.flag
        && ((v.value && (e.condition == .level1 || e.condition == .rise))
          || (!v.value && (e.condition == .level0 || e.condition == .fall)))
      ((∃ e ∈ s.waitList.entries, ∃ d, e.deadline = some d ∧ reached d s.now = true) → time = s.now - 1)
      ∧ ((∀ e ∈ s.waitList.entries, ∀ d, e.deadline = some d → reached d s.now = false) → time = s.now)
      ∧ exec .matched s = .next t
      ∧ (∀ i, (∃ e ∈ s.waitList.entries, met e = true ∧ e.slot = i) →
        t.slot i = { s.slot i with state := .done, due := none })
      ∧ (∀ i, (∀ e ∈ s.waitList.entries, met e = true → e.slot ≠ i) → t.slot i = s.slot i)
      ∧ t = { s with
          flagBank := { s.flagBank with events := rest }
          slots := t.slots
          waitList :=
            ⟨s.waitList.entries.filter fun e => !met e,
              s.waitList.arms ++ (s.waitList.entries.filter met).flatMap fun e => match e.follow with
                | some f => [⟨f.slot, time + f.offset.setWidth 32, time, e.slot⟩]
                | none => []⟩
          noteQueue := s.noteQueue.sent
            ((s.waitList.entries.filter met).map fun e => ⟨.slot e.slot, .matched, time⟩) }

/-- TIMEOUT: the advance ends every entry whose deadline is reached, in entry order, at the deadline (R129). -/
def Obligations.AdvanceExpiresTheReachedDeadlines : Prop :=
  ∀ s : State, s.Released → ∃ t,
    let isDue (e : WaitEntry) : Bool := match e.deadline with
      | some d => reached d s.now
      | none => false
    exec .timeout s = .next t
      ∧ (∀ i, (∃ e ∈ s.waitList.entries, isDue e = true ∧ e.slot = i) →
        t.slot i = { s.slot i with state := .done, due := none })
      ∧ (∀ i, (∀ e ∈ s.waitList.entries, isDue e = true → e.slot ≠ i) → t.slot i = s.slot i)
      ∧ t = { s with
          slots := t.slots
          waitList :=
            ⟨s.waitList.entries.filter fun e => !isDue e,
              s.waitList.arms ++ (s.waitList.entries.filter isDue).flatMap fun e => match e.timeout, e.deadline with
                | some i, some d => [⟨i, d, d, e.slot⟩]
                | _, _ => []⟩
          noteQueue := s.noteQueue.sent ((s.waitList.entries.filter isDue).filterMap fun e =>
            e.deadline.map fun d => ⟨.slot e.slot, .timeout, d⟩) }

/-- WITHDRAWAL, for a CANCEL effect and for a host CANCEL: the entry is removed and the slot HELD. Where the wait has ended first,
the CANCEL effect has no effect and the host CANCEL ends BAD_STATE, whatever other state the slot has by then (R33, R34, R76,
R133). -/
def Obligations.WithdrawalRemovesTheWaitEntry : Prop :=
  (∀ (s : State) (o : Occurrence) (target : SlotId) (after : AfterEffect), s.InHand o (.withdraw target) →
    ∃ t, exec (.withdrawal .firingUnit after) s = .next t
      ∧ ((s.slot target).state = .waiting → EffectTaken after o o.appliedKind { s with
          waitList := { s.waitList with entries := s.waitList.entries.filter fun e => e.slot ≠ target }
          slots := s.slots.set target { s.slot target with state := .held, due := none }
          noteQueue := s.noteQueue.sent [⟨.slot target, .cancelled, o.time⟩] } t)
      ∧ ((s.slot target).state ≠ .waiting → EffectTaken after o o.appliedKind s t))
  ∧ ∀ (s : State) (c : Command) (i : SlotId) (after : AfterEffect), s.Released →
    s.commandUnit.executing = some ⟨c, .withdraw i⟩ →
    ((s.slot i).state = .waiting → exec (.withdrawal .commandUnit after) s = .next { s with
      waitList := { s.waitList with entries := s.waitList.entries.filter fun e => e.slot ≠ i }
      slots := s.slots.set i { s.slot i with state := .held, due := none }
      commandUnit := s.commandUnit.answered s.commandUnit.fifo c .ok [] })
    ∧ ((s.slot i).state ≠ .waiting → exec (.withdrawal .commandUnit after) s = .next { s with
      commandUnit := s.commandUnit.answered s.commandUnit.fifo c .badState [] })

/-! ## Notifications -/

/-- NEWS: the oldest item of a path, EDGE news or the other blocks', is filtered by the table of R89, then merged into its source's
record or put at the tail, and attention follows (R139, R140, R141, R148; Log 9). The codes of the kinds are those of 11.4. -/
def Obligations.NewsIsFilteredAndMerged : Prop :=
  let code : Kind → Nat := fun k => match k with
    | .fired => 0 | .late => 1 | .skippedLate => 2 | .skippedGuard => 3 | .missed => 4 | .done => 5 | .cancelled => 6
    | .matched => 7 | .timeout => 8 | .armFailed => 9 | .pulseCut => 10 | .retriggered => 11 | .suppressed => 12
    | .edge => 13 | .safeEntered => 14 | .safeExited => 15
  (∀ k, Kind.code k = code k)
  ∧ (∀ n : NewsItem, n.path = .edge ↔ ∃ i, n.source = .input i)
  ∧ ∀ (s : State) (path : NewsPath), s.Released →
    ((∀ n ∈ s.noteQueue.inFlight, n.path ≠ path) → exec (.news path) s = .next s)
    ∧ ∀ before n rest, s.noteQueue.inFlight = before ++ n :: rest → (∀ x ∈ before, x.path ≠ path) → n.path = path →
      let policy (i : SlotId) : NotifyPolicy := match (s.slot i).defn with | some d => d.notify | none => .exceptions
      let passed (p : NotifyPolicy) : Prop := p = .each
        ∨ (p = .done ∧ n.kind ∉ [.fired, .matched, .retriggered])
        ∨ (p = .exceptions ∧ n.kind ∉ [.fired, .matched, .retriggered, .done])
      let kept : Prop := ∀ i, n.source = .slot i → passed (policy i)
      (¬ kept → exec (.news path) s = .next { s with noteQueue := { s.noteQueue with inFlight := before ++ rest } })
      ∧ (kept → ∃ records on, exec (.news path) s = .next { s with
          noteQueue := { s.noteQueue with inFlight := before ++ rest, records := records, attention := on } }
        ∧ (on = true ↔ NoteQueue.Cause { s.noteQueue with records := records })
        ∧ ((∀ r ∈ s.noteQueue.records, r.source ≠ n.source) → ∃ tag : Byte,
          (∀ i, n.source = .slot i → tag = match (s.slot i).defn with | some d => d.tag | none => 0)
          ∧ ((∀ i, n.source ≠ .slot i) → tag = 0)
          ∧ records = s.noteQueue.records ++ [⟨n.source, tag, n.kind, 1, 1#16 <<< code n.kind, n.time, 0⟩])
        ∧ ∀ front r back, s.noteQueue.records = front ++ r :: back → (∀ x ∈ front, x.source ≠ n.source) →
          r.source = n.source → records = front ++ { r with
            lastKind := n.kind
            count := if r.count < 255 then r.count + 1 else 255
            seen := r.seen ||| (1#16 <<< code n.kind)
            time := n.time } :: back)

/-- HOLDOFF: an oldest record whose age has reached a holdoff that is not 0 has attention on; otherwise nothing changes
(R148; Log 18). -/
def Obligations.HoldoffTurnsAttentionOn : Prop :=
  ∀ s : State, s.Released →
    (∀ r rest, s.noteQueue.records = r :: rest → s.noteQueue.holdoff ≠ 0 → s.noteQueue.holdoff.toNat ≤ r.age →
      exec .holdoff s = .next { s with noteQueue := { s.noteQueue with attention := true } })
    ∧ ((s.noteQueue.records = [] ∨ s.noteQueue.holdoff = 0
        ∨ ∀ r rest, s.noteQueue.records = r :: rest → r.age < s.noteQueue.holdoff.toNat) →
      exec .holdoff s = .next s)

/-! ## Laws every step keeps -/

/-- Every step keeps the slot-state law of R20 and, with it, the allowance law of R19. -/
def Obligations.EveryStepKeepsTheScheduleLaws : Prop :=
  ∀ s t : State, SlotLaw s → step s = .next t →
    SlotLaw t ∧ (AllowanceLaw s → AllowanceLaw t)

/-- Every step keeps the law of the lines (R91, R92) with the freeze mark's. -/
def Obligations.EveryStepKeepsTheLineLaw : Prop :=
  ∀ s t : State, LineLaw s → step s = .next t → LineLaw t

/-- Every step keeps the laws of the notification queue, of the command path and of the qualifiers. -/
def Obligations.EveryStepKeepsTheRecordAndPathLaws : Prop :=
  ∀ s t : State, step s = .next t →
    (NoteLaw s → NoteLaw t) ∧ (PathLaw s → PathLaw t) ∧ (CountLaw s → CountLaw t)

/-- Every law holds after reset. -/
def Obligations.LawsHoldAfterReset : Prop :=
  SlotLaw State.reset ∧ AllowanceLaw State.reset ∧ LineLaw State.reset ∧ NoteLaw State.reset ∧ PathLaw State.reset
    ∧ CountLaw State.reset
end

