-- ==== Sys2Proof/Laws/State.lean ====
section
/-! SUPPORT. What each named update of the state does to each field, one lemma for each. All hold by rfl. -/

namespace Sys2Proof.Laws

open Sys2Proof.Machine

@[simp] theorem setSlot_timebase (s : State) (i : SlotId) (sl : Slot) : (s.setSlot i sl).timebase = s.timebase := rfl
@[simp] theorem setSlot_slots (s : State) (i : SlotId) (sl : Slot) : (s.setSlot i sl).slots = s.slots.set i sl := rfl
@[simp] theorem setSlot_dueQueue (s : State) (i : SlotId) (sl : Slot) : (s.setSlot i sl).dueQueue = s.dueQueue := rfl
@[simp] theorem setSlot_firing (s : State) (i : SlotId) (sl : Slot) : (s.setSlot i sl).firing = s.firing := rfl
@[simp] theorem setSlot_waitList (s : State) (i : SlotId) (sl : Slot) : (s.setSlot i sl).waitList = s.waitList := rfl
@[simp] theorem setSlot_lineUnit (s : State) (i : SlotId) (sl : Slot) : (s.setSlot i sl).lineUnit = s.lineUnit := rfl
@[simp] theorem setSlot_inputUnit (s : State) (i : SlotId) (sl : Slot) : (s.setSlot i sl).inputUnit = s.inputUnit := rfl
@[simp] theorem setSlot_flagBank (s : State) (i : SlotId) (sl : Slot) : (s.setSlot i sl).flagBank = s.flagBank := rfl
@[simp] theorem setSlot_noteQueue (s : State) (i : SlotId) (sl : Slot) : (s.setSlot i sl).noteQueue = s.noteQueue := rfl
@[simp] theorem setSlot_safeController (s : State) (i : SlotId) (sl : Slot) :
    (s.setSlot i sl).safeController = s.safeController := rfl
@[simp] theorem setSlot_window (s : State) (i : SlotId) (sl : Slot) : (s.setSlot i sl).window = s.window := rfl
@[simp] theorem setSlot_commandUnit (s : State) (i : SlotId) (sl : Slot) :
    (s.setSlot i sl).commandUnit = s.commandUnit := rfl
@[simp] theorem setSlot_pins (s : State) (i : SlotId) (sl : Slot) : (s.setSlot i sl).pins = s.pins := rfl
@[simp] theorem setSlot_pending (s : State) (i : SlotId) (sl : Slot) : (s.setSlot i sl).pending = s.pending := rfl

@[simp] theorem setLine_timebase (s : State) (n : LineId) (l : Line) : (s.setLine n l).timebase = s.timebase := rfl
@[simp] theorem setLine_slots (s : State) (n : LineId) (l : Line) : (s.setLine n l).slots = s.slots := rfl
@[simp] theorem setLine_dueQueue (s : State) (n : LineId) (l : Line) : (s.setLine n l).dueQueue = s.dueQueue := rfl
@[simp] theorem setLine_firing (s : State) (n : LineId) (l : Line) : (s.setLine n l).firing = s.firing := rfl
@[simp] theorem setLine_waitList (s : State) (n : LineId) (l : Line) : (s.setLine n l).waitList = s.waitList := rfl
@[simp] theorem setLine_lineUnit (s : State) (n : LineId) (l : Line) :
    (s.setLine n l).lineUnit = { s.lineUnit with lines := s.lineUnit.lines.set n l } := rfl
@[simp] theorem setLine_inputUnit (s : State) (n : LineId) (l : Line) : (s.setLine n l).inputUnit = s.inputUnit := rfl
@[simp] theorem setLine_flagBank (s : State) (n : LineId) (l : Line) : (s.setLine n l).flagBank = s.flagBank := rfl
@[simp] theorem setLine_noteQueue (s : State) (n : LineId) (l : Line) : (s.setLine n l).noteQueue = s.noteQueue := rfl
@[simp] theorem setLine_safeController (s : State) (n : LineId) (l : Line) :
    (s.setLine n l).safeController = s.safeController := rfl
@[simp] theorem setLine_window (s : State) (n : LineId) (l : Line) : (s.setLine n l).window = s.window := rfl
@[simp] theorem setLine_commandUnit (s : State) (n : LineId) (l : Line) :
    (s.setLine n l).commandUnit = s.commandUnit := rfl
@[simp] theorem setLine_pins (s : State) (n : LineId) (l : Line) : (s.setLine n l).pins = s.pins := rfl
@[simp] theorem setLine_pending (s : State) (n : LineId) (l : Line) : (s.setLine n l).pending = s.pending := rfl

@[simp] theorem setInput_timebase (s : State) (i : LineId) (x : Input) : (s.setInput i x).timebase = s.timebase := rfl
@[simp] theorem setInput_slots (s : State) (i : LineId) (x : Input) : (s.setInput i x).slots = s.slots := rfl
@[simp] theorem setInput_dueQueue (s : State) (i : LineId) (x : Input) : (s.setInput i x).dueQueue = s.dueQueue := rfl
@[simp] theorem setInput_firing (s : State) (i : LineId) (x : Input) : (s.setInput i x).firing = s.firing := rfl
@[simp] theorem setInput_waitList (s : State) (i : LineId) (x : Input) : (s.setInput i x).waitList = s.waitList := rfl
@[simp] theorem setInput_lineUnit (s : State) (i : LineId) (x : Input) : (s.setInput i x).lineUnit = s.lineUnit := rfl
@[simp] theorem setInput_inputUnit (s : State) (i : LineId) (x : Input) :
    (s.setInput i x).inputUnit = { s.inputUnit with inputs := s.inputUnit.inputs.set i x } := rfl
@[simp] theorem setInput_flagBank (s : State) (i : LineId) (x : Input) : (s.setInput i x).flagBank = s.flagBank := rfl
@[simp] theorem setInput_noteQueue (s : State) (i : LineId) (x : Input) :
    (s.setInput i x).noteQueue = s.noteQueue := rfl
@[simp] theorem setInput_safeController (s : State) (i : LineId) (x : Input) :
    (s.setInput i x).safeController = s.safeController := rfl
@[simp] theorem setInput_window (s : State) (i : LineId) (x : Input) : (s.setInput i x).window = s.window := rfl
@[simp] theorem setInput_commandUnit (s : State) (i : LineId) (x : Input) :
    (s.setInput i x).commandUnit = s.commandUnit := rfl
@[simp] theorem setInput_pins (s : State) (i : LineId) (x : Input) : (s.setInput i x).pins = s.pins := rfl
@[simp] theorem setInput_pending (s : State) (i : LineId) (x : Input) : (s.setInput i x).pending = s.pending := rfl

@[simp] theorem setEntries_timebase (s : State) (es : List DueEntry) : (s.setEntries es).timebase = s.timebase := rfl
@[simp] theorem setEntries_slots (s : State) (es : List DueEntry) : (s.setEntries es).slots = s.slots := rfl
@[simp] theorem setEntries_dueQueue (s : State) (es : List DueEntry) :
    (s.setEntries es).dueQueue = { s.dueQueue with entries := es } := rfl
@[simp] theorem setEntries_firing (s : State) (es : List DueEntry) : (s.setEntries es).firing = s.firing := rfl
@[simp] theorem setEntries_waitList (s : State) (es : List DueEntry) : (s.setEntries es).waitList = s.waitList := rfl
@[simp] theorem setEntries_lineUnit (s : State) (es : List DueEntry) : (s.setEntries es).lineUnit = s.lineUnit := rfl
@[simp] theorem setEntries_inputUnit (s : State) (es : List DueEntry) : (s.setEntries es).inputUnit = s.inputUnit := rfl
@[simp] theorem setEntries_flagBank (s : State) (es : List DueEntry) : (s.setEntries es).flagBank = s.flagBank := rfl
@[simp] theorem setEntries_noteQueue (s : State) (es : List DueEntry) : (s.setEntries es).noteQueue = s.noteQueue := rfl
@[simp] theorem setEntries_safeController (s : State) (es : List DueEntry) :
    (s.setEntries es).safeController = s.safeController := rfl
@[simp] theorem setEntries_window (s : State) (es : List DueEntry) : (s.setEntries es).window = s.window := rfl
@[simp] theorem setEntries_commandUnit (s : State) (es : List DueEntry) :
    (s.setEntries es).commandUnit = s.commandUnit := rfl
@[simp] theorem setEntries_pins (s : State) (es : List DueEntry) : (s.setEntries es).pins = s.pins := rfl
@[simp] theorem setEntries_pending (s : State) (es : List DueEntry) : (s.setEntries es).pending = s.pending := rfl

@[simp] theorem setPassedOver_timebase (s : State) (b : Bool) : (s.setPassedOver b).timebase = s.timebase := rfl
@[simp] theorem setPassedOver_slots (s : State) (b : Bool) : (s.setPassedOver b).slots = s.slots := rfl
@[simp] theorem setPassedOver_dueQueue (s : State) (b : Bool) :
    (s.setPassedOver b).dueQueue = { s.dueQueue with passedOver := b } := rfl
@[simp] theorem setPassedOver_firing (s : State) (b : Bool) : (s.setPassedOver b).firing = s.firing := rfl
@[simp] theorem setPassedOver_waitList (s : State) (b : Bool) : (s.setPassedOver b).waitList = s.waitList := rfl
@[simp] theorem setPassedOver_lineUnit (s : State) (b : Bool) : (s.setPassedOver b).lineUnit = s.lineUnit := rfl
@[simp] theorem setPassedOver_inputUnit (s : State) (b : Bool) : (s.setPassedOver b).inputUnit = s.inputUnit := rfl
@[simp] theorem setPassedOver_flagBank (s : State) (b : Bool) : (s.setPassedOver b).flagBank = s.flagBank := rfl
@[simp] theorem setPassedOver_noteQueue (s : State) (b : Bool) : (s.setPassedOver b).noteQueue = s.noteQueue := rfl
@[simp] theorem setPassedOver_safeController (s : State) (b : Bool) :
    (s.setPassedOver b).safeController = s.safeController := rfl
@[simp] theorem setPassedOver_window (s : State) (b : Bool) : (s.setPassedOver b).window = s.window := rfl
@[simp] theorem setPassedOver_commandUnit (s : State) (b : Bool) :
    (s.setPassedOver b).commandUnit = s.commandUnit := rfl
@[simp] theorem setPassedOver_pins (s : State) (b : Bool) : (s.setPassedOver b).pins = s.pins := rfl
@[simp] theorem setPassedOver_pending (s : State) (b : Bool) : (s.setPassedOver b).pending = s.pending := rfl

@[simp] theorem setFiring_timebase (s : State) (o : Option Occurrence) : (s.setFiring o).timebase = s.timebase := rfl
@[simp] theorem setFiring_slots (s : State) (o : Option Occurrence) : (s.setFiring o).slots = s.slots := rfl
@[simp] theorem setFiring_dueQueue (s : State) (o : Option Occurrence) : (s.setFiring o).dueQueue = s.dueQueue := rfl
@[simp] theorem setFiring_firing (s : State) (o : Option Occurrence) : (s.setFiring o).firing = o := rfl
@[simp] theorem setFiring_waitList (s : State) (o : Option Occurrence) : (s.setFiring o).waitList = s.waitList := rfl
@[simp] theorem setFiring_lineUnit (s : State) (o : Option Occurrence) : (s.setFiring o).lineUnit = s.lineUnit := rfl
@[simp] theorem setFiring_inputUnit (s : State) (o : Option Occurrence) : (s.setFiring o).inputUnit = s.inputUnit := rfl
@[simp] theorem setFiring_flagBank (s : State) (o : Option Occurrence) : (s.setFiring o).flagBank = s.flagBank := rfl
@[simp] theorem setFiring_noteQueue (s : State) (o : Option Occurrence) : (s.setFiring o).noteQueue = s.noteQueue := rfl
@[simp] theorem setFiring_safeController (s : State) (o : Option Occurrence) :
    (s.setFiring o).safeController = s.safeController := rfl
@[simp] theorem setFiring_window (s : State) (o : Option Occurrence) : (s.setFiring o).window = s.window := rfl
@[simp] theorem setFiring_commandUnit (s : State) (o : Option Occurrence) :
    (s.setFiring o).commandUnit = s.commandUnit := rfl
@[simp] theorem setFiring_pins (s : State) (o : Option Occurrence) : (s.setFiring o).pins = s.pins := rfl
@[simp] theorem setFiring_pending (s : State) (o : Option Occurrence) : (s.setFiring o).pending = s.pending := rfl

@[simp] theorem setWaitEntries_timebase (s : State) (es : List WaitEntry) :
    (s.setWaitEntries es).timebase = s.timebase := rfl
@[simp] theorem setWaitEntries_slots (s : State) (es : List WaitEntry) : (s.setWaitEntries es).slots = s.slots := rfl
@[simp] theorem setWaitEntries_dueQueue (s : State) (es : List WaitEntry) :
    (s.setWaitEntries es).dueQueue = s.dueQueue := rfl
@[simp] theorem setWaitEntries_firing (s : State) (es : List WaitEntry) : (s.setWaitEntries es).firing = s.firing := rfl
@[simp] theorem setWaitEntries_waitList (s : State) (es : List WaitEntry) :
    (s.setWaitEntries es).waitList = { s.waitList with entries := es } := rfl
@[simp] theorem setWaitEntries_lineUnit (s : State) (es : List WaitEntry) :
    (s.setWaitEntries es).lineUnit = s.lineUnit := rfl
@[simp] theorem setWaitEntries_inputUnit (s : State) (es : List WaitEntry) :
    (s.setWaitEntries es).inputUnit = s.inputUnit := rfl
@[simp] theorem setWaitEntries_flagBank (s : State) (es : List WaitEntry) :
    (s.setWaitEntries es).flagBank = s.flagBank := rfl
@[simp] theorem setWaitEntries_noteQueue (s : State) (es : List WaitEntry) :
    (s.setWaitEntries es).noteQueue = s.noteQueue := rfl
@[simp] theorem setWaitEntries_safeController (s : State) (es : List WaitEntry) :
    (s.setWaitEntries es).safeController = s.safeController := rfl
@[simp] theorem setWaitEntries_window (s : State) (es : List WaitEntry) : (s.setWaitEntries es).window = s.window := rfl
@[simp] theorem setWaitEntries_commandUnit (s : State) (es : List WaitEntry) :
    (s.setWaitEntries es).commandUnit = s.commandUnit := rfl
@[simp] theorem setWaitEntries_pins (s : State) (es : List WaitEntry) : (s.setWaitEntries es).pins = s.pins := rfl
@[simp] theorem setWaitEntries_pending (s : State) (es : List WaitEntry) :
    (s.setWaitEntries es).pending = s.pending := rfl

@[simp] theorem setArms_timebase (s : State) (arms : List PendingArm) : (s.setArms arms).timebase = s.timebase := rfl
@[simp] theorem setArms_slots (s : State) (arms : List PendingArm) : (s.setArms arms).slots = s.slots := rfl
@[simp] theorem setArms_dueQueue (s : State) (arms : List PendingArm) : (s.setArms arms).dueQueue = s.dueQueue := rfl
@[simp] theorem setArms_firing (s : State) (arms : List PendingArm) : (s.setArms arms).firing = s.firing := rfl
@[simp] theorem setArms_waitList (s : State) (arms : List PendingArm) :
    (s.setArms arms).waitList = { s.waitList with arms := arms } := rfl
@[simp] theorem setArms_lineUnit (s : State) (arms : List PendingArm) : (s.setArms arms).lineUnit = s.lineUnit := rfl
@[simp] theorem setArms_inputUnit (s : State) (arms : List PendingArm) : (s.setArms arms).inputUnit = s.inputUnit := rfl
@[simp] theorem setArms_flagBank (s : State) (arms : List PendingArm) : (s.setArms arms).flagBank = s.flagBank := rfl
@[simp] theorem setArms_noteQueue (s : State) (arms : List PendingArm) : (s.setArms arms).noteQueue = s.noteQueue := rfl
@[simp] theorem setArms_safeController (s : State) (arms : List PendingArm) :
    (s.setArms arms).safeController = s.safeController := rfl
@[simp] theorem setArms_window (s : State) (arms : List PendingArm) : (s.setArms arms).window = s.window := rfl
@[simp] theorem setArms_commandUnit (s : State) (arms : List PendingArm) :
    (s.setArms arms).commandUnit = s.commandUnit := rfl
@[simp] theorem setArms_pins (s : State) (arms : List PendingArm) : (s.setArms arms).pins = s.pins := rfl
@[simp] theorem setArms_pending (s : State) (arms : List PendingArm) : (s.setArms arms).pending = s.pending := rfl

@[simp] theorem setTimebase_timebase (s : State) (b : Timebase) : (s.setTimebase b).timebase = b := rfl
@[simp] theorem setTimebase_slots (s : State) (b : Timebase) : (s.setTimebase b).slots = s.slots := rfl
@[simp] theorem setTimebase_dueQueue (s : State) (b : Timebase) : (s.setTimebase b).dueQueue = s.dueQueue := rfl
@[simp] theorem setTimebase_firing (s : State) (b : Timebase) : (s.setTimebase b).firing = s.firing := rfl
@[simp] theorem setTimebase_waitList (s : State) (b : Timebase) : (s.setTimebase b).waitList = s.waitList := rfl
@[simp] theorem setTimebase_lineUnit (s : State) (b : Timebase) : (s.setTimebase b).lineUnit = s.lineUnit := rfl
@[simp] theorem setTimebase_inputUnit (s : State) (b : Timebase) : (s.setTimebase b).inputUnit = s.inputUnit := rfl
@[simp] theorem setTimebase_flagBank (s : State) (b : Timebase) : (s.setTimebase b).flagBank = s.flagBank := rfl
@[simp] theorem setTimebase_noteQueue (s : State) (b : Timebase) : (s.setTimebase b).noteQueue = s.noteQueue := rfl
@[simp] theorem setTimebase_safeController (s : State) (b : Timebase) :
    (s.setTimebase b).safeController = s.safeController := rfl
@[simp] theorem setTimebase_window (s : State) (b : Timebase) : (s.setTimebase b).window = s.window := rfl
@[simp] theorem setTimebase_commandUnit (s : State) (b : Timebase) :
    (s.setTimebase b).commandUnit = s.commandUnit := rfl
@[simp] theorem setTimebase_pins (s : State) (b : Timebase) : (s.setTimebase b).pins = s.pins := rfl
@[simp] theorem setTimebase_pending (s : State) (b : Timebase) : (s.setTimebase b).pending = s.pending := rfl

@[simp] theorem setSafe_timebase (s : State) (c : SafeController) : (s.setSafe c).timebase = s.timebase := rfl
@[simp] theorem setSafe_slots (s : State) (c : SafeController) : (s.setSafe c).slots = s.slots := rfl
@[simp] theorem setSafe_dueQueue (s : State) (c : SafeController) : (s.setSafe c).dueQueue = s.dueQueue := rfl
@[simp] theorem setSafe_firing (s : State) (c : SafeController) : (s.setSafe c).firing = s.firing := rfl
@[simp] theorem setSafe_waitList (s : State) (c : SafeController) : (s.setSafe c).waitList = s.waitList := rfl
@[simp] theorem setSafe_lineUnit (s : State) (c : SafeController) : (s.setSafe c).lineUnit = s.lineUnit := rfl
@[simp] theorem setSafe_inputUnit (s : State) (c : SafeController) : (s.setSafe c).inputUnit = s.inputUnit := rfl
@[simp] theorem setSafe_flagBank (s : State) (c : SafeController) : (s.setSafe c).flagBank = s.flagBank := rfl
@[simp] theorem setSafe_noteQueue (s : State) (c : SafeController) : (s.setSafe c).noteQueue = s.noteQueue := rfl
@[simp] theorem setSafe_safeController (s : State) (c : SafeController) : (s.setSafe c).safeController = c := rfl
@[simp] theorem setSafe_window (s : State) (c : SafeController) : (s.setSafe c).window = s.window := rfl
@[simp] theorem setSafe_commandUnit (s : State) (c : SafeController) : (s.setSafe c).commandUnit = s.commandUnit := rfl
@[simp] theorem setSafe_pins (s : State) (c : SafeController) : (s.setSafe c).pins = s.pins := rfl
@[simp] theorem setSafe_pending (s : State) (c : SafeController) : (s.setSafe c).pending = s.pending := rfl

@[simp] theorem setWindow_timebase (s : State) (w : Window) : (s.setWindow w).timebase = s.timebase := rfl
@[simp] theorem setWindow_slots (s : State) (w : Window) : (s.setWindow w).slots = s.slots := rfl
@[simp] theorem setWindow_dueQueue (s : State) (w : Window) : (s.setWindow w).dueQueue = s.dueQueue := rfl
@[simp] theorem setWindow_firing (s : State) (w : Window) : (s.setWindow w).firing = s.firing := rfl
@[simp] theorem setWindow_waitList (s : State) (w : Window) : (s.setWindow w).waitList = s.waitList := rfl
@[simp] theorem setWindow_lineUnit (s : State) (w : Window) : (s.setWindow w).lineUnit = s.lineUnit := rfl
@[simp] theorem setWindow_inputUnit (s : State) (w : Window) : (s.setWindow w).inputUnit = s.inputUnit := rfl
@[simp] theorem setWindow_flagBank (s : State) (w : Window) : (s.setWindow w).flagBank = s.flagBank := rfl
@[simp] theorem setWindow_noteQueue (s : State) (w : Window) : (s.setWindow w).noteQueue = s.noteQueue := rfl
@[simp] theorem setWindow_safeController (s : State) (w : Window) :
    (s.setWindow w).safeController = s.safeController := rfl
@[simp] theorem setWindow_window (s : State) (w : Window) : (s.setWindow w).window = w := rfl
@[simp] theorem setWindow_commandUnit (s : State) (w : Window) : (s.setWindow w).commandUnit = s.commandUnit := rfl
@[simp] theorem setWindow_pins (s : State) (w : Window) : (s.setWindow w).pins = s.pins := rfl
@[simp] theorem setWindow_pending (s : State) (w : Window) : (s.setWindow w).pending = s.pending := rfl

@[simp] theorem setNotes_timebase (s : State) (q : NoteQueue) : (s.setNotes q).timebase = s.timebase := rfl
@[simp] theorem setNotes_slots (s : State) (q : NoteQueue) : (s.setNotes q).slots = s.slots := rfl
@[simp] theorem setNotes_dueQueue (s : State) (q : NoteQueue) : (s.setNotes q).dueQueue = s.dueQueue := rfl
@[simp] theorem setNotes_firing (s : State) (q : NoteQueue) : (s.setNotes q).firing = s.firing := rfl
@[simp] theorem setNotes_waitList (s : State) (q : NoteQueue) : (s.setNotes q).waitList = s.waitList := rfl
@[simp] theorem setNotes_lineUnit (s : State) (q : NoteQueue) : (s.setNotes q).lineUnit = s.lineUnit := rfl
@[simp] theorem setNotes_inputUnit (s : State) (q : NoteQueue) : (s.setNotes q).inputUnit = s.inputUnit := rfl
@[simp] theorem setNotes_flagBank (s : State) (q : NoteQueue) : (s.setNotes q).flagBank = s.flagBank := rfl
@[simp] theorem setNotes_noteQueue (s : State) (q : NoteQueue) : (s.setNotes q).noteQueue = q := rfl
@[simp] theorem setNotes_safeController (s : State) (q : NoteQueue) :
    (s.setNotes q).safeController = s.safeController := rfl
@[simp] theorem setNotes_window (s : State) (q : NoteQueue) : (s.setNotes q).window = s.window := rfl
@[simp] theorem setNotes_commandUnit (s : State) (q : NoteQueue) : (s.setNotes q).commandUnit = s.commandUnit := rfl
@[simp] theorem setNotes_pins (s : State) (q : NoteQueue) : (s.setNotes q).pins = s.pins := rfl
@[simp] theorem setNotes_pending (s : State) (q : NoteQueue) : (s.setNotes q).pending = s.pending := rfl

@[simp] theorem setCommands_timebase (s : State) (u : CommandUnit) : (s.setCommands u).timebase = s.timebase := rfl
@[simp] theorem setCommands_slots (s : State) (u : CommandUnit) : (s.setCommands u).slots = s.slots := rfl
@[simp] theorem setCommands_dueQueue (s : State) (u : CommandUnit) : (s.setCommands u).dueQueue = s.dueQueue := rfl
@[simp] theorem setCommands_firing (s : State) (u : CommandUnit) : (s.setCommands u).firing = s.firing := rfl
@[simp] theorem setCommands_waitList (s : State) (u : CommandUnit) : (s.setCommands u).waitList = s.waitList := rfl
@[simp] theorem setCommands_lineUnit (s : State) (u : CommandUnit) : (s.setCommands u).lineUnit = s.lineUnit := rfl
@[simp] theorem setCommands_inputUnit (s : State) (u : CommandUnit) : (s.setCommands u).inputUnit = s.inputUnit := rfl
@[simp] theorem setCommands_flagBank (s : State) (u : CommandUnit) : (s.setCommands u).flagBank = s.flagBank := rfl
@[simp] theorem setCommands_noteQueue (s : State) (u : CommandUnit) : (s.setCommands u).noteQueue = s.noteQueue := rfl
@[simp] theorem setCommands_safeController (s : State) (u : CommandUnit) :
    (s.setCommands u).safeController = s.safeController := rfl
@[simp] theorem setCommands_window (s : State) (u : CommandUnit) : (s.setCommands u).window = s.window := rfl
@[simp] theorem setCommands_commandUnit (s : State) (u : CommandUnit) : (s.setCommands u).commandUnit = u := rfl
@[simp] theorem setCommands_pins (s : State) (u : CommandUnit) : (s.setCommands u).pins = s.pins := rfl
@[simp] theorem setCommands_pending (s : State) (u : CommandUnit) : (s.setCommands u).pending = s.pending := rfl

@[simp] theorem setPins_timebase (s : State) (p : Pins) : (s.setPins p).timebase = s.timebase := rfl
@[simp] theorem setPins_slots (s : State) (p : Pins) : (s.setPins p).slots = s.slots := rfl
@[simp] theorem setPins_dueQueue (s : State) (p : Pins) : (s.setPins p).dueQueue = s.dueQueue := rfl
@[simp] theorem setPins_firing (s : State) (p : Pins) : (s.setPins p).firing = s.firing := rfl
@[simp] theorem setPins_waitList (s : State) (p : Pins) : (s.setPins p).waitList = s.waitList := rfl
@[simp] theorem setPins_lineUnit (s : State) (p : Pins) : (s.setPins p).lineUnit = s.lineUnit := rfl
@[simp] theorem setPins_inputUnit (s : State) (p : Pins) : (s.setPins p).inputUnit = s.inputUnit := rfl
@[simp] theorem setPins_flagBank (s : State) (p : Pins) : (s.setPins p).flagBank = s.flagBank := rfl
@[simp] theorem setPins_noteQueue (s : State) (p : Pins) : (s.setPins p).noteQueue = s.noteQueue := rfl
@[simp] theorem setPins_safeController (s : State) (p : Pins) : (s.setPins p).safeController = s.safeController := rfl
@[simp] theorem setPins_window (s : State) (p : Pins) : (s.setPins p).window = s.window := rfl
@[simp] theorem setPins_commandUnit (s : State) (p : Pins) : (s.setPins p).commandUnit = s.commandUnit := rfl
@[simp] theorem setPins_pins (s : State) (p : Pins) : (s.setPins p).pins = p := rfl
@[simp] theorem setPins_pending (s : State) (p : Pins) : (s.setPins p).pending = s.pending := rfl

@[simp] theorem setPending_timebase (s : State) (q : List Instr) : (s.setPending q).timebase = s.timebase := rfl
@[simp] theorem setPending_slots (s : State) (q : List Instr) : (s.setPending q).slots = s.slots := rfl
@[simp] theorem setPending_dueQueue (s : State) (q : List Instr) : (s.setPending q).dueQueue = s.dueQueue := rfl
@[simp] theorem setPending_firing (s : State) (q : List Instr) : (s.setPending q).firing = s.firing := rfl
@[simp] theorem setPending_waitList (s : State) (q : List Instr) : (s.setPending q).waitList = s.waitList := rfl
@[simp] theorem setPending_lineUnit (s : State) (q : List Instr) : (s.setPending q).lineUnit = s.lineUnit := rfl
@[simp] theorem setPending_inputUnit (s : State) (q : List Instr) : (s.setPending q).inputUnit = s.inputUnit := rfl
@[simp] theorem setPending_flagBank (s : State) (q : List Instr) : (s.setPending q).flagBank = s.flagBank := rfl
@[simp] theorem setPending_noteQueue (s : State) (q : List Instr) : (s.setPending q).noteQueue = s.noteQueue := rfl
@[simp] theorem setPending_safeController (s : State) (q : List Instr) :
    (s.setPending q).safeController = s.safeController := rfl
@[simp] theorem setPending_window (s : State) (q : List Instr) : (s.setPending q).window = s.window := rfl
@[simp] theorem setPending_commandUnit (s : State) (q : List Instr) :
    (s.setPending q).commandUnit = s.commandUnit := rfl
@[simp] theorem setPending_pins (s : State) (q : List Instr) : (s.setPending q).pins = s.pins := rfl
@[simp] theorem setPending_pending (s : State) (q : List Instr) : (s.setPending q).pending = q := rfl

@[simp] theorem send_timebase (s : State) (source : Source) (kind : Kind) (time : Time) :
    (s.send source kind time).timebase = s.timebase := rfl
@[simp] theorem send_slots (s : State) (source : Source) (kind : Kind) (time : Time) :
    (s.send source kind time).slots = s.slots := rfl
@[simp] theorem send_dueQueue (s : State) (source : Source) (kind : Kind) (time : Time) :
    (s.send source kind time).dueQueue = s.dueQueue := rfl
@[simp] theorem send_firing (s : State) (source : Source) (kind : Kind) (time : Time) :
    (s.send source kind time).firing = s.firing := rfl
@[simp] theorem send_waitList (s : State) (source : Source) (kind : Kind) (time : Time) :
    (s.send source kind time).waitList = s.waitList := rfl
@[simp] theorem send_lineUnit (s : State) (source : Source) (kind : Kind) (time : Time) :
    (s.send source kind time).lineUnit = s.lineUnit := rfl
@[simp] theorem send_inputUnit (s : State) (source : Source) (kind : Kind) (time : Time) :
    (s.send source kind time).inputUnit = s.inputUnit := rfl
@[simp] theorem send_flagBank (s : State) (source : Source) (kind : Kind) (time : Time) :
    (s.send source kind time).flagBank = s.flagBank := rfl
@[simp] theorem send_noteQueue (s : State) (source : Source) (kind : Kind) (time : Time) :
    (s.send source kind time).noteQueue = { s.noteQueue with inFlight := s.noteQueue.inFlight ++ [⟨source, kind, time⟩] } := rfl
@[simp] theorem send_safeController (s : State) (source : Source) (kind : Kind) (time : Time) :
    (s.send source kind time).safeController = s.safeController := rfl
@[simp] theorem send_window (s : State) (source : Source) (kind : Kind) (time : Time) :
    (s.send source kind time).window = s.window := rfl
@[simp] theorem send_commandUnit (s : State) (source : Source) (kind : Kind) (time : Time) :
    (s.send source kind time).commandUnit = s.commandUnit := rfl
@[simp] theorem send_pins (s : State) (source : Source) (kind : Kind) (time : Time) :
    (s.send source kind time).pins = s.pins := rfl
@[simp] theorem send_pending (s : State) (source : Source) (kind : Kind) (time : Time) :
    (s.send source kind time).pending = s.pending := rfl

@[simp] theorem raise_timebase (s : State) (b : ErrorBit) : (s.raise b).timebase = s.timebase := rfl
@[simp] theorem raise_slots (s : State) (b : ErrorBit) : (s.raise b).slots = s.slots := rfl
@[simp] theorem raise_dueQueue (s : State) (b : ErrorBit) : (s.raise b).dueQueue = s.dueQueue := rfl
@[simp] theorem raise_firing (s : State) (b : ErrorBit) : (s.raise b).firing = s.firing := rfl
@[simp] theorem raise_waitList (s : State) (b : ErrorBit) : (s.raise b).waitList = s.waitList := rfl
@[simp] theorem raise_lineUnit (s : State) (b : ErrorBit) : (s.raise b).lineUnit = s.lineUnit := rfl
@[simp] theorem raise_inputUnit (s : State) (b : ErrorBit) : (s.raise b).inputUnit = s.inputUnit := rfl
@[simp] theorem raise_flagBank (s : State) (b : ErrorBit) : (s.raise b).flagBank = s.flagBank := rfl
@[simp] theorem raise_noteQueue (s : State) (b : ErrorBit) : (s.raise b).noteQueue = s.noteQueue := rfl
@[simp] theorem raise_safeController (s : State) (b : ErrorBit) : (s.raise b).safeController = s.safeController := rfl
@[simp] theorem raise_window (s : State) (b : ErrorBit) :
    (s.raise b).window = { s.window with error := s.window.error ||| (1#6 <<< b.position) } := rfl
@[simp] theorem raise_commandUnit (s : State) (b : ErrorBit) : (s.raise b).commandUnit = s.commandUnit := rfl
@[simp] theorem raise_pins (s : State) (b : ErrorBit) : (s.raise b).pins = s.pins := rfl
@[simp] theorem raise_pending (s : State) (b : ErrorBit) : (s.raise b).pending = s.pending := rfl

@[simp] theorem complete_timebase (s : State) (c : Command) (st : Status) (data : List Word) :
    (s.complete c st data).timebase = s.timebase := rfl
@[simp] theorem complete_slots (s : State) (c : Command) (st : Status) (data : List Word) :
    (s.complete c st data).slots = s.slots := rfl
@[simp] theorem complete_dueQueue (s : State) (c : Command) (st : Status) (data : List Word) :
    (s.complete c st data).dueQueue = s.dueQueue := rfl
@[simp] theorem complete_firing (s : State) (c : Command) (st : Status) (data : List Word) :
    (s.complete c st data).firing = s.firing := rfl
@[simp] theorem complete_waitList (s : State) (c : Command) (st : Status) (data : List Word) :
    (s.complete c st data).waitList = s.waitList := rfl
@[simp] theorem complete_lineUnit (s : State) (c : Command) (st : Status) (data : List Word) :
    (s.complete c st data).lineUnit = s.lineUnit := rfl
@[simp] theorem complete_inputUnit (s : State) (c : Command) (st : Status) (data : List Word) :
    (s.complete c st data).inputUnit = s.inputUnit := rfl
@[simp] theorem complete_flagBank (s : State) (c : Command) (st : Status) (data : List Word) :
    (s.complete c st data).flagBank = s.flagBank := rfl
@[simp] theorem complete_noteQueue (s : State) (c : Command) (st : Status) (data : List Word) :
    (s.complete c st data).noteQueue = s.noteQueue := rfl
@[simp] theorem complete_safeController (s : State) (c : Command) (st : Status) (data : List Word) :
    (s.complete c st data).safeController = s.safeController := rfl
@[simp] theorem complete_window (s : State) (c : Command) (st : Status) (data : List Word) :
    (s.complete c st data).window = s.window := rfl
@[simp] theorem complete_commandUnit (s : State) (c : Command) (st : Status) (data : List Word) :
    (s.complete c st data).commandUnit = ⟨s.commandUnit.fifo, none, s.commandUnit.results ++ [⟨c.code, c.operand, st, data⟩]⟩ := rfl
@[simp] theorem complete_pins (s : State) (c : Command) (st : Status) (data : List Word) :
    (s.complete c st data).pins = s.pins := rfl
@[simp] theorem complete_pending (s : State) (c : Command) (st : Status) (data : List Word) :
    (s.complete c st data).pending = s.pending := rfl

@[simp] theorem waitFor_timebase (s : State) (c : Command) (w : Work) : (s.waitFor c w).timebase = s.timebase := rfl
@[simp] theorem waitFor_slots (s : State) (c : Command) (w : Work) : (s.waitFor c w).slots = s.slots := rfl
@[simp] theorem waitFor_dueQueue (s : State) (c : Command) (w : Work) : (s.waitFor c w).dueQueue = s.dueQueue := rfl
@[simp] theorem waitFor_firing (s : State) (c : Command) (w : Work) : (s.waitFor c w).firing = s.firing := rfl
@[simp] theorem waitFor_waitList (s : State) (c : Command) (w : Work) : (s.waitFor c w).waitList = s.waitList := rfl
@[simp] theorem waitFor_lineUnit (s : State) (c : Command) (w : Work) : (s.waitFor c w).lineUnit = s.lineUnit := rfl
@[simp] theorem waitFor_inputUnit (s : State) (c : Command) (w : Work) : (s.waitFor c w).inputUnit = s.inputUnit := rfl
@[simp] theorem waitFor_flagBank (s : State) (c : Command) (w : Work) : (s.waitFor c w).flagBank = s.flagBank := rfl
@[simp] theorem waitFor_noteQueue (s : State) (c : Command) (w : Work) : (s.waitFor c w).noteQueue = s.noteQueue := rfl
@[simp] theorem waitFor_safeController (s : State) (c : Command) (w : Work) :
    (s.waitFor c w).safeController = s.safeController := rfl
@[simp] theorem waitFor_window (s : State) (c : Command) (w : Work) : (s.waitFor c w).window = s.window := rfl
@[simp] theorem waitFor_commandUnit (s : State) (c : Command) (w : Work) :
    (s.waitFor c w).commandUnit = ⟨s.commandUnit.fifo, some ⟨c, w⟩, s.commandUnit.results⟩ := rfl
@[simp] theorem waitFor_pins (s : State) (c : Command) (w : Work) : (s.waitFor c w).pins = s.pins := rfl
@[simp] theorem waitFor_pending (s : State) (c : Command) (w : Work) : (s.waitFor c w).pending = s.pending := rfl

@[simp] theorem returnWord_timebase (s : State) (w : Word) : (s.returnWord w).timebase = s.timebase := rfl
@[simp] theorem returnWord_slots (s : State) (w : Word) : (s.returnWord w).slots = s.slots := rfl
@[simp] theorem returnWord_dueQueue (s : State) (w : Word) : (s.returnWord w).dueQueue = s.dueQueue := rfl
@[simp] theorem returnWord_firing (s : State) (w : Word) : (s.returnWord w).firing = s.firing := rfl
@[simp] theorem returnWord_waitList (s : State) (w : Word) : (s.returnWord w).waitList = s.waitList := rfl
@[simp] theorem returnWord_lineUnit (s : State) (w : Word) : (s.returnWord w).lineUnit = s.lineUnit := rfl
@[simp] theorem returnWord_inputUnit (s : State) (w : Word) : (s.returnWord w).inputUnit = s.inputUnit := rfl
@[simp] theorem returnWord_flagBank (s : State) (w : Word) : (s.returnWord w).flagBank = s.flagBank := rfl
@[simp] theorem returnWord_noteQueue (s : State) (w : Word) : (s.returnWord w).noteQueue = s.noteQueue := rfl
@[simp] theorem returnWord_safeController (s : State) (w : Word) :
    (s.returnWord w).safeController = s.safeController := rfl
@[simp] theorem returnWord_window (s : State) (w : Word) : (s.returnWord w).window = s.window := rfl
@[simp] theorem returnWord_commandUnit (s : State) (w : Word) : (s.returnWord w).commandUnit = s.commandUnit := rfl
@[simp] theorem returnWord_pins (s : State) (w : Word) : (s.returnWord w).pins = { s.pins with readWord := w } := rfl
@[simp] theorem returnWord_pending (s : State) (w : Word) : (s.returnWord w).pending = s.pending := rfl

@[simp] theorem setRecords_timebase (s : State) (rs : List NoteRecord) : (s.setRecords rs).timebase = s.timebase := rfl
@[simp] theorem setRecords_slots (s : State) (rs : List NoteRecord) : (s.setRecords rs).slots = s.slots := rfl
@[simp] theorem setRecords_dueQueue (s : State) (rs : List NoteRecord) : (s.setRecords rs).dueQueue = s.dueQueue := rfl
@[simp] theorem setRecords_firing (s : State) (rs : List NoteRecord) : (s.setRecords rs).firing = s.firing := rfl
@[simp] theorem setRecords_waitList (s : State) (rs : List NoteRecord) : (s.setRecords rs).waitList = s.waitList := rfl
@[simp] theorem setRecords_lineUnit (s : State) (rs : List NoteRecord) : (s.setRecords rs).lineUnit = s.lineUnit := rfl
@[simp] theorem setRecords_inputUnit (s : State) (rs : List NoteRecord) :
    (s.setRecords rs).inputUnit = s.inputUnit := rfl
@[simp] theorem setRecords_flagBank (s : State) (rs : List NoteRecord) : (s.setRecords rs).flagBank = s.flagBank := rfl
@[simp] theorem setRecords_noteQueue (s : State) (rs : List NoteRecord) :
    (s.setRecords rs).noteQueue = NoteQueue.recompute { s.noteQueue with records := rs } := rfl
@[simp] theorem setRecords_safeController (s : State) (rs : List NoteRecord) :
    (s.setRecords rs).safeController = s.safeController := rfl
@[simp] theorem setRecords_window (s : State) (rs : List NoteRecord) : (s.setRecords rs).window = s.window := rfl
@[simp] theorem setRecords_commandUnit (s : State) (rs : List NoteRecord) :
    (s.setRecords rs).commandUnit = s.commandUnit := rfl
@[simp] theorem setRecords_pins (s : State) (rs : List NoteRecord) : (s.setRecords rs).pins = s.pins := rfl
@[simp] theorem setRecords_pending (s : State) (rs : List NoteRecord) : (s.setRecords rs).pending = s.pending := rfl

@[simp] theorem request_timebase (s : State) (o : Occurrence) (r : Request) :
    (s.request o r).timebase = s.timebase := rfl
@[simp] theorem request_slots (s : State) (o : Occurrence) (r : Request) : (s.request o r).slots = s.slots := rfl
@[simp] theorem request_dueQueue (s : State) (o : Occurrence) (r : Request) :
    (s.request o r).dueQueue = s.dueQueue := rfl
@[simp] theorem request_firing (s : State) (o : Occurrence) (r : Request) :
    (s.request o r).firing = some { o with request := some r } := rfl
@[simp] theorem request_waitList (s : State) (o : Occurrence) (r : Request) :
    (s.request o r).waitList = s.waitList := rfl
@[simp] theorem request_lineUnit (s : State) (o : Occurrence) (r : Request) :
    (s.request o r).lineUnit = s.lineUnit := rfl
@[simp] theorem request_inputUnit (s : State) (o : Occurrence) (r : Request) :
    (s.request o r).inputUnit = s.inputUnit := rfl
@[simp] theorem request_flagBank (s : State) (o : Occurrence) (r : Request) :
    (s.request o r).flagBank = s.flagBank := rfl
@[simp] theorem request_noteQueue (s : State) (o : Occurrence) (r : Request) :
    (s.request o r).noteQueue = s.noteQueue := rfl
@[simp] theorem request_safeController (s : State) (o : Occurrence) (r : Request) :
    (s.request o r).safeController = s.safeController := rfl
@[simp] theorem request_window (s : State) (o : Occurrence) (r : Request) : (s.request o r).window = s.window := rfl
@[simp] theorem request_commandUnit (s : State) (o : Occurrence) (r : Request) :
    (s.request o r).commandUnit = s.commandUnit := rfl
@[simp] theorem request_pins (s : State) (o : Occurrence) (r : Request) : (s.request o r).pins = s.pins := rfl
@[simp] theorem request_pending (s : State) (o : Occurrence) (r : Request) : (s.request o r).pending = s.pending := rfl

/-! ## The reads of one slot, line or input after a write of one -/

theorem slot_setSlot_same (s : State) (i : SlotId) (sl : Slot) : (s.setSlot i sl).slot i = sl := by
  simp [State.slot]

theorem slot_setSlot_other (s : State) (i j : SlotId) (sl : Slot) (h : j ≠ i) : (s.setSlot i sl).slot j = s.slot j := by
  simp only [State.slot, setSlot_slots, Fin.getElem_fin]
  exact Vector.getElem_set_ne _ _ (fun e => h (Fin.ext e.symm))

theorem line_setLine_same (s : State) (n : LineId) (l : Line) : (s.setLine n l).line n = l := by
  simp [State.line]

theorem line_setLine_other (s : State) (n m : LineId) (l : Line) (h : m ≠ n) : (s.setLine n l).line m = s.line m := by
  simp only [State.line, setLine_lineUnit, Fin.getElem_fin]
  exact Vector.getElem_set_ne _ _ (fun e => h (Fin.ext e.symm))

theorem input_setInput_same (s : State) (i : LineId) (x : Input) : (s.setInput i x).input i = x := by
  simp [State.input]

theorem input_setInput_other (s : State) (i j : LineId) (x : Input) (h : j ≠ i) :
    (s.setInput i x).input j = s.input j := by
  simp only [State.input, setInput_inputUnit, Fin.getElem_fin]
  exact Vector.getElem_set_ne _ _ (fun e => h (Fin.ext e.symm))

theorem setSlot_setSlot (s : State) (i : SlotId) (a b : Slot) : (s.setSlot i a).setSlot i b = s.setSlot i b := by
  simp [State.setSlot]

end Sys2Proof.Laws
end

