-- ==== Sys2Proof/Laws/Commands.lean ====
section
/-! SUPPORT. How a row of the command unit and a row of the bus unfold: one lemma for each case, with the state afterwards. -/

namespace Sys2Proof.Laws

open Sys2Proof.Machine

/-! ## RESET# -/

theorem unlessHeld_released (s : State) (f : State → State) (h : s.Released) : s.unlessHeld f = f s := by
  simp only [State.unlessHeld, State.Released] at h ⊢
  rw [h]
  rfl

theorem unlessHeld_held (s : State) (f : State → State) (h : s.pins.resetHeld = true) : s.unlessHeld f = s := by
  simp only [State.unlessHeld, h, if_true]

theorem readUnlessHeld_released (s : State) (f : State → State) (h : s.Released) : s.readUnlessHeld f = f s := by
  simp only [State.readUnlessHeld, State.Released] at h ⊢
  rw [h]
  rfl

/-! ## Taking a command -/

/-- The oldest command of an idle command unit, if it is one of the row's, is given to its owner or only taken (R170). -/
theorem takeCommand_idle (s : State) (mine : Command → Bool) (c : Command) (rest : List Command) (r : CommandReach)
    (hx : s.commandUnit.executing = none) (hf : s.commandUnit.fifo = c :: rest) (hc : mine c = true)
    (start : Command → State → State) (resume : Executing → State → State) :
    s.takeCommand mine r start resume = match r with
      | .owner => start c (s.setCommands { s.commandUnit with fifo := rest })
      | .unit => { s with commandUnit := s.commandUnit.waiting rest c .taken } := by
  simp only [State.takeCommand, hx, hf, hc, if_true]
  cases r <;> rfl

/-- A command taken by an earlier row is given to its owner (R170). -/
theorem takeCommand_taken (s : State) (mine : Command → Bool) (c : Command) (r : CommandReach)
    (hx : s.commandUnit.executing = some ⟨c, .taken⟩) (hc : mine c = true)
    (start : Command → State → State) (resume : Executing → State → State) :
    s.takeCommand mine r start resume = start c s := by
  simp only [State.takeCommand, hx, hc, if_true]

/-- A command that waits is taken up again. -/
theorem takeCommand_executing (s : State) (mine : Command → Bool) (x : Executing) (r : CommandReach)
    (hx : s.commandUnit.executing = some x) (hw : x.work ≠ .taken) (hc : mine x.command = true)
    (start : Command → State → State) (resume : Executing → State → State) :
    s.takeCommand mine r start resume = resume x s := by
  simp only [State.takeCommand, hx, hc, if_true, if_neg hw]

/-- Another command executing leaves the state. -/
theorem takeCommand_busy (s : State) (mine : Command → Bool) (x : Executing) (r : CommandReach)
    (hx : s.commandUnit.executing = some x) (hc : mine x.command = false) (start : Command → State → State)
    (resume : Executing → State → State) : s.takeCommand mine r start resume = s := by
  simp only [State.takeCommand, hx, hc, Bool.false_eq_true, if_false]

/-- Another command at the head leaves the state. -/
theorem takeCommand_other (s : State) (mine : Command → Bool) (c : Command) (rest : List Command) (r : CommandReach)
    (hx : s.commandUnit.executing = none) (hf : s.commandUnit.fifo = c :: rest) (hc : mine c = false)
    (start : Command → State → State) (resume : Executing → State → State) : s.takeCommand mine r start resume = s := by
  simp only [State.takeCommand, hx, hf, hc, Bool.false_eq_true, if_false]

/-- An empty FIFO leaves the state. -/
theorem takeCommand_empty (s : State) (mine : Command → Bool) (r : CommandReach) (hx : s.commandUnit.executing = none)
    (hf : s.commandUnit.fifo = []) (start : Command → State → State) (resume : Executing → State → State) :
    s.takeCommand mine r start resume = s := by
  simp only [State.takeCommand, hx, hf]

/-- Everything a row of the command unit can do: nothing, take the oldest command, give it or one taken before to its owner, or take
up again one that waits. -/
theorem takeCommand_cases (s : State) (mine : Command → Bool) (r : CommandReach) (start : Command → State → State)
    (resume : Executing → State → State) :
    s.takeCommand mine r start resume = s
    ∨ (∃ c rest, s.commandUnit.executing = none ∧ s.commandUnit.fifo = c :: rest ∧ mine c = true
      ∧ (s.takeCommand mine r start resume = start c (s.setCommands { s.commandUnit with fifo := rest })
        ∨ s.takeCommand mine r start resume = { s with commandUnit := s.commandUnit.waiting rest c .taken }))
    ∨ (∃ c, s.commandUnit.executing = some ⟨c, .taken⟩ ∧ mine c = true ∧ s.takeCommand mine r start resume = start c s)
    ∨ ∃ x, s.commandUnit.executing = some x ∧ x.work ≠ .taken ∧ mine x.command = true
      ∧ s.takeCommand mine r start resume = resume x s := by
  cases hx : s.commandUnit.executing with
  | some x =>
    cases hc : mine x.command with
    | false => exact .inl (takeCommand_busy s mine x r hx hc start resume)
    | true =>
      by_cases hw : x.work = .taken
      · obtain ⟨c, w⟩ := x
        cases hw
        exact .inr (.inr (.inl ⟨c, rfl, hc, takeCommand_taken s mine c r hx hc start resume⟩))
      · exact .inr (.inr (.inr ⟨x, rfl, hw, hc, takeCommand_executing s mine x r hx hw hc start resume⟩))
  | none =>
    cases hf : s.commandUnit.fifo with
    | nil => exact .inl (takeCommand_empty s mine r hx hf start resume)
    | cons c rest =>
      cases hc : mine c with
      | false => exact .inl (takeCommand_other s mine c rest r hx hf hc start resume)
      | true =>
        refine .inr (.inl ⟨c, rest, rfl, rfl, hc, ?_⟩)
        rw [takeCommand_idle s mine c rest r hx hf hc]
        cases r
        · exact .inl rfl
        · exact .inr rfl

/-- A row that gives a command to its owner leaves the rest in the FIFO and starts it. -/
theorem runCommand_gives (s : State) (op : Opcode) (c : Command) (rest : List Command) (r : CommandReach)
    (h : s.Gives op c rest r) (start : Command → State → State) (resume : Executing → State → State) :
    ∃ t : State, s.runCommand op r start resume = start c t
      ∧ t = { s with commandUnit := ⟨rest, t.commandUnit.executing, s.commandUnit.results⟩ } := by
  obtain ⟨_, hc, ⟨hx, hf, rfl⟩ | ⟨hx, hf⟩⟩ := h
  · exact ⟨_, takeCommand_idle s _ c rest .owner hx hf (decide_eq_true hc) start resume, rfl⟩
  · exact ⟨s, takeCommand_taken s _ c r hx (decide_eq_true hc) start resume, by rw [← hf]⟩

/-- A command of the row's kind that waits is taken up again. -/
theorem runCommand_executing (s : State) (op : Opcode) (c : Command) (w : Work) (r : CommandReach)
    (h : s.IsExecuting op c w) (hw : w ≠ .taken) (start : Command → State → State) (resume : Executing → State → State) :
    s.runCommand op r start resume = resume ⟨c, w⟩ s :=
  takeCommand_executing s _ _ r h.2.1 hw (decide_eq_true h.2.2) start resume

/-! ## Answering and waiting -/

theorem complete_eq (s : State) (c : Command) (status : Status) (data : List Word) :
    s.complete c status data = { s with commandUnit := s.commandUnit.answered s.commandUnit.fifo c status data } := rfl

theorem waitFor_eq (s : State) (c : Command) (w : Work) :
    s.waitFor c w = { s with commandUnit := s.commandUnit.waiting s.commandUnit.fifo c w } := rfl

/-- A command given to its owner and answered at once. -/
theorem complete_given (s : State) (rest : List Command) (x : Option Executing) (c : Command) (status : Status)
    (data : List Word) :
    State.complete { s with commandUnit := ⟨rest, x, s.commandUnit.results⟩ } c status data
      = { s with commandUnit := s.commandUnit.answered rest c status data } := rfl

/-- A command given to its owner that waits. -/
theorem waitFor_given (s : State) (rest : List Command) (x : Option Executing) (c : Command) (w : Work) :
    State.waitFor { s with commandUnit := ⟨rest, x, s.commandUnit.results⟩ } c w
      = { s with commandUnit := s.commandUnit.waiting rest c w } := rfl

/-! ## The first two checks of a command on a slot (R21) -/

theorem onSlot_count (c : Command) (counts : List Nat) (s : State) (k : SlotId → State) (h : c.args.length ∉ counts) :
    c.onSlot counts s k = s.complete c .argCount [] := if_neg h

theorem onSlot_badSlot (c : Command) (counts : List Nat) (s : State) (k : SlotId → State) (h : c.args.length ∈ counts)
    (hs : 127 < c.operand.toNat) : c.onSlot counts s k = s.complete c .badSlot [] := by
  have hn : slotOf c.operand.toNat = none := dif_neg (by omega)
  simp only [Command.onSlot, if_pos h, hn]

theorem onSlot_slot (c : Command) (counts : List Nat) (s : State) (k : SlotId → State) (i : SlotId)
    (h : c.args.length ∈ counts) (hs : c.operand.toNat = i.val) : c.onSlot counts s k = k i := by
  have hn : slotOf c.operand.toNat = some i := by
    simp only [slotOf, hs, i.isLt, dite_true]
  simp only [Command.onSlot, if_pos h, hn]

end Sys2Proof.Laws
end

