-- ==== Sys2Proof/Laws/Notify.lean ====
section
/-! SUPPORT. The notification queue: attention is its causes, an item is merged or put at the tail, INT is its causes. -/

namespace Sys2Proof.Laws

open Sys2Proof.Machine

theorem kind_code_lt (k : Kind) : k.code < 16 := by
  cases k <;> decide

theorem exists_kind (n : Nat) (h : n < 16) : ∃ k : Kind, k.code = n := by
  have : ∀ m : Fin 16, ∃ k : Kind, k.code = m.val := by
    intro m
    fin_cases m
    exacts [⟨.fired, rfl⟩, ⟨.late, rfl⟩, ⟨.skippedLate, rfl⟩, ⟨.skippedGuard, rfl⟩, ⟨.missed, rfl⟩, ⟨.done, rfl⟩,
      ⟨.cancelled, rfl⟩, ⟨.matched, rfl⟩, ⟨.timeout, rfl⟩, ⟨.armFailed, rfl⟩, ⟨.pulseCut, rfl⟩, ⟨.retriggered, rfl⟩,
      ⟨.suppressed, rfl⟩, ⟨.edge, rfl⟩, ⟨.safeEntered, rfl⟩, ⟨.safeExited, rfl⟩]
  exact this ⟨n, h⟩

/-- The kinds seen share a kind with the urgent mask exactly when some kind's bit is set in both. -/
theorem shares_iff (a b : BitVec 16) :
    ((a &&& b) != 0) = true ↔ ∃ k : Kind, a.getLsbD k.code = true ∧ b.getLsbD k.code = true := by
  constructor
  · intro h
    by_contra hn
    refine (bne_iff_ne.1 h) (BitVec.eq_of_getLsbD_eq fun n hlt => ?_)
    obtain ⟨k, rfl⟩ := exists_kind n hlt
    cases ha : a.getLsbD k.code <;> cases hb : b.getLsbD k.code <;> simp [ha, hb]
    exact hn ⟨k, ha, hb⟩
  · rintro ⟨k, ha, hb⟩
    refine bne_iff_ne.2 fun h => ?_
    have := congrArg (·.getLsbD k.code) h
    simp [ha, hb] at this

/-- Attention, as it is computed, is the causes of R148. -/
theorem wantsAttention_iff (q : NoteQueue) : q.wantsAttention = true ↔ q.Cause := by
  cases h : q.records with
  | nil => simp [NoteQueue.wantsAttention, NoteQueue.Cause, h]
  | cons r rest =>
    simp only [NoteQueue.wantsAttention, NoteQueue.Cause, h, Bool.or_eq_true, decide_eq_true_eq, Bool.and_eq_true,
      bne_iff_ne, List.any_eq_true, List.cons.injEq]
    constructor
    · rintro ((h1 | h2) | ⟨x, hx, hk⟩)
      · exact ⟨r, rest, ⟨rfl, rfl⟩, .inl h1⟩
      · exact ⟨r, rest, ⟨rfl, rfl⟩, .inr (.inl h2)⟩
      · exact ⟨r, rest, ⟨rfl, rfl⟩, .inr (.inr ⟨x, hx, (shares_iff _ _).1 (bne_iff_ne.2 hk)⟩)⟩
    · rintro ⟨r', rest', ⟨rfl, rfl⟩, h1 | h2 | ⟨x, hx, hk⟩⟩
      · exact .inl (.inl h1)
      · exact .inl (.inr h2)
      · exact .inr ⟨x, hx, bne_iff_ne.1 ((shares_iff _ _).2 hk)⟩

/-- The records after a change of them, with the attention they make. -/
theorem setRecords_eq (s : State) (rs : List NoteRecord) :
    s.setRecords rs = { s with noteQueue := { s.noteQueue with
      records := rs, attention := NoteQueue.wantsAttention { s.noteQueue with records := rs } } } := rfl

/-- An item of a source with no record makes one at the tail (R140). -/
theorem takeInto_fresh (n : NewsItem) (tag : Byte) (rs : List NoteRecord) (h : ∀ r ∈ rs, r.source ≠ n.source) :
    takeInto n tag rs = rs ++ [NoteRecord.create n tag] := by
  induction rs with
  | nil => rfl
  | cons r rs ih =>
    simp only [takeInto, if_neg (h r (List.mem_cons_self ..)), List.cons_append]
    rw [ih fun x hx => h x (List.mem_cons_of_mem _ hx)]

/-- An item of a source with a record is merged into it in place (R140). -/
theorem takeInto_merge (n : NewsItem) (tag : Byte) (front : List NoteRecord) (r : NoteRecord) (back : List NoteRecord)
    (h : ∀ x ∈ front, x.source ≠ n.source) (hr : r.source = n.source) :
    takeInto n tag (front ++ r :: back) = front ++ r.merge n :: back := by
  induction front with
  | nil => simp only [List.nil_append, takeInto, if_pos hr]
  | cons x front ih =>
    simp only [List.cons_append, takeInto, if_neg (h x (List.mem_cons_self ..))]
    rw [ih fun y hy => h y (List.mem_cons_of_mem _ hy)]

/-- The sources of the records after an item is taken in: the same, or its source at the tail. -/
theorem takeInto_sources (n : NewsItem) (tag : Byte) (rs : List NoteRecord) :
    (takeInto n tag rs).map NoteRecord.source = rs.map NoteRecord.source ∧ n.source ∈ rs.map NoteRecord.source
    ∨ (takeInto n tag rs).map NoteRecord.source = rs.map NoteRecord.source ++ [n.source]
      ∧ n.source ∉ rs.map NoteRecord.source := by
  induction rs with
  | nil => exact .inr ⟨rfl, by simp⟩
  | cons r rs ih =>
    by_cases hr : r.source = n.source
    · exact .inl ⟨by simp only [takeInto, if_pos hr, List.map_cons, NoteRecord.merge], by simp [hr]⟩
    · simp only [takeInto, if_neg hr, List.map_cons, List.mem_cons]
      rcases ih with ⟨h1, h2⟩ | ⟨h1, h2⟩
      · exact .inl ⟨by rw [h1], .inr h2⟩
      · exact .inr ⟨by rw [h1]; rfl, fun h => h.elim (fun e => hr e.symm) h2⟩

/-- What the policies of R89 pass. -/
theorem passes_iff (p : NotifyPolicy) (k : Kind) :
    p.passes k = true ↔ p = .each ∨ (p = .done ∧ k ∉ [.fired, .matched, .retriggered])
      ∨ (p = .exceptions ∧ k ∉ [.fired, .matched, .retriggered, .done]) := by
  cases p <;> cases k <;> decide

/-- The step on the oldest item in flight on a path (R139, R140, R141). -/
theorem takeNews_found (s : State) (path : NewsPath) (before rest : List NewsItem) (n : NewsItem)
    (h : s.noteQueue.inFlight = before ++ n :: rest) (hb : ∀ x ∈ before, x.path ≠ path) (hn : n.path = path) :
    s.takeNews path = if s.keeps n then
        (s.setNotes { s.noteQueue with inFlight := before ++ rest }).setRecords
          (takeInto n (s.sourceTag n.source) s.noteQueue.records)
      else s.setNotes { s.noteQueue with inFlight := before ++ rest } := by
  have hp : (n.path == path) = true := beq_iff_eq.mpr hn
  have hx : ∀ x ∈ before, ¬ (x.path == path) = true := fun x hx e => hb x hx (beq_iff_eq.mp e)
  have hf : (before ++ n :: rest).find? (·.path == path) = some n := by
    rw [List.find?_append, List.find?_eq_none.mpr hx]
    simp only [List.find?_cons, hp, Option.none_or]
  have he : (before ++ n :: rest).eraseP (·.path == path) = before ++ rest := by
    rw [List.eraseP_append_right _ hx]
    simp only [List.eraseP_cons, hp, cond_true]
  simp only [State.takeNews, h, hf, he]

/-- With nothing in flight on a path, the step leaves the state. -/
theorem takeNews_none (s : State) (path : NewsPath) (h : ∀ n ∈ s.noteQueue.inFlight, n.path ≠ path) :
    s.takeNews path = s := by
  have hf : s.noteQueue.inFlight.find? (·.path == path) = none :=
    List.find?_eq_none.mpr fun x hx e => h x hx (beq_iff_eq.mp e)
  simp only [State.takeNews, hf]

/-- INT is its causes (R151). -/
theorem intAsserted_iff (s : State) : s.intAsserted = true ↔ s.IntCause := by
  simp only [State.intAsserted, State.IntCause, Bool.or_eq_true, Bool.and_eq_true, Bool.not_eq_true', List.isEmpty_eq_false_iff,
    bne_iff_ne, or_assoc]

end Sys2Proof.Laws
end

