-- ==== Sys2Proof/Laws/Flags.lean ====
section
/-! SUPPORT. The flag bank: one flag set, a group written, an acceptance taken. -/

namespace Sys2Proof.Laws

open Sys2Proof.Machine

/-- The event a flag's change makes, or none (R115). -/
def changeOf (s : State) (f : FlagId) (v : Bool) : List FlagEvent := if s.flag f = v then [] else [⟨f, v⟩]

theorem setFlag_eq (s : State) (f : FlagId) (v : Bool) :
    s.setFlag f v = { s with flagBank := ⟨s.flagBank.flags.set f v, s.flagBank.events ++ changeOf s f v⟩ } := by
  by_cases h : s.flag f = v
  · have hv : s.flagBank.flags.set f v = s.flagBank.flags := by
      rw [← h]
      simp [State.flag]
    simp only [State.setFlag, changeOf, if_pos h, hv, List.append_nil]
  · simp only [State.setFlag, changeOf, if_neg h]

theorem flag_setFlag (s : State) (f g : FlagId) (v : Bool) : (s.setFlag f v).flag g = if g = f then v else s.flag g := by
  rw [setFlag_eq]
  by_cases h : g = f
  · simp [State.flag, h]
  · rw [if_neg h]
    simp only [State.flag, Fin.getElem_fin]
    exact Vector.getElem_set_ne _ _ (fun e => h (Fin.ext e.symm))

/-- Flags of one group are told apart by their positions. -/
theorem groupFlag_inj (g : BitVec 3) (j k : Fin 8) : groupFlag g j = groupFlag g k ↔ j = k := by
  simp only [groupFlag, Fin.ext_iff]
  omega

/-- Flag f is the position f mod 8 of group f div 8. -/
theorem eq_groupFlag_iff (g : BitVec 3) (f : FlagId) (k : Fin 8) :
    f = groupFlag g k ↔ f.val / 8 = g.toNat ∧ f.val % 8 = k.val := by
  simp only [groupFlag, Fin.ext_iff]
  omega

/-- The masked writes of a list of distinct positions. -/
theorem foldl_writeGroup (g : BitVec 3) (w : Word) (ks : List (Fin 8)) (hk : ks.Nodup) (s : State) :
    let t := ks.foldl
      (fun s k => if w.getLsbD (8 + k.val) then s.setFlag (groupFlag g k) (w.getLsbD k.val) else s) s
    (∀ k, t.flag (groupFlag g k) = if k ∈ ks ∧ w.getLsbD (8 + k.val) = true then w.getLsbD k.val else s.flag (groupFlag g k))
    ∧ (∀ f, (∀ k, f ≠ groupFlag g k) → t.flag f = s.flag f)
    ∧ t = { s with flagBank := ⟨t.flagBank.flags, s.flagBank.events ++ ks.filterMap fun k =>
        if w.getLsbD (8 + k.val) = true ∧ s.flag (groupFlag g k) ≠ w.getLsbD k.val then
          some ⟨groupFlag g k, w.getLsbD k.val⟩ else none⟩ } := by
  induction ks generalizing s with
  | nil => exact ⟨fun k => by simp, fun _ _ => rfl, by simp⟩
  | cons m ks ih =>
    obtain ⟨hm, hks⟩ := List.nodup_cons.1 hk
    simp only [List.foldl_cons]
    cases hw : w.getLsbD (8 + m.val) with
    | false =>
      obtain ⟨h1, h2, h3⟩ := ih hks s
      refine ⟨fun k => ?_, h2, ?_⟩
      · simp only [Bool.false_eq_true, if_false]
        rw [h1 k]
        by_cases hkm : k = m
        · subst hkm
          simp [hw]
        · simp [hkm]
      · rw [List.filterMap_cons]
        simp only [hw, Bool.false_eq_true, false_and, if_false]
        exact h3
    | true =>
      obtain ⟨h1, h2, h3⟩ := ih hks (s.setFlag (groupFlag g m) (w.getLsbD m.val))
      simp only [if_true]
      refine ⟨fun k => ?_, fun f hf => ?_, ?_⟩
      · rw [h1 k, flag_setFlag]
        simp only [groupFlag_inj]
        by_cases hkm : k = m
        · subst hkm
          simp [hw, hm]
        · simp [hkm]
      · rw [h2 f hf, flag_setFlag, if_neg (hf m)]
      · have hc : (ks.filterMap fun k => if w.getLsbD (8 + k.val) = true
              ∧ (s.setFlag (groupFlag g m) (w.getLsbD m.val)).flag (groupFlag g k) ≠ w.getLsbD k.val then
              some (⟨groupFlag g k, w.getLsbD k.val⟩ : FlagEvent) else none)
            = ks.filterMap fun k => if w.getLsbD (8 + k.val) = true ∧ s.flag (groupFlag g k) ≠ w.getLsbD k.val then
              some ⟨groupFlag g k, w.getLsbD k.val⟩ else none := by
          refine List.filterMap_congr fun k hmem => ?_
          rw [flag_setFlag, if_neg fun h => hm ((groupFlag_inj g k m).1 h ▸ hmem)]
        rw [h3, hc, setFlag_eq]
        by_cases hs : s.flag (groupFlag g m) = w.getLsbD m.val <;>
          simp [hw, hs, changeOf]

/-- A masked write to a group (R117). -/
theorem writeGroup_spec (s : State) (g : BitVec 3) (w : Word) :
    (∀ f : FlagId, (s.writeGroup g w).flag f
      = if f.val / 8 = g.toNat ∧ w.getLsbD (8 + f.val % 8) = true then w.getLsbD (f.val % 8) else s.flag f)
    ∧ s.writeGroup g w = { s with flagBank := ⟨(s.writeGroup g w).flagBank.flags,
        s.flagBank.events ++ groupPositions.filterMap fun k =>
          if w.getLsbD (8 + k.val) = true ∧ s.flag (groupFlag g k) ≠ w.getLsbD k.val then
            some ⟨groupFlag g k, w.getLsbD k.val⟩ else none⟩ } := by
  have hall : ∀ k : Fin 8, k ∈ groupPositions := by decide
  obtain ⟨h1, h2, h3⟩ := foldl_writeGroup g w groupPositions (by decide) s
  refine ⟨fun f => ?_, h3⟩
  unfold State.writeGroup
  by_cases hf : f.val / 8 = g.toNat
  · have he : f = groupFlag g ⟨f.val % 8, Nat.mod_lt _ (by decide)⟩ := (eq_groupFlag_iff _ _ _).2 ⟨hf, rfl⟩
    have := h1 ⟨f.val % 8, Nat.mod_lt _ (by decide)⟩
    rw [← he] at this
    rw [this]
    simp [hall, hf]
  · rw [if_neg (fun h => hf h.1)]
    exact h2 f fun k hk => hf ((eq_groupFlag_iff _ _ _).1 hk).1

/-- The flag bank's step on one acceptance (R110, R112). -/
theorem accept_spec (s : State) (a : Acceptance) :
    (s.accept a).flag (levelFlag a.input) = a.level
    ∧ (s.accept a).flag (edgeLatch a.input) = (a.included || s.flag (edgeLatch a.input))
    ∧ (∀ f, f ≠ levelFlag a.input → f ≠ edgeLatch a.input → (s.accept a).flag f = s.flag f)
    ∧ s.accept a = { s with
        flagBank := ⟨(s.accept a).flagBank.flags, s.flagBank.events ++ changeOf s (levelFlag a.input) a.level
          ++ (if a.included = true ∧ s.flag (edgeLatch a.input) = false then [⟨edgeLatch a.input, true⟩] else [])⟩
        noteQueue := s.noteQueue.sent
          (if a.included = true ∧ a.notify = true then [⟨.input a.input, .edge, a.time⟩] else []) } := by
  have hne : edgeLatch a.input ≠ levelFlag a.input := by
    simp only [edgeLatch, levelFlag, ne_eq, Fin.mk.injEq]
    omega
  have hsend : ∀ (t : State) (src : Source) (k : Kind) (time : Time) (f : FlagId), (t.send src k time).flag f = t.flag f :=
    fun _ _ _ _ _ => rfl
  have hflag : ∀ f, (s.accept a).flag f = if a.included = true then
      ((s.setFlag (levelFlag a.input) a.level).setFlag (edgeLatch a.input) true).flag f
      else (s.setFlag (levelFlag a.input) a.level).flag f := by
    intro f
    simp only [State.accept]
    cases a.included <;> cases a.notify <;> simp [hsend]
  refine ⟨?_, ?_, fun f h1 h2 => ?_, ?_⟩
  · rw [hflag]
    simp only [flag_setFlag, if_neg hne.symm, if_true, ite_self]
  · rw [hflag]
    simp only [flag_setFlag, if_neg hne, if_true]
    cases a.included <;> simp
  · rw [hflag]
    simp only [flag_setFlag, if_neg h1, if_neg h2, ite_self]
  · have hl : (s.setFlag (levelFlag a.input) a.level).flag (edgeLatch a.input) = s.flag (edgeLatch a.input) := by
      rw [flag_setFlag, if_neg hne]
    have hlatch : ∀ u : State, u = s.setFlag (levelFlag a.input) a.level →
        u.setFlag (edgeLatch a.input) true = { s with flagBank := ⟨(u.setFlag (edgeLatch a.input) true).flagBank.flags,
          s.flagBank.events ++ changeOf s (levelFlag a.input) a.level
            ++ (if s.flag (edgeLatch a.input) = false then [⟨edgeLatch a.input, true⟩] else [])⟩ } := by
      rintro u rfl
      rw [setFlag_eq _ (edgeLatch a.input)]
      have hc : changeOf (s.setFlag (levelFlag a.input) a.level) (edgeLatch a.input) true
          = if s.flag (edgeLatch a.input) = false then [⟨edgeLatch a.input, true⟩] else [] := by
        simp only [changeOf, hl]
        cases s.flag (edgeLatch a.input) <;> rfl
      rw [hc, setFlag_eq s]
    cases hi : a.included with
    | false =>
      simp only [State.accept, hi, setFlag_eq, Bool.false_and, Bool.false_eq_true, false_and, if_false, List.append_nil,
        NoteQueue.sent]
    | true =>
      simp only [State.accept, hi, Bool.true_and, true_and, if_true]
      cases a.notify with
      | false =>
        simp only [Bool.false_eq_true, if_false, NoteQueue.sent, List.append_nil]
        exact hlatch _ rfl
      | true =>
        simp only [if_true]
        exact congrArg (fun t => State.send t (.input a.input) .edge a.time) (hlatch _ rfl)

end Sys2Proof.Laws
end

