-- ==== Sys2Proof/Laws/Lines.lean ====
section
/-! SUPPORT. Everything the line unit and the safe controller can do, said once: forced lines, pulse ends, safe entry and exit. -/

namespace Sys2Proof.Laws

open Sys2Proof.Machine

theorem allLines_nodup : allLines.Nodup := by decide

theorem mem_allLines (n : LineId) : n ∈ allLines := by
  revert n
  decide

/-- The PULSE_CUT news of a line record at a time (R102). -/
def cutOf (l : Line) (now : Time) : List NewsItem :=
  (l.pulse.map fun p => (⟨.slot p.owner, .pulseCut, now⟩ : NewsItem)).toList

theorem reportCut_eq (s : State) (l : Line) :
    s.reportCut l = { s with noteQueue := s.noteQueue.sent (cutOf l s.now) } := by
  cases h : l.pulse with
  | none => simp [State.reportCut, cutOf, h, NoteQueue.sent]
  | some p => simp [State.reportCut, cutOf, h, NoteQueue.sent, State.send, State.setNotes]

/-- A forced line: its pulse is reported and the line changes, nothing else (R98, R99, R101). -/
theorem forceLine_eq (s : State) (n : LineId) (v : Bool) :
    s.forceLine n v = { s with
      lineUnit := { s.lineUnit with lines := s.lineUnit.lines.set n ((s.line n).forced s.lineUnit.safeDrive v) }
      noteQueue := s.noteQueue.sent (cutOf (s.line n) s.now) } := by
  rw [State.forceLine, reportCut_eq]
  rfl

theorem sent_nil (q : NoteQueue) : q.sent [] = q := by
  simp [NoteQueue.sent]

theorem sent_sent (q : NoteQueue) (a b : List NewsItem) : (q.sent a).sent b = q.sent (a ++ b) := by
  simp [NoteQueue.sent]

/-- The reports of a list of lines, one after another. -/
theorem foldl_reportCut (ns : List LineId) (s : State) :
    ns.foldl (fun s n => s.reportCut (s.line n)) s
      = { s with noteQueue := s.noteQueue.sent (ns.flatMap fun n => cutOf (s.line n) s.now) } := by
  induction ns generalizing s with
  | nil => simp [NoteQueue.sent]
  | cons n ns ih =>
    rw [List.foldl_cons, ih, reportCut_eq]
    simp [sent_sent, State.line, State.now]

/-- The news of an event on selected lines. -/
theorem cutNews_eq (s : State) (selected : LineId → Bool) :
    s.cutNews selected = (allLines.filter selected).flatMap fun n => cutOf (s.line n) s.now := by
  simp only [State.cutNews]
  induction allLines with
  | nil => rfl
  | cons n ns ih =>
    cases hs : selected n with
    | false => simp [hs, ih]
    | true => cases hp : (s.line n).pulse <;> simp [hs, ih, cutOf, hp]

theorem cutNews_all (s : State) :
    s.cutNews (fun _ => true) = allLines.flatMap fun n => cutOf (s.line n) s.now := by
  rw [cutNews_eq]
  simp

theorem filter_allLines_eq (n : LineId) : allLines.filter (· == n) = [n] := by
  revert n
  decide

theorem cutNews_one (s : State) (n : LineId) : s.cutNews (· == n) = cutOf (s.line n) s.now := by
  rw [cutNews_eq, filter_allLines_eq]
  simp

/-! ## Safe entry and exit -/

/-- A safe entry, written out (R105, R156). -/
theorem enterSafe_eq (s : State) : s.enterSafe = { s with
    safeController := { s.safeController with state := .safe }
    lineUnit := ⟨s.lineUnit.lines.map Line.enterSafe, true⟩
    timebase := { s.timebase with freeze := s.timebase.freeze || s.safeController.policy == .freeze }
    noteQueue := s.noteQueue.sent (s.cutNews (fun _ => true) ++ [⟨.safe, .safeEntered, s.now⟩]) } := by
  have hf := foldl_reportCut allLines (s.setSafe { s.safeController with state := .safe })
  simp only [State.enterSafe, State.linesEnterSafe, hf, cutNews_all]
  have hc : (SafePolicy.continue_ == SafePolicy.freeze) = false := rfl
  cases hp : s.safeController.policy <;>
    simp [State.setSafe, State.setTimebase, State.send, State.setNotes, NoteQueue.sent, State.line, State.now, hc]

/-- A safe entry is the relation SafeEntry (R105, R156). -/
theorem enterSafe_entry (s : State) : SafeEntry s s.enterSafe := by
  rw [enterSafe_eq]
  refine ⟨rfl, fun n => ?_, rfl⟩
  show (s.lineUnit.lines.map Line.enterSafe)[n] = _
  simp only [Fin.getElem_fin, Vector.getElem_map]
  rfl

/-- A safe exit is the relation SafeExit (R106, R160). -/
theorem exitSafe_exit (s : State) : SafeExit s s.exitSafe := by
  refine ⟨rfl, fun n => ?_, rfl⟩
  simp [State.exitSafe, State.linesExitSafe, State.line, State.setSafe, State.setTimebase, State.send, State.setNotes]

/-- What a cause of safe entry does (R155, R156, R157). -/
theorem causeSafe_spec (s : State) :
    (s.safeController.state = .run → SafeEntry s s.causeSafe) ∧ (s.safeController.state = .safe → s.causeSafe = s) := by
  constructor <;> intro h <;> simp only [State.causeSafe, h]
  exact enterSafe_entry s

/-! ## Pulse ends -/

/-- A line once its pulse, if over at a time, has ended. -/
def lineAt (l : Line) (now : Time) (safeDrive : Bool) : Line := if l.pulseOver now then l.ended safeDrive else l

/-- The end of a reached pulse on one line, or nothing (R95). -/
theorem endPulse_eq (s : State) (n : LineId) :
    s.endPulse n = s.setLine n (lineAt (s.line n) s.now s.lineUnit.safeDrive) := by
  by_cases h : (s.line n).pulseOver s.now = true
  · simp only [State.endPulse, lineAt, h, if_true]
    rfl
  · simp only [State.endPulse, lineAt, h]
    simp [State.line, State.setLine]

/-- The pulse ends of a list of distinct lines: each line by itself, and nothing else. -/
theorem foldl_endPulse (ns : List LineId) (hn : ns.Nodup) (s : State) :
    (∀ n, (ns.foldl State.endPulse s).line n
      = if n ∈ ns then lineAt (s.line n) s.now s.lineUnit.safeDrive else s.line n)
    ∧ ns.foldl State.endPulse s
      = { s with lineUnit := ⟨(ns.foldl State.endPulse s).lineUnit.lines, s.lineUnit.safeDrive⟩ } := by
  induction ns generalizing s with
  | nil => exact ⟨fun n => by simp, rfl⟩
  | cons m ns ih =>
    obtain ⟨hm, hns⟩ := List.nodup_cons.1 hn
    obtain ⟨h1, h2⟩ := ih hns (s.endPulse m)
    rw [List.foldl_cons]
    rw [endPulse_eq] at h1 h2 ⊢
    constructor
    · intro n
      rw [h1 n]
      by_cases hnm : n = m
      · subst hnm
        simp only [if_neg hm, List.mem_cons, true_or, if_true, line_setLine_same]
      · simp only [List.mem_cons, hnm, false_or, line_setLine_other _ _ _ _ hnm]
        rfl
    · rw [h2]
      rfl

/-- Every reached pulse ends, and nothing else changes (R8, R95). -/
theorem endReachedPulses_spec (s : State) :
    (∀ n, s.endReachedPulses.line n
      = if (s.line n).pulseOver s.now then (s.line n).ended s.lineUnit.safeDrive else s.line n)
    ∧ s.endReachedPulses = { s with lineUnit := ⟨s.endReachedPulses.lineUnit.lines, s.lineUnit.safeDrive⟩ } := by
  obtain ⟨h1, h2⟩ := foldl_endPulse allLines allLines_nodup s
  unfold State.endReachedPulses
  refine ⟨fun n => ?_, h2⟩
  rw [h1 n, if_pos (mem_allLines n)]
  rfl

/-! ## SET_LINE -/

/-- The forced lines of a list of distinct lines: each selected line by itself, its report, and nothing else. -/
theorem foldl_setLine (half : Nat) (w : Word) (ns : List LineId) (hn : ns.Nodup) (s : State) :
    let t := ns.foldl (fun s n => if setLineSelects half w n then s.forceLine n (w.getLsbD (n.val % 8)) else s) s
    (∀ n, t.line n = if n ∈ ns ∧ setLineSelects half w n = true then
        (s.line n).forced s.lineUnit.safeDrive (w.getLsbD (n.val % 8)) else s.line n)
    ∧ t = { s with
        lineUnit := { s.lineUnit with lines := t.lineUnit.lines }
        noteQueue := s.noteQueue.sent ((ns.filter (setLineSelects half w)).flatMap fun n => cutOf (s.line n) s.now) } := by
  induction ns generalizing s with
  | nil => exact ⟨fun n => by simp, by simp [NoteQueue.sent]⟩
  | cons m ns ih =>
    obtain ⟨hm, hns⟩ := List.nodup_cons.1 hn
    cases hs : setLineSelects half w m with
    | false =>
      obtain ⟨h1, h2⟩ := ih hns s
      simp only [List.foldl_cons, hs]
      refine ⟨fun n => ?_, ?_⟩
      · rw [if_neg (by simp)]
        rw [h1 n]
        by_cases hnm : n = m
        · subst hnm
          simp [hs]
        · simp [hnm]
      · simp only [List.filter_cons, hs]
        exact h2
    | true =>
      have he := forceLine_eq s m (w.getLsbD (m.val % 8))
      obtain ⟨h1, h2⟩ := ih hns (s.forceLine m (w.getLsbD (m.val % 8)))
      have hl : ∀ n, n ≠ m → (s.forceLine m (w.getLsbD (m.val % 8))).line n = s.line n := fun n hnm => by
        rw [he]; simp [State.line, Fin.val_ne_of_ne (Ne.symm hnm)]
      simp only [List.foldl_cons, hs, if_true]
      refine ⟨fun n => ?_, ?_⟩
      · rw [h1 n]
        by_cases hnm : n = m
        · subst hnm
          have : (s.forceLine n (w.getLsbD (n.val % 8))).line n
              = (s.line n).forced s.lineUnit.safeDrive (w.getLsbD (n.val % 8)) := by
            rw [he]; simp [State.line]
          simp [hm, hs, this]
        · have hd : (s.forceLine m (w.getLsbD (m.val % 8))).lineUnit.safeDrive = s.lineUnit.safeDrive := by rw [he]
          simp [hnm, hl n hnm, hd]
      · have hc : ((ns.filter (setLineSelects half w)).flatMap fun n =>
            cutOf ((s.forceLine m (w.getLsbD (m.val % 8))).line n) (s.forceLine m (w.getLsbD (m.val % 8))).now)
            = (ns.filter (setLineSelects half w)).flatMap fun n => cutOf (s.line n) s.now := by
          refine List.flatMap_congr fun n hmem => ?_
          rw [hl n (fun h => hm (h ▸ (List.mem_filter.1 hmem).1)), he]
          rfl
        rw [h2, hc, he]
        simp [hs, sent_sent]

/-- SET_LINE's effect (R101). -/
theorem setLines_spec (s : State) (half : Nat) (w : Word) :
    (∀ n, (s.setLines half w).line n = if setLineSelects half w n then
        (s.line n).forced s.lineUnit.safeDrive (w.getLsbD (n.val % 8)) else s.line n)
    ∧ s.setLines half w = { s with
        lineUnit := { s.lineUnit with lines := (s.setLines half w).lineUnit.lines }
        noteQueue := s.noteQueue.sent (s.cutNews (setLineSelects half w)) } := by
  obtain ⟨h1, h2⟩ := foldl_setLine half w allLines allLines_nodup s
  refine ⟨fun n => ?_, ?_⟩
  · simp only [State.setLines, h1 n, mem_allLines, true_and]
  · rw [cutNews_eq]
    exact h2

end Sys2Proof.Laws
end

