-- ==== Sys2Proof/Laws/Wait.lean ====
section
/-! SUPPORT. Everything the wait list can do with an event, said once: what a flag change and an advance end. -/

namespace Sys2Proof.Laws

open Sys2Proof.Machine

/-- The end of one wait, whole. -/
theorem endWait_eq (s : State) (i : SlotId) (k : Kind) (time : Time) (arms : List PendingArm) :
    s.endWait i k time arms = { s with
      slots := s.slots.set i (s.slot i).finished
      noteQueue := s.noteQueue.sent [⟨.slot i, k, time⟩]
      waitList := { s.waitList with arms := s.waitList.arms ++ arms } } := rfl

theorem slot_endWait (s : State) (i : SlotId) (k : Kind) (time : Time) (arms : List PendingArm) (j : SlotId) :
    (s.endWait i k time arms).slot j = if j = i then (s.slot j).finished else s.slot j := by
  by_cases h : j = i
  · subst h
    rw [if_pos rfl]
    exact slot_setSlot_same _ _ _
  · rw [if_neg h]
    exact slot_setSlot_other _ _ _ _ h

/-- The ends of a list of entries, one after another, each with its news and its arms: the slots named are DONE, every other
slot is kept, and the news and the arms follow the order of the list. -/
theorem foldl_endWait (kind : Kind) (time : WaitEntry → Time) (arms : WaitEntry → List PendingArm) (es : List WaitEntry)
    (s : State) :
    let t := es.foldl (fun s e => s.endWait e.slot kind (time e) (arms e)) s
    (∀ i, t.slot i = if i ∈ es.map WaitEntry.slot then (s.slot i).finished else s.slot i)
    ∧ t = { s with
        slots := t.slots
        noteQueue := s.noteQueue.sent (es.map fun e => ⟨.slot e.slot, kind, time e⟩)
        waitList := { s.waitList with arms := s.waitList.arms ++ es.flatMap arms } } := by
  induction es generalizing s with
  | nil => exact ⟨fun i => by simp, by simp [NoteQueue.sent]⟩
  | cons e es ih =>
    obtain ⟨h1, h2⟩ := ih (s.endWait e.slot kind (time e) (arms e))
    simp only [List.foldl_cons]
    constructor
    · intro i
      rw [h1 i, slot_endWait]
      by_cases hi : i = e.slot
      · simp [hi, Slot.finished]
      · simp [hi]
    · rw [h2, endWait_eq]
      simp [NoteQueue.sent]

/-- The step on the oldest flag change (R128). -/
theorem takeFlagEvent_spec (s : State) (v : FlagEvent) (rest : List FlagEvent) (h : s.flagBank.events = v :: rest) :
    (∀ i, s.takeFlagEvent.slot i
      = if i ∈ (s.waitList.entries.filter (·.metBy v)).map WaitEntry.slot then (s.slot i).finished else s.slot i)
    ∧ s.takeFlagEvent = { s with
        flagBank := { s.flagBank with events := rest }
        slots := s.takeFlagEvent.slots
        noteQueue := s.noteQueue.sent
          ((s.waitList.entries.filter (·.metBy v)).map fun e => ⟨.slot e.slot, .matched, s.waitTime⟩)
        waitList := ⟨s.waitList.entries.filter fun e => !e.metBy v, s.waitList.arms
          ++ (s.waitList.entries.filter (·.metBy v)).flatMap fun e => followArm e.follow s.waitTime e.slot⟩ } := by
  have ht : s.takeFlagEvent = (s.waitList.entries.filter (·.metBy v)).foldl
      (fun s' e => s'.endWait e.slot .matched s.waitTime (followArm e.follow s.waitTime e.slot))
      (State.setWaitEntries { s with flagBank := { s.flagBank with events := rest } }
        (s.waitList.entries.filter fun e => !e.metBy v)) := by
    simp only [State.takeFlagEvent, h]
    rfl
  obtain ⟨h1, h2⟩ := foldl_endWait .matched (fun _ => s.waitTime) (fun e => followArm e.follow s.waitTime e.slot)
    (s.waitList.entries.filter (·.metBy v))
    (State.setWaitEntries { s with flagBank := { s.flagBank with events := rest } }
      (s.waitList.entries.filter fun e => !e.metBy v))
  rw [ht]
  exact ⟨h1, h2⟩

theorem withdraw_eq (s : State) (i : SlotId) : s.withdraw i = { s with
    waitList := { s.waitList with entries := s.waitList.entries.filter fun e => e.slot ≠ i }
    slots := s.slots.set i { s.slot i with state := .held, due := none } } := by
  have he : s.waitList.entries.filter (·.slot != i) = s.waitList.entries.filter fun e => e.slot ≠ i := by
    simp only [bne, ne_eq, decide_not, beq_eq_decide]
  simp only [State.withdraw, he]
  rfl

theorem takeFlagEvent_none (s : State) (h : s.flagBank.events = []) : s.takeFlagEvent = s := by
  simp only [State.takeFlagEvent, h]

/-- The step on an advance (R129). -/
theorem expireDeadlines_spec (s : State) :
    (∀ i, s.expireDeadlines.slot i
      = if i ∈ (s.waitList.entries.filter (·.expired s.now)).map WaitEntry.slot then (s.slot i).finished else s.slot i)
    ∧ s.expireDeadlines = { s with
        slots := s.expireDeadlines.slots
        noteQueue := s.noteQueue.sent
          ((s.waitList.entries.filter (·.expired s.now)).map fun e => ⟨.slot e.slot, .timeout, e.deadline.getD s.now⟩)
        waitList := ⟨s.waitList.entries.filter fun e => !e.expired s.now, s.waitList.arms
          ++ (s.waitList.entries.filter (·.expired s.now)).flatMap fun e =>
            timeoutArm e.timeout (e.deadline.getD s.now) e.slot⟩ } := by
  have hfold : ∀ (es : List WaitEntry) (s' : State), s'.now = s.now → es.foldl State.endExpired s' = es.foldl
      (fun s' e => s'.endWait e.slot .timeout (e.deadline.getD s.now)
        (timeoutArm e.timeout (e.deadline.getD s.now) e.slot)) s' := by
    intro es
    induction es with
    | nil => intro _ _; rfl
    | cons e es ih =>
      intro s' hn
      simp only [List.foldl_cons]
      rw [← ih _ (show State.now (s'.endWait e.slot .timeout _ _) = s.now from hn)]
      simp only [State.endExpired, hn]
  obtain ⟨h1, h2⟩ := foldl_endWait .timeout (fun e => e.deadline.getD s.now)
    (fun e => timeoutArm e.timeout (e.deadline.getD s.now) e.slot) (s.waitList.entries.filter (·.expired s.now))
    (s.setWaitEntries (s.waitList.entries.filter fun e => !e.expired s.now))
  have ht : s.expireDeadlines = (s.waitList.entries.filter (·.expired s.now)).foldl
      (fun s' e => s'.endWait e.slot .timeout (e.deadline.getD s.now)
        (timeoutArm e.timeout (e.deadline.getD s.now) e.slot))
      (s.setWaitEntries (s.waitList.entries.filter fun e => !e.expired s.now)) := by
    simp only [State.expireDeadlines]
    exact hfold _ _ rfl
  rw [ht]
  exact ⟨h1, h2⟩

/-- A change meets an entry exactly as the table of R128 says. -/
theorem metBy_eq (e : WaitEntry) (v : FlagEvent) :
    e.metBy v = (e.flag == v.flag
      && ((v.value && (e.condition == .level1 || e.condition == .rise))
        || (!v.value && (e.condition == .level0 || e.condition == .fall)))) := by
  obtain ⟨slot, flag, condition, start, deadline, follow, timeout⟩ := e
  obtain ⟨f, value⟩ := v
  cases condition <;> cases value <;> simp [WaitEntry.metBy, Condition.metByChange]

end Sys2Proof.Laws
end

