-- ==== Sys2Proof/Laws/Ticks.lean ====
section
/-! SUPPORT. Everything a tick can do, said once: the samples, what is in flight, and what a tick leaves alone. -/

namespace Sys2Proof.Laws

open Sys2Proof.Machine

/-! ## The samples of one tick -/

/-- An input after one sample (R108, R109). -/
def sampled (x : Input) (level flag : Bool) : Input :=
  { x with
    raw := level
    candidate := if level = flag then 0 else if x.candidate < x.q then x.candidate + 1 else 0 }

/-- The acceptance one sample makes, or none (R109, R110). -/
def acceptanceOf (x : Input) (i : LineId) (level flag : Bool) (now : Time) : List Acceptance :=
  if level ≠ flag ∧ x.q ≤ x.candidate then [⟨i, level, x.edge.includes level, x.notify, now⟩] else []

theorem sampleInput_eq (s : State) (level : Bool) (i : LineId) :
    s.sampleInput level i = { s with inputUnit :=
      ⟨s.inputUnit.inputs.set i (sampled (s.input i) level (s.flag (levelFlag i))),
        s.inputUnit.handed ++ acceptanceOf (s.input i) i level (s.flag (levelFlag i)) s.now⟩ } := by
  by_cases h : level = s.flag (levelFlag i)
  · simp [State.sampleInput, sampled, acceptanceOf, ← h, State.setInput]
  · by_cases hc : (s.input i).candidate < (s.input i).q
    · simp [State.sampleInput, sampled, acceptanceOf, h, hc, Nat.not_le.2 hc, State.setInput]
    · simp [State.sampleInput, sampled, acceptanceOf, h, hc, Nat.not_lt.1 hc, State.setInput]

/-- The samples of a list of distinct inputs: each input by itself, its acceptance in the order of the list, nothing else. -/
theorem foldl_sampleInput (pins : BitVec 16) (ns : List LineId) (hn : ns.Nodup) (s : State) :
    let t := ns.foldl (fun s i => s.sampleInput (pins.getLsbD i.val) i) s
    (∀ i, t.input i = if i ∈ ns then sampled (s.input i) (pins.getLsbD i.val) (s.flag (levelFlag i)) else s.input i)
    ∧ t = { s with inputUnit := ⟨t.inputUnit.inputs, s.inputUnit.handed ++ ns.flatMap fun i =>
        acceptanceOf (s.input i) i (pins.getLsbD i.val) (s.flag (levelFlag i)) s.now⟩ } := by
  induction ns generalizing s with
  | nil => exact ⟨fun i => by simp, by simp⟩
  | cons m ns ih =>
    obtain ⟨hm, hns⟩ := List.nodup_cons.1 hn
    obtain ⟨h1, h2⟩ := ih hns (s.sampleInput (pins.getLsbD m.val) m)
    have he := sampleInput_eq s (pins.getLsbD m.val) m
    have hflag : ∀ f, (s.sampleInput (pins.getLsbD m.val) m).flag f = s.flag f := fun f => by rw [he]; rfl
    have hnow : (s.sampleInput (pins.getLsbD m.val) m).now = s.now := by rw [he]; rfl
    have hsame : (s.sampleInput (pins.getLsbD m.val) m).input m
        = sampled (s.input m) (pins.getLsbD m.val) (s.flag (levelFlag m)) := by
      rw [he]; simp [State.input]
    have hother : ∀ i, i ≠ m → (s.sampleInput (pins.getLsbD m.val) m).input i = s.input i := fun i hi => by
      rw [he]
      simp only [State.input, Fin.getElem_fin]
      exact Vector.getElem_set_ne _ _ (fun e => hi (Fin.ext e.symm))
    simp only [List.foldl_cons]
    constructor
    · intro i
      rw [h1 i, hflag]
      by_cases hi : i = m
      · subst hi
        rw [if_neg hm, hsame, if_pos (List.mem_cons_self ..)]
      · rw [hother i hi]
        simp only [List.mem_cons, hi, false_or]
    · have hc : (ns.flatMap fun i => acceptanceOf ((s.sampleInput (pins.getLsbD m.val) m).input i) i (pins.getLsbD i.val)
            ((s.sampleInput (pins.getLsbD m.val) m).flag (levelFlag i)) (s.sampleInput (pins.getLsbD m.val) m).now)
          = ns.flatMap fun i => acceptanceOf (s.input i) i (pins.getLsbD i.val) (s.flag (levelFlag i)) s.now := by
        refine List.flatMap_congr fun i hmem => ?_
        rw [hother i (fun h => hm (h ▸ hmem)), hflag, hnow]
      rw [h2, hc, he]
      simp

/-- The sixteen samples of one tick (R108, R109). -/
theorem sampleInputs_spec (pins : BitVec 16) (s : State) :
    (∀ i, (s.sampleInputs pins).input i = sampled (s.input i) (pins.getLsbD i.val) (s.flag (levelFlag i)))
    ∧ s.sampleInputs pins = { s with inputUnit := ⟨(s.sampleInputs pins).inputUnit.inputs,
        s.inputUnit.handed ++ allLines.flatMap fun i =>
          acceptanceOf (s.input i) i (pins.getLsbD i.val) (s.flag (levelFlag i)) s.now⟩ } := by
  obtain ⟨h1, h2⟩ := foldl_sampleInput pins allLines allLines_nodup s
  unfold State.sampleInputs
  refine ⟨fun i => ?_, h2⟩
  rw [h1 i, if_pos (mem_allLines i)]

/-! ## What the steps on things in flight leave alone -/

/-- The fields that acceptances, flag changes, deadlines and pulse ends never touch. -/
structure Quiet (s t : State) : Prop where
  timebase : t.timebase = s.timebase
  dueQueue : t.dueQueue = s.dueQueue
  firing : t.firing = s.firing
  safeController : t.safeController = s.safeController
  window : t.window = s.window
  commandUnit : t.commandUnit = s.commandUnit
  pins : t.pins = s.pins
  pending : t.pending = s.pending
  records : t.noteQueue = { s.noteQueue with inFlight := t.noteQueue.inFlight }

theorem Quiet.rfl' (s : State) : Quiet s s := ⟨rfl, rfl, rfl, rfl, rfl, rfl, rfl, rfl, rfl⟩

theorem Quiet.trans' {s t u : State} (h : Quiet s t) (k : Quiet t u) : Quiet s u where
  timebase := k.timebase.trans h.timebase
  dueQueue := k.dueQueue.trans h.dueQueue
  firing := k.firing.trans h.firing
  safeController := k.safeController.trans h.safeController
  window := k.window.trans h.window
  commandUnit := k.commandUnit.trans h.commandUnit
  pins := k.pins.trans h.pins
  pending := k.pending.trans h.pending
  records := by
    have hk := k.records
    rw [h.records] at hk
    exact hk

theorem accept_quiet (s : State) (a : Acceptance) : Quiet s (s.accept a) := by
  rw [(accept_spec s a).2.2.2]
  exact ⟨rfl, rfl, rfl, rfl, rfl, rfl, rfl, rfl, rfl⟩

theorem takeAcceptance_quiet (s : State) : Quiet s s.takeAcceptance := by
  cases h : s.inputUnit.handed with
  | nil =>
    simp only [State.takeAcceptance, h]
    exact Quiet.rfl' s
  | cons a rest =>
    simp only [State.takeAcceptance, h]
    exact Quiet.trans' (s := s) (t := { s with inputUnit := ⟨s.inputUnit.inputs, rest⟩ })
      ⟨rfl, rfl, rfl, rfl, rfl, rfl, rfl, rfl, rfl⟩ (accept_quiet _ a)

theorem takeFlagEvent_quiet (s : State) : Quiet s s.takeFlagEvent := by
  cases h : s.flagBank.events with
  | nil => rw [takeFlagEvent_none s h]; exact Quiet.rfl' s
  | cons v rest =>
    rw [(takeFlagEvent_spec s v rest h).2]
    exact ⟨rfl, rfl, rfl, rfl, rfl, rfl, rfl, rfl, rfl⟩

/-- A fold of quiet steps is quiet. -/
theorem foldl_quiet {α : Type} (f : State → State) (hf : ∀ s, Quiet s (f s)) (xs : List α) (s : State) :
    Quiet s (xs.foldl (fun s _ => f s) s) := by
  induction xs generalizing s with
  | nil => exact Quiet.rfl' s
  | cons x xs ih => exact Quiet.trans' (hf s) (ih (f s))

theorem takeAcceptances_quiet (s : State) : Quiet s s.takeAcceptances :=
  foldl_quiet State.takeAcceptance takeAcceptance_quiet s.inputUnit.handed s

theorem takeFlagEvents_quiet (s : State) : Quiet s s.takeFlagEvents :=
  foldl_quiet State.takeFlagEvent takeFlagEvent_quiet s.flagBank.events s

theorem expireDeadlines_quiet (s : State) : Quiet s s.expireDeadlines := by
  rw [(expireDeadlines_spec s).2]
  exact ⟨rfl, rfl, rfl, rfl, rfl, rfl, rfl, rfl, rfl⟩

theorem endPulses_quiet (ns : List LineId) (s : State) : Quiet s (ns.foldl State.endPulse s) := by
  induction ns generalizing s with
  | nil => exact Quiet.rfl' s
  | cons n ns ih =>
    have h : Quiet s (s.endPulse n) := by
      rw [endPulse_eq]
      exact ⟨rfl, rfl, rfl, rfl, rfl, rfl, rfl, rfl, rfl⟩
    exact Quiet.trans' h (ih _)

/-- What the tick before left in flight, taken before the next tick. -/
theorem settle_quiet (s : State) : Quiet s s.settle :=
  Quiet.trans' (takeAcceptances_quiet s) (Quiet.trans' (takeFlagEvents_quiet _)
    (Quiet.trans' (expireDeadlines_quiet _) (endPulses_quiet allLines _)))

theorem sampleInputs_quiet (pins : BitVec 16) (s : State) : Quiet s (s.sampleInputs pins) := by
  rw [(sampleInputs_spec pins s).2]
  exact ⟨rfl, rfl, rfl, rfl, rfl, rfl, rfl, rfl, rfl⟩

/-- With nothing handed over, no acceptance is taken. -/
theorem takeAcceptances_none (s : State) (h : s.inputUnit.handed = []) : s.takeAcceptances = s := by
  simp only [State.takeAcceptances, h, List.foldl_nil]

/-! ## The advance -/

theorem advance_eq (s : State) :
    s.advance = { s with timebase := { s.timebase with
      time := if s.timebase.desired = .run ∧ s.timebase.freeze = false then s.timebase.time + 1 else s.timebase.time } } := by
  have hr : s.timebase.running = true ↔ s.timebase.desired = .run ∧ s.timebase.freeze = false := by
    simp [Timebase.running]
  by_cases h : s.timebase.running = true
  · simp only [State.advance, h, if_true, if_pos (hr.1 h)]
    rfl
  · simp only [State.advance, h, if_neg (fun x => h (hr.2 x))]
    rfl

/-- A tick from what comes before its advance, `u`, and what is between the advance and the ages, `v`. -/
theorem tick_fields (s u v : State) (q : Quiet s u) (k : Quiet u.advance v) :
    let t := v.ageRecords
    t.timebase = { s.timebase with
      time := if s.timebase.desired = .run ∧ s.timebase.freeze = false then s.timebase.time + 1 else s.timebase.time }
    ∧ t.dueQueue = s.dueQueue ∧ t.firing = s.firing ∧ t.safeController = s.safeController ∧ t.window = s.window
    ∧ t.commandUnit = s.commandUnit ∧ t.pins = s.pins ∧ t.pending = s.pending
    ∧ t.noteQueue.records = s.noteQueue.records.map (fun r => { r with age := min 65535 (r.age + 1) })
    ∧ t.noteQueue.attention = t.noteQueue.wantsAttention := by
  have hu := advance_eq u
  have hr : v.noteQueue.records = s.noteQueue.records := by
    rw [k.records, hu, q.records]
  refine ⟨?_, ?_, ?_, ?_, ?_, ?_, ?_, ?_, ?_, rfl⟩
  · show v.timebase = _
    rw [k.timebase, hu, q.timebase]
  · show v.dueQueue = _
    rw [k.dueQueue, hu, q.dueQueue]
  · show v.firing = _
    rw [k.firing, hu, q.firing]
  · show v.safeController = _
    rw [k.safeController, hu, q.safeController]
  · show v.window = _
    rw [k.window, hu, q.window]
  · show v.commandUnit = _
    rw [k.commandUnit, hu, q.commandUnit]
  · show v.pins = _
    rw [k.pins, hu, q.pins]
  · show v.pending = _
    rw [k.pending, hu, q.pending]
  · show v.noteQueue.records.map _ = _
    rw [hr]

/-- Everything a delivered tick leaves alone, and the time and the ages after it. -/
theorem deliverTick_frame (s : State) (pins : BitVec 16) (order : TickOrder) :
    let t := s.deliverTick pins order
    t.timebase = { s.timebase with
      time := if s.timebase.desired = .run ∧ s.timebase.freeze = false then s.timebase.time + 1 else s.timebase.time }
    ∧ t.dueQueue = s.dueQueue ∧ t.firing = s.firing ∧ t.safeController = s.safeController ∧ t.window = s.window
    ∧ t.commandUnit = s.commandUnit ∧ t.pins = s.pins ∧ t.pending = s.pending
    ∧ t.noteQueue.records = s.noteQueue.records.map (fun r => { r with age := min 65535 (r.age + 1) })
    ∧ t.noteQueue.attention = t.noteQueue.wantsAttention :=
  match order with
  | .advanceFirst => tick_fields s s.settle _ (settle_quiet s) (sampleInputs_quiet pins _)
  | .samplesFirst =>
    tick_fields s _ _ ((settle_quiet s).trans' ((sampleInputs_quiet pins _).trans'
      ((takeAcceptances_quiet _).trans' (takeFlagEvents_quiet _)))) (Quiet.rfl' _)

/-- Taking acceptances, flag changes and deadlines, and an advance, leave the qualifiers. -/
theorem takeAcceptances_inputs (s : State) : s.takeAcceptances.inputUnit.inputs = s.inputUnit.inputs := by
  have h1 : ∀ s : State, s.takeAcceptance.inputUnit.inputs = s.inputUnit.inputs := by
    intro s
    cases h : s.inputUnit.handed with
    | nil => simp only [State.takeAcceptance, h]
    | cons a rest => simp only [State.takeAcceptance, h]; rw [(accept_spec _ a).2.2.2]
  have h2 : ∀ (xs : List Acceptance) (s : State),
      (xs.foldl (fun s _ => s.takeAcceptance) s).inputUnit.inputs = s.inputUnit.inputs := by
    intro xs
    induction xs with
    | nil => exact fun _ => rfl
    | cons x xs ih => exact fun s => (ih _).trans (h1 s)
  exact h2 _ s

theorem takeFlagEvents_inputs (s : State) : s.takeFlagEvents.inputUnit = s.inputUnit := by
  have h1 : ∀ s : State, s.takeFlagEvent.inputUnit = s.inputUnit := by
    intro s
    cases h : s.flagBank.events with
    | nil => rw [takeFlagEvent_none s h]
    | cons v rest => rw [(takeFlagEvent_spec s v rest h).2]
  have h2 : ∀ (xs : List FlagEvent) (s : State),
      (xs.foldl (fun s _ => s.takeFlagEvent) s).inputUnit = s.inputUnit := by
    intro xs
    induction xs with
    | nil => exact fun _ => rfl
    | cons x xs ih => exact fun s => (ih _).trans (h1 s)
  exact h2 _ s

theorem advance_inputs (s : State) : s.advance.inputUnit = s.inputUnit := by
  rw [advance_eq]

/-- Every raw sample is the level at its pin after a tick (R108). -/
theorem deliverTick_raw (s : State) (pins : BitVec 16) (order : TickOrder) (i : LineId) :
    ((s.deliverTick pins order).input i).raw = pins.getLsbD i.val := by
  have hraw : ∀ u : State, ((u.sampleInputs pins).inputUnit.inputs[i]).raw = pins.getLsbD i.val := fun u => by
    have h := (sampleInputs_spec pins u).1 i
    rw [State.input] at h
    rw [h]
    rfl
  cases order with
  | advanceFirst => exact hraw s.settle.advance
  | samplesFirst =>
    show ((s.settle.sampleInputs pins).takeAcceptances.takeFlagEvents.advance.inputUnit.inputs[i]).raw = _
    rw [advance_inputs, takeFlagEvents_inputs, takeAcceptances_inputs]
    exact hraw s.settle

end Sys2Proof.Laws
end

