-- ==== Sys2Proof/Laws/Ticked.lean ====
section
/-! SUPPORT. A delivered tick is the relation `Ticked`: what is in flight is taken by its rows, then the tick is delivered. -/

namespace Sys2Proof.Laws

open Sys2Proof.Machine

/-! ## Rows one after another -/

theorem runs_append (cs ds : List Instr) (s m t : State) (h : Runs cs s m) (k : Runs ds m t) : Runs (cs ++ ds) s t := by
  induction cs generalizing s with
  | nil => cases h; exact k
  | cons c cs ih =>
    obtain ⟨n, hn, hm⟩ := h
    exact ⟨n, hn, ih n hm⟩

/-- A row that does `f` while RESET# is released, as often as a list is long, is the fold of `f` over that list. -/
theorem runs_replicate {α : Type} (c : Instr) (f : State → State) (hc : ∀ s, exec c s = .next (s.unlessHeld f))
    (hf : ∀ s, (f s).pins = s.pins) (xs : List α) (s : State) (h : s.Released) :
    Runs (List.replicate xs.length c) s (xs.foldl (fun s _ => f s) s) := by
  induction xs generalizing s with
  | nil => exact rfl
  | cons x xs ih =>
    refine ⟨f s, by rw [hc, unlessHeld_released _ _ h], ih (f s) ?_⟩
    simpa only [State.Released, hf] using h

theorem runs_acceptances {α : Type} (xs : List α) (s : State) (h : s.Released) :
    Runs (List.replicate xs.length .inputAccept) s (xs.foldl (fun s _ => s.takeAcceptance) s) :=
  runs_replicate .inputAccept State.takeAcceptance (fun _ => rfl) (fun s => (takeAcceptance_quiet s).pins) xs s h

theorem runs_matches (s : State) (h : s.Released) :
    Runs (List.replicate s.flagBank.events.length .matched) s s.takeFlagEvents :=
  runs_replicate .matched State.takeFlagEvent (fun _ => rfl) (fun s => (takeFlagEvent_quiet s).pins) _ s h

theorem endPulse_pins (s : State) (n : LineId) : (s.endPulse n).pins = s.pins := by
  rw [endPulse_eq]
  rfl

theorem runs_pulseEnds (ns : List LineId) (s : State) (h : s.Released) :
    Runs (ns.map Instr.pulseEnd) s (ns.foldl State.endPulse s) := by
  induction ns generalizing s with
  | nil => exact rfl
  | cons n ns ih =>
    refine ⟨s.endPulse n, ?_, ih _ ?_⟩
    · show Host.Outcome.next (s.unlessHeld fun s => s.endPulse n) = _
      rw [unlessHeld_released _ _ h]
    · simpa only [State.Released, endPulse_pins] using h

theorem released_of_quiet {s t : State} (q : Quiet s t) (h : s.Released) : t.Released := by
  simpa only [State.Released, q.pins] using h

theorem runs_deadlines_pulseEnds (s : State) (h : s.Released) :
    Runs (.timeout :: allLines.map Instr.pulseEnd) s s.expireDeadlines.endReachedPulses := by
  have hx : exec .timeout s = .next (s.unlessHeld State.expireDeadlines) := rfl
  refine ⟨s.expireDeadlines, by rw [hx, unlessHeld_released _ _ h], ?_⟩
  exact runs_pulseEnds allLines _ (released_of_quiet (expireDeadlines_quiet s) h)

/-- What `settle` does is what the rows do. -/
theorem settle_settled (s : State) (h : s.Released) : Settled s s.settle := by
  have h1 := released_of_quiet (takeAcceptances_quiet s) h
  have h2 := released_of_quiet (takeFlagEvents_quiet s.takeAcceptances) h1
  exact ⟨_, _, runs_acceptances s.inputUnit.handed s h, runs_matches _ h1, runs_deadlines_pulseEnds _ h2⟩

/-! ## Nothing in flight -/

theorem takeFlagEvents_none (s : State) (h : s.flagBank.events = []) : s.takeFlagEvents = s := by
  simp only [State.takeFlagEvents, h, List.foldl_nil]

theorem expireDeadlines_none (s : State)
    (h : ∀ e ∈ s.waitList.entries, ∀ d, e.deadline = some d → reached d s.now = false) : s.expireDeadlines = s := by
  have he : ∀ e ∈ s.waitList.entries, e.expired s.now = false := by
    intro e he
    cases hd : e.deadline with
    | none => simp only [WaitEntry.expired, hd]
    | some d => simpa only [WaitEntry.expired, hd] using h e he d hd
  have h1 : s.waitList.entries.filter (·.expired s.now) = [] :=
    List.filter_eq_nil_iff.mpr fun e hm => by rw [he e hm]; exact Bool.false_ne_true
  have h2 : s.waitList.entries.filter (fun e => !e.expired s.now) = s.waitList.entries :=
    List.filter_eq_self.mpr fun e hm => by rw [he e hm]; rfl
  simp only [State.expireDeadlines, h1, h2, List.foldl_nil, State.setWaitEntries]

theorem foldl_endPulse_none (ns : List LineId) (s : State) (h : ∀ n, (s.line n).pulseOver s.now = false) :
    ns.foldl State.endPulse s = s := by
  induction ns with
  | nil => rfl
  | cons n ns ih => simpa only [List.foldl_cons, State.endPulse, h n, Bool.false_eq_true, if_false] using ih

theorem settle_nothing (s : State) (h : s.NothingInFlight) : s.settle = s := by
  obtain ⟨h1, h2, h3, h4⟩ := h
  have hp : ∀ n, (s.line n).pulseOver s.now = false := by
    intro n
    cases hd : (s.line n).pulse with
    | none => simp only [Line.pulseOver, hd]
    | some p => simpa only [Line.pulseOver, hd] using h4 n p hd
  rw [State.settle, takeAcceptances_none s h1, takeFlagEvents_none s h2, expireDeadlines_none s h3]
  exact foldl_endPulse_none _ s hp

/-! ## The acceptances of one tick -/

/-- The acceptances of the sixteen samples, in ascending order. -/
def acceptances (s : State) (pins : BitVec 16) (now : Time) : List Acceptance :=
  allLines.flatMap fun i => acceptanceOf (s.input i) i (pins.getLsbD i.val) (s.flag (levelFlag i)) now

theorem includes_iff (e : EdgeSelection) (level : Bool) : e.includes level = true ↔ Included e level := by
  cases e <;> cases level <;> simp [EdgeSelection.includes, Included]

theorem mem_acceptances (s : State) (pins : BitVec 16) (now : Time) (a : Acceptance) :
    a ∈ acceptances s pins now ↔ s.Accepts pins a.input
      ∧ a = ⟨a.input, pins.getLsbD a.input.val, (s.input a.input).edge.includes (pins.getLsbD a.input.val),
        (s.input a.input).notify, now⟩ := by
  simp only [acceptances, List.mem_flatMap, acceptanceOf]
  constructor
  · rintro ⟨i, -, h⟩
    split at h
    · rename_i hc
      rw [List.mem_singleton] at h
      subst h
      exact ⟨hc, rfl⟩
    · cases h
  · rintro ⟨h, he⟩
    refine ⟨a.input, mem_allLines _, ?_⟩
    rw [if_pos (show _ ∧ _ from h)]
    exact List.mem_singleton.mpr he

theorem acceptances_made (s : State) (pins : BitVec 16) (now : Time) : s.Made pins now (acceptances s pins now) := by
  refine ⟨?_, fun a ha => ?_⟩
  · simp only [acceptances, List.map_flatMap]
    induction allLines with
    | nil => rfl
    | cons i is ih =>
      rw [List.flatMap_cons, ih, List.filter_cons]
      by_cases h : pins.getLsbD i.val ≠ s.flag (levelFlag i) ∧ (s.input i).q ≤ (s.input i).candidate
      · have hb : (pins.getLsbD i.val != s.flag (levelFlag i) && decide ((s.input i).q ≤ (s.input i).candidate)) = true := by
          simpa only [Bool.and_eq_true, bne_iff_ne, decide_eq_true_eq] using h
        rw [acceptanceOf, if_pos h, if_pos hb]
        rfl
      · have hb : ¬ (pins.getLsbD i.val != s.flag (levelFlag i) && decide ((s.input i).q ≤ (s.input i).candidate)) = true := by
          simpa only [Bool.and_eq_true, bne_iff_ne, decide_eq_true_eq] using h
        rw [acceptanceOf, if_neg h, if_neg hb]
        rfl
  · obtain ⟨-, he⟩ := (mem_acceptances s pins now a).mp ha
    rw [he]
    exact ⟨rfl, includes_iff _ _, rfl, rfl⟩

/-- No two acceptances of one tick are of one input. -/
theorem acceptances_nodup (s : State) (pins : BitVec 16) (now : Time) :
    ((acceptances s pins now).map Acceptance.input).Nodup := by
  rw [(acceptances_made s pins now).1]
  exact allLines_nodup.filter _

/-! ## Taking the acceptances of one tick -/

/-- The acceptances handed over, of distinct inputs, taken one after another: each sets its flags and sends its news, and no other
flag changes. -/
theorem foldl_takeAcceptance (made : List Acceptance) (hn : (made.map Acceptance.input).Nodup) (s : State)
    (h : s.inputUnit.handed = made) :
    let t := made.foldl (fun s _ => s.takeAcceptance) s
    t.inputUnit.handed = []
    ∧ t.slots = s.slots ∧ t.waitList = s.waitList
    ∧ (∀ n ∈ s.noteQueue.inFlight, n ∈ t.noteQueue.inFlight)
    ∧ (∀ f, (∀ a ∈ made, f ≠ levelFlag a.input ∧ f ≠ edgeLatch a.input) → t.flag f = s.flag f)
    ∧ ∀ a ∈ made, t.flag (levelFlag a.input) = a.level
      ∧ t.flag (edgeLatch a.input) = (a.included || s.flag (edgeLatch a.input))
      ∧ (a.included = true → a.notify = true → ⟨.input a.input, .edge, a.time⟩ ∈ t.noteQueue.inFlight) := by
  induction made generalizing s with
  | nil => exact ⟨h, rfl, rfl, fun _ h => h, fun _ _ => rfl, fun _ h => by cases h⟩
  | cons a rest ih =>
    obtain ⟨ha, hr⟩ := List.nodup_cons.1 hn
    have hs : s.takeAcceptance = State.accept { s with inputUnit := ⟨s.inputUnit.inputs, rest⟩ } a := by
      simp only [State.takeAcceptance, h]
    obtain ⟨f1, f2, f3, f4⟩ := accept_spec { s with inputUnit := ⟨s.inputUnit.inputs, rest⟩ } a
    rw [← hs] at f1 f2 f3 f4
    obtain ⟨g1, g2, g3, g4, g5, g6⟩ := ih hr s.takeAcceptance (by rw [f4])
    have hkeep : ∀ n ∈ s.noteQueue.inFlight, n ∈ s.takeAcceptance.noteQueue.inFlight := fun n hm => by
      rw [f4]
      exact List.mem_append_left _ hm
    have hother : ∀ b ∈ rest, b.input ≠ a.input := fun b hb e => ha (e ▸ List.mem_map_of_mem hb)
    have hflags : ∀ b : Acceptance, b.input ≠ a.input →
        levelFlag a.input ≠ levelFlag b.input ∧ levelFlag a.input ≠ edgeLatch b.input
        ∧ edgeLatch a.input ≠ levelFlag b.input ∧ edgeLatch a.input ≠ edgeLatch b.input := fun b hb => by
      have : a.input.val ≠ b.input.val := fun e => hb (Fin.ext e.symm)
      have := a.input.isLt
      have := b.input.isLt
      simp only [levelFlag, edgeLatch, ne_eq, Fin.mk.injEq]
      omega
    simp only [List.foldl_cons]
    refine ⟨g1, by rw [g2, f4], by rw [g3, f4], fun n hm => g4 n (hkeep n hm), fun f hf => ?_, fun b hb => ?_⟩
    · rw [g5 f fun b hb => hf b (List.mem_cons_of_mem _ hb)]
      exact f3 f (hf a (List.mem_cons_self ..)).1 (hf a (List.mem_cons_self ..)).2
    · rcases List.mem_cons.1 hb with rfl | hb
      · refine ⟨?_, ?_, fun h1 h2 => g4 _ ?_⟩
        · rw [g5 _ fun c hc => ⟨(hflags c (hother c hc)).1, (hflags c (hother c hc)).2.1⟩, f1]
        · rw [g5 _ fun c hc => ⟨(hflags c (hother c hc)).2.2.1, (hflags c (hother c hc)).2.2.2⟩, f2]
          rfl
        · rw [f4]
          simp [NoteQueue.sent, h1, h2]
      · obtain ⟨k1, k2, k3⟩ := g6 b hb
        have hd := hflags b (hother b hb)
        refine ⟨k1, ?_, k3⟩
        rw [k2, f3 _ hd.2.1.symm hd.2.2.2.symm]
        rfl

/-- Taking flag changes leaves the flags, the input unit, and the news already in flight. -/
theorem takeFlagEvents_keeps (s : State) :
    s.takeFlagEvents.flagBank.flags = s.flagBank.flags
    ∧ ∀ n ∈ s.noteQueue.inFlight, n ∈ s.takeFlagEvents.noteQueue.inFlight := by
  have h1 : ∀ s : State, s.takeFlagEvent.flagBank.flags = s.flagBank.flags
      ∧ ∀ n ∈ s.noteQueue.inFlight, n ∈ s.takeFlagEvent.noteQueue.inFlight := by
    intro s
    cases h : s.flagBank.events with
    | nil => rw [takeFlagEvent_none s h]; exact ⟨rfl, fun _ h => h⟩
    | cons v rest =>
      rw [(takeFlagEvent_spec s v rest h).2]
      exact ⟨rfl, fun n hm => List.mem_append_left _ hm⟩
  have h2 : ∀ (xs : List FlagEvent) (s : State),
      (xs.foldl (fun s _ => s.takeFlagEvent) s).flagBank.flags = s.flagBank.flags
      ∧ ∀ n ∈ s.noteQueue.inFlight, n ∈ (xs.foldl (fun s _ => s.takeFlagEvent) s).noteQueue.inFlight := by
    intro xs
    induction xs with
    | nil => exact fun _ => ⟨rfl, fun _ h => h⟩
    | cons x xs ih =>
      exact fun s => ⟨(ih _).1.trans (h1 s).1, fun n hm => (ih _).2 n ((h1 s).2 n hm)⟩
  exact h2 _ s

/-! ## The tick -/

theorem advance_ticked (s : State) : s.advance = { s with timebase := s.timebase.ticked } := advance_eq s

theorem ageRecords_aged (s : State) : Aged s s.ageRecords := by
  refine ⟨_, ?_, wantsAttention_iff _⟩
  have : (fun r : NoteRecord => { r with age := min Config.counterMax (r.age + 1) })
      = fun r => { r with age := if r.age < 65535 then r.age + 1 else 65535 } := by
    funext r
    have : min Config.counterMax (r.age + 1) = if r.age < 65535 then r.age + 1 else 65535 := by
      simp only [Config.counterMax]
      split <;> omega
    rw [this]
  simp only [State.ageRecords, setRecords_eq, this]
  rfl

/-- The tick behind what was in flight is `Delivered`. -/
theorem delivered (s : State) (pins : BitVec 16) (order : TickOrder) (h : s.Released) :
    Delivered s.settle (s.deliverTick pins order) pins order := by
  have hq : s.settle.Released := released_of_quiet (settle_quiet s) h
  generalize hm : s.settle = m at hq
  have hi : ∀ u : State, ∀ i : LineId, (u.sampleInputs pins).inputUnit.inputs[i]
      = sampled (u.input i) (pins.getLsbD i.val) (u.flag (levelFlag i)) := fun u i => (sampleInputs_spec pins u).1 i
  have hx : ∀ u : State, u.sampleInputs pins = { u with inputUnit :=
      ⟨(u.sampleInputs pins).inputUnit.inputs, u.inputUnit.handed ++ acceptances u pins u.now⟩ } :=
    fun u => (sampleInputs_spec pins u).2
  cases order with
  | advanceFirst =>
    refine ⟨(m.advance.sampleInputs pins).inputUnit.inputs, acceptances m.advance pins m.advance.now, fun i => ?_, ?_, ?_⟩
    · rw [hi, advance_ticked]; rfl
    · have := acceptances_made m.advance pins m.advance.now
      rw [advance_ticked] at this ⊢
      exact this
    · have ha := ageRecords_aged (m.advance.sampleInputs pins)
      simp only [State.deliverTick, hm]
      rw [hx m.advance] at ha ⊢
      rw [advance_ticked] at ha ⊢
      exact ha
  | samplesFirst =>
    have hr : (m.sampleInputs pins).Released := released_of_quiet (sampleInputs_quiet pins m) hq
    refine ⟨(m.sampleInputs pins).inputUnit.inputs, acceptances m pins m.now, fun i => hi m i, acceptances_made m pins m.now,
      (m.sampleInputs pins).takeAcceptances, (m.sampleInputs pins).takeAcceptances.takeFlagEvents, ?_, ?_, ?_⟩
    · have hl : (m.sampleInputs pins).inputUnit.handed = m.inputUnit.handed ++ acceptances m pins m.now := by
        rw [hx m]
      rw [← hx m, ← hl]
      exact runs_acceptances _ _ hr
    · exact runs_matches _ (released_of_quiet (takeAcceptances_quiet _) hr)
    · have ha := ageRecords_aged (m.sampleInputs pins).takeAcceptances.takeFlagEvents.advance
      simp only [State.deliverTick, hm]
      rw [advance_ticked] at ha ⊢
      exact ha

theorem tick_settings (s : State) (pins : BitVec 16) (order : TickOrder) :
    let t := s.deliverTick pins order
    t.noteQueue.threshold = s.noteQueue.threshold ∧ t.noteQueue.holdoff = s.noteQueue.holdoff
      ∧ t.noteQueue.urgent = s.noteQueue.urgent := by
  have key : ∀ u v : State, Quiet s u → Quiet u.advance v →
      v.ageRecords.noteQueue.threshold = s.noteQueue.threshold ∧ v.ageRecords.noteQueue.holdoff = s.noteQueue.holdoff
        ∧ v.ageRecords.noteQueue.urgent = s.noteQueue.urgent := by
    intro u v q k
    have hv : v.noteQueue = { s.noteQueue with inFlight := v.noteQueue.inFlight } := by
      have h := k.records
      rw [advance_eq] at h
      rw [h, q.records]
    refine ⟨?_, ?_, ?_⟩
    · show v.noteQueue.threshold = _
      rw [hv]
    · show v.noteQueue.holdoff = _
      rw [hv]
    · show v.noteQueue.urgent = _
      rw [hv]
  cases order with
  | advanceFirst => exact key s.settle _ (settle_quiet s) (sampleInputs_quiet pins _)
  | samplesFirst =>
    exact key _ _ ((settle_quiet s).trans' ((sampleInputs_quiet pins _).trans'
      ((takeAcceptances_quiet _).trans' (takeFlagEvents_quiet _)))) (Quiet.rfl' _)

/-- An input after a tick that finds nothing in flight (R108, R109). -/
theorem tick_input (s : State) (pins : BitVec 16) (order : TickOrder) (h : s.NothingInFlight) (i : LineId) :
    (s.deliverTick pins order).input i = sampled (s.input i) (pins.getLsbD i.val) (s.flag (levelFlag i)) := by
  cases order with
  | advanceFirst =>
    show (s.settle.advance.sampleInputs pins).input i = _
    rw [(sampleInputs_spec pins _).1 i, settle_nothing s h, advance_ticked]
    rfl
  | samplesFirst =>
    show (s.settle.sampleInputs pins).takeAcceptances.takeFlagEvents.advance.inputUnit.inputs[i] = _
    rw [advance_inputs, takeFlagEvents_inputs, takeAcceptances_inputs, settle_nothing s h]
    exact (sampleInputs_spec pins s).1 i

/-- What a tick that finds nothing in flight and takes no acceptance leaves alone. -/
theorem tick_untouched (s : State) (pins : BitVec 16) (order : TickOrder) (h : s.NothingInFlight)
    (ho : order = .advanceFirst ∨ ∀ i, ¬ s.Accepts pins i) :
    let t := s.deliverTick pins order
    t.slots = s.slots ∧ t.waitList = s.waitList ∧ t.flagBank = s.flagBank ∧ t.lineUnit = s.lineUnit
      ∧ t.noteQueue = { s.noteQueue with records := t.noteQueue.records, attention := t.noteQueue.attention } := by
  cases order with
  | advanceFirst =>
    simp only [State.deliverTick, settle_nothing s h]
    rw [(sampleInputs_spec pins _).2, advance_ticked]
    exact ⟨rfl, rfl, rfl, rfl, rfl⟩
  | samplesFirst =>
    have hn : ∀ i, ¬ s.Accepts pins i := ho.resolve_left (by simp)
    have hm : acceptances s pins s.now = [] :=
      List.eq_nil_iff_forall_not_mem.mpr fun a ha => hn _ ((mem_acceptances s pins s.now a).mp ha).1
    have hx := (sampleInputs_spec pins s).2
    have he : (s.sampleInputs pins).inputUnit.handed = [] := by
      rw [hx]
      show s.inputUnit.handed ++ acceptances s pins s.now = []
      rw [h.1, hm]
      rfl
    have hf : (s.sampleInputs pins).flagBank.events = [] := by
      rw [hx]
      exact h.2.1
    simp only [State.deliverTick, settle_nothing s h]
    rw [takeAcceptances_none _ he, takeFlagEvents_none _ hf, hx, advance_ticked]
    exact ⟨rfl, rfl, rfl, rfl, rfl⟩

/-- Taking acceptances and flag changes leaves the lines. -/
theorem taking_lines (s : State) : s.takeAcceptances.takeFlagEvents.lineUnit = s.lineUnit := by
  have h1 : ∀ s : State, s.takeAcceptance.lineUnit = s.lineUnit := by
    intro s
    cases h : s.inputUnit.handed with
    | nil => simp only [State.takeAcceptance, h]
    | cons a rest => simp only [State.takeAcceptance, h]; rw [(accept_spec _ a).2.2.2]
  have h2 : ∀ s : State, s.takeFlagEvent.lineUnit = s.lineUnit := by
    intro s
    cases h : s.flagBank.events with
    | nil => rw [takeFlagEvent_none s h]
    | cons v rest => rw [(takeFlagEvent_spec s v rest h).2]
  have fold : ∀ {α : Type} (f : State → State), (∀ s, (f s).lineUnit = s.lineUnit) → ∀ (xs : List α) (s : State),
      (xs.foldl (fun s _ => f s) s).lineUnit = s.lineUnit := by
    intro α f hf xs
    induction xs with
    | nil => exact fun _ => rfl
    | cons x xs ih => exact fun s => (ih _).trans (hf s)
  exact (fold _ h2 _ _).trans (fold _ h1 _ _)

/-- The flags and the EDGE news of a tick whose acceptances are taken before its advance, with nothing in flight (R110, R112). -/
theorem tick_taken (s : State) (pins : BitVec 16) (h : s.NothingInFlight) :
    let t := s.deliverTick pins .samplesFirst
    t.inputUnit.handed = []
    ∧ (∀ f, (∀ i, s.Accepts pins i → f ≠ levelFlag i ∧ f ≠ edgeLatch i) → t.flag f = s.flag f)
    ∧ ∀ i, s.Accepts pins i → t.flag (levelFlag i) = pins.getLsbD i.val
      ∧ t.flag (edgeLatch i) = ((s.input i).edge.includes (pins.getLsbD i.val) || s.flag (edgeLatch i))
      ∧ ((s.input i).edge.includes (pins.getLsbD i.val) = true → (s.input i).notify = true →
        ⟨.input i, .edge, s.now⟩ ∈ t.noteQueue.inFlight) := by
  have hx := (sampleInputs_spec pins s).2
  have he : (s.sampleInputs pins).inputUnit.handed = acceptances s pins s.now := by
    rw [hx]
    show s.inputUnit.handed ++ acceptances s pins s.now = _
    rw [h.1]
    rfl
  have hflag : ∀ f, (s.sampleInputs pins).flag f = s.flag f := fun f => by rw [hx]; rfl
  obtain ⟨g1, -, -, -, g5, g6⟩ := foldl_takeAcceptance (acceptances s pins s.now) (acceptances_nodup s pins s.now)
    (s.sampleInputs pins) he
  have hta : (s.sampleInputs pins).takeAcceptances
      = (acceptances s pins s.now).foldl (fun s _ => s.takeAcceptance) (s.sampleInputs pins) := by
    simp only [State.takeAcceptances, he]
  rw [← hta] at g1 g5 g6
  obtain ⟨k1, k2⟩ := takeFlagEvents_keeps (s.sampleInputs pins).takeAcceptances
  have hf : ∀ f, (s.deliverTick pins .samplesFirst).flag f = (s.sampleInputs pins).takeAcceptances.flag f := by
    intro f
    show (s.settle.sampleInputs pins).takeAcceptances.takeFlagEvents.advance.flagBank.flags[f] = _
    rw [settle_nothing s h, advance_ticked]
    show (s.sampleInputs pins).takeAcceptances.takeFlagEvents.flagBank.flags[f] = _
    rw [k1]
    rfl
  have hmem : ∀ i, s.Accepts pins i → (⟨i, pins.getLsbD i.val, (s.input i).edge.includes (pins.getLsbD i.val),
      (s.input i).notify, s.now⟩ : Acceptance) ∈ acceptances s pins s.now :=
    fun i hi => (mem_acceptances s pins s.now _).mpr ⟨hi, rfl⟩
  refine ⟨?_, fun f hn => ?_, fun i hi => ⟨?_, ?_, fun h1 h2 => ?_⟩⟩
  · show (s.settle.sampleInputs pins).takeAcceptances.takeFlagEvents.advance.inputUnit.handed = _
    rw [advance_inputs, takeFlagEvents_inputs, settle_nothing s h]
    exact g1
  · rw [hf, g5 f fun a ha => hn a.input ((mem_acceptances s pins s.now a).mp ha).1, hflag]
  · rw [hf]
    exact (g6 _ (hmem i hi)).1
  · rw [hf, (g6 _ (hmem i hi)).2.1, hflag]
  · show _ ∈ (s.settle.sampleInputs pins).takeAcceptances.takeFlagEvents.advance.noteQueue.inFlight
    rw [settle_nothing s h, advance_ticked]
    exact k2 _ ((g6 _ (hmem i hi)).2.2 h1 h2)

/-- Everything a delivered tick does (R3, R4, R108 to R112, R147). -/
theorem deliverTick_ticked (s : State) (pins : BitVec 16) (order : TickOrder) (h : s.Released) :
    Ticked s (s.deliverTick pins order) pins order := by
  obtain ⟨f1, f2, f3, f4, f5, f6, f7, f8, f9, f10⟩ := deliverTick_frame s pins order
  have hlevel : ∀ i j, levelFlag i ≠ edgeLatch j := fun i j => by
    have := i.isLt
    simp only [levelFlag, edgeLatch, ne_eq, Fin.mk.injEq]
    omega
  have hsame : ∀ i j, levelFlag i = levelFlag j → i = j := fun i j e => by
    simp only [levelFlag, Fin.mk.injEq] at e
    exact Fin.ext e
  have hother : s.NothingInFlight → ∀ f, (∀ i, s.Accepts pins i → f ≠ levelFlag i ∧ f ≠ edgeLatch i) →
      (s.deliverTick pins order).flag f = s.flag f := by
    intro hn f hf
    cases order with
    | advanceFirst =>
      have := (tick_untouched s pins .advanceFirst hn (.inl rfl)).2.2.1
      simp only [State.flag, this]
    | samplesFirst => exact (tick_taken s pins hn).2.1 f hf
  have hkept : s.NothingInFlight → ∀ i, ¬ s.Accepts pins i →
      (s.deliverTick pins order).flag (levelFlag i) = s.flag (levelFlag i) := fun hn i hi =>
    hother hn _ fun j hj => ⟨fun e => hi (hsame i j e ▸ hj), hlevel i j⟩
  refine
    { whole := ⟨s.settle, settle_settled s h, delivered s pins order h⟩
      timebase := f1, dueQueue := f2, firing := f3, safeController := f4, window := f5, commandUnit := f6, pins := f7
      pending := f8, records := f9, settings := tick_settings s pins order
      attention := by rw [f10]; exact wantsAttention_iff _
      raw := fun i => deliverTick_raw s pins order i
      lines := fun hn => ?_
      equalSample := fun hn i he => ⟨?_, hkept hn i fun ha => ha.1 he⟩
      countedSample := fun hn i hne hc => ⟨?_, hkept hn i fun ha => absurd ha.2 (Nat.not_le.mpr hc)⟩
      acceptedSample := fun hn i ha => ?_
      handedOver := fun hn ho => ?_
      untouched := fun hn ho => ?_
      otherFlags := hother
      takenBefore := fun hn ho => ?_ }
  · cases order with
    | advanceFirst => exact (tick_untouched s pins .advanceFirst hn (.inl rfl)).2.2.2.1
    | samplesFirst =>
      show (s.settle.sampleInputs pins).takeAcceptances.takeFlagEvents.advance.lineUnit = _
      rw [settle_nothing s hn, advance_ticked]
      show (s.sampleInputs pins).takeAcceptances.takeFlagEvents.lineUnit = _
      rw [taking_lines, (sampleInputs_spec pins s).2]
  · rw [tick_input s pins order hn]
    simp only [sampled, if_pos he]
  · rw [tick_input s pins order hn]
    simp only [sampled, if_neg hne, if_pos hc]
  · rw [tick_input s pins order hn]
    simp only [sampled, if_neg ha.1, if_neg (Nat.not_lt.mpr ha.2)]
  · subst ho
    have ht : (s.deliverTick pins .advanceFirst).inputUnit.handed = acceptances s pins s.timebase.ticked.time := by
      show (s.settle.advance.sampleInputs pins).inputUnit.handed = _
      rw [settle_nothing s hn, (sampleInputs_spec pins _).2, advance_ticked]
      show s.inputUnit.handed ++ _ = _
      rw [hn.1]
      rfl
    have hnow : (s.deliverTick pins .advanceFirst).now = s.timebase.ticked.time := by
      simp only [State.now, f1]
      rfl
    rw [ht, hnow]
    exact acceptances_made s pins _
  · obtain ⟨u1, u2, u3, -, u5⟩ := tick_untouched s pins order hn ho
    exact ⟨u1, u2, u3, u5⟩
  · subst ho
    obtain ⟨t1, -, t3⟩ := tick_taken s pins hn
    refine ⟨t1, fun i hi => ?_⟩
    obtain ⟨a1, a2, a3⟩ := t3 i hi
    refine ⟨a1, fun hin => ⟨?_, a3 ((includes_iff _ _).mpr hin)⟩, fun hin => ?_⟩
    · rw [a2, (includes_iff _ _).mpr hin]
      rfl
    · have hf : (s.input i).edge.includes (pins.getLsbD i.val) = false :=
        Bool.eq_false_iff.mpr fun e => hin ((includes_iff _ _).mp e)
      rw [a2, hf]
      rfl

end Sys2Proof.Laws
end

