-- ==== Sys2Proof/Laws/Clk.lean ====
section
/-! SUPPORT. Everything a CLK period can do, said once, and that many CLK periods as one calculation are those periods one by one. -/

namespace Sys2Proof.Laws

open Sys2Proof.Machine

/-! ## What a tick, a sample of TICK and a sample of SAFE# leave alone -/

/-- The pins, the source and the prescaler of two states are the same. -/
structure SamePins (s t : State) : Prop where
  pins : t.pins = s.pins
  source : t.timebase.source = s.timebase.source
  prescaler : t.timebase.prescaler = s.timebase.prescaler

theorem SamePins.trans' {s t u : State} (h : SamePins s t) (k : SamePins t u) : SamePins s u :=
  ⟨k.pins.trans h.pins, k.source.trans h.source, k.prescaler.trans h.prescaler⟩

/-- A tick of a CLK period leaves what a tick and pulse ends leave alone. -/
theorem tickInPeriod_frame (s : State) (pins : BitVec 16) (order : ClkOrder) :
    let t := s.tickInPeriod pins order
    t.timebase = { s.timebase with time := s.timebase.ticked.time }
    ∧ t.safeController = s.safeController ∧ t.window = s.window ∧ t.pins = s.pins := by
  obtain ⟨f1, -, -, f4, f5, -, f7, -⟩ := deliverTick_frame s pins order.tick
  have q := endPulses_quiet (linesEnded order.safe) (s.deliverTick pins order.tick)
  exact ⟨q.timebase.trans f1, q.safeController.trans f4, q.window.trans f5, q.pins.trans f7⟩

theorem judgeEdge_source (s : State) (order : ClkOrder) (h : s.timebase.source = .external) :
    (s.judgeEdge order).timebase.source = .external := by
  have hc : (s.countEdge order).timebase.source = .external := by
    rw [State.countEdge, (tickInPeriod_frame _ _ _).1]
    exact h
  unfold State.judgeEdge
  split
  · exact hc
  · split
    · exact hc
    · exact h

/-- Under the internal source the sample of TICK is taken and no edge judged (R1; Log 27). -/
theorem sampleTick_internal (s : State) (order : ClkOrder) (h : s.timebase.source = .internal) :
    s.sampleTick order = s.setTimebase { s.timebase with tickSample := s.pins.tickHigh } := by
  unfold State.sampleTick
  rw [h]

/-- A sample that is no rising edge lets the spacing go on (R2). -/
theorem sampleTick_flat (s : State) (order : ClkOrder) (h : s.timebase.source = .external)
    (hc : s.pins.tickHigh = false ∨ s.timebase.tickSample = true) : s.sampleTick order = s.setTimebase
      { s.timebase with tickSample := s.pins.tickHigh, spacing := s.timebase.spacing.map (· + 1) } := by
  have hn : (s.pins.tickHigh && !s.timebase.tickSample) = false := by rcases hc with hc | hc <;> simp [hc]
  unfold State.sampleTick
  rw [h, hn]
  rfl

/-- A rising edge is judged (R2). -/
theorem sampleTick_rising (s : State) (order : ClkOrder) (h : s.timebase.source = .external) (h1 : s.pins.tickHigh = true)
    (h2 : s.timebase.tickSample = false) :
    s.sampleTick order = (s.setTimebase { s.timebase with tickSample := true }).judgeEdge order := by
  unfold State.sampleTick
  rw [h, h1, h2]
  rfl

/-- Under the external source the prescaler count is left. -/
theorem countClk_external (s : State) (order : ClkOrder) (h : s.timebase.source = .external) : s.countClk order = s := by
  unfold State.countClk
  rw [h]

/-- Under the internal source a period that reaches the prescaler brings a tick, and another one only counts (R1). -/
theorem runSources_counts (s : State) (order : ClkOrder) (h : s.timebase.source = .internal) :
    s.runSources order = if s.timebase.prescaler ≤ s.timebase.prescalerCount + 1 then
      (s.setTimebase { s.timebase with tickSample := s.pins.tickHigh, prescalerCount := 0 }).tickInPeriod s.pins.inputs order
    else s.setTimebase { s.timebase with
      tickSample := s.pins.tickHigh, prescalerCount := s.timebase.prescalerCount + 1 } := by
  rw [State.runSources, sampleTick_internal s order h]
  simp only [State.countClk, setTimebase_timebase, h]
  split <;> rfl

/-- Under the external source a period without a rising edge lets the spacing go on (R2). -/
theorem runSources_flat (s : State) (order : ClkOrder) (h : s.timebase.source = .external)
    (hc : s.pins.tickHigh = false ∨ s.timebase.tickSample = true) : s.runSources order = s.setTimebase
      { s.timebase with tickSample := s.pins.tickHigh, spacing := s.timebase.spacing.map (· + 1) } := by
  rw [State.runSources, sampleTick_flat s order h hc]
  exact countClk_external _ order h

/-- Under the external source a period with a rising edge is the judgement of it (R2). -/
theorem runSources_rising (s : State) (order : ClkOrder) (h : s.timebase.source = .external) (h1 : s.pins.tickHigh = true)
    (h2 : s.timebase.tickSample = false) :
    s.runSources order = (s.setTimebase { s.timebase with tickSample := true }).judgeEdge order := by
  rw [State.runSources, sampleTick_rising s order h h1 h2]
  exact countClk_external _ order (judgeEdge_source _ order h)

/-- Everything the tick sources can do in a CLK period: move a count, refuse an edge, or deliver one tick. -/
theorem runSources_cases (s : State) (order : ClkOrder) : ∃ b : Timebase,
    b.time = s.timebase.time ∧ b.desired = s.timebase.desired ∧ b.freeze = s.timebase.freeze ∧ b.source = s.timebase.source
    ∧ b.prescaler = s.timebase.prescaler ∧ b.tickSample = s.pins.tickHigh
    ∧ (s.runSources order = s.setTimebase b ∨ s.runSources order = (s.setTimebase b).raise .tickFast
      ∨ s.runSources order = (s.setTimebase b).tickInPeriod s.pins.inputs order) := by
  cases hs : s.timebase.source with
  | internal =>
    rw [runSources_counts s order hs]
    split
    · exact ⟨{ s.timebase with tickSample := s.pins.tickHigh, prescalerCount := 0 },
        rfl, rfl, rfl, hs, rfl, rfl, .inr (.inr rfl)⟩
    · exact ⟨{ s.timebase with tickSample := s.pins.tickHigh, prescalerCount := s.timebase.prescalerCount + 1 },
        rfl, rfl, rfl, hs, rfl, rfl, .inl rfl⟩
  | external =>
    by_cases hc : s.pins.tickHigh = false ∨ s.timebase.tickSample = true
    · rw [runSources_flat s order hs hc]
      exact ⟨{ s.timebase with tickSample := s.pins.tickHigh, spacing := s.timebase.spacing.map (· + 1) },
        rfl, rfl, rfl, hs, rfl, rfl, .inl rfl⟩
    · have h1 : s.pins.tickHigh = true := by simpa using fun h => hc (.inl h)
      rw [runSources_rising s order hs h1 (by simpa using fun h => hc (.inr h)), h1]
      unfold State.judgeEdge
      split
      · exact ⟨{ s.timebase with tickSample := true, spacing := some 0 }, rfl, rfl, rfl, hs, rfl, rfl, .inr (.inr rfl)⟩
      · split
        · exact ⟨{ s.timebase with tickSample := true, spacing := some 0 }, rfl, rfl, rfl, hs, rfl, rfl, .inr (.inr rfl)⟩
        · rename_i n _ _
          exact ⟨{ s.timebase with tickSample := true, spacing := some (n + 1) }, rfl, rfl, rfl, hs, rfl, rfl, .inr (.inl rfl)⟩

/-- The tick sources leave the pins and the safe controller, the run state and the mark, and sample TICK. -/
theorem runSources_frame (s : State) (order : ClkOrder) :
    let t := s.runSources order
    t.pins = s.pins ∧ t.safeController = s.safeController ∧ t.timebase.source = s.timebase.source
    ∧ t.timebase.prescaler = s.timebase.prescaler ∧ t.timebase.tickSample = s.pins.tickHigh
    ∧ t.timebase.desired = s.timebase.desired ∧ t.timebase.freeze = s.timebase.freeze := by
  obtain ⟨b, -, h2, h3, h4, h5, h6, h | h | h⟩ := runSources_cases s order
  · simp only [h]
    exact ⟨rfl, rfl, h4, h5, h6, h2, h3⟩
  · simp only [h]
    exact ⟨rfl, rfl, h4, h5, h6, h2, h3⟩
  · obtain ⟨f1, f2, -, f4⟩ := tickInPeriod_frame (s.setTimebase b) s.pins.inputs order
    simp only [h, f1, f2, f4]
    exact ⟨rfl, rfl, h4, h5, h6, h2, h3⟩

theorem runSources_pins (s : State) (order : ClkOrder) : SamePins s (s.runSources order) :=
  have h := runSources_frame s order
  ⟨h.1, h.2.2.1, h.2.2.2.1⟩

/-- A cause of safe entry leaves the pins and the window, and touches the timebase in the freeze mark only. -/
theorem causeSafe_frame (s : State) :
    s.causeSafe.pins = s.pins ∧ s.causeSafe.window = s.window
    ∧ s.causeSafe.timebase = { s.timebase with freeze := s.causeSafe.timebase.freeze }
    ∧ s.causeSafe.safeController = { s.safeController with state := .safe } := by
  cases h : s.safeController.state with
  | run =>
    have : s.causeSafe = s.enterSafe := by simp only [State.causeSafe, h]
    rw [this, enterSafe_eq]
    exact ⟨rfl, rfl, rfl, rfl⟩
  | safe =>
    have : s.causeSafe = s := by simp only [State.causeSafe, h]
    rw [this, ← h]
    exact ⟨rfl, rfl, rfl, rfl⟩

/-- Samples of SAFE# leave the pins and the window, and touch the timebase in the freeze mark only. -/
theorem sampleSafeTimes_frame (s : State) (n : Nat) (low : Bool) :
    (s.sampleSafeTimes n low).pins = s.pins ∧ (s.sampleSafeTimes n low).window = s.window
    ∧ (s.sampleSafeTimes n low).timebase = { s.timebase with freeze := (s.sampleSafeTimes n low).timebase.freeze } := by
  unfold State.sampleSafeTimes
  simp only
  split
  · exact ⟨rfl, rfl, rfl⟩
  · split
    · exact ⟨rfl, rfl, rfl⟩
    · split
      · exact ⟨rfl, rfl, rfl⟩
      · split
        · obtain ⟨h1, h2, h3, -⟩ := causeSafe_frame (s.setSafe { s.safeController with candidate := 0, asserted := low })
          exact ⟨h1, h2, h3⟩
        · exact ⟨rfl, rfl, rfl⟩

theorem sampleSafe_eq (s : State) (low : Bool) : s.sampleSafe low = s.sampleSafeTimes 1 low := by
  unfold State.sampleSafe State.sampleSafeTimes
  simp only [Nat.one_ne_zero, if_false]
  have : s.safeController.candidate + 1 ≤ 3 ↔ s.safeController.candidate < 3 := by omega
  simp only [this]

theorem sampleSafe_pins (s : State) (low : Bool) : SamePins s (s.sampleSafe low) := by
  rw [sampleSafe_eq]
  obtain ⟨h1, -, h2⟩ := sampleSafeTimes_frame s 1 low
  exact ⟨h1, by rw [h2], by rw [h2]⟩

/-- A CLK period leaves the pins, the source and the prescaler. -/
theorem clkPeriod_pins (s : State) (order : ClkOrder) : SamePins s (s.clkPeriod order) := by
  unfold State.clkPeriod
  cases order.safe
  case beforeTick => exact (sampleSafe_pins _ _).trans' (runSources_pins _ order)
  all_goals exact (runSources_pins s order).trans' (sampleSafe_pins _ _)

/-! ## One CLK period -/

/-- Everything one CLK sample of SAFE# does (R154, R155, R156, R157). -/
theorem sampleSafe_sampled (s : State) (low : Bool) : SafeSampled s (s.sampleSafe low) low := by
  refine ⟨fun h => ?_, fun h hc => ?_, fun h hc => ⟨fun hk => ?_, fun hl hr => ?_⟩⟩
  · simp only [State.sampleSafe, if_pos h]
    rfl
  · simp only [State.sampleSafe, if_neg h, if_pos hc]
    rfl
  · simp only [State.sampleSafe, if_neg h, if_neg (Nat.not_lt.mpr hc)]
    rcases hk with rfl | hs
    · rfl
    · cases low
      · rfl
      · exact (causeSafe_spec _).2 hs
  · subst hl
    simp only [State.sampleSafe, if_neg h, if_neg (Nat.not_lt.mpr hc), if_true]
    exact (causeSafe_spec _).1 hr

/-- Everything one tick of a CLK period does (R3, R95, R105). -/
theorem tickInPeriod_taken (s : State) (pins : BitVec 16) (order : ClkOrder) (h : s.Released) :
    TickTaken s (s.tickInPeriod pins order) pins order := by
  have hd := deliverTick_ticked s pins order.tick h
  exact ⟨_, hd, runs_pulseEnds _ _ (by rw [State.Released, hd.pins]; exact h)⟩

/-- Everything the spacing check does with a rising edge (R2). -/
theorem judgeEdge_judged (s : State) (order : ClkOrder) (h : s.Released) :
    EdgeJudged s (s.judgeEdge order) s.pins.inputs order := by
  have hc : TickTaken { s with timebase := { s.timebase with spacing := some 0 } } (s.countEdge order) s.pins.inputs order :=
    tickInPeriod_taken _ _ _ h
  refine ⟨fun n hn hlt => ?_, fun hs => ?_⟩
  · simp only [State.judgeEdge, hn, if_neg (Nat.not_le.mpr (show n + 1 < Config.tickSpacing from hlt))]
    rfl
  · rcases hs with hs | ⟨n, hn, hle⟩
    · simpa only [State.judgeEdge, hs] using hc
    · simpa only [State.judgeEdge, hn, if_pos (show Config.tickSpacing ≤ n + 1 from hle)] using hc

/-- Everything the tick sources do in one CLK period (R1, R2). -/
theorem runSources_run (s : State) (order : ClkOrder) (h : s.Released) : SourcesRun order s (s.runSources order) := by
  refine ⟨fun hs hc => ?_, fun hs hc => ?_, fun hs hc => ?_, fun hs h1 h2 => ?_⟩
  · rw [runSources_counts s order hs, if_neg (Nat.not_le.mpr hc)]
    rfl
  · rw [runSources_counts s order hs, if_pos hc]
    exact tickInPeriod_taken _ _ order h
  · rw [runSources_flat s order hs hc]
    rfl
  · rw [runSources_rising s order hs h1 h2]
    exact judgeEdge_judged _ order h

/-- Everything one CLK period does (R1, R2, R105, R154, R156). -/
theorem clkPeriod_passed (s : State) (order : ClkOrder) (h : s.Released) : ClkPassed order s (s.clkPeriod order) := by
  unfold ClkPassed State.clkPeriod
  cases order.safe
  case beforeTick =>
    exact ⟨_, sampleSafe_sampled _ _, runSources_run _ order (by rw [State.Released, (sampleSafe_pins s _).pins]; exact h)⟩
  all_goals exact ⟨_, runSources_run s order h, sampleSafe_sampled _ _⟩

/-! ## Many CLK periods -/

theorem quiet_zero (b : Timebase) (high : Bool) : b.quiet high 0 = b := if_pos rfl

theorem quiet_internal (b : Timebase) (high : Bool) (n : Nat) (h : b.source = .internal) :
    b.quiet high (n + 1) = { b with prescalerCount := b.prescalerCount + (n + 1), tickSample := high } := by
  simp only [Timebase.quiet, Nat.add_one_ne_zero, if_false, h]

theorem quiet_external (b : Timebase) (high : Bool) (n : Nat) (h : b.source = .external) :
    b.quiet high (n + 1) = { b with spacing := b.spacing.map (· + (n + 1)), tickSample := high } := by
  simp only [Timebase.quiet, Nat.add_one_ne_zero, if_false, h]

/-- Any number of quiet CLK periods under the external source. -/
theorem quiet_external_all (b : Timebase) (high : Bool) (n : Nat) (h : b.source = .external) :
    b.quiet high n = { b with
      spacing := b.spacing.map (· + n), tickSample := if n = 0 then b.tickSample else high } := by
  cases n with
  | zero =>
    have hz : b.spacing.map (· + 0) = b.spacing := by cases b.spacing <;> rfl
    simp only [quiet_zero, hz, if_true]
  | succ n => simp only [quiet_external b high n h, Nat.add_one_ne_zero, if_false]

/-- Any number of quiet CLK periods under the internal source. -/
theorem quiet_internal_all (b : Timebase) (high : Bool) (n : Nat) (h : b.source = .internal) :
    b.quiet high n = { b with
      prescalerCount := b.prescalerCount + n, tickSample := if n = 0 then b.tickSample else high } := by
  cases n with
  | zero => simp only [quiet_zero, Nat.add_zero, if_true]
  | succ n => simp only [quiet_internal b high n h, Nat.add_one_ne_zero, if_false]

/-- Quiet CLK periods and the freeze mark do not meet. -/
theorem quiet_freeze (b : Timebase) (high : Bool) (n : Nat) (x : Bool) :
    Timebase.quiet { b with freeze := x } high n = { b.quiet high n with freeze := x } := by
  cases n with
  | zero => rfl
  | succ n => cases h : b.source <;> simp only [Timebase.quiet, Nat.add_one_ne_zero, if_false, h]

/-- Quiet CLK periods leave device time, the source and the prescaler. -/
theorem quiet_keeps (b : Timebase) (high : Bool) (n : Nat) :
    (b.quiet high n).time = b.time ∧ (b.quiet high n).freeze = b.freeze ∧ (b.quiet high n).source = b.source
    ∧ (b.quiet high n).prescaler = b.prescaler := by
  cases n with
  | zero => exact ⟨rfl, rfl, rfl, rfl⟩
  | succ n =>
    cases h : b.source with
    | internal => rw [quiet_internal b high n h]; exact ⟨rfl, rfl, h, rfl⟩
    | external => rw [quiet_external b high n h]; exact ⟨rfl, rfl, h, rfl⟩

theorem quiet_quiet (b : Timebase) (high : Bool) (m n : Nat) : (b.quiet high m).quiet high n = b.quiet high (m + n) := by
  cases m with
  | zero => rw [quiet_zero, Nat.zero_add]
  | succ m =>
    cases n with
    | zero => rw [quiet_zero, Nat.add_zero]
    | succ n =>
      have hk := (quiet_keeps b high (m + 1)).2.2.1
      cases h : b.source with
      | internal =>
        rw [quiet_internal _ high n (hk.trans h), quiet_internal b high m h,
          show m + 1 + (n + 1) = (m + 1 + n) + 1 by omega, quiet_internal b high _ h]
        simp only [Nat.add_assoc]
      | external =>
        rw [quiet_external _ high n (hk.trans h), quiet_external b high m h,
          show m + 1 + (n + 1) = (m + 1 + n) + 1 by omega, quiet_external b high _ h]
        cases b.spacing <;> simp [Nat.add_assoc]

/-- Quiet CLK periods and a cause of safe entry do not meet. -/
theorem causeSafe_quiet (s : State) (high : Bool) (k : Nat) :
    (s.setTimebase (s.timebase.quiet high k)).causeSafe
      = s.causeSafe.setTimebase (s.causeSafe.timebase.quiet high k) := by
  cases h : s.safeController.state with
  | safe => simp only [State.causeSafe, State.setTimebase, h]
  | run =>
    have e : ∀ t : State, t.safeController.state = .run → t.causeSafe = t.enterSafe := fun t ht => by
      simp only [State.causeSafe, ht]
    rw [e (s.setTimebase (s.timebase.quiet high k)) h, e s h, enterSafe_eq, enterSafe_eq]
    obtain ⟨k1, k2, -⟩ := quiet_keeps s.timebase high k
    have hn : State.cutNews (s.setTimebase (s.timebase.quiet high k)) (fun _ => true) = s.cutNews (fun _ => true) := by
      simp only [State.cutNews, State.line, State.now, State.setTimebase, k1]
    rw [hn]
    simp only [State.setTimebase, quiet_freeze, k2, State.now, k1]

/-- Quiet CLK periods and samples of SAFE# do not meet. -/
theorem sampleSafeTimes_quiet (s : State) (n : Nat) (low high : Bool) (k : Nat) :
    (s.setTimebase (s.timebase.quiet high k)).sampleSafeTimes n low
      = (s.sampleSafeTimes n low).setTimebase ((s.sampleSafeTimes n low).timebase.quiet high k) := by
  unfold State.sampleSafeTimes
  by_cases hn : n = 0
  · simp only [hn, if_true]
  · by_cases hl : low = s.safeController.asserted
    · simp only [hn, if_false, setTimebase_safeController, hl, if_true]
      rfl
    · by_cases hc : s.safeController.candidate + n ≤ 3
      · simp only [hn, if_false, setTimebase_safeController, hl, hc, if_true]
        rfl
      · simp only [hn, if_false, setTimebase_safeController, hl, hc]
        cases low
        · rfl
        · exact causeSafe_quiet (s.setSafe { s.safeController with candidate := 0, asserted := true }) high k

/-- One more sample of SAFE# at the same level. -/
theorem sampleSafeTimes_succ (s : State) (n : Nat) (low : Bool) :
    (s.sampleSafeTimes n low).sampleSafeTimes 1 low = s.sampleSafeTimes (n + 1) low := by
  by_cases hn : n = 0
  · subst hn
    simp only [State.sampleSafeTimes, if_true, Nat.zero_add]
  · by_cases hl : low = s.safeController.asserted
    · simp only [State.sampleSafeTimes, hn, if_false, if_pos hl, Nat.add_one_ne_zero, State.setSafe]
    · by_cases hc : s.safeController.candidate + n ≤ 3
      · by_cases hd : s.safeController.candidate + (n + 1) ≤ 3
        · simp only [State.sampleSafeTimes, hn, if_false, if_neg hl, if_pos hc, if_pos hd, Nat.add_one_ne_zero, State.setSafe,
            Nat.add_assoc]
        · have hd' : ¬ s.safeController.candidate + n + 1 ≤ 3 := by omega
          simp only [State.sampleSafeTimes, hn, if_false, if_neg hl, if_pos hc, if_neg hd, hd', Nat.add_one_ne_zero,
            State.setSafe]
      · have hd : ¬ s.safeController.candidate + (n + 1) ≤ 3 := by omega
        have key : ∀ t : State, t.safeController.asserted = low → t.safeController.candidate = 0 →
            t.sampleSafeTimes 1 low = t := fun t h1 h2 => by
          simp only [State.sampleSafeTimes, Nat.one_ne_zero, if_false, if_pos h1.symm, State.setSafe]
          rw [← h2]
        cases low
        · simp only [State.sampleSafeTimes, hn, if_false, if_neg hl, if_neg hc, if_neg hd, Nat.add_one_ne_zero,
            Bool.false_eq_true]
          exact key (s.setSafe { s.safeController with candidate := 0, asserted := false }) rfl rfl
        · have hf := (causeSafe_frame (s.setSafe { s.safeController with candidate := 0, asserted := true })).2.2.2
          have e : ∀ m, m ≠ 0 → ¬ s.safeController.candidate + m ≤ 3 → s.sampleSafeTimes m true
              = (s.setSafe { s.safeController with candidate := 0, asserted := true }).causeSafe := fun m h1 h2 => by
            simp only [State.sampleSafeTimes, h1, if_false, if_neg hl, if_neg h2, if_true]
          rw [e n hn hc, e (n + 1) (by omega) hd]
          exact key _ (by rw [hf]; rfl) (by rw [hf]; rfl)

theorem quietClk_zero (s : State) : s.quietClk 0 = s := rfl

/-- Quiet CLK periods leave the pins and the window, and touch the timebase as `Timebase.quiet` says and in the freeze mark. -/
theorem quietClk_frame (s : State) (n : Nat) :
    (s.quietClk n).pins = s.pins ∧ (s.quietClk n).window = s.window ∧ (s.quietClk n).timebase
      = { s.timebase.quiet s.pins.tickHigh n with freeze := (s.quietClk n).timebase.freeze } :=
  sampleSafeTimes_frame (s.setTimebase (s.timebase.quiet s.pins.tickHigh n)) n s.pins.safeLow

theorem quietClk_succ (s : State) (n : Nat) : (s.quietClk n).quietClk 1 = s.quietClk (n + 1) := by
  obtain ⟨hp, -, ht⟩ := quietClk_frame s n
  have hu : s.quietClk n = (s.setTimebase (s.timebase.quiet s.pins.tickHigh n)).sampleSafeTimes n s.pins.safeLow := rfl
  generalize hv : s.setTimebase (s.timebase.quiet s.pins.tickHigh n) = v at hu
  have hvp : v.pins = s.pins := by rw [← hv]; rfl
  have hvt : v.timebase = s.timebase.quiet s.pins.tickHigh n := by rw [← hv]; rfl
  show ((s.quietClk n).setTimebase ((s.quietClk n).timebase.quiet (s.quietClk n).pins.tickHigh 1)).sampleSafeTimes 1
    (s.quietClk n).pins.safeLow = _
  rw [hp, hu, ← sampleSafeTimes_quiet v n s.pins.safeLow s.pins.tickHigh 1, sampleSafeTimes_succ, hvt, quiet_quiet, ← hv]
  rfl

/-- A CLK period that brings no tick and no rising edge is a quiet one. -/
theorem clkPeriod_quiet (s : State) (order : ClkOrder)
    (h : (s.timebase.source = .external ∧ (s.pins.tickHigh = false ∨ s.timebase.tickSample = true))
      ∨ (s.timebase.source = .internal ∧ s.timebase.prescalerCount + 1 < s.timebase.prescaler)) :
    s.clkPeriod order = s.quietClk 1 := by
  have e : ∀ t : State, t.pins = s.pins → t.timebase = { s.timebase with freeze := t.timebase.freeze } →
      t.runSources order = t.setTimebase (t.timebase.quiet s.pins.tickHigh 1) := fun t hp ht => by
    have hsrc : t.timebase.source = s.timebase.source := by rw [ht]
    rcases h with ⟨hs, hc⟩ | ⟨hs, hc⟩
    · have hc' : t.pins.tickHigh = false ∨ t.timebase.tickSample = true := by
        rw [hp, show t.timebase.tickSample = s.timebase.tickSample by rw [ht]]
        exact hc
      rw [quiet_external _ _ _ (hsrc.trans hs), runSources_flat t order (hsrc.trans hs) hc', hp]
    · have hc' : t.timebase.prescalerCount + 1 < t.timebase.prescaler := by rw [ht]; exact hc
      rw [quiet_internal _ _ _ (hsrc.trans hs), runSources_counts t order (hsrc.trans hs), if_neg (Nat.not_le.mpr hc'), hp]
  have hb : (s.runSources order).sampleSafe s.pins.safeLow = s.quietClk 1 := by
    rw [e s rfl rfl, sampleSafe_eq]
    rfl
  have ha : (s.sampleSafe s.pins.safeLow).runSources order = s.quietClk 1 := by
    obtain ⟨h1, -, h3⟩ := sampleSafeTimes_frame s 1 s.pins.safeLow
    rw [sampleSafe_eq, e _ h1 h3, ← sampleSafeTimes_quiet]
    rfl
  unfold State.clkPeriod
  cases order.safe
  case beforeTick => exact ha
  all_goals exact hb

/-- No rising edge of TICK is judged at the next sample: the source is internal, the pin is low or its last sample is high. -/
def NoEdge (s : State) : Prop :=
  s.timebase.source = .internal ∨ s.pins.tickHigh = false ∨ s.timebase.tickSample = true

/-- `n` CLK periods that bring no tick, one by one. -/
theorem quietClk_iterate (s : State) (order : ClkOrder) (n : Nat) (he : NoEdge s)
    (h : s.timebase.source = .external ∨ n ≤ s.timebase.beforeTick) :
    s.quietClk n = (fun t : State => t.clkPeriod order)^[n] s := by
  induction n with
  | zero => rfl
  | succ n ih =>
    rw [Function.iterate_succ_apply', ← ih (h.imp_right (by omega)), ← quietClk_succ]
    obtain ⟨hp, -, ht⟩ := quietClk_frame s n
    have hk := quiet_keeps s.timebase s.pins.tickHigh n
    symm
    apply clkPeriod_quiet
    rw [hp, ht]
    cases hs : s.timebase.source with
    | external =>
      refine .inl ⟨hk.2.2.1.trans hs, ?_⟩
      cases n with
      | zero => rw [quiet_zero]; exact he.resolve_left (by rw [hs]; nofun)
      | succ n => rw [quiet_external _ _ _ hs]; cases s.pins.tickHigh <;> simp
    | internal =>
      refine .inr ⟨hk.2.2.1.trans hs, ?_⟩
      have hb : n + 1 ≤ s.timebase.prescaler - (s.timebase.prescalerCount + 1) := h.resolve_left (by rw [hs]; nofun)
      show (s.timebase.quiet s.pins.tickHigh n).prescalerCount + 1 < (s.timebase.quiet s.pins.tickHigh n).prescaler
      rw [hk.2.2.2]
      cases n with
      | zero => rw [quiet_zero]; omega
      | succ n => rw [quiet_internal _ _ _ hs]; simp only; omega

/-- After a CLK period, TICK's last sample is the level at its pin. -/
theorem clkPeriod_sample (s : State) (order : ClkOrder) :
    (s.clkPeriod order).timebase.tickSample = s.pins.tickHigh := by
  unfold State.clkPeriod
  cases order.safe
  case beforeTick =>
    rw [(runSources_frame _ order).2.2.2.2.1, (sampleSafe_pins s _).pins]
  all_goals
    show ((s.runSources order).sampleSafe s.pins.safeLow).timebase.tickSample = _
    rw [sampleSafe_eq, (sampleSafeTimes_frame _ 1 _).2.2]
    exact (runSources_frame s order).2.2.2.2.1

theorem clkPeriod_noEdge (s : State) (order : ClkOrder) : NoEdge (s.clkPeriod order) :=
  .inr (by rw [clkPeriod_sample, (clkPeriod_pins s order).pins]; cases s.pins.tickHigh <;> simp)

/-- CLK periods with no rising edge of TICK, one by one. -/
theorem passClk_iterate (order : ClkOrder) (fuel n : Nat) (s : State) (he : NoEdge s) (hf : n ≤ fuel) :
    State.passClk order fuel n s = (fun t : State => t.clkPeriod order)^[n] s := by
  induction fuel generalizing n s with
  | zero =>
    obtain rfl : n = 0 := by omega
    rfl
  | succ fuel ih =>
    unfold State.passClk
    split
    · rename_i h
      exact quietClk_iterate s order n he h
    · rename_i h
      have hn : s.timebase.beforeTick < n := by
        by_contra hle
        exact h (.inr (Nat.not_lt.mp hle))
      rw [ih _ _ (clkPeriod_noEdge _ _) (by omega), quietClk_iterate s order _ he (.inr (Nat.le_refl _)),
        ← Function.iterate_succ_apply' (fun t : State => t.clkPeriod order) s.timebase.beforeTick s,
        ← Function.iterate_add_apply]
      congr 1
      omega

/-- `n` CLK periods as one calculation are those periods one by one. -/
theorem clkPeriods_iterate (s : State) (n : Nat) (order : ClkOrder) :
    s.clkPeriods n order = (fun t : State => t.clkPeriod order)^[n] s := by
  cases n with
  | zero => rfl
  | succ n =>
    rw [Function.iterate_succ_apply]
    exact passClk_iterate order n n _ (clkPeriod_noEdge s order) (Nat.le_refl _)

/-- CLK periods that bring no tick and no rising edge, as one calculation. -/
theorem clkPeriods_quiet (s : State) (n : Nat) (order : ClkOrder) (he : NoEdge s)
    (h : s.timebase.source = .external ∨ n ≤ s.timebase.beforeTick) : s.clkPeriods n order = s.quietClk n := by
  rw [clkPeriods_iterate, quietClk_iterate s order n he h]

/-- CLK periods leave the pins, the source and the prescaler. -/
theorem clkPeriods_pins (s : State) (n : Nat) (order : ClkOrder) : SamePins s (s.clkPeriods n order) := by
  rw [clkPeriods_iterate]
  induction n with
  | zero => exact ⟨rfl, rfl, rfl⟩
  | succ n ih =>
    rw [Function.iterate_succ_apply']
    exact ih.trans' (clkPeriod_pins _ order)

/-! ## The safe controller over CLK periods (R154) -/

/-- The safe controller after one CLK sample of SAFE#. -/
def sampledSafe (low : Bool) (c : SafeController) : SafeController :=
  if low = c.asserted then { c with candidate := 0 }
  else if c.candidate < 3 then { c with candidate := c.candidate + 1 }
  else { c with candidate := 0, asserted := low, state := if low then .safe else c.state }

theorem sampleSafe_controller (s : State) (low : Bool) :
    (s.sampleSafe low).safeController = sampledSafe low s.safeController := by
  unfold State.sampleSafe sampledSafe
  simp only
  split
  · rfl
  · split
    · rfl
    · cases low
      · rfl
      · exact (causeSafe_frame _).2.2.2

/-- A CLK period samples SAFE# once, and touches the safe controller in no other way. -/
theorem clkPeriod_controller (s : State) (order : ClkOrder) :
    (s.clkPeriod order).safeController = sampledSafe s.pins.safeLow s.safeController := by
  unfold State.clkPeriod
  cases order.safe
  case beforeTick => rw [(runSources_frame _ order).2.1, sampleSafe_controller]
  all_goals rw [sampleSafe_controller, (runSources_frame s order).2.1]

/-- CLK periods sample SAFE# once each. -/
theorem clkPeriods_controller (s : State) (n : Nat) (order : ClkOrder) :
    (s.clkPeriods n order).safeController = (sampledSafe s.pins.safeLow)^[n] s.safeController := by
  rw [clkPeriods_iterate]
  induction n with
  | zero => rfl
  | succ n ih =>
    have hp : ((fun t : State => t.clkPeriod order)^[n] s).pins = s.pins := by
      rw [← clkPeriods_iterate]
      exact (clkPeriods_pins s n order).pins
    rw [Function.iterate_succ_apply', Function.iterate_succ_apply', clkPeriod_controller, ih, hp]

/-- Samples at the qualified level keep it and restart the count. -/
theorem sampledSafe_same (low : Bool) (c : SafeController) (n : Nat) (h : c.asserted = low) :
    (sampledSafe low)^[n] c = if n = 0 then c else { c with candidate := 0 } := by
  induction n with
  | zero => rfl
  | succ n ih =>
    rw [Function.iterate_succ_apply', ih, if_neg (Nat.succ_ne_zero n)]
    split <;> simp only [sampledSafe, h, if_true]

/-- Three samples or fewer at the other level are not accepted. -/
theorem sampledSafe_few (low : Bool) (c : SafeController) (n : Nat) (h : c.asserted = !low) (hn : c.candidate + n ≤ 3) :
    (sampledSafe low)^[n] c = { c with candidate := c.candidate + n } := by
  have hl : ¬ low = c.asserted := by rw [h]; cases low <;> decide
  induction n with
  | zero => rfl
  | succ n ih =>
    rw [Function.iterate_succ_apply', ih (by omega)]
    simp only [sampledSafe, if_neg hl, if_pos (show c.candidate + n < 3 by omega), Nat.add_assoc]

/-- Once the count has been at three, a further sample at the other level makes it the qualified level. -/
theorem sampledSafe_enough (low : Bool) (c : SafeController) (n : Nat) (h : c.asserted = !low) (h0 : 0 < n)
    (hn : 4 ≤ c.candidate + n) :
    (sampledSafe low)^[n] c = { c with candidate := 0, asserted := low, state := if low then .safe else c.state } := by
  have hl : ¬ low = c.asserted := by rw [h]; cases low <;> decide
  have step : ∀ d : SafeController, d.asserted = c.asserted → 3 ≤ d.candidate →
      sampledSafe low d = { d with candidate := 0, asserted := low, state := if low then .safe else d.state } := fun d hd hc => by
    simp only [sampledSafe, hd, if_neg hl, if_neg (Nat.not_lt.mpr hc)]
  have rest : ∀ k, (sampledSafe low)^[k] { c with candidate := 0, asserted := low, state := if low then .safe else c.state }
      = { c with candidate := 0, asserted := low, state := if low then .safe else c.state } := fun k => by
    rw [sampledSafe_same low _ k rfl]
    split <;> rfl
  by_cases hc : 3 ≤ c.candidate
  · obtain ⟨k, rfl⟩ : ∃ k, n = k + 1 := ⟨n - 1, by omega⟩
    rw [Function.iterate_succ_apply, step c rfl hc]
    exact rest k
  · obtain ⟨k, rfl⟩ : ∃ k, n = k + 1 + (3 - c.candidate) := ⟨n - (4 - c.candidate), by omega⟩
    rw [Function.iterate_add_apply, sampledSafe_few low c _ h (by omega), Function.iterate_succ_apply,
      step { c with candidate := c.candidate + (3 - c.candidate) } rfl (by show 3 ≤ c.candidate + (3 - c.candidate); omega)]
    exact rest k

/-! ## A counted tick and device time (R4, R156) -/

/-- A cause of safe entry leaves the timebase in SAFE, and under CONTINUE. -/
theorem causeSafe_steady (s : State) (h : s.safeController.state = .safe ∨ s.safeController.policy = .continue_) :
    s.causeSafe.timebase = s.timebase := by
  cases hs : s.safeController.state with
  | safe => simp only [State.causeSafe, hs]
  | run =>
    have hp : s.safeController.policy = .continue_ := h.resolve_left (by rw [hs]; nofun)
    have e : s.causeSafe = s.enterSafe := by simp only [State.causeSafe, hs]
    have hc : (SafePolicy.continue_ == SafePolicy.freeze) = false := rfl
    rw [e, enterSafe_eq]
    simp only [hp, hc, Bool.or_false]

/-- Where SAFE# freezes nothing, its samples leave the timebase, and freeze nothing afterwards either. -/
theorem sampleSafeTimes_steady (s : State) (n : Nat) (h : s.NoFreezeAhead) :
    (s.sampleSafeTimes n s.pins.safeLow).timebase = s.timebase ∧ (s.sampleSafeTimes n s.pins.safeLow).NoFreezeAhead := by
  have keep : ∀ c : SafeController, c.asserted = s.safeController.asserted → c.state = s.safeController.state →
      c.policy = s.safeController.policy → (s.setSafe c).NoFreezeAhead := fun c h1 h2 h3 => by
    simp only [State.NoFreezeAhead, State.setSafe, h1, h2, h3]
    exact h
  unfold State.sampleSafeTimes
  simp only
  split
  · exact ⟨rfl, h⟩
  · split
    · exact ⟨rfl, keep _ rfl rfl rfl⟩
    · rename_i hl
      split
      · exact ⟨rfl, keep _ rfl rfl rfl⟩
      · split
        · rename_i hlow
          have hpol : s.safeController.state = .safe ∨ s.safeController.policy = .continue_ := by
            rcases h with h | h | h
            · rw [h] at hlow; cases hlow
            · rw [hlow] at hl; exact absurd h.symm hl
            · exact h
          refine ⟨?_, .inr (.inl ?_)⟩
          · exact causeSafe_steady (s.setSafe { s.safeController with candidate := 0, asserted := s.pins.safeLow }) hpol
          · rw [(causeSafe_frame _).2.2.2]
            exact hlow
        · rename_i hlow
          exact ⟨rfl, .inl (by simpa using hlow)⟩

/-- Where SAFE# freezes nothing, quiet CLK periods leave device time, the run state and the mark. -/
theorem quietClk_steady (s : State) (n : Nat) (h : s.NoFreezeAhead) :
    (s.quietClk n).timebase = s.timebase.quiet s.pins.tickHigh n ∧ (s.quietClk n).NoFreezeAhead :=
  sampleSafeTimes_steady (s.setTimebase (s.timebase.quiet s.pins.tickHigh n)) n h

/-- A CLK period in which the tick sources deliver a tick. -/
def TickDue (s : State) : Prop :=
  (s.timebase.source = .internal ∧ s.timebase.prescaler ≤ s.timebase.prescalerCount + 1)
    ∨ (s.timebase.source = .external ∧ s.pins.tickHigh = true ∧ s.timebase.tickSample = false
      ∧ (s.timebase.spacing = none ∨ ∃ n, s.timebase.spacing = some n ∧ 256 ≤ n + 1))

/-- The tick sources leave device time as a counted tick does, where one is due (R4). -/
theorem runSources_ticks (s : State) (order : ClkOrder) (h : TickDue s) :
    (s.runSources order).now = s.timebase.ticked.time := by
  have hd : ∀ (t : State) (pins : BitVec 16), t.timebase.time = s.timebase.time → t.timebase.desired = s.timebase.desired →
      t.timebase.freeze = s.timebase.freeze → (t.tickInPeriod pins order).timebase.time = s.timebase.ticked.time :=
    fun t pins h1 h2 h3 => by rw [(tickInPeriod_frame t pins order).1]; simp only [Timebase.ticked, h1, h2, h3]
  rcases h with ⟨hs, hc⟩ | ⟨hs, h1, h2, hsp⟩
  · rw [runSources_counts s order hs, if_pos hc]
    exact hd _ _ rfl rfl rfl
  · have e : (s.setTimebase { s.timebase with tickSample := true }).judgeEdge order
        = (s.setTimebase { s.timebase with tickSample := true }).countEdge order := by
      rcases hsp with hsp | ⟨n, hn, hle⟩
      · simp only [State.judgeEdge, setTimebase_timebase, hsp]
      · simp only [State.judgeEdge, setTimebase_timebase, hn, if_pos (show Config.tickSpacing ≤ n + 1 from hle)]
    rw [runSources_rising s order hs h1 h2, e]
    exact hd _ _ rfl rfl rfl

/-- A sample of SAFE# does not make a tick due, nor keep one from being due. -/
theorem tickDue_sampleSafe (s : State) (low : Bool) (h : TickDue s) : TickDue (s.sampleSafe low) := by
  obtain ⟨h1, -, h3⟩ := sampleSafeTimes_frame s 1 low
  rw [sampleSafe_eq]
  unfold TickDue
  rw [h3, h1]
  exact h

/-- The CLK period of a tick leaves device time as the tick does, where SAFE# is sampled behind it or freezes nothing (R4, R156). -/
theorem clkPeriod_ticks (s : State) (order : ClkOrder) (hf : order.safe ≠ .beforeTick ∨ s.NoFreezeAhead) (h : TickDue s) :
    (s.clkPeriod order).now = s.timebase.ticked.time := by
  unfold State.clkPeriod
  split
  · rename_i ho
    have hk := (sampleSafeTimes_steady s 1 (hf.resolve_left (not_not_intro ho))).1
    rw [runSources_ticks _ order (tickDue_sampleSafe s _ h), sampleSafe_eq, hk]
  all_goals
    rw [State.now, sampleSafe_eq, (sampleSafeTimes_frame _ 1 _).2.2]
    exact runSources_ticks s order h

/-- Where the entry's mark is taken first, the tick of the same CLK period leaves device time unchanged (R156). -/
theorem clkPeriod_frozen (s : State) (order : ClkOrder) (ho : order.safe = .beforeTick) (h : TickDue s)
    (hf : (s.sampleSafe s.pins.safeLow).timebase.freeze = true) : (s.clkPeriod order).now = s.now := by
  have ht : (s.sampleSafe s.pins.safeLow).timebase.time = s.timebase.time := by
    rw [sampleSafe_eq, (sampleSafeTimes_frame s 1 _).2.2]
  simp only [State.clkPeriod, ho]
  rw [runSources_ticks _ order (tickDue_sampleSafe s _ h)]
  simp only [Timebase.ticked, hf, Bool.true_eq_false, and_false, if_false]
  exact ht

/-- A counted tick advances running device time by one and leaves held device time (R4). -/
theorem countsTick_now (s t : State) (k : Instr) (hr : s.Released) (h : s.CountsTick k) (he : exec k s = .next t) :
    t.now = s.timebase.ticked.time := by
  obtain ⟨hf, ⟨hs, pins, order, clk, safe, rfl, h0, hc⟩ | ⟨hs, steady, pins, order, low, safe, rfl, hx, hsp⟩⟩ := h
  · have hb : ¬ clk ≤ s.timebase.beforeTick := by
      simp only [Timebase.beforeTick]
      omega
    have e : exec (.tick pins order clk safe) s
        = .next (((s.showInputs pins).quietClk s.timebase.beforeTick).clkPeriod ⟨order, safe⟩) := by
      simp only [exec, execTick, unlessHeld_released s _ hr, State.internalTick, hs, if_neg hb]
    rw [e] at he
    cases he
    obtain ⟨hq, hfq⟩ := quietClk_steady (s.showInputs pins) s.timebase.beforeTick hf
    have hk := quiet_keeps s.timebase s.pins.tickHigh s.timebase.beforeTick
    have hq' : ((s.showInputs pins).quietClk s.timebase.beforeTick).timebase
        = s.timebase.quiet s.pins.tickHigh s.timebase.beforeTick := hq
    rw [clkPeriod_ticks _ _ (.inr hfq)]
    · rw [hq', quiet_internal_all _ _ _ hs]
      rfl
    · refine .inl ⟨by rw [hq']; exact hk.2.2.1.trans hs, ?_⟩
      rw [hq', quiet_internal_all _ _ _ hs]
      simp only [Timebase.beforeTick]
      omega
  · have e : exec (.tickEdge steady pins order low safe) s = .next
        (((((((s.showInputs pins).showTick s.timebase.tickSample).clkPeriods steady ⟨order, safe⟩).showTick
          false).clkPeriods low ⟨order, safe⟩).showTick true).clkPeriod ⟨order, safe⟩) := by
      simp only [exec, execTickEdge, unlessHeld_released s _ hr, State.externalEdge]
    rw [e] at he
    cases he
    generalize ha : ((s.showInputs pins).showTick s.timebase.tickSample).clkPeriods steady ⟨order, safe⟩ = a
    rw [clkPeriods_quiet ((s.showInputs pins).showTick s.timebase.tickSample) steady ⟨order, safe⟩
      (.inr (Bool.eq_false_or_eq_true s.timebase.tickSample).symm) (.inl hs)] at ha
    obtain ⟨qa, fa⟩ := quietClk_steady ((s.showInputs pins).showTick s.timebase.tickSample) steady hf
    rw [ha] at qa fa
    replace qa : a.timebase = s.timebase.quiet s.timebase.tickSample steady := qa
    have ka := quiet_keeps s.timebase s.timebase.tickSample steady
    have sa : a.timebase.source = .external := by rw [qa]; exact ka.2.2.1.trans hs
    generalize hb : (a.showTick false).clkPeriods low ⟨order, safe⟩ = b
    rw [clkPeriods_quiet (a.showTick false) low ⟨order, safe⟩ (.inr (.inl rfl)) (.inl sa)] at hb
    obtain ⟨qb, fb⟩ := quietClk_steady (a.showTick false) low fa
    rw [hb] at qb fb
    replace qb : b.timebase = a.timebase.quiet false low := qb
    have eb : b.timebase = { s.timebase with
        spacing := s.timebase.spacing.map (· + (steady + low))
        tickSample := if low = 0 then s.timebase.tickSample else false } := by
      rw [qb, qa]
      rw [quiet_external_all _ _ low (ka.2.2.1.trans hs), quiet_external_all _ _ steady hs]
      simp only [ite_self]
      cases s.timebase.spacing <;> simp [Nat.add_assoc]
    rw [clkPeriod_ticks (b.showTick true) _ (.inr fb)]
    · show b.timebase.ticked.time = _
      rw [eb]
      rfl
    · refine .inr ⟨?_, rfl, ?_, ?_⟩
      · show b.timebase.source = _
        rw [eb]
        exact hs
      · show b.timebase.tickSample = _
        rw [eb]
        rcases hx with hx | hx
        · simp only [hx, ite_self]
        · simp only [if_neg (show ¬ low = 0 by omega)]
      · show b.timebase.spacing = _ ∨ ∃ n, b.timebase.spacing = _ ∧ _
        rw [eb]
        rcases hsp with hsp | ⟨n, hn, hle⟩
        · exact .inl (by simp only [hsp, Option.map_none])
        · exact .inr ⟨n + (steady + low), by simp only [hn, Option.map_some], by omega⟩

/-! ## CLK periods under the internal source -/

/-- What `n` CLK periods under the internal source leave alone, and the count of those that bring no tick (R1). -/
structure InternalPass (n : Nat) (s t : State) : Prop where
  source : t.timebase.source = .internal
  prescaler : t.timebase.prescaler = s.timebase.prescaler
  spacing : t.timebase.spacing = s.timebase.spacing
  window : t.window = s.window
  below : s.timebase.prescalerCount + n < s.timebase.prescaler →
    t.now = s.now ∧ t.timebase.prescalerCount = s.timebase.prescalerCount + n

theorem InternalPass.trans' {m n : Nat} {s t u : State} (h : InternalPass m s t) (k : InternalPass n t u) :
    InternalPass (m + n) s u where
  source := k.source
  prescaler := k.prescaler.trans h.prescaler
  spacing := k.spacing.trans h.spacing
  window := k.window.trans h.window
  below hc := by
    obtain ⟨h1, h2⟩ := h.below (by omega)
    obtain ⟨k1, k2⟩ := k.below (by rw [h2, h.prescaler]; omega)
    exact ⟨k1.trans h1, by rw [k2, h2, Nat.add_assoc]⟩

/-- Levels shown at the pins before the first period are no part of it. -/
theorem InternalPass.of_shown {n : Nat} {s s' t : State} (h : InternalPass n s' t) (ht : s'.timebase = s.timebase)
    (hw : s'.window = s.window) : InternalPass n s t where
  source := h.source
  prescaler := by rw [h.prescaler, ht]
  spacing := by rw [h.spacing, ht]
  window := h.window.trans hw
  below hc := by simpa only [State.now, ht] using h.below (by rw [ht]; exact hc)

theorem runSources_internal (s : State) (order : ClkOrder) (hs : s.timebase.source = .internal) :
    InternalPass 1 s (s.runSources order) := by
  have hp := runSources_pins s order
  have h := runSources_counts s order hs
  refine ⟨hp.source.trans hs, hp.prescaler, ?_, ?_, fun hc => ?_⟩
  · rw [h]
    split
    · rw [(tickInPeriod_frame _ _ _).1]
      rfl
    · rfl
  · rw [h]
    split
    · rw [(tickInPeriod_frame _ _ _).2.2.1]
      rfl
    · rfl
  · rw [h, if_neg (by omega)]
    exact ⟨rfl, rfl⟩

/-- A sample of SAFE# is no CLK period by itself: it leaves what CLK periods count. -/
theorem sampleSafe_internal (s : State) (low : Bool) (hs : s.timebase.source = .internal) :
    InternalPass 0 s (s.sampleSafe low) := by
  obtain ⟨-, h2, h3⟩ := sampleSafeTimes_frame s 1 low
  rw [← sampleSafe_eq] at h2 h3
  exact ⟨by rw [h3]; exact hs, by rw [h3], by rw [h3], h2, fun _ => ⟨by rw [State.now, h3]; rfl, by rw [h3]; rfl⟩⟩

theorem clkPeriod_internal (s : State) (order : ClkOrder) (hs : s.timebase.source = .internal) :
    InternalPass 1 s (s.clkPeriod order) := by
  unfold State.clkPeriod
  cases order.safe
  case beforeTick =>
    have h := sampleSafe_internal s s.pins.safeLow hs
    exact h.trans' (runSources_internal _ order h.source)
  all_goals
    have h := runSources_internal s order hs
    exact h.trans' (sampleSafe_internal _ _ h.source)

theorem clkPeriods_internal (s : State) (n : Nat) (order : ClkOrder) (hs : s.timebase.source = .internal) :
    InternalPass n s (s.clkPeriods n order) := by
  rw [clkPeriods_iterate]
  induction n with
  | zero => exact ⟨hs, rfl, rfl, rfl, fun _ => ⟨rfl, rfl⟩⟩
  | succ n ih =>
    rw [Function.iterate_succ_apply']
    exact ih.trans' (clkPeriod_internal _ order ih.source)

/-- TICK_EDGE under the internal source: its CLK periods are those of R1, and the last of them leaves a high sample of TICK (R1, R9;
Log 4, Log 27). -/
theorem externalEdge_internal (s : State) (steady low : Nat) (pins : BitVec 16) (order : ClkOrder)
    (hs : s.timebase.source = .internal) :
    InternalPass (steady + low + 1) s (s.externalEdge steady low pins order)
      ∧ (s.externalEdge steady low pins order).timebase.tickSample = true :=
  let a := ((s.showInputs pins).showTick s.timebase.tickSample).clkPeriods steady order
  let b := (a.showTick false).clkPeriods low order
  have h1 : InternalPass steady s a :=
    (clkPeriods_internal ((s.showInputs pins).showTick s.timebase.tickSample) steady order hs).of_shown rfl rfl
  have h2 : InternalPass low a b := (clkPeriods_internal (a.showTick false) low order h1.source).of_shown rfl rfl
  have h3 : InternalPass 1 b ((b.showTick true).clkPeriod order) :=
    (clkPeriod_internal (b.showTick true) order h2.source).of_shown rfl rfl
  ⟨(h1.trans' h2).trans' h3, clkPeriod_sample (b.showTick true) order⟩

/-! ## CLK periods as relations -/

theorem iterate_released (s : State) (n : Nat) (order : ClkOrder) (h : s.Released) :
    ((fun t : State => t.clkPeriod order)^[n] s).Released := by
  induction n with
  | zero => exact h
  | succ n ih =>
    rw [Function.iterate_succ_apply', State.Released, (clkPeriod_pins _ order).pins]
    exact ih

theorem iterate_pass (s : State) (n : Nat) (order : ClkOrder) (h : s.Released) :
    PeriodsPass order n s ((fun t : State => t.clkPeriod order)^[n] s) := by
  induction n with
  | zero => rfl
  | succ n ih =>
    rw [Function.iterate_succ_apply']
    exact ⟨_, ih, clkPeriod_passed _ order (iterate_released s n order h)⟩

/-- CLK periods are the relation `PeriodsPass` (R1, R2, R154). -/
theorem clkPeriods_pass (s : State) (n : Nat) (order : ClkOrder) (h : s.Released) :
    PeriodsPass order n s (s.clkPeriods n order) := by
  rw [clkPeriods_iterate]
  exact iterate_pass s n order h

/-- Quiet CLK periods are the relation `PeriodsPass`. -/
theorem quietClk_pass (s : State) (n : Nat) (order : ClkOrder) (h : s.Released) (he : NoEdge s)
    (hb : s.timebase.source = .external ∨ n ≤ s.timebase.beforeTick) : PeriodsPass order n s (s.quietClk n) := by
  rw [quietClk_iterate s order n he hb]
  exact iterate_pass s n order h

end Sys2Proof.Laws
end

