-- ==== Sys2Proof/Laws/Time.lean ====
section
/-! SUPPORT. The comparisons of R10 and the arm-time checks as statements about distances. -/

namespace Sys2Proof.Laws

open Sys2Proof.Machine

theorem reached_iff (t n : Time) : reached t n = true ↔ (t - n).toNat = 0 ∨ 2147483648 ≤ (t - n).toNat := by
  unfold reached distance
  exact decide_eq_true_iff

theorem not_reached_iff (t n : Time) : reached t n = false ↔ 1 ≤ (t - n).toNat ∧ (t - n).toNat < 2147483648 := by
  rw [← Bool.not_eq_true, reached_iff]
  omega

theorem earlier_iff (a b : Time) : earlier a b = true ↔ 1 ≤ (b - a).toNat ∧ (b - a).toNat < 2147483648 := by
  unfold earlier distance
  exact decide_eq_true_iff

theorem not_earlier_self (a : Time) : earlier a a = false := by
  rw [← Bool.not_eq_true, earlier_iff]
  simp

/-- The two distances between two times add up to 2^32 unless the times are equal. -/
theorem sub_toNat_flip (a b : Time) : (b - a).toNat = if (a - b).toNat = 0 then 0 else 4294967296 - (a - b).toNat := by
  split <;> bv_omega

/-- A placed due is the due itself or the stale floor (R52, R53). -/
theorem armCheck_placed (due r d : Time) (p : PastPolicy) (h : armCheck due r p = .placed d) :
    d = due ∨ d = r - BitVec.ofNat 32 Config.staleBound := by
  unfold armCheck at h
  split at h
  · cases h
    exact Or.inl rfl
  · split at h
    · cases h
    · cases p
      · cases h
      · simp only at h
        split at h <;> cases h
        · exact Or.inr rfl
        · exact Or.inl rfl

end Sys2Proof.Laws
end

