-- ==== Sys2Proof/Laws/Drop.lean ====
section
/-! SUPPORT. The one-calculation DROP advance of the firing unit is the stepping of R85. -/

namespace Sys2Proof.Laws

open Sys2Proof.Machine

theorem turns_zero (d : Definition) (p : Phase) : d.turns p 0 = p := by
  simp [Definition.turns]

theorem span_zero (d : Definition) (p : Phase) : d.span p 0 = 0 := by
  simp [Definition.span]

theorem turn_turn (d : Definition) (p : Phase) (h : d.intervalB ≠ 0#24) : d.turn (d.turn p) = p := by
  cases p <;> simp [Definition.turn, h]

theorem turns_succ (d : Definition) (p : Phase) (k : Nat) : d.turns p (k + 1) = d.turn (d.turns p k) := by
  by_cases hb : d.intervalB = 0#24
  · simp [Definition.turns, Definition.turn, hb]
  · rcases Nat.mod_two_eq_zero_or_one k with h | h
    · have h1 : (k + 1) % 2 = 1 := by omega
      simp [Definition.turns, hb, h, h1]
    · have h1 : (k + 1) % 2 = 0 := by omega
      simp [Definition.turns, hb, h, h1, turn_turn d p hb]

/-- The interval a step adds, where interval B is 0 only in phase A. -/
theorem span_succ (d : Definition) (p : Phase) (hp : d.intervalB = 0 → p = .a) (k : Nat) :
    d.span p (k + 1) = d.span p k + d.interval (d.turns p k) := by
  by_cases hb : d.intervalB = 0#24
  · have ht : d.turns p k = .a := by
      simp [Definition.turns, hb, hp hb]
    simp [Definition.span, hb, ht, Definition.interval, Nat.succ_mul]
  · rcases Nat.mod_two_eq_zero_or_one k with h | h
    · have h1 : (k + 1) % 2 = 1 := by omega
      have h2 : (k + 1) / 2 = k / 2 := by omega
      simp [Definition.span, Definition.turns, hb, h, h1, h2]
    · have h1 : (k + 1) % 2 = 0 := by omega
      have h2 : (k + 1) / 2 = k / 2 + 1 := by omega
      simp [Definition.span, Definition.turns, hb, h, h1, h2, Nat.succ_mul]
      omega

theorem interval_lt (d : Definition) (p : Phase) : d.interval p < 16777216 := by
  cases p
  · exact d.intervalA.isLt
  · exact d.intervalB.isLt

theorem interval_pos (d : Definition) (ha : d.intervalA ≠ 0) (p : Phase) (hp : d.intervalB = 0 → p = .a) :
    0 < d.interval p := by
  have pos : ∀ x : BitVec 24, x ≠ 0 → 0 < x.toNat := by
    intro x hx
    rcases Nat.eq_zero_or_pos x.toNat with h | h
    · exact absurd (BitVec.eq_of_toNat_eq h) hx
    · exact h
  cases p
  · exact pos _ ha
  · exact pos _ (fun h => nomatch hp h)

theorem turns_phase (d : Definition) (p : Phase) (hp : d.intervalB = 0 → p = .a) (k : Nat) :
    d.intervalB = 0 → d.turns p k = .a := by
  intro hb
  have hb' : d.intervalB = 0#24 := hb
  simp [Definition.turns, hb', hp hb]

theorem span_mono (d : Definition) (p : Phase) (hp : d.intervalB = 0 → p = .a) {i j : Nat} (h : i ≤ j) :
    d.span p i ≤ d.span p j := by
  induction h with
  | refl => exact Nat.le_refl _
  | step _ ih => rw [span_succ d p hp]; exact Nat.le_add_right_of_le ih

/-- `missed` is the least number of intervals whose sum exceeds the lateness. -/
theorem missed_spec (d : Definition) (ha : d.intervalA ≠ 0) (p : Phase) (_ : d.intervalB = 0 → p = .a) (late : Nat) :
    ∃ k, d.missed p late = k + 1 ∧ d.span p k ≤ late ∧ late < d.span p (k + 1) := by
  by_cases hb : d.intervalB = 0#24
  · have pos : 0 < d.intervalA.toNat := interval_pos d ha .a (fun _ => rfl)
    refine ⟨late / d.intervalA.toNat, by simp [Definition.missed, hb], ?_, ?_⟩
    · simpa [Definition.span, hb] using Nat.div_mul_le_self _ _
    · simpa [Definition.span, hb, Nat.mul_comm] using Nat.lt_mul_div_succ late pos
  · have pos : 0 < d.interval p := interval_pos d ha p (fun h => absurd h hb)
    have pos' : 0 < d.interval (d.turn p) := interval_pos d ha (d.turn p) (fun h => absurd h hb)
    generalize hx : d.interval p = x at pos
    generalize hy : d.interval (d.turn p) = y at pos'
    have hd : (x + y) * (late / (x + y)) + late % (x + y) = late := Nat.div_add_mod _ _
    have hm : late % (x + y) < x + y := Nat.mod_lt _ (by omega)
    by_cases hl : late % (x + y) < x
    · refine ⟨2 * (late / (x + y)), by simp [Definition.missed, hb, hx, hy, hl], ?_, ?_⟩
      · simp [Definition.span, hb, hx, hy, Nat.mul_comm _ (x + y)]
        omega
      · have h1 : (2 * (late / (x + y)) + 1) / 2 = late / (x + y) := by omega
        have h2 : (2 * (late / (x + y)) + 1) % 2 = 1 := by omega
        simp [Definition.span, hb, hx, hy, h1, h2, Nat.mul_comm _ (x + y)]
        omega
    · refine ⟨2 * (late / (x + y)) + 1, by simp [Definition.missed, hb, hx, hy, hl], ?_, ?_⟩
      · have h1 : (2 * (late / (x + y)) + 1) / 2 = late / (x + y) := by omega
        have h2 : (2 * (late / (x + y)) + 1) % 2 = 1 := by omega
        simp [Definition.span, hb, hx, hy, h1, h2, Nat.mul_comm _ (x + y)]
        omega
      · have h1 : (2 * (late / (x + y)) + 1 + 1) / 2 = late / (x + y) + 1 := by omega
        have h2 : (2 * (late / (x + y)) + 1 + 1) % 2 = 0 := by omega
        rw [Definition.span, if_neg (show ¬ d.intervalB = 0 from hb), hx, hy, h1, if_pos h2, Nat.succ_mul, Nat.mul_comm _ (x + y)]
        omega

/-- A candidate advanced by a sum of intervals is reached exactly while the sum is within the lateness. -/
theorem reached_add (c time : Time) (x : Nat) (h : reached c time = true) (hx : x < lateBy c time + 16777217) :
    reached (c + BitVec.ofNat 32 x) time = true ↔ x ≤ lateBy c time := by
  have hc := (reached_iff c time).mp h
  have flip := sub_toNat_flip c time
  have small : (c - time).toNat < 4294967296 := (c - time).isLt
  have late : lateBy c time = (time - c).toNat := rfl
  have le : lateBy c time ≤ 2147483648 := by
    rw [late, flip]
    split <;> omega
  have moved : (c + BitVec.ofNat 32 x - time).toNat = (4294967296 - lateBy c time + x) % 4294967296 := by
    have e : c + BitVec.ofNat 32 x - time = BitVec.ofNat 32 x - (time - c) := by
      apply BitVec.eq_of_toNat_eq
      bv_omega
    rw [e, BitVec.toNat_sub, BitVec.toNat_ofNat, late]
    omega
  rw [reached_iff, moved]
  omega

/-- The point of a DROP advance after `k` steps. -/
def dropPoint (d : Definition) (c : Time) (p : Phase) (m : Nat) (r : Option Nat) (k : Nat) : DropPoint where
  candidate := c + BitVec.ofNat 32 (d.span p k)
  phase := d.turns p k
  misses := if k = 0 then m else min 65535 (m + k)
  remaining := r.map (· - k)

theorem dropPoint_next (d : Definition) (c : Time) (p : Phase) (hp : d.intervalB = 0 → p = .a) (m : Nat) (r : Option Nat)
    (k : Nat) : (dropPoint d c p m r k).next d = dropPoint d c p m r (k + 1) := by
  simp only [dropPoint, DropPoint.next, DropPoint.mk.injEq]
  refine ⟨?_, (turns_succ d p k).symm, ?_, ?_⟩
  · rw [span_succ d p hp, BitVec.add_assoc, BitVec.ofNat_add]
  · by_cases hk : k = 0
    · simp [hk]
    · simp [hk]
      omega
  · cases r <;> simp [Nat.sub_sub]

/-- From any step on, the stepping reaches the point at which it stops. -/
theorem dropRun_from (d : Definition) (time c : Time) (p : Phase) (hp : d.intervalB = 0 → p = .a) (m : Nat) (r : Option Nat)
    (n : Nat) (going : ∀ j < n, reached (dropPoint d c p m r j).candidate time = true
      ∧ (dropPoint d c p m r j).remaining ≠ some 0)
    (stops : reached (dropPoint d c p m r n).candidate time = false ∨ (dropPoint d c p m r n).remaining = some 0) :
    ∀ j ≤ n, DropRun d time (dropPoint d c p m r (n - j)) (dropPoint d c p m r n) := by
  intro j
  induction j with
  | zero => intro _; exact DropRun.stop _ stops
  | succ j ih =>
    intro hj
    have e : n - j = n - (j + 1) + 1 := by omega
    have g := going (n - (j + 1)) (by omega)
    refine DropRun.step _ _ g.1 g.2 ?_
    rw [dropPoint_next d c p hp, ← e]
    exact ih (by omega)

/-- The advance of R85, computed as one calculation, is the advance step by step. -/
theorem dropRun_dropSteps (d : Definition) (time c : Time) (p : Phase) (m : Nat) (r : Option Nat)
    (ha : d.intervalA ≠ 0) (hp : d.intervalB = 0 → p = .a) (h : reached c time = true) (hr : r ≠ some 0) :
    DropRun d time ⟨c, p, m, r⟩
      ⟨c + BitVec.ofNat 32 (d.span p (d.dropSteps p (lateBy c time) r)), d.turns p (d.dropSteps p (lateBy c time) r),
        min 65535 (m + d.dropSteps p (lateBy c time) r), r.map (· - d.dropSteps p (lateBy c time) r)⟩ := by
  obtain ⟨k, hk, low, high⟩ := missed_spec d ha p hp (lateBy c time)
  generalize hn : d.dropSteps p (lateBy c time) r = n
  have npos : n ≠ 0 := by
    subst hn
    cases r with
    | none => simp [Definition.dropSteps, hk]
    | some x =>
      have : x ≠ 0 := fun e => hr (by rw [e])
      simp only [Definition.dropSteps, hk]
      omega
  have nle : n ≤ k + 1 := by
    subst hn
    cases r <;> simp only [Definition.dropSteps, hk] <;> omega
  have top : d.span p (k + 1) < lateBy c time + 16777217 := by
    have := interval_lt d (d.turns p k)
    rw [span_succ d p hp]
    omega
  have start : dropPoint d c p m r 0 = ⟨c, p, m, r⟩ := by
    simp [dropPoint, span_zero, turns_zero]
  have finish : dropPoint d c p m r n = ⟨c + BitVec.ofNat 32 (d.span p n), d.turns p n, min 65535 (m + n), r.map (· - n)⟩ := by
    simp [dropPoint, npos]
  have run := dropRun_from d time c p hp m r n ?_ ?_ n (Nat.le_refl n)
  · rw [Nat.sub_self, start, finish] at run
    exact run
  · intro j hj
    constructor
    · have hs : d.span p j ≤ lateBy c time := Nat.le_trans (span_mono d p hp (by omega)) low
      exact (reached_add c time _ h (by omega)).mpr hs
    · cases r with
      | none => simp [dropPoint]
      | some x =>
        simp only [Definition.dropSteps] at hn
        simp only [dropPoint, Option.map_some, ne_eq, Option.some.injEq]
        omega
  · by_cases hx : n = k + 1
    · left
      rw [← Bool.not_eq_true]
      intro hh
      have := (reached_add c time _ h (by rw [hx]; exact top)).mp hh
      rw [hx] at this
      omega
    · right
      cases r with
      | none => simp only [Definition.dropSteps, hk] at hn; omega
      | some x =>
        simp only [Definition.dropSteps, hk] at hn
        simp only [dropPoint, Option.map_some, Option.some.injEq]
        omega

end Sys2Proof.Laws
end

