-- ==== Sys2Proof/Laws/Due.lean ====
section
/-! SUPPORT. What the due queue's shared operations do: placing an entry, taking an arm, granting. -/

namespace Sys2Proof.Laws

open Sys2Proof.Machine

/-- R44. -/
theorem insertEntry_placed (e : DueEntry) (es : List DueEntry) : PlacedIn e es (insertEntry e es) := by
  induction es with
  | nil => exact ⟨[], [], rfl, rfl, by simp, by simp⟩
  | cons x xs ih =>
    cases h : earlier e.due x.due with
    | true =>
      refine ⟨[], x :: xs, rfl, by simp [insertEntry, h], by simp, fun y hy => ?_⟩
      cases hy
      exact h
    | false =>
      obtain ⟨front, back, h1, h2, h3, h4⟩ := ih
      refine ⟨x :: front, back, by rw [h1]; rfl, by simp [insertEntry, h, h2], fun y hy => ?_, h4⟩
      rcases List.mem_cons.mp hy with rfl | hy
      · exact h
      · exact h3 y hy

theorem mem_insertEntry (e x : DueEntry) (es : List DueEntry) : x ∈ insertEntry e es ↔ x = e ∨ x ∈ es := by
  obtain ⟨front, back, h1, h2, -, -⟩ := insertEntry_placed e es
  rw [h2, h1]
  simp only [List.mem_append, List.mem_cons]
  tauto

/-- The slots of the entries after a placement are those before and the new one, in some order. -/
theorem insertEntry_perm (e : DueEntry) (es : List DueEntry) : (insertEntry e es).Perm (e :: es) := by
  obtain ⟨front, back, h1, h2, -, -⟩ := insertEntry_placed e es
  rw [h2, h1]
  exact List.perm_middle

/-- The entry of a slot taken out (R55). -/
theorem takeOut_eq (s : State) (i : SlotId) : s.takeOut i = { s with
    dueQueue := { s.dueQueue with entries := s.dueQueue.entries.filter fun e => e.slot ≠ i }
    slots := s.slots.set i { s.slot i with state := .held, due := none } } := by
  have he : removeEntry i s.dueQueue.entries = s.dueQueue.entries.filter fun e => e.slot ≠ i := by
    simp only [removeEntry, bne, ne_eq, decide_not, Bool.beq_eq_decide_eq]
  simp only [State.takeOut, he]
  rfl

/-- A slot after CLEAR (R41). -/
theorem slot_sweep (s : State) (i : SlotId) : s.sweep.slot i =
    if (s.slot i).state = .armed ∨ (s.slot i).state = .waiting then { s.slot i with state := .held, due := none }
    else s.slot i := by
  show (s.slots.map Slot.swept)[i] = _
  rw [Fin.getElem_fin, Vector.getElem_map]
  rfl

theorem waitRequestAtClear_presented (s : State) : s.waitRequestAtClear .presented = s.waitRequest := rfl

theorem waitRequestAtClear_notYet (s : State) : s.waitRequestAtClear .notYet = none := rfl

/-- R28, R29, R30. -/
theorem insertArm_taken (s : State) (i : SlotId) (due r : Time) :
    ArmTaken s i due r (s.insertArm i due r).1 (s.insertArm i due r).2 := by
  refine ⟨fun h => ?_, fun h => ?_⟩
  · unfold State.insertArm
    rcases h with h | h <;> rw [h] <;> simp only <;>
      cases armCheck due r (s.slot i).definition.pastPolicy <;>
      first
        | exact ⟨rfl, rfl⟩
        | exact ⟨rfl, _, insertEntry_placed _ _, rfl⟩
  · unfold State.insertArm
    split
    · exact absurd (Or.inl (by assumption)) h
    · exact absurd (Or.inr (by assumption)) h
    all_goals exact ⟨rfl, rfl⟩

/-- A grant is one of the four things that are ready, with `f` the firing unit's request and `w` the wait list's (R47). -/
theorem grantAmong_cases (s : State) (f : Option (Occurrence × Request)) (w : Option PendingArm) (g : Grant)
    (h : s.grantAmong f w = some g) :
    s.dueQueue.inFlight = none
      ∧ ((∃ o r, g = .firing o r ∧ f = some (o, r))
        ∨ (∃ e, g = .release e ∧ s.releaseReady = some e ∧ f = none)
        ∨ (∃ a, g = .waitArm a ∧ w = some a ∧ f = none)
        ∨ ∃ c r, g = .command c r ∧ s.commandRequest = some (c, r) ∧ w = none ∧ f = none) := by
  have others : s.waitOrCommand w = some g → f = none →
      ((∃ a, g = .waitArm a ∧ w = some a ∧ f = none)
        ∨ ∃ c r, g = .command c r ∧ s.commandRequest = some (c, r) ∧ w = none ∧ f = none) := by
    intro hg hf
    unfold State.waitOrCommand at hg
    cases w with
    | some a =>
      cases hg
      exact Or.inl ⟨a, rfl, rfl, hf⟩
    | none =>
      cases hc : s.commandRequest with
      | none => rw [hc] at hg; cases hg
      | some cr =>
        rw [hc] at hg
        cases hg
        exact Or.inr ⟨cr.1, cr.2, rfl, rfl, rfl, hf⟩
  unfold State.grantAmong at h
  split at h
  · cases h
  · rename_i hn
    refine ⟨by simpa using hn, ?_⟩
    cases hf : f with
    | some x =>
      subst hf
      cases h
      exact Or.inl ⟨_, _, rfl, rfl⟩
    | none =>
      subst hf
      simp only at h
      cases hr : s.releaseReady with
      | none =>
        rw [hr] at h
        exact Or.inr (Or.inr (others h rfl |>.imp (fun ⟨a, h⟩ => ⟨a, h.1, h.2.1, rfl⟩)
          (fun ⟨c, r, h⟩ => ⟨c, r, h.1, h.2.1, h.2.2.1, rfl⟩)))
      | some e =>
        rw [hr] at h
        simp only at h
        split at h
        · exact Or.inr (Or.inr (others h rfl |>.imp (fun ⟨a, h⟩ => ⟨a, h.1, h.2.1, rfl⟩)
            (fun ⟨c, r, h⟩ => ⟨c, r, h.1, h.2.1, h.2.2.1, rfl⟩)))
        · cases h
          exact Or.inr (Or.inl ⟨e, rfl, rfl, rfl⟩)

theorem grant_cases (s : State) (g : Grant) (h : s.grant = some g) :
    s.dueQueue.inFlight = none
      ∧ ((∃ o r, g = .firing o r ∧ s.firingRequest = some (o, r))
        ∨ (∃ e, g = .release e ∧ s.releaseReady = some e ∧ s.firingRequest = none)
        ∨ (∃ a, g = .waitArm a ∧ s.waitRequest = some a ∧ s.firingRequest = none)
        ∨ ∃ c r, g = .command c r ∧ s.commandRequest = some (c, r) ∧ s.waitRequest = none ∧ s.firingRequest = none) :=
  grantAmong_cases s s.firingRequest s.waitRequest g h

/-- A request not yet presented is granted nothing, and no release is ready while the firing unit has a slot in hand (R48, R55). -/
theorem grantAt_notYet (s : State) (g : Grant) (h : s.grantAt .notYet = some g) :
    s.dueQueue.inFlight = none
      ∧ ((∃ e, g = .release e ∧ s.releaseReady = some e)
        ∨ (∃ a, g = .waitArm a ∧ s.waitRequest = some a)
        ∨ ∃ c r, g = .command c r ∧ s.commandRequest = some (c, r) ∧ s.waitRequest = none) := by
  obtain ⟨h1, h2⟩ := grantAmong_cases s none s.waitRequest g h
  refine ⟨h1, ?_⟩
  rcases h2 with ⟨_, _, _, e⟩ | ⟨e, h2, h3, -⟩ | ⟨a, h2, h3, -⟩ | ⟨c, r, h2, h3, h4, -⟩
  · cases e
  · exact .inl ⟨e, h2, h3⟩
  · exact .inr (.inl ⟨a, h2, h3⟩)
  · exact .inr (.inr ⟨c, r, h2, h3, h4⟩)

/-- A grant to the firing unit is the request of the occurrence in hand. -/
theorem grant_firing (s : State) (o : Occurrence) (r : Request) (h : s.grant = some (.firing o r)) :
    s.firing = some o ∧ o.request = some r := by
  rcases (grant_cases s _ h).2 with ⟨o', r', e, hr⟩ | ⟨_, e, _⟩ | ⟨_, e, _⟩ | ⟨_, _, e, _⟩
  · cases e
    unfold State.firingRequest at hr
    split at hr
    · cases hr
    · split at hr <;> cases hr <;> exact ⟨by assumption, by assumption⟩
  all_goals cases e

end Sys2Proof.Laws
end

