-- ==== Sys2Proof/Laws/Firing.lean ====
section
/-! SUPPORT. Everything the end of an occurrence can do, said once: `State.finish` is the relation `Ending`, and what comes
before it the relations `Applied` and `Performed`. -/

namespace Sys2Proof.Laws

open Sys2Proof.Machine

theorem turn_phase (d : Definition) (p : Phase) : d.intervalB = 0 → d.turn p = .a := by
  intro h
  simp only [Definition.turn, if_pos h]

/-- Counting is R81 with the news of R88. -/
theorem count_counted (s : State) (o : Occurrence) (k : Kind) : Counted o k s (s.count o k) := rfl

/-- The end of a counted occurrence is R82 to R86. -/
theorem endOccurrence_ended (s : State) (o : Occurrence) : Ended o s (s.endOccurrence o) := by
  refine ⟨fun hc => ?_, fun hc hend => ?_, fun hc hgo => ⟨fun hahead => ?_, fun hd hm => ?_⟩⟩
  · simp only [State.endOccurrence, hc, if_true]
    rfl
  · simp only [State.endOccurrence, hc, Bool.false_eq_true, if_false, if_pos hend]
    rfl
  · simp only [State.endOccurrence, hc, Bool.false_eq_true, if_false, if_neg hgo, State.recur]
    rw [if_neg]
    · simp [SlotNews, State.request, State.setSlot, State.setFiring, NoteQueue.sent, hc]
    · intro h
      rcases hahead with h1 | ⟨h1, h2⟩
      · simp only [Bool.and_eq_true] at h
        exact absurd (h.1.symm.trans h1) (by simp)
      · simp only [Bool.and_eq_true, Bool.or_eq_true, decide_eq_true_eq, beq_iff_eq] at h
        rcases h.2 with h3 | h3
        · omega
        · rw [h2] at h3
          cases h3
  · have hdrop := dropRun_dropSteps (s.slot o.slot).definition o.time
      (o.due + BitVec.ofNat 32 ((s.slot o.slot).definition.interval (s.slot o.slot).phase))
      ((s.slot o.slot).definition.turn (s.slot o.slot).phase) (s.slot o.slot).misses
      (s.slot o.slot).remaining (fun h => hgo (Or.inr h)) (turn_phase _ _) hd (fun h => hgo (Or.inl h))
    have hpos : (reached (o.due + BitVec.ofNat 32 ((s.slot o.slot).definition.interval (s.slot o.slot).phase)) o.time
        && (decide (Config.staleBound ≤ o.lateness) || (s.slot o.slot).definition.missPolicy == .drop)) = true := by
      simp only [Bool.and_eq_true, Bool.or_eq_true, decide_eq_true_eq, beq_iff_eq]
      exact ⟨hd, hm⟩
    refine ⟨_, hdrop, fun hw => ?_, fun hw => ?_⟩
    all_goals
      simp only [State.endOccurrence, hc, Bool.false_eq_true, if_false, if_neg hgo, State.recur]
      rw [if_pos hpos]
      simp only [State.dropAdvance]
    · split
      case isFalse h => exact absurd hw h
      simp [SlotNews, State.endDone, State.endInState, State.send, State.setSlot, State.setFiring, State.setNotes,
        State.slot, Slot.dropped, NoteQueue.sent, Config.counterMax]
    · split
      case isTrue h => exact absurd h hw
      simp [SlotNews, State.request, State.send, State.setSlot, State.setFiring, State.setNotes, State.slot, Slot.dropped,
        NoteQueue.sent, Config.counterMax, hc]

/-- The end of the effect to the end of the occurrence is R81 to R88. -/
theorem finish_ending (s : State) (o : Occurrence) (k : Kind) : Ending o k s (s.finish o k) :=
  ⟨s.count o k, count_counted s o k, endOccurrence_ended _ _⟩

/-- After an effect the occurrence goes on to its ending, or stays in hand (R73, R119; Log 32). -/
theorem afterEffect_taken (s : State) (a : AfterEffect) (o : Occurrence) (k : Kind) :
    EffectTaken a o k s (s.afterEffect a o k) := by
  cases a with
  | goesOn => exact finish_ending s o k
  | staysInHand => rfl

/-- An effect whose checks have passed is R69 to R79. -/
theorem applyEffect_applied (s : State) (a : AfterEffect) (o : Occurrence) :
    Applied a o s (s.applyEffect a o (s.slot o.slot).definition.action) := by
  unfold Applied
  generalize (s.slot o.slot).definition.action = action
  cases action with
  | drive n v => rfl
  | toggle n => rfl
  | pulse n w => rfl
  | flag f op => rfl
  | arm target offset =>
    refine ⟨fun h => ?_, fun h => ?_⟩
    · simp only [State.applyEffect, if_pos h]
      exact afterEffect_taken _ a o o.appliedKind
    · simp only [State.applyEffect, if_neg h]
      rfl
  | cancel target =>
    refine ⟨fun h => ?_, fun h hs => ?_, fun h hs => ?_, fun h h1 h2 => ?_⟩
    · simp only [State.applyEffect, if_pos h]
      exact afterEffect_taken s a { o with selfCancel := true } o.appliedKind
    · simp only [State.applyEffect, if_neg h, hs]
      rfl
    · simp only [State.applyEffect, if_neg h, hs]
      rfl
    · simp only [State.applyEffect, if_neg h]
      split
      · exact absurd (by assumption) h1
      · exact absurd (by assumption) h2
      all_goals exact afterEffect_taken s a o o.appliedKind
  | wait w => exact ⟨_, count_counted s o o.appliedKind, rfl⟩
  | mark => exact afterEffect_taken s a o o.appliedKind

theorem isLate_iff (d : Definition) (late : Nat) :
    d.isLate late = true ↔ d.lateLimit ≠ 65535 ∧ d.lateLimit.toNat < late := by
  simp only [Definition.isLate, Config.noLateLimit, Bool.and_eq_true, bne_iff_ne, decide_eq_true_eq]

theorem guardPasses_iff (s : State) (g : Option Guard) :
    s.guardPasses g = true ↔ ∀ x, g = some x → s.flag x.flag = x.level := by
  cases g <;> simp [State.guardPasses]

/-- From the release to the effect: R63 to R68. -/
theorem decideOccurrence_performed (s : State) (a : AfterEffect) (o : Occurrence) :
    Performed a o s (s.decideOccurrence a o) := by
  refine ⟨fun h => ?_, fun h hl => ?_, fun h hl => ?_⟩
  · simp only [State.decideOccurrence, if_pos h]
    exact afterEffect_taken s a o .skippedLate
  · have e : ((s.slot o.slot).definition.isLate o.lateness && (s.slot o.slot).definition.latePolicy == .skip) = true := by
      simp only [Bool.and_eq_true, beq_iff_eq]
      exact ⟨(isLate_iff _ _).mpr hl.1, hl.2⟩
    simp only [State.decideOccurrence, if_neg (Nat.not_le.mpr h), if_pos e]
    exact afterEffect_taken s a o .skippedLate
  · have e : ¬ ((s.slot o.slot).definition.isLate o.lateness && (s.slot o.slot).definition.latePolicy == .skip) = true := by
      simp only [Bool.and_eq_true, beq_iff_eq]
      exact fun x => hl ⟨(isLate_iff _ _).mp x.1, x.2⟩
    refine ⟨(s.slot o.slot).definition.isLate o.lateness, isLate_iff _ _, fun hg => ?_, fun hg => ?_⟩
    · have n : ¬ s.guardPasses (s.slot o.slot).definition.guard = true := fun x => hg ((guardPasses_iff _ _).mp x)
      simp only [State.decideOccurrence, if_neg (Nat.not_le.mpr h), if_neg e, if_neg n]
      exact afterEffect_taken s a _ .skippedGuard
    · have y : s.guardPasses (s.slot o.slot).definition.guard = true := (guardPasses_iff _ _).mpr hg
      simp only [State.decideOccurrence, if_neg (Nat.not_le.mpr h), if_neg e, if_pos y]
      exact applyEffect_applied s a { o with late := (s.slot o.slot).definition.isLate o.lateness }

/-! ## The claim of an executing CANCEL -/

theorem mapWork_eq (s : State) (f : Work → Work) : s.mapWork f = { s with commandUnit := (s.mapWork f).commandUnit } := rfl

/-- A change of one claim moves that claim and leaves every other. -/
theorem mapWork_claimMoved (s : State) (f : Work → Work) (a b : Work) (ha : f a = b) (hf : ∀ w, w ≠ a → f w = w) :
    s.commandUnit.ClaimMoved (s.mapWork f).commandUnit a b := by
  refine ⟨fun c h => ?_, fun h => ?_⟩
  · simp only [State.mapWork, State.setCommands, h, Option.map_some, ha]
  · have he : s.commandUnit.executing.map (fun x => { x with work := f x.work }) = s.commandUnit.executing := by
      cases hx : s.commandUnit.executing with
      | none => rfl
      | some x =>
        rw [Option.map_some, hf x.work fun e => h x.command (by rw [hx, ← e])]
    simp only [State.mapWork, State.setCommands, he]

theorem heldBy_claimMoved (s : State) (i : SlotId) :
    s.commandUnit.ClaimMoved (s.mapWork (·.heldBy i)).commandUnit (.remove i) (.cancel i) :=
  mapWork_claimMoved s _ _ _ (if_pos rfl) fun _ h => if_neg h

theorem presentedFor_claimMoved (s : State) (i : SlotId) (st : SlotState) (b : Work)
    (hb : Work.presentedFor (.cancel i) i st = b) :
    s.commandUnit.ClaimMoved (s.mapWork (·.presentedFor i st)).commandUnit (.cancel i) b :=
  mapWork_claimMoved s _ _ _ hb fun _ h => if_neg h

end Sys2Proof.Laws
end

