-- ==== Sys2Proof/Laws/PerInstr.lean ====
section
/-! SUPPORT. What an ill-formed command is, constructor by constructor. -/

namespace Sys2Proof.Laws.IllFormed

/-- An ill-formed command is a COMMAND_WRITE with the code of CLEAR_STAGE (R166, R167) or a BAD_ADDRESS of an access that R184
does not call bad. -/
def Statement (i : Instr) : Prop :=
  i.wellFormed = false →
    (∃ w : Word, i = .commandWrite w ∧ w.extractLsb' 8 8 = Config.clearStageCode)
      ∨ ∃ a : BusAccess, i = .badAddress a ∧ a.isBad = false

theorem hardReset : Statement .hardReset := nofun

theorem powerOn : Statement .powerOn := nofun

theorem tick (pins : BitVec 16) (order : TickOrder) (clk : Nat) (safe : SafeOrder) :
    Statement (.tick pins order clk safe) := nofun

theorem tickEdge (steady : Nat) (pins : BitVec 16) (order : TickOrder) (low : Nat) (safe : SafeOrder) :
    Statement (.tickEdge steady pins order low safe) := nofun

theorem inputAccept : Statement .inputAccept := nofun

theorem safeAsserted (samples : Nat) (order : TickOrder) (safe : SafeOrder) :
    Statement (.safeAsserted samples order safe) := nofun

theorem safeReleased (samples : Nat) (order : TickOrder) (safe : SafeOrder) :
    Statement (.safeReleased samples order safe) := nofun

theorem handoff (after : AfterEffect) : Statement (.handoff after) := nofun

theorem driveEffect (after : AfterEffect) : Statement (.driveEffect after) := nofun

theorem toggleEffect (after : AfterEffect) : Statement (.toggleEffect after) := nofun

theorem pulseEffect (after : AfterEffect) : Statement (.pulseEffect after) := nofun

theorem pulseEnd (line : Fin 16) : Statement (.pulseEnd line) := nofun

theorem flagEffect (after : AfterEffect) : Statement (.flagEffect after) := nofun

theorem insert (after : AfterEffect) (asked : RequestPresence) : Statement (.insert after asked) := nofun

theorem reinsertion : Statement .reinsertion := nofun

theorem remove (after : AfterEffect) (asked : RequestPresence) : Statement (.remove after asked) := nofun

theorem move (asked : RequestPresence) : Statement (.move asked) := nofun

theorem clear (arms : RequestPresence) : Statement (.clear arms) := nofun

theorem waitPlacement : Statement .waitPlacement := nofun

theorem matched : Statement .matched := nofun

theorem timeout : Statement .timeout := nofun

theorem withdrawal (requester : Withdrawer) (after : AfterEffect) : Statement (.withdrawal requester after) := nofun

theorem news (path : NewsPath) : Statement (.news path) := nofun

theorem holdoff : Statement .holdoff := nofun

theorem stageWrite (data : Word) : Statement (.stageWrite data) := nofun

theorem resultRead : Statement .resultRead := nofun

theorem noteRead : Statement .noteRead := nofun

theorem timeLoRead : Statement .timeLoRead := nofun

theorem flagValueWrite (data : Word) : Statement (.flagValueWrite data) := nofun

theorem flagSelectWrite (data : Word) : Statement (.flagSelectWrite data) := nofun

theorem intEnableWrite (data : Word) : Statement (.intEnableWrite data) := nofun

theorem errorWrite (data : Word) : Statement (.errorWrite data) := nofun

theorem badAddress (access : BusAccess) : Statement (.badAddress access) :=
  fun h => .inr ⟨access, rfl, h⟩

theorem clearStage (operand : Byte) : Statement (.clearStage operand) := nofun

theorem nop (reach : CommandReach) : Statement (.nop reach) := nofun

theorem badCode (reach : CommandReach) : Statement (.badCode reach) := nofun

theorem define (reach : CommandReach) : Statement (.define reach) := nofun

theorem defineArm (reach : CommandReach) : Statement (.defineArm reach) := nofun

theorem arm (reach : CommandReach) : Statement (.arm reach) := nofun

theorem cancel (reach : CommandReach) : Statement (.cancel reach) := nofun

theorem retime (reach : CommandReach) : Statement (.retime reach) := nofun

theorem release (reach : CommandReach) : Statement (.release reach) := nofun

theorem query (reach : CommandReach) : Statement (.query reach) := nofun

theorem setTime (reach : CommandReach) : Statement (.setTime reach) := nofun

theorem runTime (reach : CommandReach) : Statement (.runTime reach) := nofun

theorem holdTime (reach : CommandReach) : Statement (.holdTime reach) := nofun

theorem setTick (reach : CommandReach) : Statement (.setTick reach) := nofun

theorem setLine (reach : CommandReach) : Statement (.setLine reach) := nofun

theorem configLine (reach : CommandReach) : Statement (.configLine reach) := nofun

theorem configInput (reach : CommandReach) : Statement (.configInput reach) := nofun

theorem configNotify (reach : CommandReach) : Statement (.configNotify reach) := nofun

theorem configSafe (reach : CommandReach) : Statement (.configSafe reach) := nofun

theorem forceSafe (reach : CommandReach) : Statement (.forceSafe reach) := nofun

theorem resume (reach : CommandReach) : Statement (.resume reach) := nofun

theorem resetSchedule (reach : CommandReach) : Statement (.resetSchedule reach) := nofun

theorem resetDevice (reach : CommandReach) : Statement (.resetDevice reach) := nofun

theorem commandWrite (data : Word) : Statement (.commandWrite data) := by
  intro h
  exact .inl ⟨data, rfl, by simpa [Instr.wellFormed] using h⟩

theorem resetReleased : Statement .resetReleased := nofun

end Sys2Proof.Laws.IllFormed
end

