-- ==== Sys2Proof/Laws/Window.lean ====
section
/-! SUPPORT. The bits of a word made of levels, the error bits, the words of a result record, and what a bus cycle does. -/

namespace Sys2Proof.Laws

open Sys2Proof.Machine

/-- Bit k of a word made of levels is the k-th level, and 0 above them. -/
theorem wordOfLevels_getLsbD (bs : List Bool) (k : Nat) (hk : k < 16) : (wordOfLevels bs).getLsbD k = bs.getD k false := by
  induction bs generalizing k with
  | nil => simp [wordOfLevels]
  | cons b bs ih =>
    cases k with
    | zero => cases b <;> simp [wordOfLevels]
    | succ k =>
      have h := ih k (by omega)
      rw [BitVec.getLsbD_eq_getElem (by omega)] at h
      cases b <;> simp [wordOfLevels, hk, h]

/-- An error bit set, whole (R180). -/
theorem raise_eq (s : State) (b : ErrorBit) :
    s.raise b = { s with window := { s.window with error := s.window.error ||| (1#6 <<< b.position) } } := rfl

/-- A record has two words and its data (R172). -/
theorem words_length (r : ResultRecord) : r.words.length = 2 + r.data.length := by
  simp [ResultRecord.words]
  omega

/-- The word a cursor selects. -/
theorem words_getD (r : ResultRecord) (k : Nat) :
    r.words.getD k 0 = match k with
      | 0 => r.code ++ r.operand
      | 1 => BitVec.ofNat 16 (r.status.code + 256 * r.data.length)
      | k + 2 => r.data.getD k 0 := by
  match k with
  | 0 => rfl
  | 1 => rfl
  | k + 2 => rfl

/-! ## Bus cycles (R184) -/

theorem busCycle_untaken (s : State) (c : BusCycle) (h : c.access = none) : s.busCycle c = .next s := by
  simp only [State.busCycle, h]

/-- A cycle that is a row has the effect of that row. -/
theorem busCycle_row (s : State) (c : BusCycle) (a : BusAccess) (i : Instr) (h : c.access = some a) (hi : a.row = some i) :
    s.busCycle c = exec i s := by
  simp only [State.busCycle, h, hi]

/-- A read without a row returns the register and changes nothing else. -/
theorem busCycle_read (s : State) (c : BusCycle) (addr : BitVec 4) (h : c.access = some (.read addr))
    (hn : (BusAccess.read addr).row = none) :
    s.busCycle c = .next { s with pins := { s.pins with readWord := readRegister addr s } } := by
  simp only [State.busCycle, h, hn]
  rfl

end Sys2Proof.Laws
end

