-- ==== Sys2Proof/Tests/Slice0.lean ====
section
/-! SUPPORT. Tests of this model, and for every statement with hypotheses a state and operands that meet them. -/

namespace Sys2Proof.Tests

open Sys2Proof.Machine

/-! ## Small states -/

/-- A state whose command FIFO holds one command and whose command unit is IDLE. -/
def queued (code operand : Byte) (args : List Word) : State :=
  { State.reset with commandUnit := ⟨[⟨code, operand, args⟩], none, []⟩ }

/-- A state whose command unit executes a command. -/
def executing (code operand : Byte) (args : List Word) (w : Work) : State :=
  { State.reset with commandUnit := ⟨[], some ⟨⟨code, operand, args⟩, w⟩, []⟩ }

/-- A state with one slot in a given state, defined as given. -/
def withSlot (s : State) (i : SlotId) (st : SlotState) (d : Definition) (due : Option Time) : State :=
  s.setSlot i ⟨st, some d, due, .a, d.allowance, 0, 0, 0⟩

/-- A MARK that fires once. -/
def mark : Definition := Definition.absent

/-- An occurrence of slot 3, due at 0 and taken at 0, with a request. -/
def inHand (r : Request) : Occurrence := ⟨3, 0, 0, 0, false, none, false, some r, false⟩

/-- A state whose firing unit has slot 3 in hand and has presented a request. -/
def firing (r : Request) : State :=
  (withSlot State.reset 3 .firing mark (some 0)).setFiring (some (inHand r))

/-- A state with a pulse of slot 5 on line 0 that ends at a time. -/
def pulsing (endTime : Time) : State :=
  State.reset.setLine 0 ⟨true, true, true, false, some ⟨endTime, 5⟩⟩

/-- A state with the safe state SAFE and the lines at their safe levels. -/
def inSafe (asserted : Bool) (s : State) : State :=
  { s with safeController := ⟨.safe, .continue_, asserted, 0⟩, lineUnit := ⟨s.lineUnit.lines, true⟩ }

/-- The thirteen words of a MARK, once, RELATIVE 5, notify EXCEPTIONS, no guard, tag 7. -/
def markWords : List Word := [0x0117, 0x07FF, 5, 0, 0, 0, 0, 0, 0xFFFF, 0, 0, 0, 0xFFFF]

/-- The wait entry of slot 4 on flag 32, LEVEL1, with a deadline. -/
def waitEntry (deadline : Option Time) : WaitEntry := ⟨4, 32, .level1, 0, deadline, none, none⟩

/-- A state with that entry. -/
def waiting (deadline : Option Time) : State :=
  (withSlot State.reset 4 .waiting mark none).setWaitEntries [waitEntry deadline]

/-- A state with the entry of slot 3 in the due queue, due at a time. -/
def armedAt (due : Time) (s : State) : State :=
  (withSlot s 3 .armed mark (some due)).setEntries [⟨3, due⟩]

/-- One record of slot 3. -/
def record : NoteRecord := ⟨.slot 3, 7, .done, 1, 0x20, 9, 4⟩

def recorded (s : State) : State := s.setNotes { s.noteQueue with records := [record] }

/-! ## Well-formedness and decoding -/

theorem test_commandWrite_clearStageCode_illFormed : (Instr.commandWrite 0xFF12).wellFormed = false := by decide

theorem test_badAddress_goodRead_illFormed : (Instr.badAddress (.read 0xE)).wellFormed = false := by decide

theorem test_badAddress_goodWrite_illFormed : (Instr.badAddress (.write 0xA 3)).wellFormed = false := by decide

theorem test_commandWrite_nop_wellFormed : (Instr.commandWrite 0x0000).wellFormed = true := by decide

theorem test_badAddress_readOnly_wellFormed : (Instr.badAddress (.write 0x5 0)).wellFormed = true := by decide

theorem test_noWordSpellsACommand : decodeTableWord 16 0x1234 = none := by decide

/-! ## Single steps -/

/-- The definition the words of `markWords` carry. -/
def parsedMark : Definition :=
  { action := .mark, due := .relative 5, guard := none, intervalA := 0, intervalB := 0, repeatCount := 0, lateLimit := 0xFFFF
    latePolicy := .fireLate, missPolicy := .catchUp, pastPolicy := .reject, notify := .exceptions, tag := 7 }

theorem test_parse_mark : parseDefinition 3 markWords = some parsedMark := by decide

theorem test_parse_repeatWithoutInterval :
    parseDefinition 3 [0x0117, 0x07FF, 5, 0, 0, 0, 0, 2, 0xFFFF, 0, 0, 0, 0xFFFF] = none := by decide

theorem test_parse_waitOnItself :
    parseDefinition 3 [0x0116, 0x07FF, 5, 0, 0, 0, 0, 0, 0xFFFF, 0, 0, 0, 0xFF03] = none := by decide

/-- The answer a state's oldest result record carries. -/
def firstStatus (r : Result) : Option Status :=
  match r with
  | .next t => t.commandUnit.results.head?.map ResultRecord.status
  | _ => none

theorem test_define_ok : firstStatus (exec .define (queued 0x10 3 markWords)) = some .ok := by decide

theorem test_define_badSlot : firstStatus (exec .define (queued 0x10 128 markWords)) = some .badSlot := by decide

theorem test_define_notePending :
    firstStatus (exec .define (recorded (queued 0x10 3 markWords))) = some .notePending := by decide

theorem test_release_armed : firstStatus (exec .release (armedAt 9 (queued 0x15 3 []))) = some .badState := by decide

theorem test_setTick_shortPrescaler : firstStatus (exec .setTick (queued 0x23 0 [0, 255])) = some .badArg := by decide

theorem test_setTime_notEmpty : firstStatus (exec .setTime (armedAt 9 (queued 0x20 0 [1, 0]))) = some .notEmpty := by decide

theorem test_resume_inRun : firstStatus (exec .resume (queued 0x41 0 [])) = some .badState := by decide

theorem test_insert_tooFar :
    firstStatus (exec .insert (withSlot (executing 0x12 3 [1, 0x4000] (.arm 3 (some 0x40000001))) 3 .held mark none))
      = some .tooFar := by decide

theorem test_insert_past :
    firstStatus (exec .insert (withSlot (executing 0x12 3 [0, 0x8000] (.arm 3 (some 0x80000000))) 3 .held mark none))
      = some .past := by decide

/-- The word a read row returns. -/
def wordRead (r : Result) : Option Word :=
  match r with
  | .next t => some t.pins.readWord
  | _ => none

theorem test_noteRead_word5 :
    wordRead (exec .noteRead ((recorded State.reset).setWindow { Window.reset with noteCursor := 4 })) = some 0x0105 := by decide

theorem test_noteRead_word1 : wordRead (exec .noteRead (recorded State.reset)) = some 0x0703 := by decide

theorem test_readFh : wordRead (exec (.badAddress (.read 0xF)) State.reset) = some 0 := by decide

/-- The kinds of the news a step leaves in flight, in order. -/
def newsKinds (r : Result) : List Kind :=
  match r with
  | .next t => t.noteQueue.inFlight.map NewsItem.kind
  | _ => []

theorem test_handoff_mark : newsKinds (exec .handoff (armedAt 0 State.reset)) = [.fired, .done] := by decide

theorem test_handoff_drop :
    newsKinds (exec .handoff ((withSlot (State.reset.setTimebase { Timebase.reset with time := 10 }) 3 .armed
      { mark with intervalA := 3, repeatCount := 3, missPolicy := .drop } (some 0)).setEntries [⟨3, 0⟩]))
      = [.fired, .missed, .done] := by decide

theorem test_drive_cuts : newsKinds (exec .driveEffect ((firing (.drive 0 false)).setLine 0 ((pulsing 9).line 0)))
    = [.pulseCut, .fired, .done] := by decide

theorem test_timeout : newsKinds (exec .timeout (waiting (some 0))) = [.timeout] := by decide

theorem test_forceSafe : newsKinds (exec .forceSafe { pulsing 9 with commandUnit := (queued 0x40 0 []).commandUnit })
    = [.pulseCut, .safeEntered] := by decide

/-- Slot 3 in hand after its effect, with nothing more asked. -/
def leftInHand : State :=
  (firing (.flag 63 .set)).setFiring (some { inHand (.flag 63 .set) with request := none, outcome := some .fired })

theorem test_flag_leftInHand : newsKinds (exec (.flagEffect .staysInHand) (firing (.flag 63 .set))) = [] := by decide

/-- Slot 3 in hand as it was released. -/
def released : State := (firing (.flag 63 .set)).setFiring (some { inHand (.flag 63 .set) with request := none })

theorem test_handoff_inStages :
    newsKinds (exec (.handoff .staysInHand) released) = [] ∧ newsKinds (exec (.handoff .staysInHand) leftInHand) = [.fired] := by
  decide

/-- A SET_LINE has cut the pulse before the outcome kind of the occurrence that started it is sent. -/
theorem test_handoff_afterCut :
    newsKinds (exec .handoff (leftInHand.send (.slot 3) .pulseCut 0)) = [.pulseCut, .fired, .done] := by decide

theorem test_setLine_cutsPulseLeftInHand :
    newsKinds (exec .setLine { leftInHand with lineUnit := (pulsing 9).lineUnit, commandUnit := (queued 0x30 0 [0x0100]).commandUnit })
      = [.pulseCut] := by decide

theorem test_handoff_goesOn : newsKinds (exec .handoff leftInHand) = [.fired, .done] := by decide

theorem test_remove_hostOnHeld :
    firstStatus (exec .remove (withSlot (executing 0x13 3 [] (.remove 3)) 3 .held mark none)) = some .badState := by decide

/-- Slot 3's CANCEL effect and a host CANCEL have both asked for slot 5. -/
def bothRemove : State :=
  { withSlot (firing (.remove 5)) 5 .armed mark (some 9) with
    commandUnit := (executing 0x13 5 [] (.remove 5)).commandUnit }

theorem test_remove_inFlightWhenAsked : firstStatus (exec (.remove .goesOn .notYet) bothRemove) = some .ok := by decide

theorem test_remove_targetGone : newsKinds (exec .remove (firing (.remove 5))) = [.fired, .done] := by decide

/-- What the command unit executes after a row, and the commands that wait behind it. -/
def executingAfter (r : Result) : Option (Option Work × Nat) :=
  match r with
  | .next t => some (t.commandUnit.executing.map Executing.work, t.commandUnit.fifo.length)
  | _ => none

theorem test_command_taken : executingAfter (exec (.configLine .unit) (queued 0x31 0 [0])) = some (some .taken, 0) := by decide

theorem test_command_completes : firstStatus (exec .configLine (executing 0x31 0 [0] .taken)) = some .ok := by decide

/-- The safe state, the qualified level and the candidate count after a row. -/
def safeAfter (r : Result) : Option (SafeState × Bool × Nat) :=
  match r with
  | .next t => some (t.safeController.state, t.safeController.asserted, t.safeController.candidate)
  | _ => none

theorem test_safe_glitch : safeAfter (exec (.safeAsserted 3) State.reset) = some (.run, false, 3) := by decide +kernel

theorem test_safe_accepted : safeAfter (exec .safeAsserted State.reset) = some (.safe, true, 0) := by decide +kernel

theorem test_tick_samplesSafe :
    safeAfter (exec (.tick 0 .advanceFirst 2) (State.reset.showSafe true)) = some (.run, false, 2) := by decide +kernel

theorem test_edge_samplesSafe :
    safeAfter (exec (.tickEdge 2 0 .advanceFirst 1) (State.reset.showSafe true)) = some (.safe, true, 0) := by decide +kernel

theorem test_news_paths :
    newsKinds (exec (.news .other) (State.reset.setNotes { NoteQueue.reset with
      inFlight := [⟨.input 2, .edge, 9⟩, ⟨.slot 3, .late, 10⟩] })) = [.edge] := by decide

/-- The device time and the prescaler count a row leaves. -/
def timeAndCount (r : Result) : Option (Time × Nat) :=
  match r with
  | .next t => some (t.now, t.timebase.prescalerCount)
  | _ => none

/-- Device time runs, 999 CLK periods into a prescaler of 1000. -/
def nearTick : State := State.reset.setTimebase { Timebase.reset with desired := .run, prescalerCount := 999 }

theorem test_tick_belowPrescaler : timeAndCount (exec (.tick 0 .advanceFirst 0) nearTick) = some (0, 999) := by decide

/-- The first of 1,101 CLK periods brings a tick, and so does the 1,001st. -/
theorem test_edge_countsPeriods :
    timeAndCount (exec (.tickEdge 500 0 .advanceFirst 600) nearTick) = some (2, 100) := by decide +kernel

theorem test_idle_ticksAtPrescaler : timeAndCount (step nearTick) = some (1, 0) := by decide +kernel

/-- The next CLK period brings a tick and the fourth low sample of SAFE#; the pulses of lines 0 and 1 end at that advance. -/
def tickMeetsEntry (policy : SafePolicy) : State :=
  { (pulsing 1).setLine 1 ⟨true, true, true, false, some ⟨1, 6⟩⟩ with
    timebase := { nearTick.timebase with desired := .run }
    safeController := ⟨.run, policy, false, 3⟩
    pins := ⟨false, true, 0, false, 0⟩ }

/-- The freeze mark meets the tick in either order (R156). -/
theorem test_tick_meetsFreezeMark :
    [SafeOrder.afterTick, .beforeTick].map (fun safe => timeAndCount (exec (.tick 0 .advanceFirst 1 safe) (tickMeetsEntry .freeze)))
      = [some (1, 0), some (0, 0)] := by decide +kernel

/-- The entry meets two pulse ends, on each line in either order (R105). -/
theorem test_pulseEnds_meetEntry :
    [SafeOrder.afterTick, .afterTick 2, .afterTick 3, .beforeTick].map
        (fun safe => newsKinds (exec (.tick 0 .advanceFirst 1 safe) (tickMeetsEntry .continue_)))
      = [[.pulseCut, .pulseCut, .safeEntered], [.pulseCut, .safeEntered], [.safeEntered], [.pulseCut, .pulseCut, .safeEntered]] := by
  decide +kernel

/-- A flag change that meets the entry and its reached deadline are both in flight. -/
def matchMeetsDeadline : State := { waiting (some 0) with flagBank := ⟨State.reset.flagBank.flags, [⟨32, true⟩]⟩ }

/-- Left to the next tick the match wins, and a TIMEOUT row before it takes the other order (R130). -/
theorem test_deadline_meetsMatch :
    newsKinds (exec (.tick 0 .advanceFirst) matchMeetsDeadline) = [.matched]
    ∧ newsKinds (exec .timeout matchMeetsDeadline) = [.timeout] := by decide +kernel

/-- The pin level and the candidate count after a row. -/
def safePinAfter (r : Result) : Option (Bool × Nat) :=
  match r with
  | .next t => some (t.pins.safeLow, t.safeController.candidate)
  | _ => none

/-- During a hold the row of SAFE# leaves the pin; behind the release a row of no CLK periods gives its level (R163). -/
theorem test_safe_lowThroughReset :
    safePinAfter (exec .safeAsserted (State.reset.holdReset true)) = some (false, 0)
    ∧ safePinAfter (exec (.safeAsserted 0) State.reset) = some (true, 0)
    ∧ safePinAfter (step (State.reset.showSafe true)) = some (true, 1) := by decide +kernel

/-! ## States that meet the hypotheses of the statements -/

theorem witness_StepTakesTheFrontCommand :
    { State.reset with pending := [.news, .holdoff] }.pending = .news :: [.holdoff] := rfl

/-- A timebase under the external source, with a spacing. -/
def external (spacing : Option Nat) : State :=
  State.reset.setTimebase { Timebase.reset with source := .external, spacing := spacing }

theorem witness_EmptyQueuePassesOneClkPeriod :
    State.reset.pending = [] ∧ State.reset.Released ∧ (State.reset.holdReset true).pins.resetHeld = true
    ∧ (∀ n ∈ [998, 999], ∃ s : State, s.pending = [] ∧ s.Released ∧ s.timebase.source = .internal
      ∧ s.timebase.prescalerCount = n ∧ s.timebase.prescaler = 1000)
    ∧ (∀ high sample, ∃ s : State, s.pending = [] ∧ s.Released ∧ s.timebase.source = .external
      ∧ s.pins.tickHigh = high ∧ s.timebase.tickSample = sample)
    ∧ (∀ n ∈ [254, 255], ∃ s : State, s.pending = [] ∧ s.Released ∧ s.timebase.source = .external
      ∧ s.pins.tickHigh = true ∧ s.timebase.tickSample = false ∧ s.timebase.spacing = some n)
    ∧ State.reset.pins.safeLow = State.reset.safeController.asserted
    ∧ ∀ low, ∀ n ∈ [2, 3], ∃ s : State, s.pending = [] ∧ s.Released ∧ s.pins.safeLow = low ∧ s.safeController.asserted = !low
      ∧ s.safeController.candidate = n ∧ s.safeController.state = .run :=
  ⟨rfl, rfl, rfl,
    fun n _ => ⟨State.reset.setTimebase { Timebase.reset with prescalerCount := n }, rfl, rfl, rfl, rfl, rfl⟩,
    fun high sample => ⟨((external none).setPins ⟨false, false, 0, high, 0⟩).setTimebase
      { (external none).timebase with tickSample := sample }, rfl, rfl, rfl, rfl, rfl⟩,
    fun n _ => ⟨(external (some n)).setPins ⟨false, false, 0, true, 0⟩, rfl, rfl, rfl, rfl, rfl, rfl⟩, rfl,
    fun low n _ => ⟨(State.reset.setPins ⟨false, low, 0, false, 0⟩).setSafe ⟨.run, .continue_, !low, n⟩,
      rfl, rfl, rfl, rfl, rfl, rfl⟩⟩

theorem witness_ResetRowsSetEveryBlock :
    (State.reset.holdReset true).pins.resetHeld = true ∧ State.reset.Released := ⟨rfl, rfl⟩

theorem witness_AssertedResetTakesNothing :
    (State.reset.holdReset true).pins.resetHeld = true ∧ Instr.resultRead ≠ .hardReset ∧ Instr.resultRead ≠ .powerOn
    ∧ Instr.resultRead ≠ .resetReleased
    ∧ ¬ (Instr.news = .resultRead ∨ Instr.news = .noteRead ∨ Instr.news = .timeLoRead ∨ ∃ a, Instr.news = .badAddress (.read a)) :=
  ⟨rfl, by decide, by decide, by decide, by simp⟩

theorem witness_IdentReadsTheDeviceCode :
    State.reset.Released ∧ ∃ t, exec .resetDevice State.reset = .next t ∧ t.Released := ⟨rfl, _, rfl, rfl⟩

theorem quiet_nothingInFlight (s : State) (hi : s.inputUnit.handed = []) (hf : s.flagBank.events = [])
    (hw : s.waitList.entries = []) (hl : s.lineUnit = State.reset.lineUnit) : s.NothingInFlight := by
  have hr : ∀ n, (State.reset.line n).pulse = none := by decide
  refine ⟨hi, hf, fun e he => ?_, fun n p h => ?_⟩
  · rw [hw] at he
    cases he
  · rw [State.line, hl] at h
    exact absurd ((hr n).symm.trans h) nofun

theorem witness_InternalTickCountsAndSamples :
    State.reset.Released ∧ State.reset.timebase.source = .internal ∧ State.reset.timebase.prescalerCount + 999 < 1000
    ∧ State.reset.timebase.prescaler ≤ State.reset.timebase.prescalerCount + 1000
    ∧ ((tickMeetsEntry .freeze).Released ∧ (tickMeetsEntry .freeze).timebase.source = .internal
      ∧ (tickMeetsEntry .freeze).timebase.prescaler = (tickMeetsEntry .freeze).timebase.prescalerCount + 1 ∧ 0 < 1
      ∧ (tickMeetsEntry .freeze).timebase.desired = .run ∧ (tickMeetsEntry .freeze).timebase.freeze = false
      ∧ (tickMeetsEntry .freeze).pins.safeLow = true ∧ (tickMeetsEntry .freeze).safeController = ⟨.run, .freeze, false, 3⟩)
    ∧ (external none).Released ∧ (external none).timebase.source = .external
    ∧ (∀ t : Timebase, ∀ p : Pins, { State.reset with timebase := t, pins := p }.NothingInFlight)
    ∧ (0#16).getLsbD 0 = State.reset.flag (levelFlag 0)
    ∧ ((1#16).getLsbD 0 ≠ State.reset.flag (levelFlag 0) ∧ (State.reset.input 0).candidate < (State.reset.input 0).q)
    ∧ ∃ s : State, s.Released ∧ s.timebase.source = .internal ∧ s.NothingInFlight ∧ s.Accepts 0x8000 15
      ∧ (s.input 15).candidate = (s.input 15).q :=
  ⟨rfl, rfl, by decide, by decide, ⟨rfl, rfl, rfl, by decide, rfl, rfl, rfl, rfl⟩, rfl, rfl,
    fun _ _ => quiet_nothingInFlight _ rfl rfl rfl rfl,
    by decide, by decide,
    State.reset.setInput 15 { Input.reset with candidate := 2 }, rfl, rfl,
    quiet_nothingInFlight _ rfl rfl rfl rfl,
    ⟨by decide, by decide⟩, by decide⟩

theorem witness_ExternalEdgeIsJudgedBySpacing :
    (State.reset.Released ∧ State.reset.timebase.source = .internal)
    ∧ (∃ s : State, s.Released ∧ s.timebase.source = .external ∧ s.timebase.tickSample = true)
    ∧ ((external (some 5)).Released ∧ (external (some 5)).timebase.source = .external
      ∧ (external (some 5)).timebase.tickSample = false ∧ (external (some 5)).timebase.spacing = some 5 ∧ 5 + (248 + 1 + 1) < 256)
    ∧ (external none).timebase.spacing = none
    ∧ ∃ n, (external (some 5)).timebase.spacing = some n ∧ 256 ≤ n + (249 + 1 + 1) :=
  ⟨⟨rfl, rfl⟩, ⟨(external none).setTimebase { (external none).timebase with tickSample := true }, rfl, rfl, rfl⟩,
    ⟨rfl, rfl, rfl, rfl, by decide⟩, rfl, 5, rfl, by decide⟩

theorem witness_AcceptanceSetsLevelThenLatchThenNews :
    State.reset.Released ∧ State.reset.inputUnit.handed = []
    ∧ ∃ s : State, s.Released ∧ s.inputUnit.handed = [⟨15, true, true, true, 9⟩] :=
  ⟨rfl, rfl, { State.reset with inputUnit := ⟨State.reset.inputUnit.inputs, [⟨15, true, true, true, 9⟩]⟩ }, rfl, rfl⟩

theorem witness_SafePinLevelIsQualified :
    ∀ low, (∃ s : State, s.Released ∧ s.safeController.asserted = low)
      ∧ ∀ n ∈ [3, 4], ∃ s : State, s.Released ∧ s.safeController.asserted = !low ∧ s.safeController.candidate + n = n :=
  fun low => ⟨⟨State.reset.setSafe ⟨.run, .continue_, low, 0⟩, rfl, rfl⟩,
    fun _ _ => ⟨State.reset.setSafe ⟨.run, .continue_, !low, 0⟩, rfl, rfl, Nat.zero_add _⟩⟩

/-- A command that an earlier row has taken is given to its owner by a row of either reach. -/
theorem witness_takenIsGiven (op : Opcode) (code operand : Byte) (args : List Word) (reach : CommandReach)
    (h : Opcode.ofCode code = some op) :
    (executing code operand args .taken).Gives op ⟨code, operand, args⟩ [] reach := ⟨rfl, h, .inr ⟨rfl, rfl⟩⟩

theorem witness_ForceSafeEntersSafe :
    (∃ c, (queued 0x40 0 [1]).Gives .forceSafe c [] .owner ∧ c.args ≠ [])
    ∧ (∃ c, (inSafe false (queued 0x40 0 [])).Gives .forceSafe c [] .owner ∧ c.args = [])
    ∧ (inSafe false (queued 0x40 0 [])).safeController.state = .safe
    ∧ (∃ c, (queued 0x40 0 []).Gives .forceSafe c [] .owner ∧ c.args = []) ∧ (queued 0x40 0 []).safeController.state = .run :=
  ⟨⟨_, ⟨rfl, by rfl, .inl ⟨rfl, rfl, rfl⟩⟩, by decide⟩, ⟨_, ⟨rfl, by rfl, .inl ⟨rfl, rfl, rfl⟩⟩, rfl⟩, rfl,
    ⟨_, ⟨rfl, by rfl, .inl ⟨rfl, rfl, rfl⟩⟩, rfl⟩, rfl⟩

theorem witness_ResumeLeavesSafe :
    (∃ c, (queued 0x41 0 [1]).Gives .resume c [] .owner ∧ c.args ≠ [])
    ∧ (∃ c, (queued 0x41 0 []).Gives .resume c [] .owner ∧ c.args = [] ∧ (queued 0x41 0 []).safeController.state = .run)
    ∧ ∀ asserted, ∃ s c, State.Gives s .resume c [] .owner ∧ c.args = [] ∧ s.safeController.state = .safe
      ∧ s.safeController.asserted = asserted :=
  ⟨⟨_, ⟨rfl, by rfl, .inl ⟨rfl, rfl, rfl⟩⟩, by decide⟩, ⟨_, ⟨rfl, by rfl, .inl ⟨rfl, rfl, rfl⟩⟩, rfl, rfl⟩,
    fun a => ⟨inSafe a (queued 0x41 0 []), _, ⟨rfl, by rfl, .inl ⟨rfl, rfl, rfl⟩⟩, rfl, rfl, rfl⟩⟩

/-- A state in SAFE with two commands in the FIFO, the second a RESUME, and a freeze mark. -/
def thenResume (code : Byte) (freeze : Bool) : State :=
  { inSafe false State.reset with
    timebase := { Timebase.reset with freeze := freeze }
    commandUnit := ⟨[⟨code, 0, []⟩, ⟨0x41, 0, []⟩], none, []⟩ }

theorem witness_RunTimeSetsTheDesiredState :
    (∃ c, (queued 0x21 0 [1]).Gives .runTime c [] .owner ∧ c.args ≠ [])
    ∧ (∀ freeze, ∃ c rest t u v, (thenResume 0x21 freeze).Gives .runTime c rest .owner ∧ c.args = []
      ∧ exec .runTime (thenResume 0x21 freeze) = .next t ∧ (thenResume 0x21 freeze).CountsTick (.tick 0 .advanceFirst)
      ∧ exec (.tick 0 .advanceFirst) t = .next u ∧ exec (.tick 0 .advanceFirst) (thenResume 0x21 freeze) = .next v
      ∧ (thenResume 0x21 freeze).timebase.freeze = freeze ∧ (thenResume 0x21 freeze).timebase.desired = .hold)
    ∧ ∃ c rest t u, (thenResume 0x21 true).Gives .runTime c rest .owner ∧ c.args = [] ∧ exec .runTime (thenResume 0x21 true) = .next t
      ∧ exec .resume t = .next u ∧ (thenResume 0x21 true).safeController.state = .safe ∧ u.safeController.state = .run :=
  ⟨⟨_, ⟨rfl, by rfl, .inl ⟨rfl, rfl, rfl⟩⟩, by decide⟩,
    fun _ => ⟨_, _, _, _, _, ⟨rfl, by rfl, .inl ⟨rfl, rfl, rfl⟩⟩, rfl, rfl, ⟨.inl rfl, .inl ⟨rfl, _, _, _, _, rfl, (by decide : 0 < 65536), (by decide : (1000 : Nat) ≤ 0 + 65536)⟩⟩, rfl, rfl, rfl, rfl⟩,
    ⟨_, _, _, _, ⟨rfl, by rfl, .inl ⟨rfl, rfl, rfl⟩⟩, rfl, rfl, rfl, rfl, rfl⟩⟩

theorem witness_HoldTimeClearsTheDesiredState :
    (∃ c, (queued 0x22 0 [1]).Gives .holdTime c [] .owner ∧ c.args ≠ [])
    ∧ (∃ s c t u v, State.Gives s .holdTime c [] .owner ∧ c.args = [] ∧ exec .holdTime s = .next t
      ∧ s.CountsTick (.tickEdge 249 0 .samplesFirst) ∧ exec (.tickEdge 249 0 .samplesFirst) t = .next u
      ∧ exec (.tickEdge 249 0 .samplesFirst) s = .next v ∧ s.timebase.running = true)
    ∧ ∃ c rest t u, (thenResume 0x22 true).Gives .holdTime c rest .owner ∧ c.args = []
      ∧ exec .holdTime (thenResume 0x22 true) = .next t ∧ exec .resume t = .next u :=
  ⟨⟨_, ⟨rfl, by rfl, .inl ⟨rfl, rfl, rfl⟩⟩, by decide⟩,
    ⟨(queued 0x22 0 []).setTimebase { Timebase.reset with desired := .run, source := .external, spacing := some 5 }, _, _, _, _,
      ⟨rfl, by rfl, .inl ⟨rfl, rfl, rfl⟩⟩, rfl, rfl, ⟨.inl rfl, .inr ⟨rfl, _, _, _, _, _, rfl, .inl rfl, .inr ⟨5, rfl, by decide⟩⟩⟩, rfl, rfl, rfl⟩,
    ⟨_, _, _, _, ⟨rfl, by rfl, .inl ⟨rfl, rfl, rfl⟩⟩, rfl, rfl, rfl⟩⟩

theorem witness_SetTickSelectsSourceAndPrescaler :
    (∃ c, (queued 0x23 0 [1]).Gives .setTick c [] .owner ∧ c.args.length ≠ 2)
    ∧ (∃ s c, State.Gives s .setTick c [] .owner ∧ c.args = [0, 0] ∧ s.timebase.desired = .run)
    ∧ (∀ source prescaler, ∃ c, (queued 0x23 0 [source, prescaler]).Gives .setTick c [] .owner ∧ c.args = [source, prescaler]
      ∧ (queued 0x23 0 [source, prescaler]).timebase.desired = .hold
      ∧ (queued 0x23 0 [source, prescaler]).timebase.source = .internal)
    ∧ (∃ s c, State.Gives s .setTick c [] .owner ∧ c.args = [1, 256] ∧ s.timebase.desired = .hold ∧ s.timebase.source = .external)
    ∧ 1 < (2 : Word).toNat ∧ (1 : Word).toNat ≤ 1 ∧ 1 ≤ (255 : Word).toNat ∧ (255 : Word).toNat ≤ 255
    ∧ (0 : Word).toNat = 0 ∧ 256 ≤ (256 : Word).toNat :=
  ⟨⟨_, ⟨rfl, by rfl, .inl ⟨rfl, rfl, rfl⟩⟩, by decide⟩,
    ⟨(queued 0x23 0 [0, 0]).setTimebase { Timebase.reset with desired := .run }, _, ⟨rfl, by rfl, .inl ⟨rfl, rfl, rfl⟩⟩, rfl, rfl⟩,
    fun _ _ => ⟨_, ⟨rfl, by rfl, .inl ⟨rfl, rfl, rfl⟩⟩, rfl, rfl, rfl⟩,
    ⟨(queued 0x23 0 [1, 256]).setTimebase (external none).timebase, _, ⟨rfl, by rfl, .inl ⟨rfl, rfl, rfl⟩⟩, rfl, rfl, rfl⟩,
    by decide⟩

theorem witness_SetTimeReplacesDeviceTime :
    (∃ c, (queued 0x20 0 [1]).Gives .setTime c [] .owner ∧ c.args.length ≠ 2)
    ∧ (∃ s c low high, State.Gives s .setTime c [] .owner ∧ c.args = [low, high] ∧ s.firing ≠ none)
    ∧ (∃ s c low high, State.Gives s .setTime c [] .owner ∧ c.args = [low, high] ∧ s.firing = none ∧ s.dueQueue.entries ≠ [])
    ∧ (∃ s c, State.IsExecuting s .setTime c (.setTime 9) ∧ s.commandUnit.fifo = [] ∧ s.firing = none
      ∧ s.dueQueue.entries = [] ∧ s.waitList.entries = [] ∧ s.waitList.arms = []
      ∧ (∃ p, (s.line 0).pulse = some p ∧ reached p.endTime 9 = true) ∧ (s.line 1).pulse = none) :=
  ⟨⟨_, ⟨rfl, by rfl, .inl ⟨rfl, rfl, rfl⟩⟩, by decide⟩,
    ⟨(queued 0x20 0 [9, 0]).setFiring (some (inHand (.toggle 0))), _, _, _, ⟨rfl, by rfl, .inl ⟨rfl, rfl, rfl⟩⟩, rfl, by decide⟩,
    ⟨armedAt 9 (queued 0x20 0 [9, 0]), _, _, _, ⟨rfl, by rfl, .inl ⟨rfl, rfl, rfl⟩⟩, rfl, rfl, by decide⟩,
    ⟨{ pulsing 9 with commandUnit := (executing 0x20 0 [9, 0] (.setTime 9)).commandUnit }, _,
      ⟨rfl, rfl, by decide⟩, rfl, rfl, rfl, rfl, rfl, ⟨_, rfl, by decide⟩, rfl⟩⟩

theorem witness_SetLineSetsTheSelectedLines :
    (∃ c, (queued 0x30 0 []).Gives .setLine c [] .owner ∧ c.args.length ≠ 1)
    ∧ (∃ c, (queued 0x30 2 [0]).Gives .setLine c [] .owner ∧ c.args = [0] ∧ 2 ≤ c.operand.toNat)
    ∧ (∃ c, (queued 0x30 1 [0x8080]).Gives .setLine c [] .owner ∧ c.args = [0x8080] ∧ c.operand.toNat < 2
      ∧ 15 / 8 = c.operand.toNat ∧ (0x8080 : Word).getLsbD (8 + 15 % 8) = true
      ∧ ¬ (14 / 8 = c.operand.toNat ∧ (0x8080 : Word).getLsbD (8 + 14 % 8) = true)) :=
  ⟨⟨_, ⟨rfl, by rfl, .inl ⟨rfl, rfl, rfl⟩⟩, by decide⟩, ⟨_, ⟨rfl, by rfl, .inl ⟨rfl, rfl, rfl⟩⟩, rfl, by decide⟩,
    ⟨_, ⟨rfl, by rfl, .inl ⟨rfl, rfl, rfl⟩⟩, rfl, by decide⟩⟩

theorem witness_ConfigLineSetsActiveAndSafeLevels :
    (∃ c, (queued 0x31 0 []).Gives .configLine c [] .owner ∧ c.args.length ≠ 1)
    ∧ (∃ c, (queued 0x31 16 [0]).Gives .configLine c [] .owner ∧ c.args = [0] ∧ 15 < c.operand.toNat)
    ∧ (∃ c, (queued 0x31 15 [0x0002]).Gives .configLine c [] .owner ∧ c.args = [0x0002] ∧ 1 < ((0x0002 : Word).extractLsb' 0 2).toNat)
    ∧ (∃ c, (queued 0x31 15 [0x0020]).Gives .configLine c [] .owner ∧ c.args = [0x0020] ∧ 1 < ((0x0020 : Word).extractLsb' 4 2).toNat)
    ∧ (∃ c, (queued 0x31 15 [0x0011]).Gives .configLine c [] .owner ∧ c.args = [0x0011] ∧ c.operand.toNat = (15 : LineId).val
      ∧ ((0x0011 : Word).extractLsb' 0 2).toNat ≤ 1 ∧ ((0x0011 : Word).extractLsb' 4 2).toNat ≤ 1
      ∧ ((queued 0x31 15 [0x0011]).line 15).pulse = none)
    ∧ (∃ s c, State.Gives s .configLine c [] .owner ∧ c.args = [0x0011] ∧ c.operand.toNat = (0 : LineId).val ∧ (s.line 0).pulse ≠ none) :=
  ⟨⟨_, ⟨rfl, by rfl, .inl ⟨rfl, rfl, rfl⟩⟩, by decide⟩, ⟨_, ⟨rfl, by rfl, .inl ⟨rfl, rfl, rfl⟩⟩, rfl, by decide⟩,
    ⟨_, ⟨rfl, by rfl, .inl ⟨rfl, rfl, rfl⟩⟩, rfl, by decide⟩, ⟨_, ⟨rfl, by rfl, .inl ⟨rfl, rfl, rfl⟩⟩, rfl, by decide⟩,
    ⟨_, ⟨rfl, by rfl, .inl ⟨rfl, rfl, rfl⟩⟩, rfl, rfl, by decide, by decide, rfl⟩,
    ⟨{ pulsing 9 with commandUnit := (queued 0x31 0 [0x0011]).commandUnit }, _, ⟨rfl, by rfl, .inl ⟨rfl, rfl, rfl⟩⟩, rfl, rfl, by decide⟩⟩

theorem witness_SettingsCommandsReplaceTheirSettings :
    (∃ c, (queued 0x32 0 []).Gives .configInput c [] .owner ∧ c.args.length ≠ 1)
    ∧ (∃ c, (queued 0x32 16 [0]).Gives .configInput c [] .owner ∧ c.args = [0] ∧ 15 < c.operand.toNat)
    ∧ (∃ c, (queued 0x32 15 [0]).Gives .configInput c [] .owner ∧ c.args = [0] ∧ c.operand.toNat = (15 : LineId).val)
    ∧ (∃ c, (queued 0x33 0 [1, 0]).Gives .configNotify c [] .owner ∧ c.args.length ≠ 3)
    ∧ (∀ threshold, ∃ c, (queued 0x33 0 [threshold, 0, 0]).Gives .configNotify c [] .owner ∧ c.args = [threshold, 0, 0])
    ∧ (∀ w, ∃ c, (queued 0x34 0 [w]).Gives .configSafe c [] .owner ∧ c.args = [w])
    ∧ (∃ c, (queued 0x34 0 []).Gives .configSafe c [] .owner ∧ c.args.length ≠ 1) :=
  ⟨⟨_, ⟨rfl, by rfl, .inl ⟨rfl, rfl, rfl⟩⟩, by decide⟩, ⟨_, ⟨rfl, by rfl, .inl ⟨rfl, rfl, rfl⟩⟩, rfl, by decide⟩,
    ⟨_, ⟨rfl, by rfl, .inl ⟨rfl, rfl, rfl⟩⟩, rfl, rfl⟩, ⟨_, ⟨rfl, by rfl, .inl ⟨rfl, rfl, rfl⟩⟩, by decide⟩,
    fun _ => ⟨_, ⟨rfl, by rfl, .inl ⟨rfl, rfl, rfl⟩⟩, rfl⟩, fun _ => ⟨_, ⟨rfl, by rfl, .inl ⟨rfl, rfl, rfl⟩⟩, rfl⟩,
    ⟨_, ⟨rfl, by rfl, .inl ⟨rfl, rfl, rfl⟩⟩, by decide⟩⟩

theorem witness_NopIsAnsweredInItsTurn :
    (∃ c, (queued 0x00 0 []).Gives .nop c [] .owner ∧ c.args = []) ∧ (∃ c, (queued 0x00 0 [1]).Gives .nop c [] .owner ∧ c.args ≠ [])
    ∧ (∃ x, (executing 0x16 3 [] (.query 3)).commandUnit.executing = some x ∧ Opcode.ofCode x.command.code ≠ some .nop)
    ∧ ∃ c, (queued 0x10 0 []).commandUnit.executing = none ∧ (queued 0x10 0 []).commandUnit.fifo = [c] ∧ Opcode.ofCode c.code ≠ some .nop :=
  ⟨⟨_, ⟨rfl, by rfl, .inl ⟨rfl, rfl, rfl⟩⟩, rfl⟩, ⟨_, ⟨rfl, by rfl, .inl ⟨rfl, rfl, rfl⟩⟩, by decide⟩, ⟨_, rfl, by decide⟩, ⟨_, rfl, rfl, by decide⟩⟩

theorem witness_UnknownCodeIsAnsweredBadCode :
    (queued 0x01 0 [1]).Released ∧ (queued 0x01 0 [1]).commandUnit.executing = none
    ∧ ∃ c, (queued 0x01 0 [1]).commandUnit.fifo = [c] ∧ c.code ∉ [0x00, 0x10, 0x11, 0x12, 0x13, 0x14, 0x15, 0x16, 0x20, 0x21,
      0x22, 0x23, 0x30, 0x31, 0x32, 0x33, 0x34, 0x40, 0x41, 0x50, 0x5A]
    ∧ (executing 0x01 0 [1] .taken).commandUnit.executing = some ⟨c, .taken⟩
    ∧ (executing 0x01 0 [1] .taken).commandUnit.fifo = [] := ⟨rfl, rfl, _, rfl, by decide, rfl, rfl⟩

theorem witness_AcceptedDefinitionHoldsItsWords : ∃ self ws d, parseDefinition self ws = some d :=
  ⟨3, markWords, parsedMark, by decide⟩

/-- The clauses on slot 3 of a command of one kind, at the head of the FIFO and executing, with slot 3 in each state. -/
def OnSlotThree (op : Opcode) (code : Byte) (args : List Word) (w : Work) : Prop :=
  (∃ c, (queued code 3 args).Gives op c [] .owner ∧ c.args = args ∧ c.operand.toNat = (3 : SlotId).val)
  ∧ ((queued code 3 args).slot 3).state = .free
  ∧ (∃ c, (executing code 3 args w).IsExecuting op c w ∧ (executing code 3 args w).commandUnit.fifo = [])
  ∧ ∀ st, ∃ s c, State.IsExecuting s op c w ∧ s.commandUnit.fifo = [] ∧ (s.slot 3).state = st

theorem onSlotThree (op : Opcode) (code : Byte) (args : List Word) (w : Work) (h : Opcode.ofCode code = some op) :
    OnSlotThree op code args w :=
  ⟨⟨_, ⟨rfl, h, .inl ⟨rfl, rfl, rfl⟩⟩, rfl, rfl⟩, rfl, ⟨_, ⟨rfl, rfl, h⟩, rfl⟩,
    fun st => ⟨withSlot (executing code 3 args w) 3 st mark none, _, ⟨rfl, rfl, h⟩, rfl, rfl⟩⟩

theorem witness_DefineJudgesAndWritesTheSlot :
    (∃ c, (queued 0x10 3 []).Gives .define c [] .owner ∧ c.args.length ≠ 13)
    ∧ (∃ c, (queued 0x10 128 markWords).Gives .define c [] .owner ∧ c.args.length = 13 ∧ c.operand.toNat = 128)
    ∧ OnSlotThree .define 0x10 markWords (.define 3)
    ∧ (∃ r ∈ (recorded (queued 0x10 3 markWords)).noteQueue.records, r.source = .slot 3)
    ∧ (∀ r ∈ (queued 0x10 3 markWords).noteQueue.records, r.source ≠ .slot 3)
    ∧ (∃ ws : List Word, ws.length = 13 ∧ parseDefinition 3 ws = none) ∧ parseDefinition 3 markWords = some parsedMark :=
  ⟨⟨_, ⟨rfl, by rfl, .inl ⟨rfl, rfl, rfl⟩⟩, by decide⟩, ⟨_, ⟨rfl, by rfl, .inl ⟨rfl, rfl, rfl⟩⟩, rfl, rfl⟩,
    onSlotThree _ _ _ _ (by decide), by decide, by decide,
    ⟨[0x0F, 0, 0, 0, 0, 0, 0, 0, 0, 0, 0, 0, 0], rfl, by decide⟩, by decide⟩

theorem witness_DefineArmDefinesThenAsksToArm :
    (∃ c, (queued 0x11 3 []).Gives .defineArm c [] .owner ∧ c.args.length ≠ 13)
    ∧ (∃ c, (queued 0x11 128 markWords).Gives .defineArm c [] .owner ∧ c.args.length = 13 ∧ c.operand.toNat = 128)
    ∧ OnSlotThree .defineArm 0x11 markWords (.define 3) :=
  ⟨⟨_, ⟨rfl, by rfl, .inl ⟨rfl, rfl, rfl⟩⟩, by decide⟩, ⟨_, ⟨rfl, by rfl, .inl ⟨rfl, rfl, rfl⟩⟩, rfl, rfl⟩,
    onSlotThree _ _ _ _ (by decide)⟩

theorem witness_SlotCommandsAskTheOwnerOfTheSlot :
    (∃ c, (queued 0x12 3 [1]).Gives .arm c [] .owner ∧ c.args.length = 1)
    ∧ (∃ c, (queued 0x12 128 []).Gives .arm c [] .owner ∧ c.args.length = 0 ∧ c.operand.toNat = 128)
    ∧ (∃ c, (queued 0x12 127 []).Gives .arm c [] .owner ∧ c.args = [] ∧ c.operand.toNat = (127 : SlotId).val)
    ∧ (∃ c, (queued 0x12 127 [9, 0]).Gives .arm c [] .owner ∧ c.args = [9, 0] ∧ c.operand.toNat = (127 : SlotId).val)
    ∧ (∃ c, (queued 0x14 3 [1]).Gives .retime c [] .owner ∧ c.args.length ≠ 2)
    ∧ (∃ c, (queued 0x14 128 [9, 0]).Gives .retime c [] .owner ∧ c.args.length = 2 ∧ c.operand.toNat = 128)
    ∧ (∃ c, (queued 0x14 127 [9, 0]).Gives .retime c [] .owner ∧ c.args = [9, 0] ∧ c.operand.toNat = (127 : SlotId).val)
    ∧ (∃ c, (queued 0x13 3 [1]).Gives .cancel c [] .owner ∧ c.args ≠ [])
    ∧ (∃ c, (queued 0x13 128 []).Gives .cancel c [] .owner ∧ c.args = [] ∧ c.operand.toNat = 128)
    ∧ OnSlotThree .cancel 0x13 [] (.cancel 3)
    ∧ (∃ c, (executing 0x13 3 [] (.remove 3)).IsExecuting .cancel c (.remove 3))
    ∧ (∃ c, (executing 0x13 3 [] (.withdraw 3)).IsExecuting .cancel c (.withdraw 3))
    ∧ (∃ c, (queued 0x50 0 [1]).Gives .resetSchedule c [] .owner ∧ c.args ≠ [])
    ∧ ∃ c, (queued 0x50 0 []).Gives .resetSchedule c [] .owner ∧ c.args = [] :=
  ⟨⟨_, ⟨rfl, by rfl, .inl ⟨rfl, rfl, rfl⟩⟩, rfl⟩, ⟨_, ⟨rfl, by rfl, .inl ⟨rfl, rfl, rfl⟩⟩, rfl, rfl⟩, ⟨_, ⟨rfl, by rfl, .inl ⟨rfl, rfl, rfl⟩⟩, rfl, rfl⟩,
    ⟨_, ⟨rfl, by rfl, .inl ⟨rfl, rfl, rfl⟩⟩, rfl, rfl⟩, ⟨_, ⟨rfl, by rfl, .inl ⟨rfl, rfl, rfl⟩⟩, by decide⟩,
    ⟨_, ⟨rfl, by rfl, .inl ⟨rfl, rfl, rfl⟩⟩, rfl, rfl⟩, ⟨_, ⟨rfl, by rfl, .inl ⟨rfl, rfl, rfl⟩⟩, rfl, rfl⟩,
    ⟨_, ⟨rfl, by rfl, .inl ⟨rfl, rfl, rfl⟩⟩, by decide⟩, ⟨_, ⟨rfl, by rfl, .inl ⟨rfl, rfl, rfl⟩⟩, rfl, rfl⟩, onSlotThree _ _ _ _ (by decide),
    ⟨_, rfl, rfl, by decide⟩, ⟨_, rfl, rfl, by decide⟩,
    ⟨_, ⟨rfl, by rfl, .inl ⟨rfl, rfl, rfl⟩⟩, by decide⟩, ⟨_, ⟨rfl, by rfl, .inl ⟨rfl, rfl, rfl⟩⟩, rfl⟩⟩

theorem witness_ReleaseReturnsTheSlotToFree :
    (∃ c, (queued 0x15 3 [1]).Gives .release c [] .owner ∧ c.args ≠ [])
    ∧ (∃ c, (queued 0x15 128 []).Gives .release c [] .owner ∧ c.args = [] ∧ c.operand.toNat = 128)
    ∧ OnSlotThree .release 0x15 [] (.release 3) :=
  ⟨⟨_, ⟨rfl, by rfl, .inl ⟨rfl, rfl, rfl⟩⟩, by decide⟩, ⟨_, ⟨rfl, by rfl, .inl ⟨rfl, rfl, rfl⟩⟩, rfl, rfl⟩,
    onSlotThree _ _ _ _ (by decide)⟩

theorem witness_QueryReportsTheRuntimePart :
    (∃ c, (queued 0x16 3 [1]).Gives .query c [] .owner ∧ c.args ≠ [])
    ∧ (∃ c, (queued 0x16 128 []).Gives .query c [] .owner ∧ c.args = [] ∧ c.operand.toNat = 128)
    ∧ OnSlotThree .query 0x16 [] (.query 3) :=
  ⟨⟨_, ⟨rfl, by rfl, .inl ⟨rfl, rfl, rfl⟩⟩, by decide⟩, ⟨_, ⟨rfl, by rfl, .inl ⟨rfl, rfl, rfl⟩⟩, rfl, rfl⟩,
    onSlotThree _ _ _ _ (by decide)⟩

theorem witness_ResetDeviceResetsEveryBlock :
    (∃ c, (queued 0x5A 0 [1]).Gives .resetDevice c [] .owner ∧ c.args ≠ [])
    ∧ ∃ c, (queued 0x5A 0 []).Gives .resetDevice c [] .owner ∧ c.args = [] :=
  ⟨⟨_, ⟨rfl, by rfl, .inl ⟨rfl, rfl, rfl⟩⟩, by decide⟩, ⟨_, ⟨rfl, by rfl, .inl ⟨rfl, rfl, rfl⟩⟩, rfl⟩⟩

theorem witness_StageWriteAppendsOrOverflows :
    ∀ n ∈ [15, 16], ∃ s : State, s.Released ∧ s.window.staging.length = n := by
  intro n _
  exact ⟨State.reset.setWindow { Window.reset with staging := List.replicate n 0 }, rfl, List.length_replicate⟩

theorem witness_CommandWriteIsJudgedByTheBudget :
    (0x1003 : Word).extractLsb' 8 8 ≠ 0xFF
    ∧ (∀ n ∈ [5, 6], ∃ s : State, s.Released ∧ s.commandUnit.fifo.length = n ∧ s.commandUnit.executing ≠ none
      ∧ s.commandUnit.results.length = 1)
    ∧ (∀ op, ∃ code, Opcode.ofCode code = some op ∧ ∃ s c, State.Released s ∧ s.commandUnit.executing = none
      ∧ s.commandUnit.fifo = [c] ∧ c.code = code)
    ∧ (Opcode.ofCode 0x01 = none ∧ (queued 0x01 0 []).commandUnit.fifo = [⟨0x01, 0, []⟩])
    ∧ (∃ c, (queued 0x10 0 []).commandUnit.fifo = [c] ∧ Opcode.ofCode c.code ≠ some .nop)
    ∧ ∃ x, (executing 0x16 3 [] (.query 3)).commandUnit.executing = some x ∧ Opcode.ofCode x.command.code ≠ some .nop := by
  refine ⟨by decide, fun n _ => ?_, fun op => ?_, ⟨by decide, rfl⟩, ⟨_, rfl, by decide⟩, ⟨_, rfl, by decide⟩⟩
  rotate_left
  · have h : ∃ code, Opcode.ofCode code = some op := by
      cases op
      exacts [⟨0x00, rfl⟩, ⟨0x10, rfl⟩, ⟨0x11, rfl⟩, ⟨0x12, rfl⟩, ⟨0x13, rfl⟩, ⟨0x14, rfl⟩, ⟨0x15, rfl⟩, ⟨0x16, rfl⟩, ⟨0x20, rfl⟩,
        ⟨0x21, rfl⟩, ⟨0x22, rfl⟩, ⟨0x23, rfl⟩, ⟨0x30, rfl⟩, ⟨0x31, rfl⟩, ⟨0x32, rfl⟩, ⟨0x33, rfl⟩, ⟨0x34, rfl⟩, ⟨0x40, rfl⟩,
        ⟨0x41, rfl⟩, ⟨0x50, rfl⟩, ⟨0x5A, rfl⟩]
    obtain ⟨code, h⟩ := h
    exact ⟨code, h, queued code 0 [], _, rfl, rfl, rfl, rfl⟩
  exact ⟨State.reset.setCommands ⟨List.replicate n ⟨0, 0, []⟩, some ⟨⟨0x50, 0, []⟩, .clear⟩, [⟨0, 0, .ok, []⟩]⟩, rfl,
    List.length_replicate, nofun, rfl⟩

theorem witness_ClearStageEmptiesTheStagingList : State.reset.Released := rfl

theorem witness_ResultReadReturnsTheRecordWordByWord :
    (State.reset.Released ∧ State.reset.commandUnit.results = [])
    ∧ (∀ k ∈ [0, 1, 2], ∃ s r rest, State.Released s ∧ s.commandUnit.results = r :: rest ∧ s.window.resultCursor = k
      ∧ r.data.length = 8 ∧ s.window.resultCursor + 1 < 2 + r.data.length)
    ∧ (∃ s r rest, State.Released s ∧ s.commandUnit.results = r :: rest ∧ s.window.resultCursor = 7 + 2
      ∧ 2 + r.data.length ≤ s.window.resultCursor + 1)
    ∧ ∃ s r rest, State.Released s ∧ s.commandUnit.results = r :: rest ∧ s.window.resultCursor = 1
      ∧ 2 + r.data.length ≤ s.window.resultCursor + 1 := by
  refine ⟨⟨rfl, rfl⟩, fun k hk => ?_, ?_, ?_⟩
  · exact ⟨(State.reset.setCommands ⟨[], none, [⟨0x16, 3, .ok, [0, 0, 0, 0, 0, 0, 0, 0]⟩]⟩).setWindow
      { Window.reset with resultCursor := k }, _, _, rfl, rfl, rfl, rfl, by revert k; decide⟩
  · exact ⟨(State.reset.setCommands ⟨[], none, [⟨0x16, 3, .ok, [0, 0, 0, 0, 0, 0, 0, 0]⟩]⟩).setWindow
      { Window.reset with resultCursor := 9 }, _, _, rfl, rfl, rfl, by decide⟩
  · exact ⟨(State.reset.setCommands ⟨[], none, [⟨0x00, 0, .ok, []⟩]⟩).setWindow
      { Window.reset with resultCursor := 1 }, _, _, rfl, rfl, rfl, by decide⟩

theorem witness_NoteReadReturnsTheRecordWordByWord :
    (State.reset.Released ∧ State.reset.noteQueue.records = [])
    ∧ ∀ k ∈ [0, 1, 2, 3, 4], ∃ s : State, s.Released ∧ s.noteQueue.records = [record] ∧ s.window.noteCursor = k :=
  ⟨⟨rfl, rfl⟩, fun k _ => ⟨(recorded State.reset).setWindow { Window.reset with noteCursor := k }, rfl, rfl, rfl⟩⟩

theorem witness_TimeLowReadLatchesTheHighHalf : State.reset.Released := rfl

theorem witness_FlagValueWriteSetsTheMaskedFlags :
    ∀ g ∈ [1, 2], ∃ s : State, s.Released ∧ s.window.flagSelect.toNat = g := by
  intro g hg
  refine ⟨State.reset.setWindow { Window.reset with flagSelect := BitVec.ofNat 3 g }, rfl, ?_⟩
  revert g; decide

theorem witness_RegisterWritesReplaceOrClear :
    State.reset.Released ∧ (7 : Word).toNat ≤ 7 ∧ 7 < (8 : Word).toNat := ⟨rfl, by decide, by decide⟩

theorem witness_BadAccessSetsOnlyTheErrorBit :
    State.reset.Released ∧ (BusAccess.read 0xF).isBad = true ∧ (BusAccess.write 0x0 5).isBad = true
    ∧ (BusCycle.access ⟨true, true, false, 0x5, 0⟩ = some (.read 0x5) ∧ (BusAccess.read 0x5).row = some .resultRead)
    ∧ (BusCycle.access ⟨true, true, false, 0xE, 0⟩ = some (.read 0xE) ∧ (BusAccess.read 0xE).row = none)
    ∧ (0xFF12 : Word).extractLsb' 8 8 = 0xFF ∧ (0x1003 : Word).extractLsb' 8 8 ≠ 0xFF :=
  ⟨rfl, rfl, rfl, ⟨rfl, rfl⟩, ⟨rfl, rfl⟩, by decide, by decide⟩

theorem witness_WindowReadsShowTheLiveState : State.reset.Released := rfl

theorem witness_TimesCompareByModularDistance :
    ((5 : Time) - 5).toNat = 0 ∧ ((0x7FFFFFFF : Time) - 0).toNat = 2 ^ 31 - 1 ∧ ((0x80000000 : Time) - 0).toNat = 2 ^ 31
    ∧ reached 1 0 = false ∧ reached 0x7FFFFFFF 0 = false := by decide

theorem witness_ArmTimeChecksClassifyTheDue :
    ((0x40000000 : Time) - 0).toNat = 2 ^ 30 ∧ ((0x40000001 : Time) - 0).toNat = 2 ^ 30 + 1
    ∧ ((0x7FFFFFFF : Time) - 0).toNat = 2 ^ 31 - 1 ∧ ((0x80000000 : Time) - 0).toNat = 2 ^ 31
    ∧ ((0xFF000000 : Time) - 0).toNat = 2 ^ 32 - 2 ^ 24 ∧ ((0xFF000001 : Time) - 0).toNat = 2 ^ 32 - 2 ^ 24 + 1 := by decide

/-- A pending arm of slot 5, for slot 4's wait. -/
def arm : PendingArm := ⟨5, 9, 8, 4⟩

def withArm (s : State) : State := withSlot (s.setArms [arm]) 5 .held mark none

/-- The command unit executes ARM of slot 6, with no argument words. -/
def withCommand (s : State) : State :=
  withSlot { s with commandUnit := (executing 0x12 6 [] (.arm 6 none)).commandUnit } 6 .held mark none

theorem witness_DueQueueGrantsByTheTable :
    (∃ c, (executing 0x12 3 [] (.arm 3 none)).commandUnit.executing = some ⟨c, .arm 3 none⟩)
    ∧ (∃ c, (executing 0x14 3 [9, 0] (.retime 3 9)).commandUnit.executing = some ⟨c, .retime 3 9⟩)
    ∧ (∃ c, (executing 0x13 3 [] (.remove 3)).commandUnit.executing = some ⟨c, .remove 3⟩)
    ∧ (∃ c, (executing 0x50 0 [] .clear).commandUnit.executing = some ⟨c, .clear⟩)
    ∧ State.reset.commandUnit.executing = none
    ∧ (∃ c, (executing 0x13 3 [] (.cancel 3)).commandUnit.executing = some ⟨c, .cancel 3⟩)
    ∧ State.reset.waitList.arms = []
    ∧ (∃ s : State, s.dueQueue.inFlight ≠ none)
    ∧ (withArm State.reset).waitList.arms = [arm] ∧ State.reset.dueQueue.inFlight = none
    ∧ (∃ o r, (firing (.reinsert 9)).firingRequest = some (o, r))
    ∧ (∃ s e, State.firingRequest s = none ∧ s.releaseReady = some e ∧ s.waitRequest = none ∧ s.commandRequest = none
      ∧ s.dueQueue.passedOver = false)
    ∧ (∃ s e a, State.firingRequest s = none ∧ s.releaseReady = some e ∧ s.dueQueue.passedOver = true ∧ s.waitRequest = some a)
    ∧ (∃ s e c r, State.firingRequest s = none ∧ s.releaseReady = some e ∧ s.dueQueue.passedOver = true ∧ s.waitRequest = none
      ∧ s.commandRequest = some (c, r))
    ∧ (∃ s a, State.firingRequest s = none ∧ s.releaseReady = none ∧ s.waitRequest = some a)
    ∧ (∃ s c r, State.firingRequest s = none ∧ s.releaseReady = none ∧ s.waitRequest = none ∧ s.commandRequest = some (c, r))
    ∧ (State.reset.firingRequest = none ∧ State.reset.releaseReady = none ∧ State.reset.waitRequest = none
      ∧ State.reset.commandRequest = none)
    ∧ (∃ c, (executing 0x12 3 [] .taken).commandUnit.executing = some ⟨c, .taken⟩)
    ∧ ((withArm (firing (.remove 7))).firing ≠ none ∧ (withArm (firing (.remove 7))).waitRequest = some arm)
    ∧ ((withCommand (firing (.remove 7))).waitRequest = none ∧ ∃ c r, (withCommand (firing (.remove 7))).commandRequest = some (c, r))
    ∧ ((firing (.remove 7)).waitRequest = none ∧ (firing (.remove 7)).commandRequest = none) :=
  ⟨⟨_, rfl⟩, ⟨_, rfl⟩, ⟨_, rfl⟩, ⟨_, rfl⟩, rfl, ⟨_, rfl⟩, rfl,
    ⟨{ State.reset with dueQueue := ⟨[], some .clear, false⟩ }, nofun⟩, rfl, rfl, ⟨_, _, rfl⟩, ⟨armedAt 0 State.reset, _, rfl, rfl, rfl, rfl, rfl⟩,
    ⟨(withArm (armedAt 0 State.reset)).setPassedOver true, _, _, rfl, rfl, rfl, rfl⟩,
    ⟨(withCommand (armedAt 0 State.reset)).setPassedOver true, _, _, _, rfl, rfl, rfl, rfl, rfl⟩,
    ⟨withArm State.reset, _, rfl, rfl, rfl⟩, ⟨withCommand State.reset, _, _, rfl, rfl, rfl, rfl⟩, ⟨rfl, rfl, rfl, rfl⟩,
    ⟨_, rfl⟩, ⟨nofun, rfl⟩, ⟨rfl, _, _, rfl⟩, rfl, rfl⟩

theorem witness_InsertTakesTheGrantedArm :
    (∃ s o, State.Released s ∧ s.grantAt .presented = some (.firing o (.insert 5 9)) ∧ (s.slot 5).state = .held)
    ∧ (∃ s o, State.Released s ∧ s.grantAt .presented = some (.firing o (.insert 5 9)) ∧ (s.slot 5).state = .free)
    ∧ ((withArm State.reset).Released ∧ (withArm State.reset).grantAt .presented = some (.waitArm arm))
    ∧ (∃ s a, State.Released s ∧ s.grantAt .presented = some (.waitArm a) ∧ (s.slot a.target).state = .free)
    ∧ (∃ c, (withCommand State.reset).grantAt .presented = some (.command c (.insert 6 none))
      ∧ ((withCommand State.reset).slot 6).definition.due = .absolute 0)
    ∧ (∃ s c, State.Released s ∧ s.grantAt .presented = some (.command c (.insert 6 none)) ∧ (s.slot 6).definition.due = .relative 5)
    ∧ (∃ s c, State.Released s ∧ s.grantAt .presented = some (.command c (.insert 6 (some 9))))
    ∧ ((withArm (firing (.insert 7 9))).Released ∧ (withArm (firing (.insert 7 9))).grantAt .notYet = some (.waitArm arm))
    ∧ ∃ c, (withCommand (firing (.insert 7 9))).grantAt .notYet = some (.command c (.insert 6 none)) :=
  ⟨⟨withSlot (firing (.insert 5 9)) 5 .held mark none, _, rfl, rfl, rfl⟩, ⟨firing (.insert 5 9), _, rfl, rfl, rfl⟩, ⟨rfl, rfl⟩,
    ⟨State.reset.setArms [arm], _, rfl, rfl, rfl⟩, ⟨_, rfl, rfl⟩,
    ⟨withSlot (executing 0x12 6 [] (.arm 6 none)) 6 .held parsedMark none, _, rfl, rfl, rfl⟩,
    ⟨executing 0x12 6 [9, 0] (.arm 6 (some 9)), _, rfl, rfl⟩, ⟨rfl, rfl⟩, ⟨_, rfl⟩⟩

theorem witness_MoveAndClearTakeTheGrantedRequest :
    (∀ due ∈ [(0x40000000 : Time), 0x40000001, 0x80000000], ∃ s c, State.Released s ∧ s.grantAt .presented = some (.command c (.move 3 due)) ∧ (s.slot 3).state = .armed
      ∧ s.now = 0 ∧ (s.slot 3).definition.pastPolicy = .reject)
    ∧ (∃ s c, State.Released s ∧ s.grantAt .presented = some (.command c (.move 3 9)) ∧ (s.slot 3).state ≠ .armed)
    ∧ armCheck 0x40000000 0 .reject = .placed 0x40000000 ∧ armCheck 0x40000001 0 .reject = .tooFar
    ∧ armCheck 0x80000000 0 .reject = .past
    ∧ (∃ s c, State.Released s ∧ s.grantAmong s.firingRequest (s.waitRequestAtClear .presented) = some (.command c .clear)
      ∧ (s.slot 3).state = .armed ∧ (s.slot 4).state = .free)
    ∧ ∃ s c, State.Released s ∧ s.commandUnit.executing = some ⟨c, .clear⟩ ∧ s.firing = none ∧ s.dueQueue.inFlight = none
      ∧ s.releaseReady = none ∧ s.waitRequest = some arm
      ∧ s.grantAmong s.firingRequest (s.waitRequestAtClear .notYet) = some (.command c .clear) :=
  ⟨by
      intro due h
      refine ⟨armedAt 9 (executing 0x14 3 [9, 0] (.retime 3 due)), ⟨0x14, 3, [9, 0]⟩, rfl, ?_, rfl, rfl, rfl⟩
      simp only [List.mem_cons, List.not_mem_nil, or_false] at h
      rcases h with rfl | rfl | rfl <;> rfl,
    ⟨executing 0x14 3 [9, 0] (.retime 3 9), _, rfl, rfl, by decide⟩, by decide, by decide, by decide,
    ⟨armedAt 9 (executing 0x50 0 [] .clear), _, rfl, rfl, rfl, rfl⟩,
    ⟨withArm (executing 0x50 0 [] .clear), _, rfl, rfl, rfl, rfl, rfl, rfl, rfl⟩⟩

theorem witness_RemoveTakesTheEntryOut :
    (∃ s o, State.Released s ∧ s.grantAt .presented = some (.firing o (.remove 5)) ∧ (s.slot 5).state = .armed)
    ∧ (∃ s o, State.Released s ∧ s.grantAt .presented = some (.firing o (.remove 5)) ∧ (s.slot 5).state ≠ .armed)
    ∧ (∃ s c, State.Released s ∧ s.grantAt .presented = some (.command c (.remove 3)) ∧ (s.slot 3).state = .armed)
    ∧ (∃ s c, State.Released s ∧ s.grantAt .presented = some (.command c (.remove 3)) ∧ (s.slot 3).state = .held)
    ∧ ∃ c, bothRemove.Released ∧ bothRemove.grantAt .notYet = some (.command c (.remove 5)) ∧ (bothRemove.slot 5).state = .armed
      ∧ ∃ o, bothRemove.grantAt .presented = some (.firing o (.remove 5)) :=
  ⟨⟨withSlot (firing (.remove 5)) 5 .armed mark (some 9), _, rfl, rfl, rfl⟩, ⟨firing (.remove 5), _, rfl, rfl, by decide⟩,
    ⟨armedAt 9 (executing 0x13 3 [] (.remove 3)), _, rfl, rfl, rfl⟩,
    ⟨withSlot (executing 0x13 3 [] (.remove 3)) 3 .held mark none, _, rfl, rfl, rfl⟩, ⟨_, rfl, rfl, rfl, _, rfl⟩⟩

theorem witness_HandoffReleasesTheReachedHead :
    (∃ s e rest, State.Released s ∧ s.dueQueue.inFlight = none ∧ s.firing = none ∧ s.dueQueue.entries = e :: rest
      ∧ reached e.due s.now = true ∧ s.waitRequest = none ∧ s.commandRequest = none)
    ∧ (∃ s e rest, State.Released s ∧ s.dueQueue.inFlight = none ∧ s.firing = none ∧ s.dueQueue.entries = e :: rest
      ∧ reached e.due s.now = true ∧ s.waitRequest ≠ none ∧ s.dueQueue.passedOver = false)
    ∧ (∃ s e rest c, State.Released s ∧ s.firing = none ∧ s.dueQueue.entries = e :: rest ∧ reached e.due s.now = true
      ∧ s.commandUnit.executing = some ⟨c, .remove e.slot⟩ ∧ s.dueQueue.passedOver = false)
    ∧ (∀ counted, ∃ s o, State.Released s ∧ s.firing = some o ∧ o.request = none ∧ o.outcome = some .fired ∧ o.counted = counted)
    ∧ (∃ s o, State.Released s ∧ s.firing = some o ∧ o.request = none ∧ o.outcome = none)
    ∧ (∃ o, (firing (.reinsert 9)).firing = some o ∧ o.request ≠ none)
    ∧ State.reset.firing = none ∧ State.reset.dueQueue.entries = []
    ∧ (∃ e, (armedAt 1 State.reset).dueQueue.entries = [e] ∧ reached e.due (armedAt 1 State.reset).now = false)
    ∧ ∃ s : State, s.Released ∧ s.dueQueue.passedOver = true ∧ s.waitRequest ≠ none :=
  ⟨⟨armedAt 0 State.reset, _, _, rfl, rfl, rfl, rfl, by decide, rfl, rfl⟩,
    ⟨withArm (armedAt 0 State.reset), _, _, rfl, rfl, rfl, rfl, by decide, by decide, rfl⟩,
    ⟨armedAt 0 (executing 0x13 3 [] (.remove 3)), _, _, _, rfl, rfl, rfl, by decide, rfl, rfl⟩,
    fun counted => ⟨leftInHand.setFiring (some ⟨3, 0, 0, 0, false, some .fired, false, none, counted⟩), _, rfl, rfl, rfl, rfl, rfl⟩,
    ⟨released, _, rfl, rfl, rfl, rfl⟩, ⟨_, rfl, by decide⟩, rfl, rfl,
    ⟨_, rfl, by decide⟩, ⟨(withArm State.reset).setPassedOver true, rfl, rfl, by decide⟩⟩

theorem witness_LineAndFlagEffectsAreTaken :
    (firing (.drive 15 true)).InHand (inHand (.drive 15 true)) (.drive 15 true)
    ∧ (firing (.toggle 0)).InHand (inHand (.toggle 0)) (.toggle 0)
    ∧ (∀ op, (firing (.flag 63 op)).InHand (inHand (.flag 63 op)) (.flag 63 op) ∧ (firing (.flag 63 op)).flag 63 = false) :=
  ⟨⟨rfl, rfl, rfl⟩, ⟨rfl, rfl, rfl⟩, fun _ => ⟨⟨rfl, rfl, rfl⟩, rfl⟩⟩

theorem witness_PulseEffectStartsRetriggersOrIsSuppressed :
    (∃ s o, State.InHand s o (.pulse 0 9) ∧ s.lineUnit.safeDrive = true)
    ∧ (∃ s o, State.InHand s o (.pulse 0 9) ∧ s.lineUnit.safeDrive = false ∧ (s.line 0).pulse = none)
    ∧ ∃ s o p, State.InHand s o (.pulse 0 9) ∧ s.lineUnit.safeDrive = false ∧ (s.line 0).pulse = some p :=
  ⟨⟨inSafe false (firing (.pulse 0 9)), _, ⟨rfl, rfl, rfl⟩, rfl⟩, ⟨firing (.pulse 0 9), _, ⟨rfl, rfl, rfl⟩, rfl, rfl⟩,
    ⟨(firing (.pulse 0 9)).setLine 0 ((pulsing 9).line 0), _, _, ⟨rfl, rfl, rfl⟩, rfl, rfl⟩⟩

theorem witness_PulseEndGoesToTheInactiveLevel :
    (∃ p, (pulsing 0).Released ∧ ((pulsing 0).line 0).pulse = some p ∧ reached p.endTime (pulsing 0).now = true)
    ∧ (∃ p, ((pulsing 1).line 0).pulse = some p ∧ reached p.endTime (pulsing 1).now = false)
    ∧ (State.reset.line 15).pulse = none :=
  ⟨⟨_, rfl, rfl, by decide⟩, ⟨_, rfl, by decide⟩, rfl⟩

/-- Slot 3 in hand with a request, and a held CANCEL of it. -/
def claimed (r : Request) : State :=
  { firing r with commandUnit := (executing 0x13 3 [] (.cancel 3)).commandUnit }

theorem witness_ReinsertionArmsTheSlotAgain :
    (firing (.reinsert 9)).InHand (inHand (.reinsert 9)) (.reinsert 9) ∧ (firing (.reinsert 9)).dueQueue.inFlight = none
    ∧ ∃ s c, State.InHand s (inHand (.reinsert 9)) (.reinsert 9) ∧ s.commandUnit.executing = some ⟨c, .cancel 3⟩ :=
  ⟨⟨rfl, rfl, rfl⟩, rfl, claimed (.reinsert 9), _, ⟨rfl, rfl, rfl⟩, rfl⟩

/-- A wait spec on flag 32 with a condition and a deadline offset. -/
def spec (c : Condition) (offset : Option (BitVec 24)) : WaitSpec := ⟨32, c, offset, some ⟨5, 2⟩, some 6⟩

/-- Slot 3 in hand since device time 0, its wait to be placed at a later time, with a number of entries in the list. -/
def placing (w : WaitSpec) (now : Time) (entries : Nat) : State :=
  ((firing (.place w)).setTimebase { Timebase.reset with time := now }).setWaitEntries
    (List.replicate entries (waitEntry none))

theorem placing_inHand (w : WaitSpec) (now : Time) (entries : Nat) :
    (placing w now entries).InHand (inHand (.place w)) (.place w) := ⟨rfl, rfl, rfl⟩

theorem witness_PlacementDecidesByTheFirstTest :
    (∃ m, Runs (List.replicate (placing (spec .level0 none) 0 0).flagBank.events.length .matched) (placing (spec .level0 none) 0 0) m
      ∧ m.flag (spec .level0 none).flag = false)
    ∧ (∃ m, Runs (List.replicate (placing (spec .rise (some 4)) 4 0).flagBank.events.length .matched) (placing (spec .rise (some 4)) 4 0) m
      ∧ reached (0 + (4 : BitVec 24).setWidth 32) m.now = true)
    ∧ (∃ m, Runs (List.replicate (placing (spec .rise (some 5)) 4 32).flagBank.events.length .matched) (placing (spec .rise (some 5)) 4 32) m
      ∧ reached (0 + (5 : BitVec 24).setWidth 32) m.now = false ∧ m.waitList.entries.length = 32)
    ∧ (∃ m, Runs (List.replicate (placing (spec .rise none) 4 31).flagBank.events.length .matched) (placing (spec .rise none) 4 31) m
      ∧ m.waitList.entries.length = 31)
    ∧ ∃ s c, State.InHand s (inHand (.place (spec .rise none))) (.place (spec .rise none))
      ∧ s.commandUnit.executing = some ⟨c, .cancel 3⟩ :=
  ⟨⟨_, rfl, rfl⟩, ⟨_, rfl, by decide⟩, ⟨_, rfl, by decide, rfl⟩, ⟨_, rfl, rfl⟩,
    claimed (.place (spec .rise none)), _, ⟨rfl, rfl, rfl⟩, rfl⟩

theorem witness_FlagChangeEndsTheEntriesItMeets :
    (State.reset.Released ∧ State.reset.flagBank.events = [])
    ∧ (∃ s : State, s.Released ∧ s.flagBank.events = [⟨32, true⟩] ∧ s.waitList.entries = [waitEntry (some 0)]
      ∧ reached 0 s.now = true)
    ∧ ∃ s : State, s.Released ∧ s.flagBank.events = [⟨32, true⟩] ∧ s.waitList.entries = [waitEntry (some 1)]
      ∧ reached 1 s.now = false :=
  ⟨⟨rfl, rfl⟩, ⟨{ waiting (some 0) with flagBank := ⟨State.reset.flagBank.flags, [⟨32, true⟩]⟩ }, rfl, rfl, rfl, by decide⟩,
    ⟨{ waiting (some 1) with flagBank := ⟨State.reset.flagBank.flags, [⟨32, true⟩]⟩ }, rfl, rfl, rfl, by decide⟩⟩

theorem witness_AdvanceExpiresTheReachedDeadlines :
    (waiting (some 0)).Released ∧ (waiting (some 0)).waitList.entries = [waitEntry (some 0)]
    ∧ reached 0 (waiting (some 0)).now = true ∧ (waitEntry (some 0)).slot = 4 := ⟨rfl, rfl, by decide, rfl⟩

theorem witness_WithdrawalRemovesTheWaitEntry :
    (∃ s o, State.InHand s o (.withdraw 4) ∧ (s.slot 4).state = .waiting)
    ∧ (∃ s o, State.InHand s o (.withdraw 4) ∧ (s.slot 4).state ≠ .waiting)
    ∧ (∃ s c, State.Released s ∧ s.commandUnit.executing = some ⟨c, .withdraw 4⟩ ∧ (s.slot 4).state = .waiting)
    ∧ ∃ s c, State.Released s ∧ s.commandUnit.executing = some ⟨c, .withdraw 4⟩ ∧ (s.slot 4).state ≠ .waiting :=
  ⟨⟨withSlot (firing (.withdraw 4)) 4 .waiting mark none, _, ⟨rfl, rfl, rfl⟩, rfl⟩,
    ⟨firing (.withdraw 4), _, ⟨rfl, rfl, rfl⟩, by decide⟩,
    ⟨withSlot (executing 0x13 4 [] (.withdraw 4)) 4 .waiting mark none, _, rfl, rfl, rfl⟩,
    ⟨executing 0x13 4 [] (.withdraw 4), _, rfl, rfl, by decide⟩⟩

/-- A state with news of slot 3 in flight. -/
def telling (k : Kind) (s : State) : State := s.setNotes { s.noteQueue with inFlight := [⟨.slot 3, k, 9⟩] }

theorem witness_NewsIsFilteredAndMerged :
    (State.reset.Released ∧ State.reset.noteQueue.inFlight = [])
    ∧ (∀ k, (telling k State.reset).Released ∧ (telling k State.reset).noteQueue.inFlight = [⟨.slot 3, k, 9⟩]
      ∧ (telling k State.reset).noteQueue.records = [])
    ∧ (∃ s : State, s.Released ∧ s.noteQueue.inFlight = [⟨.slot 3, .late, 9⟩] ∧ s.noteQueue.records = [] ++ record :: []
      ∧ record.source = .slot 3)
    ∧ (NewsItem.path ⟨.slot 3, .late, 9⟩ = .other ∧ NewsItem.path ⟨.input 2, .edge, 9⟩ = .edge)
    ∧ ∃ s : State, s.Released ∧ s.noteQueue.inFlight = [⟨.slot 3, .late, 9⟩] ++ ⟨.input 2, .edge, 9⟩ :: []
      ∧ (∀ x ∈ [(⟨.slot 3, .late, 9⟩ : NewsItem)], x.path ≠ .edge) :=
  ⟨⟨rfl, rfl⟩, fun _ => ⟨rfl, rfl, rfl⟩, ⟨telling .late (recorded State.reset), rfl, rfl, rfl, rfl⟩, ⟨rfl, rfl⟩,
    ⟨State.reset.setNotes { NoteQueue.reset with inFlight := [⟨.slot 3, .late, 9⟩, ⟨.input 2, .edge, 9⟩] }, rfl, rfl, by decide⟩⟩

theorem witness_HoldoffTurnsAttentionOn :
    (∃ s : State, s.Released ∧ s.noteQueue.records = [record] ∧ s.noteQueue.holdoff ≠ 0
      ∧ s.noteQueue.holdoff.toNat = record.age)
    ∧ (∃ s : State, s.Released ∧ s.noteQueue.records = [record] ∧ s.noteQueue.holdoff.toNat = record.age + 1)
    ∧ State.reset.noteQueue.records = [] ∧ State.reset.noteQueue.holdoff = 0 :=
  ⟨⟨(recorded State.reset).setNotes { NoteQueue.reset with records := [record], holdoff := 4 }, rfl, rfl, by decide, rfl⟩,
    ⟨(recorded State.reset).setNotes { NoteQueue.reset with records := [record], holdoff := 5 }, rfl, rfl, rfl⟩, rfl, rfl⟩

/-! ### The laws, in a state that has an armed slot, a waiting slot and a slot in hand -/

/-- A MARK that fires twice. -/
def twice : Definition := { mark with intervalA := 3, repeatCount := 2 }

/-- Slot 3 in hand, slot 4 waiting, slot 5 armed. -/
def scheduled : State :=
  ((withSlot (withSlot (firing (.reinsert 9)) 4 .waiting mark none) 5 .armed twice (some 7)).setEntries
    [⟨5, 7⟩]).setWaitEntries [waitEntry none]

theorem scheduled_firing : ∀ i, (scheduled.slot i).state = .firing ↔ i = 3 := by decide

theorem scheduled_defn :
    ∀ i, (scheduled.slot i).defn = none ∨ ((scheduled.slot i).defn = some mark ∧ (scheduled.slot i).remaining = none)
      ∨ ((scheduled.slot i).defn = some twice ∧ (scheduled.slot i).remaining = some 2
        ∧ (scheduled.slot i).taken = 0 ∧ (scheduled.slot i).misses = 0) := by decide

theorem witness_EveryStepKeepsTheScheduleLaws : SlotLaw scheduled ∧ AllowanceLaw scheduled ∧ ∃ t, step scheduled = .next t := by
  refine ⟨⟨by decide, by decide, fun i => ?_, by decide, by decide, by decide, ?_, by decide, by decide, by decide, rfl⟩,
    ⟨fun i d h hz => ?_, fun i d h hz => ?_, by decide, fun o h => ?_, fun o h => ?_⟩, _, rfl⟩
  · rw [scheduled_firing]
    exact ⟨fun h => ⟨_, rfl, h.symm⟩, fun ⟨o, h, hs⟩ => by cases h; exact hs.symm⟩
  · intro o h; cases h; rfl
  · rcases scheduled_defn i with hi | hi | hi
    · rw [hi] at h; cases h
    · exact hi.2
    · rw [hi.1] at h; cases h; exact absurd hz (by decide)
  · rcases scheduled_defn i with hi | hi | hi
    · rw [hi] at h; cases h
    · rw [hi.1] at h; cases h; exact absurd rfl hz
    · rw [hi.1] at h; cases h
      exact ⟨2, hi.2.1, by rw [hi.2.2.1, hi.2.2.2]; rfl⟩
  · cases h; exact .inr (.inr (by decide))
  · cases h; nofun

/-- A line with a pulse, a record with attention on, a result record half read. -/
def reporting : State :=
  { pulsing 9 with
    noteQueue := { NoteQueue.reset with records := [record], attention := true }
    commandUnit := ⟨[⟨0x00, 0, []⟩], none, [⟨0x16, 3, .ok, [0, 0, 0, 0, 0, 0, 0, 0]⟩]⟩
    window := { Window.reset with resultCursor := 9, noteCursor := 4 } }

theorem witness_EveryStepKeepsTheLineLaw : LineLaw (pulsing 9) ∧ ∃ t, step (pulsing 9) = .next t :=
  ⟨⟨by decide, by decide, by decide, by decide, by decide⟩, _, rfl⟩

theorem witness_EveryStepKeepsTheRecordAndPathLaws :
    NoteLaw reporting ∧ PathLaw reporting ∧ CountLaw reporting ∧ ∃ t, step reporting = .next t := by
  refine ⟨⟨by decide, by decide, by decide, by decide, ?_⟩, ⟨by decide, by decide, by decide, ?_⟩,
    ⟨by decide, by decide, by decide⟩, _, rfl⟩
  · exact ⟨fun _ => ⟨record, [], rfl, .inl (by decide)⟩, fun _ => rfl⟩
  · refine ⟨by decide, nofun, fun r rest h => ?_⟩
    cases h; decide

end Sys2Proof.Tests
end

