-- ==== Sys2Proof/Proofs/DesiredRunState.lean ====
section
/-! SUPPORT. RUN_TIME and HOLD_TIME (R5, R6). Both are one update of the desired run state; the counted tick and the RESUME that
meet it depend on it through `Timebase.running` only. -/

namespace Sys2Proof.Proofs

open Sys2Proof.Machine Sys2Proof.Laws

/-! ## Running device time -/

theorem running_iff (b : Timebase) : b.running = true ↔ b.desired = .run ∧ b.freeze = false := by
  simp [Timebase.running]

theorem running_of_run (b : Timebase) (h : b.desired = .run) : b.running = !b.freeze := by
  rw [Timebase.running, h]
  rfl

theorem running_of_hold (b : Timebase) (h : b.desired = .hold) : b.running = false := by
  rw [Timebase.running, h]
  rfl

/-- R4, in terms of `running`. -/
theorem ticked_time (b : Timebase) : b.ticked.time = if b.running then b.time + 1 else b.time :=
  if_congr (running_iff b).symm rfl rfl

/-! ## The two commands -/

/-- The state once the command `c` has set the desired run state to `r` and is answered OK, with `rest` in the FIFO. -/
def withDesired (s : State) (r : RunState) (rest : List Command) (c : Command) : State :=
  { s with timebase := { s.timebase with desired := r }, commandUnit := s.commandUnit.answered rest c .ok [] }

theorem withDesired_released {s : State} {r : RunState} {rest : List Command} {c : Command} (h : s.Released) :
    (withDesired s r rest c).Released := h

theorem withDesired_now (s : State) (r : RunState) (rest : List Command) (c : Command) :
    (withDesired s r rest c).now = s.now := rfl

theorem withDesired_run (s : State) (rest : List Command) (c : Command) :
    (withDesired s .run rest c).timebase.running = !s.timebase.freeze := running_of_run _ rfl

theorem withDesired_hold (s : State) (rest : List Command) (c : Command) :
    (withDesired s .hold rest c).timebase.running = false := running_of_hold _ rfl

theorem startDesire_nil (r : RunState) (c : Command) (s : State) (h : c.args = []) :
    startDesire r c s = (s.setTimebase { s.timebase with desired := r }).complete c .ok [] := by
  rw [startDesire, h]

theorem startDesire_args (r : RunState) (c : Command) (s : State) (h : c.args ≠ []) :
    startDesire r c s = s.complete c .argCount [] := by
  obtain ⟨w, ws, hw⟩ := List.exists_cons_of_ne_nil h
  rw [startDesire, hw]

/-- The row of RUN_TIME (`r = .run`) or of HOLD_TIME (`r = .hold`). -/
def desireRow (s : State) (op : Opcode) (reach : CommandReach) (r : RunState) : State :=
  s.unlessHeld fun s => s.runCommand op reach (startDesire r) noResume

theorem exec_runTime (s : State) (reach : CommandReach) :
    exec (.runTime reach) s = .next (desireRow s .runTime reach .run) := rfl

theorem exec_holdTime (s : State) (reach : CommandReach) :
    exec (.holdTime reach) s = .next (desireRow s .holdTime reach .hold) := rfl

section
variable {s : State} {op : Opcode} {c : Command} {rest : List Command} {reach : CommandReach}

theorem desireRow_nil (h : s.Gives op c rest reach) (r : RunState) (hc : c.args = []) :
    desireRow s op reach r = withDesired s r rest c := by
  obtain ⟨m, hm, em⟩ := runCommand_gives s op c rest reach h (startDesire r) noResume
  rw [desireRow, unlessHeld_released s _ h.1, hm, em, startDesire_nil r c _ hc]
  rfl

theorem desireRow_args (h : s.Gives op c rest reach) (r : RunState) (hc : c.args ≠ []) :
    desireRow s op reach r = { s with commandUnit := s.commandUnit.answered rest c .argCount [] } := by
  obtain ⟨m, hm, em⟩ := runCommand_gives s op c rest reach h (startDesire r) noResume
  rw [desireRow, unlessHeld_released s _ h.1, hm, em, startDesire_args r c _ hc, complete_given]

end

/-! ## The counted tick behind the command -/

/-- The desired run state and the command unit are no part of what makes a tick a counted one. -/
theorem countsTick_withDesired (s : State) (r : RunState) (rest : List Command) (c : Command) (k : Instr) :
    (withDesired s r rest c).CountsTick k ↔ s.CountsTick k := Iff.rfl

theorem countsTick_running {s t : State} {k : Instr} (hr : s.Released) (hk : s.CountsTick k) (he : exec k s = .next t) :
    t.now = if s.timebase.running then s.now + 1 else s.now :=
  (countsTick_now s t k hr hk he).trans (ticked_time s.timebase)

theorem countsTick_run_now {s u : State} {k : Instr} {rest : List Command} {c : Command} (hr : s.Released)
    (hk : s.CountsTick k) (he : exec k (withDesired s .run rest c) = .next u) :
    u.now = if s.timebase.freeze then s.now else s.now + 1 := by
  have hu := countsTick_running (withDesired_released hr) ((countsTick_withDesired s .run rest c k).2 hk) he
  rw [withDesired_run, withDesired_now] at hu
  cases hf : s.timebase.freeze <;> simpa [hf] using hu

theorem countsTick_hold_now {s u : State} {k : Instr} {rest : List Command} {c : Command} (hr : s.Released)
    (hk : s.CountsTick k) (he : exec k (withDesired s .hold rest c) = .next u) : u.now = s.now := by
  have hu := countsTick_running (withDesired_released hr) ((countsTick_withDesired s .hold rest c k).2 hk) he
  rw [withDesired_hold, withDesired_now] at hu
  exact hu

/-! ## The RESUME behind the command -/

/-- What a RESUME does to the timebase and the safe controller: nothing, or the safe exit, which clears the freeze mark (R160). -/
def Resumed (s t : State) : Prop :=
  (t.timebase = s.timebase ∧ t.safeController = s.safeController)
    ∨ (t.timebase = { s.timebase with freeze := false } ∧ t.safeController.state = .run)

theorem startResume_resumed (c : Command) (s : State) : Resumed s (startResume c s) := by
  unfold startResume
  split
  · split
    · exact .inl ⟨rfl, rfl⟩
    · split
      · exact .inl ⟨rfl, rfl⟩
      · exact .inr ⟨rfl, rfl⟩
  · exact .inl ⟨rfl, rfl⟩

theorem exec_resume_resumed (s t : State) (reach : CommandReach) (h : exec (.resume reach) s = .next t) : Resumed s t := by
  have e : exec (.resume reach) s
      = .next (s.unlessHeld fun s => s.runCommand .resume reach startResume noResume) := rfl
  rw [e] at h
  cases h
  cases hp : s.pins.resetHeld with
  | true =>
    rw [unlessHeld_held s _ hp]
    exact .inl ⟨rfl, rfl⟩
  | false =>
    rw [unlessHeld_released s _ hp, State.runCommand]
    obtain h | ⟨c, rest, -, -, -, h | h⟩ | ⟨c, -, -, h⟩ | ⟨x, -, -, -, h⟩ :=
      takeCommand_cases s (Opcode.ofCode ·.code = some .resume) reach startResume noResume
    · rw [h]
      exact .inl ⟨rfl, rfl⟩
    · rw [h]
      exact startResume_resumed c (s.setCommands { s.commandUnit with fifo := rest })
    · rw [h]
      exact .inl ⟨rfl, rfl⟩
    · rw [h]
      exact startResume_resumed c s
    · rw [h]
      exact .inl ⟨rfl, rfl⟩

/-- No RESUME changes the desired run state. -/
theorem Resumed.desired {s t : State} (h : Resumed s t) : t.timebase.desired = s.timebase.desired := by
  rcases h with ⟨hb, -⟩ | ⟨hb, -⟩ <;> rw [hb]

/-- A RESUME that ends SAFE leaves no freeze mark. -/
theorem Resumed.freeze {s t : State} (h : Resumed s t) (hs : s.safeController.state = .safe)
    (ht : t.safeController.state = .run) : t.timebase.freeze = false := by
  rcases h with ⟨-, hc⟩ | ⟨hb, -⟩
  · rw [hc, hs] at ht
    cases ht
  · rw [hb]

/-! ## The statements -/

/-- Settles O13: the command is one update of the desired run state, so the tick's `running` is the negated freeze mark, and a safe
exit clears that mark. -/
theorem runTimeSetsTheDesiredState : Obligations.RunTimeSetsTheDesiredState := by
  intro s c rest reach h
  have hr : s.Released := h.1
  have row : c.args = [] → exec (.runTime reach) s = .next (withDesired s .run rest c) := fun hc => by
    rw [exec_runTime, desireRow_nil h .run hc]
  refine ⟨fun hc => ?_, row, fun hc k t u v ht hk hu hv => ?_, fun hc t u later ht hu hs hrun => ?_⟩
  · rw [exec_runTime, desireRow_args h .run hc]
  · cases (row hc).symm.trans ht
    have now := countsTick_run_now hr hk hu
    refine ⟨fun hf => ?_, fun hf => ?_, fun hd => ?_⟩
    · simpa [hf] using now
    · simpa [hf] using now
    · simpa [running_of_hold _ hd] using countsTick_running hr hk hv
  · cases (row hc).symm.trans ht
    have resumed := exec_resume_resumed _ u later hu
    exact (running_iff _).2 ⟨resumed.desired, resumed.freeze hs hrun⟩

/-- Settles O14: with the desired run state HOLD device time does not run, whatever the freeze mark, and no RESUME changes that
state. -/
theorem holdTimeClearsTheDesiredState : Obligations.HoldTimeClearsTheDesiredState := by
  intro s c rest reach h
  have hr : s.Released := h.1
  have row : c.args = [] → exec (.holdTime reach) s = .next (withDesired s .hold rest c) := fun hc => by
    rw [exec_holdTime, desireRow_nil h .hold hc]
  refine ⟨fun hc => ?_, row, fun hc k t u v ht hk hu hv => ?_, fun hc t u later ht hu => ?_⟩
  · rw [exec_holdTime, desireRow_args h .hold hc]
  · cases (row hc).symm.trans ht
    refine ⟨countsTick_hold_now hr hk hu, fun hrun => ?_⟩
    simpa [hrun] using countsTick_running hr hk hv
  · cases (row hc).symm.trans ht
    exact running_of_hold _ (exec_resume_resumed _ u later hu).desired

end Sys2Proof.Proofs
end

