-- ==== Sys2Proof/Proofs/CommandInterface.lean ====
section
/-! SUPPORT. NOP and CLEAR_STAGE (R176, R166). A row of the command unit acts on the command it gives to its owner, and leaves the
state where another command executes or stands at the head of the FIFO. -/

namespace Sys2Proof.Proofs

open Sys2Proof.Machine Sys2Proof.Laws

/-! ## A row of the command unit that finds another kind of command -/

theorem runCommand_busy {s : State} {op : Opcode} {x : Executing} (hx : s.commandUnit.executing = some x)
    (hc : Opcode.ofCode x.command.code ≠ some op) (r : CommandReach) (start : Command → State → State)
    (resume : Executing → State → State) : s.runCommand op r start resume = s :=
  takeCommand_busy s _ x r hx (decide_eq_false hc) start resume

theorem runCommand_other {s : State} {op : Opcode} {c : Command} {rest : List Command} (hx : s.commandUnit.executing = none)
    (hf : s.commandUnit.fifo = c :: rest) (hc : Opcode.ofCode c.code ≠ some op) (r : CommandReach)
    (start : Command → State → State) (resume : Executing → State → State) : s.runCommand op r start resume = s :=
  takeCommand_other s _ c rest r hx hf (decide_eq_false hc) start resume

/-- Where a row changes nothing with RESET# released, it changes nothing at all (R164). -/
theorem unlessHeld_of_unchanged {s : State} {f : State → State} (h : f s = s) : s.unlessHeld f = s := by
  rw [State.unlessHeld, h, ite_self]

/-! ## NOP -/

theorem exec_nop (s : State) (reach : CommandReach) :
    exec (.nop reach) s = .next (s.unlessHeld fun s => s.runCommand .nop reach startNop noResume) := rfl

theorem startNop_nil {c : Command} (h : c.args = []) (s : State) : startNop c s = s.complete c .ok [] := by
  rw [startNop, h]

theorem startNop_args {c : Command} (h : c.args ≠ []) (s : State) : startNop c s = s.complete c .argCount [] := by
  obtain ⟨w, ws, hw⟩ := List.exists_cons_of_ne_nil h
  rw [startNop, hw]

/-- Where NOP is given to its owner, the row is the answer to it, whichever that is. -/
theorem exec_nop_gives {s : State} {c : Command} {rest : List Command} {reach : CommandReach} {status : Status}
    (h : s.Gives .nop c rest reach) (answer : ∀ t, startNop c t = t.complete c status []) :
    exec (.nop reach) s = .next { s with commandUnit := s.commandUnit.answered rest c status [] } := by
  obtain ⟨given, row, taken⟩ := runCommand_gives s .nop c rest reach h startNop noResume
  rw [exec_nop, unlessHeld_released s _ h.1, row, taken, answer, complete_given]

theorem exec_nop_unchanged {s : State} {reach : CommandReach} (h : s.runCommand .nop reach startNop noResume = s) :
    exec (.nop reach) s = .next s := by
  rw [exec_nop, unlessHeld_of_unchanged h]

/-- Settles O20: the row answers the NOP it gives to its owner, and behind another command it takes nothing. -/
theorem nopIsAnsweredInItsTurn : Obligations.NopIsAnsweredInItsTurn := by
  refine ⟨fun s c rest reach gives => ⟨fun noWords => ?_, fun words => ?_⟩, fun s x reach busy other => ?_,
    fun s c rest reach idle head other => ?_⟩
  · exact exec_nop_gives gives (startNop_nil noWords)
  · exact exec_nop_gives gives (startNop_args words)
  · exact exec_nop_unchanged (runCommand_busy busy other reach startNop noResume)
  · exact exec_nop_unchanged (runCommand_other idle head other reach startNop noResume)

/-! ## CLEAR_STAGE -/

theorem exec_clearStage (s : State) (operand : Byte) :
    exec (.clearStage operand) s = .next (s.unlessHeld State.clearStage) := rfl

theorem clearStage_eq (s : State) : s.clearStage = { s with window := { s.window with staging := [] } } := rfl

/-- Settles O32: with RESET# released the row is the emptied staging list, and its low byte is read nowhere. -/
theorem clearStageEmptiesTheStagingList : Obligations.ClearStageEmptiesTheStagingList := by
  intro s operand released
  rw [exec_clearStage, unlessHeld_released s _ released, clearStage_eq]

end Sys2Proof.Proofs
end

