-- ==== Sys2Proof/Proofs/RegisterWindow.lean ====
section
/-! SUPPORT. IDENT in the register window (11.1, R186). With RESET# released a read is the word of the register, and the word of IDENT
is a constant of the device: no part of the state enters it. -/

namespace Sys2Proof.Proofs

open Sys2Proof.Machine

/-- A read with RESET# released returns the word of the register (11.1). -/
theorem readRegister_released {s : State} (addr : BitVec 4) (h : s.Released) : readRegister addr s = s.registerWord addr := by
  rw [readRegister, show s.pins.resetHeld = false from h]
  rfl

theorem registerWord_ident (s : State) : s.registerWord 0xE = Config.ident := rfl

theorem readRegister_ident {s : State} (h : s.Released) : readRegister 0xE s = Config.ident :=
  (readRegister_released 0xE h).trans (registerWord_ident s)

/-- The fields of R186: device code, family code, revision. -/
theorem ident_fields :
    Config.ident.extractLsb' 8 8 = 0x4C ∧ Config.ident.extractLsb' 4 4 = 0x8 ∧ Config.ident.extractLsb' 0 4 = 0x1 := by
  decide

/-- Settles O6: with RESET# released IDENT reads one constant, before a command and after it. -/
theorem identReadsTheDeviceCode : Obligations.IdentReadsTheDeviceCode := by
  refine ⟨fun s released => readRegister_ident released, fun s released => ?_, fun c s t released _ releasedAfter => ?_⟩
  · rw [readRegister_ident released]
    exact ident_fields
  · rw [readRegister_ident releasedAfter, readRegister_ident released]

end Sys2Proof.Proofs
end

section
/-! SUPPORT. What each row does while RESET# is released and while it is held, and the induction that every law of the device goes
through: a property that pins, reset, CLK periods and every row keep is kept by every step. -/

namespace Sys2Proof.Proofs

open Sys2Proof.Machine Sys2Proof.Laws

/-! ## The commands by their codes -/

/-- What the command unit does with a command of a kind that it gives to its owner. -/
def startOf : Opcode → Command → State → State
  | .nop => startNop
  | .define => fun c s => c.onSlot [Config.defineWords] s fun i => s.takeDefine c i
  | .defineArm => fun c s => c.onSlot [Config.defineWords] s fun i => s.takeDefineArm c i
  | .arm => startArm
  | .cancel => startCancel
  | .retime => startRetime
  | .release => fun c s => c.onSlot [0] s fun i => s.takeRelease c i
  | .query => fun c s => c.onSlot [0] s fun i => s.takeQuery c i
  | .setTime => startSetTime
  | .runTime => startDesire .run
  | .holdTime => startDesire .hold
  | .setTick => startSetTick
  | .setLine => startSetLine
  | .configLine => startConfigLine
  | .configInput => startConfigInput
  | .configNotify => startConfigNotify
  | .configSafe => startConfigSafe
  | .forceSafe => startForceSafe
  | .resume => startResume
  | .resetSchedule => startResetSchedule
  | .resetDevice => startResetDevice

/-- What the command unit does with a command of a kind that waits. -/
def resumeOf : Opcode → Executing → State → State
  | .define => resumeDefine
  | .defineArm => resumeDefineArm
  | .cancel => resumeCancel
  | .release => resumeRelease
  | .query => resumeQuery
  | .setTime => resumeSetTime
  | _ => noResume

theorem exec_row (op : Opcode) (reach : CommandReach) (s : State) :
    exec (op.row reach) s = .next (s.unlessHeld fun s => s.runCommand op reach (startOf op) (resumeOf op)) := by
  cases op <;> rfl

/-! ## A row while RESET# is released -/

/-- The effect of a row in a state with RESET# released. -/
def effect : Instr → State → State
  | .hardReset, s => s.resetBlocks.holdReset true
  | .powerOn, s => s.resetBlocks
  | .tick pins order clk safe, s => s.internalTick clk pins ⟨order, safe⟩
  | .tickEdge steady pins order low safe, s => s.externalEdge steady low pins ⟨order, safe⟩
  | .inputAccept, s => s.takeAcceptance
  | .safeAsserted samples order safe, s => s.holdSafePin true samples ⟨order, safe⟩
  | .safeReleased samples order safe, s => s.holdSafePin false samples ⟨order, safe⟩
  | .handoff after, s => s.handoffStep after
  | .driveEffect after, s => s.driveStep after
  | .toggleEffect after, s => s.toggleStep after
  | .pulseEffect after, s => s.pulseStep after
  | .pulseEnd line, s => s.endPulse line
  | .flagEffect after, s => s.flagStep after
  | .insert after asked, s => s.insertStep after asked
  | .reinsertion, s => s.reinsertionStep
  | .remove after asked, s => s.removeStep after asked
  | .move asked, s => s.moveStep asked
  | .clear arms, s => s.clearStep arms
  | .waitPlacement, s => s.placementStep
  | .matched, s => s.takeFlagEvent
  | .timeout, s => s.expireDeadlines
  | .withdrawal .firingUnit after, s => s.firingWithdrawal after
  | .withdrawal .commandUnit _, s => s.commandWithdrawal
  | .news path, s => s.takeNews path
  | .holdoff, s => s.holdoffStep
  | .stageWrite data, s => s.stageWrite data
  | .resultRead, s => s.resultRead
  | .noteRead, s => s.noteRead
  | .timeLoRead, s => s.timeLoRead
  | .flagValueWrite data, s => s.flagValueWrite data
  | .flagSelectWrite data, s => s.flagSelectWrite data
  | .intEnableWrite data, s => s.intEnableWrite data
  | .errorWrite data, s => s.errorWrite data
  | .badAddress access, s => s.badAccess access
  | .clearStage _, s => s.clearStage
  | .nop r, s => s.runCommand .nop r (startOf .nop) (resumeOf .nop)
  | .badCode r, s => s.badCodeStep r
  | .define r, s => s.runCommand .define r (startOf .define) (resumeOf .define)
  | .defineArm r, s => s.runCommand .defineArm r (startOf .defineArm) (resumeOf .defineArm)
  | .arm r, s => s.runCommand .arm r (startOf .arm) (resumeOf .arm)
  | .cancel r, s => s.runCommand .cancel r (startOf .cancel) (resumeOf .cancel)
  | .retime r, s => s.runCommand .retime r (startOf .retime) (resumeOf .retime)
  | .release r, s => s.runCommand .release r (startOf .release) (resumeOf .release)
  | .query r, s => s.runCommand .query r (startOf .query) (resumeOf .query)
  | .setTime r, s => s.runCommand .setTime r (startOf .setTime) (resumeOf .setTime)
  | .runTime r, s => s.runCommand .runTime r (startOf .runTime) (resumeOf .runTime)
  | .holdTime r, s => s.runCommand .holdTime r (startOf .holdTime) (resumeOf .holdTime)
  | .setTick r, s => s.runCommand .setTick r (startOf .setTick) (resumeOf .setTick)
  | .setLine r, s => s.runCommand .setLine r (startOf .setLine) (resumeOf .setLine)
  | .configLine r, s => s.runCommand .configLine r (startOf .configLine) (resumeOf .configLine)
  | .configInput r, s => s.runCommand .configInput r (startOf .configInput) (resumeOf .configInput)
  | .configNotify r, s => s.runCommand .configNotify r (startOf .configNotify) (resumeOf .configNotify)
  | .configSafe r, s => s.runCommand .configSafe r (startOf .configSafe) (resumeOf .configSafe)
  | .forceSafe r, s => s.runCommand .forceSafe r (startOf .forceSafe) (resumeOf .forceSafe)
  | .resume r, s => s.runCommand .resume r (startOf .resume) (resumeOf .resume)
  | .resetSchedule r, s => s.runCommand .resetSchedule r (startOf .resetSchedule) (resumeOf .resetSchedule)
  | .resetDevice r, s => s.runCommand .resetDevice r (startOf .resetDevice) (resumeOf .resetDevice)
  | .commandWrite data, s => s.commandWrite data
  | .resetReleased, s => s

/-- Every row is answered with its effect while RESET# is released. -/
theorem exec_released (c : Instr) {s : State} (h : s.Released) : exec c s = .next (effect c s) := by
  have answer (f : State → State) : (Host.Outcome.next (s.unlessHeld f) : Result) = .next (f s) :=
    congrArg _ (unlessHeld_released s f h)
  have answerRead (f : State → State) : (Host.Outcome.next (s.readUnlessHeld f) : Result) = .next (f s) :=
    congrArg _ (readUnlessHeld_released s f h)
  cases c
  case hardReset | powerOn => rfl
  case resetReleased => exact congrArg _ (if_neg (by rw [show s.pins.resetHeld = false from h]; exact Bool.false_ne_true))
  case resultRead | noteRead | timeLoRead => exact answerRead _
  case badAddress a =>
    cases a with
    | read _ => exact answerRead _
    | write _ _ => exact answer _
  case withdrawal requester after => cases requester <;> exact answer _
  all_goals exact answer _

/-! ## A row while RESET# is held (R164) -/

/-- The rows that return a word on D15 to D0. -/
def isRead : Instr → Bool
  | .resultRead | .noteRead | .timeLoRead | .badAddress (.read _) => true
  | _ => false

/-- The rows of reset. -/
def isReset : Instr → Bool
  | .hardReset | .powerOn | .resetReleased => true
  | _ => false

/-- A held read returns 0 and changes nothing else. -/
theorem exec_held_read {c : Instr} {s : State} (h : s.pins.resetHeld = true) (hc : isRead c = true) :
    exec c s = .next (s.returnWord 0) := by
  have answer (f : State → State) : (Host.Outcome.next (s.readUnlessHeld f) : Result) = .next (s.returnWord 0) :=
    congrArg _ (if_pos h)
  cases c
  case resultRead | noteRead | timeLoRead => exact answer _
  case badAddress a =>
    cases a with
    | read _ => exact answer _
    | write _ _ => cases hc
  all_goals cases hc

/-- Every other held row, those of reset apart, changes nothing. -/
theorem exec_held {c : Instr} {s : State} (h : s.pins.resetHeld = true) (hc : isRead c = false) (hr : isReset c = false) :
    exec c s = .next s := by
  have answer (f : State → State) : (Host.Outcome.next (s.unlessHeld f) : Result) = .next s :=
    congrArg _ (unlessHeld_held s f h)
  cases c
  case hardReset | powerOn | resetReleased => cases hr
  case resultRead | noteRead | timeLoRead => cases hc
  case badAddress a =>
    cases a with
    | read _ => cases hc
    | write _ _ => exact answer _
  case withdrawal requester after => cases requester <;> exact answer _
  all_goals exact answer _

/-! ## Properties that every step keeps -/

/-- `f` keeps the property `P`. -/
def Keeps (P : State → Prop) (f : State → State) : Prop := ∀ s, P s → P (f s)

theorem Keeps.iterate {P : State → Prop} {f : State → State} (hf : Keeps P f) (n : Nat) : Keeps P f^[n] := by
  induction n with
  | zero => exact fun _ h => h
  | succ n ih =>
    intro s h
    rw [Function.iterate_succ_apply']
    exact hf _ (ih s h)

theorem Keeps.foldl {P : State → Prop} {α : Type} {f : State → α → State} (hf : ∀ x, Keeps P (f · x)) (xs : List α) :
    Keeps P fun s => xs.foldl f s := by
  induction xs with
  | nil => exact fun _ h => h
  | cons x xs ih => exact fun s h => ih _ (hf x s h)

/-- The rows that stand for CLK periods, and the rows of reset. -/
def isClkOrReset : Instr → Bool
  | .tick _ _ _ _ | .tickEdge _ _ _ _ _ | .safeAsserted _ _ _ | .safeReleased _ _ _ => true
  | c => isReset c

/-- A property of the device that does not depend on the levels at the pins, holds after a reset of every block, and is kept by a CLK
period and by every row that is neither CLK periods nor a reset. -/
structure KeptByRows (P : State → Prop) : Prop where
  pins : ∀ p, Keeps P (·.setPins p)
  reset : Keeps P State.resetBlocks
  clk : ∀ order, Keeps P (·.clkPeriod order)
  row : ∀ c, isClkOrReset c = false → Keeps P (effect c)

variable {P : State → Prop}

theorem KeptByRows.clkPeriods (k : KeptByRows P) (n : Nat) (order : ClkOrder) : Keeps P (·.clkPeriods n order) := by
  intro s h
  simp only [clkPeriods_iterate]
  exact (k.clk order).iterate n s h

/-- The row TICK is CLK periods, one after another (R1). -/
theorem KeptByRows.internalTick (k : KeptByRows P) (clk : Nat) (pins : BitVec 16) (order : ClkOrder) :
    Keeps P (·.internalTick clk pins order) := by
  intro s h
  simp only [State.internalTick]
  split
  case h_2 => exact h
  case h_1 hs =>
    have quiet (n : Nat) (hn : n ≤ s.timebase.beforeTick) : P ((s.showInputs pins).quietClk n) := by
      rw [quietClk_iterate (s.showInputs pins) order n (.inl hs) (.inr hn)]
      exact (k.clk order).iterate n _ (k.pins _ s h)
    split
    · next hc => exact quiet clk hc
    · exact k.clk order _ (quiet _ (Nat.le_refl _))

theorem KeptByRows.externalEdge (k : KeptByRows P) (steady low : Nat) (pins : BitVec 16) (order : ClkOrder) :
    Keeps P (·.externalEdge steady low pins order) := fun s h =>
  k.clk order _ (k.pins _ _ (k.clkPeriods low order _ (k.pins _ _ (k.clkPeriods steady order _ (k.pins _ _ (k.pins _ s h))))))

theorem KeptByRows.holdSafePin (k : KeptByRows P) (low : Bool) (n : Nat) (order : ClkOrder) :
    Keeps P (·.holdSafePin low n order) := fun s h => k.clkPeriods n order _ (k.pins _ s h)

theorem KeptByRows.effect (k : KeptByRows P) (c : Instr) : Keeps P (effect c) := by
  cases hc : isClkOrReset c with
  | false => exact k.row c hc
  | true =>
    cases c
    case hardReset => exact fun s h => k.pins _ _ (k.reset s h)
    case powerOn => exact k.reset
    case resetReleased => exact fun _ h => h
    case tick => exact k.internalTick _ _ _
    case tickEdge => exact k.externalEdge _ _ _ _
    case safeAsserted | safeReleased => exact k.holdSafePin _ _ _
    all_goals cases hc

/-- Such a property is kept by every row, whether RESET# is held or not. -/
theorem KeptByRows.exec (k : KeptByRows P) {c : Instr} {s t : State} (h : P s) (e : exec c s = .next t) : P t := by
  cases hp : s.pins.resetHeld with
  | false =>
    rw [exec_released c hp] at e
    cases e
    exact k.effect c s h
  | true =>
    cases hread : isRead c with
    | true =>
      rw [exec_held_read hp hread] at e
      cases e
      exact k.pins _ s h
    | false =>
      cases hreset : isReset c with
      | false =>
        rw [exec_held hp hread hreset] at e
        cases e
        exact h
      | true =>
        cases c
        case hardReset => cases e; exact k.pins _ _ (k.reset s h)
        case powerOn => cases e; exact k.reset s h
        case resetReleased =>
          cases e
          rw [if_pos hp]
          exact k.pins _ _ (k.reset s h)
        all_goals cases hreset

/-- Such a property is kept by every step, if the queue of steps is no part of it. -/
theorem KeptByRows.step (k : KeptByRows P) (queue : ∀ q, Keeps P (·.setPending q)) {s t : State} (h : P s)
    (e : step s = .next t) : P t := by
  cases hq : s.pending with
  | cons c rest =>
    simp only [Machine.step, hq] at e
    exact k.exec (queue rest s h) e
  | nil =>
    simp only [Machine.step, hq] at e
    cases e
    unfold State.unlessHeld
    split
    · exact h
    · exact k.clk _ s h

/-! ## Rows of the command unit -/

/-- A row of the command unit keeps `P` where `Q` holds of a state in which a command is being given to its owner. -/
theorem takeCommand_keeps {P Q : State → Prop} {mine : Command → Bool} {reach : CommandReach}
    {start : Command → State → State} {resume : Executing → State → State} {s : State} (h : P s)
    (taken : ∀ c rest, s.commandUnit.executing = none → s.commandUnit.fifo = c :: rest →
      Q (s.setCommands { s.commandUnit with fifo := rest }) ∧ P { s with commandUnit := s.commandUnit.waiting rest c .taken })
    (executing : ∀ x, s.commandUnit.executing = some x → Q s)
    (hstart : ∀ c t, Q t → P (start c t)) (hresume : ∀ x, s.commandUnit.executing = some x → P (resume x s)) :
    P (s.takeCommand mine reach start resume) := by
  obtain e | ⟨c, rest, hx, hf, -, e | e⟩ | ⟨c, hx, -, e⟩ | ⟨x, hx, -, -, e⟩ := takeCommand_cases s mine reach start resume
  · rwa [e]
  · rw [e]
    exact hstart c _ (taken c rest hx hf).1
  · rw [e]
    exact (taken c rest hx hf).2
  · rw [e]
    exact hstart c s (executing _ hx)
  · rw [e]
    exact hresume x hx

end Sys2Proof.Proofs
end

section
/-! SUPPORT. The schedule (slots, due queue, firing unit, wait list) moves in a few ways only. They are listed here once, each with what
makes it lawful, and every row of the schedule is shown to be a chain of them. -/

namespace Sys2Proof.Proofs

open Sys2Proof.Machine Sys2Proof.Laws

/-! ## The moves -/

/-- The occurrence has yet to be counted: nothing has counted it, or it waits for an answer that comes before its counting. -/
structure Uncounted (o : Occurrence) : Prop where
  request : ∀ w, o.request ≠ some (.place w)
  mark : o.outcome = none ∨ o.request ≠ none ∨ o.counted = false

/-- The firing unit has the occurrence in hand, its late mark and its self-cancel apart, and has yet to count it. -/
def InHandUncounted (s : State) (o : Occurrence) : Prop :=
  Uncounted o ∧ ∃ late selfCancel, s.firing = some { o with late := late, selfCancel := selfCancel }

/-- One move of the schedule, or a change beside it that a row of the schedule makes. -/
inductive ScheduleMove (s : State) : State → Prop
  | passedOver (b : Bool) : ScheduleMove s (s.setPassedOver b)
  | arms (as : List PendingArm) : ScheduleMove s (s.setArms as)
  | news (src : Source) (k : Kind) (time : Time) : ScheduleMove s (s.send src k time)
  | flags (b : FlagBank) : ScheduleMove s { s with flagBank := b }
  | work (f : Work → Work) : ScheduleMove s (s.mapWork f)
  | answered (c : Command) (w : Work) (h : s.commandUnit.executing = some ⟨c, w⟩) (st : Status) : ScheduleMove s (s.complete c st [])
  | defined (i : SlotId) (d : Definition) (h : (s.slot i).state = .free ∨ (s.slot i).state = .held ∨ (s.slot i).state = .done) :
    ScheduleMove s (s.setSlot i (Slot.defined d))
  | released (i : SlotId) (h : (s.slot i).state = .held ∨ (s.slot i).state = .done) : ScheduleMove s (s.setSlot i Slot.unused)
  | refused (i : SlotId) (h : (s.slot i).state = .held ∨ (s.slot i).state = .done) :
    ScheduleMove s (s.setSlot i { s.slot i with state := .held })
  | armed (i : SlotId) (due : Time) (h : (s.slot i).state = .held ∨ (s.slot i).state = .done) : ScheduleMove s (s.placeArm i due)
  | takenOut (i : SlotId) (h : (s.slot i).state = .armed) : ScheduleMove s (s.takeOut i)
  | retimed (i : SlotId) (due : Time) (h : (s.slot i).state = .armed) :
    ScheduleMove s ((s.setEntries (insertEntry ⟨i, due⟩ (removeEntry i s.dueQueue.entries))).setSlot i
      { s.slot i with due := some due })
  | swept : ScheduleMove s s.sweep
  | withdrawn (i : SlotId) (h : (s.slot i).state = .waiting) : ScheduleMove s (s.withdraw i)
  | waitsEnd (ends : WaitEntry → Bool) (slots : Vector Slot 128) (news : List NewsItem) (arms : List PendingArm)
    (h : ∀ i : SlotId, slots[i] = if i ∈ (s.waitList.entries.filter ends).map WaitEntry.slot then (s.slot i).finished else s.slot i) :
    ScheduleMove s { s with
      slots := slots
      noteQueue := s.noteQueue.sent news
      waitList := ⟨s.waitList.entries.filter fun e => !ends e, arms⟩ }
  | fired (e : DueEntry) (rest : List DueEntry) (idle : s.firing = none) (h : s.dueQueue.entries = e :: rest) (late : Nat) :
    ScheduleMove s (((s.setEntries rest).setSlot e.slot ((s.slot e.slot).fire late)).setFiring (some (Occurrence.start e s.now)))
  | held (o o' : Occurrence) (h : s.firing = some o) (slot : o'.slot = o.slot) (due : o'.due = o.due)
    (mark : o'.counted = true → o'.outcome = none → o.counted = true ∧ o.outcome = none)
    (left : Uncounted o ∨ (s.slot o.slot).remaining ≠ some 0 ∨ ∃ w, o'.request = some (.place w)) :
    ScheduleMove s (s.setFiring (some o'))
  | counted (o : Occurrence) (k : Kind) (h : InHandUncounted s o) : ScheduleMove s (s.count o k)
  | phase (o : Occurrence) (h : s.firing = some o) (p : Phase) : ScheduleMove s (s.setSlot o.slot { s.slot o.slot with phase := p })
  | dropped (o : Occurrence) (h : s.firing = some o) (c : o.counted = true) (r : o.request = none) (p : Phase) (k : Nat)
    (le : ∀ n, (s.slot o.slot).remaining = some n → k ≤ n) :
    ScheduleMove s (s.setSlot o.slot ((s.slot o.slot).dropped p k))
  | ended (o : Occurrence) (h : s.firing = some o) (st : SlotState) (hst : st = .held ∨ st = .done) :
    ScheduleMove s (s.endInState o.slot st)
  | reinserted (o : Occurrence) (h : s.firing = some o) (due : Time) (r : o.request = some (.reinsert due)) :
    ScheduleMove s (((s.setEntries (insertEntry ⟨o.slot, due⟩ s.dueQueue.entries)).setSlot o.slot
      { s.slot o.slot with state := .armed, due := some due }).setFiring none)
  | placed (o : Occurrence) (h : s.firing = some o) (e : WaitEntry) (slot : e.slot = o.slot)
    (room : s.waitList.entries.length < Config.waitCapacity) :
    ScheduleMove s (((s.setWaitEntries (s.waitList.entries ++ [e])).setSlot o.slot
      { s.slot o.slot with state := .waiting, due := none }).setFiring none)

/-- A chain of moves. -/
abbrev Moves : State → State → Prop := Relation.ReflTransGen ScheduleMove

theorem ScheduleMove.moves {s t : State} (m : ScheduleMove s t) : Moves s t := .single m

theorem Moves.keeps {P : State → Prop} (move : ∀ {s t}, ScheduleMove s t → P s → P t) {s t : State} (m : Moves s t) (h : P s) :
    P t := by
  induction m with
  | refl => exact h
  | tail _ m ih => exact move m ih

/-! ## Occurrences -/

theorem uncounted_of_request {o : Occurrence} {r : Request} (h : o.request = some r) (hr : ∀ w, r ≠ .place w) : Uncounted o :=
  ⟨fun w e => hr w (Option.some.inj (h.symm.trans e)), .inr (.inl (by rw [h]; nofun))⟩

theorem inHand_uncounted {s : State} {o : Occurrence} (h : s.firing = some o) (u : Uncounted o) : InHandUncounted s o :=
  ⟨u, o.late, o.selfCancel, h⟩

theorem InHandUncounted.marked {s : State} {o : Occurrence} (h : InHandUncounted s o) (late selfCancel : Bool) :
    InHandUncounted s { o with late := late, selfCancel := selfCancel } := by
  obtain ⟨⟨request, mark⟩, l, c, e⟩ := h
  exact ⟨⟨request, mark⟩, l, c, e⟩

theorem moves_request {s : State} {o : Occurrence} (h : InHandUncounted s o) (r : Request) : Moves s (s.request o r) := by
  obtain ⟨u, l, c, e⟩ := h
  exact .single (.held _ _ e rfl rfl (fun hc ho => ⟨hc, ho⟩) (.inl ⟨u.request, u.mark⟩))

theorem moves_endDone {s : State} {o : Occurrence} (h : s.firing = some o) : Moves s (s.endDone o) :=
  (ScheduleMove.news (.slot o.slot) .done o.time).moves.tail (.ended (s := s.send _ _ _) o h .done (.inr rfl))

/-- The steps of a DROP advance of a bounded slot are not more than it has left (R85). -/
theorem dropSteps_le (d : Definition) (p : Phase) (late : Nat) {r : Option Nat} {n : Nat} (h : r = some n) :
    d.dropSteps p late r ≤ n := by
  rw [h]
  exact Nat.min_le_right _ _

theorem moves_reinsertion {s : State} {o : Occurrence} (h : s.firing = some o) (left : (s.slot o.slot).remaining ≠ some 0)
    (due : Time) : Moves s (s.request o (.reinsert due)) :=
  .single (.held o _ h rfl rfl (fun hc ho => ⟨hc, ho⟩) (.inr (.inl left)))

theorem moves_dropAdvance {s : State} {o : Occurrence} (h : s.firing = some o) (c : o.counted = true) (r : o.request = none)
    (candidate : Time) (p : Phase) : Moves s (s.dropAdvance o candidate p) := by
  have advanced := ((ScheduleMove.dropped o h c r p ((s.slot o.slot).definition.dropSteps p (lateBy candidate o.time)
    (s.slot o.slot).remaining) fun _ => dropSteps_le _ _ _).moves).tail (.news (.slot o.slot) .missed o.time)
  unfold State.dropAdvance
  simp only
  split
  · exact advanced.trans (moves_endDone (s := State.send _ _ _ _) h)
  · next left =>
    refine advanced.trans (moves_reinsertion (s := (s.setSlot o.slot _).send _ _ _) h (fun e => left ?_) _)
    exact (congrArg Slot.remaining (slot_setSlot_same s o.slot _)).symm.trans e

/-- The ending of a counted occurrence (R82 to R86). -/
theorem moves_endOccurrence {s : State} {o : Occurrence} (h : s.firing = some o) (c : o.counted = true) (r : o.request = none) :
    Moves s (s.endOccurrence o) := by
  unfold State.endOccurrence
  simp only
  split
  · exact (ScheduleMove.news (.slot o.slot) .cancelled o.time).moves.tail (.ended (s := s.send _ _ _) o h .held (.inl rfl))
  · split
    · exact moves_endDone h
    · next again =>
      unfold State.recur
      simp only
      split
      · exact moves_dropAdvance h c r _ _
      · refine (ScheduleMove.phase o h _).moves.trans (moves_reinsertion (s := s.setSlot _ _) h (fun e => again (.inl ?_)) _)
        rwa [slot_setSlot_same] at e

/-- From the end of the effect on (R63, R81 to R88). -/
theorem moves_afterEffect {s : State} {o : Occurrence} (h : InHandUncounted s o) (a : AfterEffect) (k : Kind) :
    Moves s (s.afterEffect a o k) := by
  cases a with
  | goesOn => exact (ScheduleMove.counted o k h).moves.trans (moves_endOccurrence (o := o.reported k) rfl rfl rfl)
  | staysInHand =>
    obtain ⟨u, l, c, e⟩ := h
    exact .single (.held _ _ e rfl rfl nofun (.inl ⟨u.request, u.mark⟩))

theorem moves_applyEffect {s : State} {o : Occurrence} (h : InHandUncounted s o) (a : AfterEffect) (action : Action) :
    Moves s (s.applyEffect a o action) := by
  cases action with
  | drive n v | toggle n | pulse n w | flag f op => exact moves_request h _
  | arm target offset =>
    simp only [State.applyEffect]
    split
    · exact (ScheduleMove.news (.slot o.slot) .armFailed o.time).moves.trans (moves_afterEffect (s := s.send _ _ _) h a _)
    · exact moves_request h _
  | cancel target =>
    simp only [State.applyEffect]
    split
    · exact moves_afterEffect (h.marked o.late true) a _
    · split
      · exact moves_request h _
      · exact moves_request h _
      all_goals exact moves_afterEffect h a _
  | wait w =>
    exact (ScheduleMove.counted o o.appliedKind h).moves.tail
      (.held (o.reported o.appliedKind) _ rfl rfl rfl nofun (.inr (.inr ⟨w, rfl⟩)))
  | mark => exact moves_afterEffect h a _

/-- From the release to the effect (R63 to R79). -/
theorem moves_decideOccurrence {s : State} {o : Occurrence} (h : InHandUncounted s o) (a : AfterEffect) :
    Moves s (s.decideOccurrence a o) := by
  unfold State.decideOccurrence
  simp only
  split
  · exact moves_afterEffect h a _
  · split
    · exact moves_afterEffect h a _
    · split
      · exact moves_applyEffect (h.marked _ o.selfCancel) a _
      · exact moves_afterEffect (h.marked _ o.selfCancel) a _

theorem moves_takeHead {s : State} {e : DueEntry} (h : s.releaseReady = some e) : Moves s (s.takeHead e) := by
  unfold State.releaseReady at h
  split at h
  · next idle queue =>
    split at h
    · cases h
      rename_i rest _
      have fired := (ScheduleMove.passedOver (s.othersWait || s.dueQueue.passedOver)).moves.tail
        (.fired (s := s.setPassedOver (s.othersWait || s.dueQueue.passedOver)) e rest idle queue (lateBy e.due s.now))
      have tail : s.dueQueue.entries.tail = rest := by rw [queue]; rfl
      unfold State.takeHead
      rw [tail]
      exact fired.tail (.work _)
    · cases h
  · cases h

theorem moves_handoffStep (s : State) (a : AfterEffect) : Moves s (s.handoffStep a) := by
  unfold State.handoffStep
  split
  · next o ho =>
    unfold State.goOn
    split
    · exact .refl
    · next hr hk => exact moves_decideOccurrence (inHand_uncounted ho ⟨by rw [hr]; nofun, .inl hk⟩) a
    · next k hr hk =>
      split
      · next hc => exact moves_endOccurrence ho hc hr
      · next hc =>
        have hand := inHand_uncounted ho ⟨by rw [hr]; nofun, .inr (.inr (by simpa using hc))⟩
        cases a with
        | goesOn => exact moves_afterEffect hand .goesOn k
        | staysInHand => exact .single (.counted o k hand)
  · split
    · next e hg =>
      have head : Moves s (s.takeHead e) := by
        obtain ⟨-, ⟨_, _, e, _⟩ | ⟨_, e, hr, _⟩ | ⟨_, e, _⟩ | ⟨_, _, e, _⟩⟩ := grant_cases s _ hg
        case inr.inl =>
          cases e
          exact moves_takeHead hr
        all_goals cases e
      cases a with
      | goesOn => exact head.trans (moves_decideOccurrence (inHand_uncounted rfl ⟨fun _ h => (by cases h), .inl rfl⟩) .goesOn)
      | staysInHand => exact head
    · exact .refl

/-! ## What the due queue grants -/

theorem grantAt_firing {s : State} {asked : RequestPresence} {o : Occurrence} {r : Request}
    (h : s.grantAt asked = some (.firing o r)) : s.firing = some o ∧ o.request = some r := by
  cases asked with
  | presented => exact grant_firing s o r h
  | notYet =>
    obtain ⟨-, ⟨_, e, _⟩ | ⟨_, e, _⟩ | ⟨_, _, e, _⟩⟩ := grantAt_notYet s _ h <;> cases e

theorem commandRequest_executing {s : State} {c : Command} {r : CommandRequest} (h : s.commandRequest = some (c, r)) :
    ∃ w, s.commandUnit.executing = some ⟨c, w⟩ := by
  unfold State.commandRequest at h
  split at h
  · cases h
  · next x hx =>
    have answer : some (x.command, r) = some (c, r) → ∃ w, s.commandUnit.executing = some ⟨c, w⟩ := by
      intro e
      cases e
      exact ⟨x.work, hx⟩
    split at h
    case h_1 | h_2 | h_3 =>
      split at h
      · cases h
      · cases h
        exact answer rfl
    case h_4 =>
      split at h
      · cases h
        exact answer rfl
      · cases h
    all_goals cases h

theorem grantAmong_command {s : State} {f : Option (Occurrence × Request)} {w : Option PendingArm} {c : Command}
    {r : CommandRequest} (h : s.grantAmong f w = some (.command c r)) : ∃ w, s.commandUnit.executing = some ⟨c, w⟩ := by
  obtain ⟨-, ⟨_, _, e, _⟩ | ⟨_, e, _⟩ | ⟨_, e, _⟩ | ⟨_, _, e, hr, _⟩⟩ := grantAmong_cases s f w _ h
  case inr.inr.inr =>
    cases e
    exact commandRequest_executing hr
  all_goals cases e

theorem grantAt_command {s : State} {asked : RequestPresence} {c : Command} {r : CommandRequest}
    (h : s.grantAt asked = some (.command c r)) : ∃ w, s.commandUnit.executing = some ⟨c, w⟩ := by
  cases asked with
  | presented => exact grantAmong_command (f := s.firingRequest) (w := s.waitRequest) h
  | notYet => exact grantAmong_command (f := none) (w := s.waitRequest) h

/-! ## The rows of the due queue and of the wait list -/

/-- An insert is one move, or none, and touches neither the command unit nor the occurrence in hand. -/
theorem moves_insertArm (s : State) (i : SlotId) (due r : Time) : Moves s (s.insertArm i due r).2
    ∧ (s.insertArm i due r).2.commandUnit = s.commandUnit ∧ (s.insertArm i due r).2.firing = s.firing := by
  have idle (h : (s.slot i).state = .held ∨ (s.slot i).state = .done) (p : PastPolicy) :
      let t := (match armCheck due r p with
        | .placed d => (ArmOutcome.placed, s.placeArm i d)
        | .tooFar => (.tooFar, s.setSlot i { s.slot i with state := .held })
        | .past => (.past, s.setSlot i { s.slot i with state := .held })).2
      Moves s t ∧ t.commandUnit = s.commandUnit ∧ t.firing = s.firing := by
    dsimp only
    split
    · exact ⟨.single (.armed i _ h), rfl, rfl⟩
    · exact ⟨.single (.refused i h), rfl, rfl⟩
    · exact ⟨.single (.refused i h), rfl, rfl⟩
  unfold State.insertArm
  split
  · next h => exact idle (.inl h) _
  · next h => exact idle (.inr h) _
  all_goals exact ⟨.refl, rfl, rfl⟩

theorem moves_reportTo (r : ArmOutcome) (s : State) (i : SlotId) (time : Time) :
    Moves s (r.reportTo s i time) ∧ (r.reportTo s i time).firing = s.firing := by
  unfold ArmOutcome.reportTo
  split
  · exact ⟨.refl, rfl⟩
  · exact ⟨.single (.news _ _ _), rfl⟩

theorem moves_insertStep (s : State) (a : AfterEffect) (asked : RequestPresence) : Moves s (s.insertStep a asked) := by
  unfold State.insertStep
  split
  · next o t due hg =>
    obtain ⟨ho, hr⟩ := grantAt_firing hg
    obtain ⟨inserted, -, hand⟩ := moves_insertArm s t due o.time
    obtain ⟨reported, kept⟩ := moves_reportTo (s.insertArm t due o.time).1 (s.insertArm t due o.time).2 o.slot o.time
    exact (inserted.trans reported).trans
      (moves_afterEffect (inHand_uncounted ((kept.trans hand).trans ho) (uncounted_of_request hr nofun)) a _)
  · next arm _ =>
    exact (((ScheduleMove.passedOver false).moves.tail (.arms s.waitList.arms.tail)).trans
      (moves_insertArm _ arm.target arm.due arm.endTime).1).trans (moves_reportTo _ _ _ _).1
  · next c i given hg =>
    obtain ⟨w, hx⟩ := grantAt_command hg
    obtain ⟨inserted, commands, -⟩ := moves_insertArm (s.setPassedOver false) i (s.hostDue i given) s.now
    exact ((ScheduleMove.passedOver false).moves.trans inserted).tail (.answered c w (by rw [commands]; exact hx) _)
  · exact .refl

theorem moves_reinsertionStep (s : State) : Moves s s.reinsertionStep := by
  unfold State.reinsertionStep
  split
  · next o due hg =>
    obtain ⟨ho, hr⟩ := grant_firing s _ _ hg
    exact (ScheduleMove.reinserted o ho due hr).moves.tail (.work _)
  · exact .refl

theorem moves_removeStep (s : State) (a : AfterEffect) (asked : RequestPresence) : Moves s (s.removeStep a asked) := by
  unfold State.removeStep
  split
  · next o t hg =>
    obtain ⟨ho, hr⟩ := grantAt_firing hg
    have hand := uncounted_of_request hr nofun
    split
    · next ht =>
      exact ((ScheduleMove.takenOut t ht).moves.tail (.news _ _ _)).trans
        (moves_afterEffect (s := (s.takeOut t).send _ _ _) (inHand_uncounted ho hand) a _)
    · exact moves_afterEffect (inHand_uncounted ho hand) a _
  · next c i hg =>
    obtain ⟨w, hx⟩ := grantAt_command hg
    split
    · next ht =>
      exact ((ScheduleMove.passedOver false).moves.tail (.takenOut i ht)).tail
        (.answered (s := (s.setPassedOver false).takeOut i) c w hx .ok)
    · exact (ScheduleMove.passedOver false).moves.tail (.answered (s := s.setPassedOver false) c w hx .badState)
  · exact .refl

theorem moves_moveStep (s : State) (asked : RequestPresence) : Moves s (s.moveStep asked) := by
  have entry (s : State) (i : SlotId) (due : Time) :
      Moves s (s.moveEntry i due).2 ∧ (s.moveEntry i due).2.commandUnit = s.commandUnit := by
    unfold State.moveEntry
    split
    · next h =>
      split
      · exact ⟨.single (.retimed i _ h), rfl⟩
      all_goals exact ⟨.refl, rfl⟩
    · exact ⟨.refl, rfl⟩
  unfold State.moveStep
  split
  · next c i due hg =>
    obtain ⟨w, hx⟩ := grantAt_command hg
    obtain ⟨moved, commands⟩ := entry (s.setPassedOver false) i due
    exact ((ScheduleMove.passedOver false).moves.trans moved).tail (.answered c w (by rw [commands]; exact hx) _)
  · exact .refl

theorem moves_clearStep (s : State) (p : RequestPresence) : Moves s (s.clearStep p) := by
  unfold State.clearStep
  split
  · next c hg =>
    obtain ⟨w, hx⟩ := grantAmong_command hg
    exact ScheduleMove.swept.moves.tail (.answered (s := s.sweep) c w hx .ok)
  · exact .refl

theorem moves_takeFlagEvent (s : State) : Moves s s.takeFlagEvent := by
  cases h : s.flagBank.events with
  | nil => rw [takeFlagEvent_none s h]
  | cons v rest =>
    obtain ⟨slots, whole⟩ := takeFlagEvent_spec s v rest h
    rw [whole]
    exact (ScheduleMove.flags { s.flagBank with events := rest }).moves.tail (.waitsEnd (·.metBy v) _ _ _ slots)

theorem takeFlagEvents_firing (s : State) : s.takeFlagEvents.firing = s.firing := (takeFlagEvents_quiet s).firing

theorem moves_takeFlagEvents (s : State) : Moves s s.takeFlagEvents := by
  unfold State.takeFlagEvents
  generalize s.flagBank.events = vs
  induction vs generalizing s with
  | nil => exact .refl
  | cons v vs ih => exact (moves_takeFlagEvent s).trans (ih _)

theorem moves_expireDeadlines (s : State) : Moves s s.expireDeadlines := by
  obtain ⟨slots, whole⟩ := expireDeadlines_spec s
  rw [whole]
  exact .single (.waitsEnd (·.expired s.now) _ _ _ slots)

theorem moves_place {s : State} {o : Occurrence} (h : s.firing = some o) (w : WaitSpec) : Moves s (s.place o w) := by
  have atEntry (k : Kind) (time : Time) (arms : List PendingArm) : Moves s ((s.endWait o.slot k time arms).setFiring none) :=
    ((ScheduleMove.ended o h .done (.inr rfl)).moves.tail (.news (.slot o.slot) k time)).tail (.arms (s.waitList.arms ++ arms))
  unfold State.place
  simp only
  split
  · exact atEntry _ _ _
  · split
    · exact atEntry _ _ _
    · split
      · exact atEntry _ _ _
      · next room => exact (ScheduleMove.placed o h _ rfl (Nat.not_le.mp room)).moves.tail (.work _)

theorem moves_placementStep (s : State) : Moves s s.placementStep := by
  unfold State.placementStep
  split
  · exact .refl
  · next o ho =>
    split
    · exact (moves_takeFlagEvents s).trans (moves_place ((takeFlagEvents_firing s).trans ho) _)
    · exact .refl

theorem moves_firingWithdrawal (s : State) (a : AfterEffect) : Moves s (s.firingWithdrawal a) := by
  unfold State.firingWithdrawal
  split
  · exact .refl
  · next o ho =>
    split
    · next t hr =>
      have hand := uncounted_of_request hr nofun
      split
      · next ht =>
        exact ((ScheduleMove.withdrawn t ht).moves.tail (.news _ _ _)).trans
          (moves_afterEffect (s := (s.withdraw t).send _ _ _) (inHand_uncounted ho hand) a _)
      · exact moves_afterEffect (inHand_uncounted ho hand) a _
    · exact .refl

theorem moves_commandWithdrawal (s : State) : Moves s s.commandWithdrawal := by
  unfold State.commandWithdrawal
  split
  · exact .refl
  · next x hx =>
    split
    · next i _ =>
      split
      · next h => exact (ScheduleMove.withdrawn i h).moves.tail (.answered (s := s.withdraw i) x.command x.work hx .ok)
      · exact .single (.answered x.command x.work hx .badState)
    · exact .refl

theorem moves_flagStep (s : State) (a : AfterEffect) : Moves s (s.flagStep a) := by
  unfold State.flagStep
  split
  · exact .refl
  · next o ho =>
    split
    · next f op hr =>
      have flags : Moves s (s.setFlag f (op.apply (s.flag f))) := by
        rw [setFlag_eq]
        exact .single (.flags _)
      have hand : (s.setFlag f (op.apply (s.flag f))).firing = some o := by
        rw [setFlag_eq]
        exact ho
      exact flags.trans (moves_afterEffect (inHand_uncounted hand (uncounted_of_request hr nofun)) a _)
    · exact .refl

/-- The rows of the due queue, of the wait list, and of the firing unit where it works on the schedule or on flags. -/
def isSchedule : Instr → Bool
  | .handoff _ | .flagEffect _ | .insert _ _ | .reinsertion | .remove _ _ | .move _ | .clear _ | .waitPlacement | .matched
  | .timeout | .withdrawal _ _ => true
  | _ => false

/-- Every row of the schedule is a chain of moves. -/
theorem effect_moves {c : Instr} (h : isSchedule c = true) (s : State) : Moves s (effect c s) := by
  cases c
  case handoff a => exact moves_handoffStep s a
  case flagEffect a => exact moves_flagStep s a
  case insert a asked => exact moves_insertStep s a asked
  case reinsertion => exact moves_reinsertionStep s
  case remove a asked => exact moves_removeStep s a asked
  case move asked => exact moves_moveStep s asked
  case clear p => exact moves_clearStep s p
  case waitPlacement => exact moves_placementStep s
  case matched => exact moves_takeFlagEvent s
  case timeout => exact moves_expireDeadlines s
  case withdrawal requester a =>
    cases requester with
    | firingUnit => exact moves_firingWithdrawal s a
    | commandUnit => exact moves_commandWithdrawal s
  all_goals cases h

/-! ## The rows of the line unit that take a request -/

theorem driveStep_moves (s : State) (a : AfterEffect) :
    s.driveStep a = s ∨ ∃ n v, Moves (s.forceLine n v) (s.driveStep a) := by
  unfold State.driveStep
  split
  · exact .inl rfl
  · next o ho =>
    split
    · next n v hr =>
      exact .inr ⟨n, v, moves_afterEffect (inHand_uncounted (by rw [forceLine_eq]; exact ho) (uncounted_of_request hr nofun)) a _⟩
    · exact .inl rfl

theorem toggleStep_moves (s : State) (a : AfterEffect) :
    s.toggleStep a = s ∨ ∃ n v, Moves (s.forceLine n v) (s.toggleStep a) := by
  unfold State.toggleStep
  split
  · exact .inl rfl
  · next o ho =>
    split
    · next n hr =>
      refine .inr ⟨n, _, moves_afterEffect (inHand_uncounted ?_ (uncounted_of_request hr nofun)) a _⟩
      show (s.forceLine n _).firing = _
      rw [forceLine_eq]
      exact ho
    · exact .inl rfl

theorem pulseLine_firing (s : State) (n : LineId) (w : Word) (i : SlotId) : (s.pulseLine n w i).2.firing = s.firing := by
  unfold State.pulseLine
  split
  · rfl
  · simp only
    split <;> rfl

theorem pulseStep_moves (s : State) (a : AfterEffect) :
    s.pulseStep a = s ∨ ∃ n w i, Moves (s.pulseLine n w i).2 (s.pulseStep a) := by
  unfold State.pulseStep
  split
  · exact .inl rfl
  · next o ho =>
    split
    · next n w hr =>
      exact .inr ⟨n, w, o.slot,
        moves_afterEffect (inHand_uncounted ((pulseLine_firing s n w o.slot).trans ho) (uncounted_of_request hr nofun)) a _⟩
    · exact .inl rfl

end Sys2Proof.Proofs
end

section
/-! SUPPORT. The parts of a CLK period: a property that each part keeps is kept by the period. -/

namespace Sys2Proof.Proofs

open Sys2Proof.Machine Sys2Proof.Laws

/-- How the tick sources move the timebase in one CLK period, the tick itself apart: only the counts and the sample of TICK change, and
the prescaler count stays below the prescaler. -/
structure CountsMoved (b b' : Timebase) : Prop where
  time : b'.time = b.time
  desired : b'.desired = b.desired
  freeze : b'.freeze = b.freeze
  prescaler : b'.prescaler = b.prescaler
  count : b'.prescalerCount = b.prescalerCount ∨ b'.prescalerCount = 0
    ∨ (b'.prescalerCount = b.prescalerCount + 1 ∧ b.prescalerCount + 1 < b.prescaler)

/-- The spacing check counts an edge with a tick, or refuses it. -/
theorem judgeEdge_moved (s : State) (order : ClkOrder) : ∃ b, CountsMoved s.timebase b
    ∧ (s.judgeEdge order = (s.setTimebase b).raise .tickFast
      ∨ s.judgeEdge order = (s.setTimebase b).tickInPeriod s.pins.inputs order) := by
  unfold State.judgeEdge
  split
  · exact ⟨{ s.timebase with spacing := some 0 }, ⟨rfl, rfl, rfl, rfl, .inl rfl⟩, .inr rfl⟩
  · next n _ =>
    split
    · exact ⟨{ s.timebase with spacing := some 0 }, ⟨rfl, rfl, rfl, rfl, .inl rfl⟩, .inr rfl⟩
    · exact ⟨{ s.timebase with spacing := some (n + 1) }, ⟨rfl, rfl, rfl, rfl, .inl rfl⟩, .inl rfl⟩

/-- Everything the tick sources can do in a CLK period (R1, R2). -/
theorem runSources_moved (s : State) (order : ClkOrder) : ∃ b, CountsMoved s.timebase b
    ∧ (s.runSources order = s.setTimebase b ∨ s.runSources order = (s.setTimebase b).raise .tickFast
      ∨ s.runSources order = (s.setTimebase b).tickInPeriod s.pins.inputs order) := by
  cases hs : s.timebase.source with
  | internal =>
    rw [runSources_counts s order hs]
    split
    · exact ⟨{ s.timebase with tickSample := s.pins.tickHigh, prescalerCount := 0 },
        ⟨rfl, rfl, rfl, rfl, .inr (.inl rfl)⟩, .inr (.inr rfl)⟩
    · next h =>
      exact ⟨{ s.timebase with tickSample := s.pins.tickHigh, prescalerCount := s.timebase.prescalerCount + 1 },
        ⟨rfl, rfl, rfl, rfl, .inr (.inr ⟨rfl, Nat.not_le.mp h⟩)⟩, .inl rfl⟩
  | external =>
    by_cases hc : s.pins.tickHigh = false ∨ s.timebase.tickSample = true
    · rw [runSources_flat s order hs hc]
      exact ⟨{ s.timebase with tickSample := s.pins.tickHigh, spacing := s.timebase.spacing.map (· + 1) },
        ⟨rfl, rfl, rfl, rfl, .inl rfl⟩, .inl rfl⟩
    · have high : s.pins.tickHigh = true := by simpa using fun h => hc (.inl h)
      have low : s.timebase.tickSample = false := by simpa using fun h => hc (.inr h)
      rw [runSources_rising s order hs high low]
      obtain ⟨b, hb, e⟩ := judgeEdge_moved (s.setTimebase { s.timebase with tickSample := true }) order
      exact ⟨b, ⟨hb.time, hb.desired, hb.freeze, hb.prescaler, hb.count⟩, .inr e⟩

/-- A property that every part of a CLK period keeps. -/
structure KeptInPeriod (P : State → Prop) : Prop where
  counts : ∀ s b, CountsMoved s.timebase b → P s → P (s.setTimebase b)
  tickFast : Keeps P (·.raise .tickFast)
  acceptance : Keeps P State.takeAcceptance
  flagEvent : Keeps P State.takeFlagEvent
  deadlines : Keeps P State.expireDeadlines
  pulseEnd : ∀ n, Keeps P (·.endPulse n)
  advance : Keeps P State.advance
  samples : ∀ pins, Keeps P (·.sampleInputs pins)
  ages : Keeps P State.ageRecords
  safe : ∀ low, Keeps P (·.sampleSafe low)

variable {P : State → Prop}

theorem KeptInPeriod.acceptances (k : KeptInPeriod P) : Keeps P State.takeAcceptances := fun s =>
  Keeps.foldl (fun _ => k.acceptance) s.inputUnit.handed s

theorem KeptInPeriod.flagEvents (k : KeptInPeriod P) : Keeps P State.takeFlagEvents := fun s =>
  Keeps.foldl (fun _ => k.flagEvent) s.flagBank.events s

theorem KeptInPeriod.pulseEnds (k : KeptInPeriod P) : Keeps P State.endReachedPulses := fun s =>
  Keeps.foldl k.pulseEnd allLines s

theorem KeptInPeriod.settle (k : KeptInPeriod P) : Keeps P State.settle := by
  intro s h
  unfold State.settle
  exact k.pulseEnds _ (k.deadlines _ (k.flagEvents _ (k.acceptances s h)))

theorem KeptInPeriod.deliverTick (k : KeptInPeriod P) (pins : BitVec 16) (order : TickOrder) :
    Keeps P (·.deliverTick pins order) := by
  intro s h
  cases order <;> simp only [State.deliverTick]
  case advanceFirst => exact k.ages _ (k.samples pins _ (k.advance _ (k.settle s h)))
  case samplesFirst => exact k.ages _ (k.advance _ (k.flagEvents _ (k.acceptances _ (k.samples pins _ (k.settle s h)))))

theorem KeptInPeriod.tickInPeriod (k : KeptInPeriod P) (pins : BitVec 16) (order : ClkOrder) :
    Keeps P (·.tickInPeriod pins order) := by
  intro s h
  simp only [State.tickInPeriod]
  exact Keeps.foldl k.pulseEnd (linesEnded order.safe) _ (k.deliverTick pins order.tick s h)

theorem KeptInPeriod.runSources (k : KeptInPeriod P) (order : ClkOrder) : Keeps P (·.runSources order) := by
  intro s h
  obtain ⟨b, hb, e | e | e⟩ := runSources_moved s order <;> simp only [e]
  · exact k.counts s b hb h
  · exact k.tickFast _ (k.counts s b hb h)
  · exact k.tickInPeriod _ order _ (k.counts s b hb h)

theorem KeptInPeriod.clkPeriod (k : KeptInPeriod P) (order : ClkOrder) : Keeps P (·.clkPeriod order) := by
  intro s h
  simp only [State.clkPeriod]
  split
  · exact k.runSources order _ (k.safe _ s h)
  · exact k.safe _ _ (k.runSources order s h)

end Sys2Proof.Proofs
end


section
/-! SUPPORT. What the moves of the schedule, the bus window and the commands leave alone, and what it takes for a law to be kept by every
row. -/

namespace Sys2Proof.Proofs

open Sys2Proof.Machine Sys2Proof.Laws

/-! ## The schedule -/

/-- What the schedule leaves alone. It sends news, and changes what the command unit waits for. -/
structure Beside (s t : State) : Prop where
  timebase : t.timebase = s.timebase
  lineUnit : t.lineUnit = s.lineUnit
  inputUnit : t.inputUnit = s.inputUnit
  safeController : t.safeController = s.safeController
  window : t.window = s.window
  pending : t.pending = s.pending
  notes : t.noteQueue = { s.noteQueue with inFlight := t.noteQueue.inFlight }

theorem ScheduleMove.beside {s t : State} (m : ScheduleMove s t) : Beside s t := by
  cases m <;> exact ⟨rfl, rfl, rfl, rfl, rfl, rfl, rfl⟩

/-! ## The bus window -/

/-- What an access to the window leaves alone. -/
structure BesideWindow (s t : State) : Prop where
  timebase : t.timebase = s.timebase
  slots : t.slots = s.slots
  dueQueue : t.dueQueue = s.dueQueue
  firing : t.firing = s.firing
  waitList : t.waitList = s.waitList
  lineUnit : t.lineUnit = s.lineUnit
  inputUnit : t.inputUnit = s.inputUnit
  safeController : t.safeController = s.safeController
  pending : t.pending = s.pending

theorem BesideWindow.refl (s : State) : BesideWindow s s := ⟨rfl, rfl, rfl, rfl, rfl, rfl, rfl, rfl, rfl⟩

/-- The rows of the bus window and of the notification queue. -/
def isWindow : Instr → Bool
  | .news _ | .holdoff | .stageWrite _ | .resultRead | .noteRead | .timeLoRead | .flagValueWrite _ | .flagSelectWrite _
  | .intEnableWrite _ | .errorWrite _ | .badAddress _ | .clearStage _ | .commandWrite _ => true
  | _ => false

theorem effect_besideWindow {c : Instr} (h : isWindow c = true) (s : State) : BesideWindow s (effect c s) := by
  have either (p : Prop) [Decidable p] (t u : State) (ht : BesideWindow s t) (hu : BesideWindow s u) :
      BesideWindow s (if p then t else u) := by split <;> assumption
  cases c
  case news path =>
    show BesideWindow s (s.takeNews path)
    unfold State.takeNews
    split
    · exact BesideWindow.refl s
    · exact either _ _ _ ⟨rfl, rfl, rfl, rfl, rfl, rfl, rfl, rfl, rfl⟩ ⟨rfl, rfl, rfl, rfl, rfl, rfl, rfl, rfl, rfl⟩
  case holdoff => exact either _ _ _ ⟨rfl, rfl, rfl, rfl, rfl, rfl, rfl, rfl, rfl⟩ (BesideWindow.refl s)
  case resultRead =>
    show BesideWindow s s.resultRead
    unfold State.resultRead
    split
    · exact ⟨rfl, rfl, rfl, rfl, rfl, rfl, rfl, rfl, rfl⟩
    · exact either _ _ _ ⟨rfl, rfl, rfl, rfl, rfl, rfl, rfl, rfl, rfl⟩ ⟨rfl, rfl, rfl, rfl, rfl, rfl, rfl, rfl, rfl⟩
  case noteRead =>
    show BesideWindow s s.noteRead
    unfold State.noteRead
    split
    · exact ⟨rfl, rfl, rfl, rfl, rfl, rfl, rfl, rfl, rfl⟩
    · split <;> exact ⟨rfl, rfl, rfl, rfl, rfl, rfl, rfl, rfl, rfl⟩
  case flagValueWrite w =>
    refine either _ _ _ ⟨rfl, rfl, rfl, rfl, rfl, rfl, rfl, rfl, rfl⟩ ?_
    rw [(writeGroup_spec s s.window.flagSelect w).2]
    exact ⟨rfl, rfl, rfl, rfl, rfl, rfl, rfl, rfl, rfl⟩
  case badAddress a =>
    refine either _ _ _ ?_ (BesideWindow.refl s)
    cases a <;> exact ⟨rfl, rfl, rfl, rfl, rfl, rfl, rfl, rfl, rfl⟩
  case commandWrite w =>
    exact either _ _ _ ⟨rfl, rfl, rfl, rfl, rfl, rfl, rfl, rfl, rfl⟩
      (either _ _ _ ⟨rfl, rfl, rfl, rfl, rfl, rfl, rfl, rfl, rfl⟩ ⟨rfl, rfl, rfl, rfl, rfl, rfl, rfl, rfl, rfl⟩)
  case stageWrite | flagSelectWrite =>
    exact either _ _ _ ⟨rfl, rfl, rfl, rfl, rfl, rfl, rfl, rfl, rfl⟩ ⟨rfl, rfl, rfl, rfl, rfl, rfl, rfl, rfl, rfl⟩
  case timeLoRead | intEnableWrite | errorWrite | clearStage => exact ⟨rfl, rfl, rfl, rfl, rfl, rfl, rfl, rfl, rfl⟩
  all_goals cases h

/-! ## The commands -/

/-- What a command does to the blocks before it is answered or waits. -/
inductive Change (s : State) : State → Prop
  | same : Change s s
  | time (t : Time) : Change s (s.replaceTime t)
  | desired (r : RunState) : Change s (s.setTimebase { s.timebase with desired := r })
  | tick (w : Word) (src : TickSource) (p : Nat) (h : prescalerOf w = some p) :
    Change s (s.setTimebase { s.timebase with source := src, prescaler := p, prescalerCount := 0, spacing := none })
  | lines (group : Nat) (w : Word) : Change s (s.setLines group w)
  | line (n : LineId) (active safe : Bool) (h : (s.line n).pulse = none) :
    Change s (s.setLine n ((s.line n).configure s.lineUnit.safeDrive active safe))
  | input (i : LineId) (w : Word) : Change s (s.setInput i ((s.input i).configure w))
  | notify (threshold : Nat) (holdoff urgent : Word) (h : 1 ≤ threshold ∧ threshold ≤ 145) :
    Change s (s.setNotes (NoteQueue.recompute
      { s.noteQueue with threshold := threshold, holdoff := holdoff, urgent := urgent }))
  | policy (p : SafePolicy) : Change s (s.setSafe { s.safeController with policy := p })
  | safe : Change s s.causeSafe
  | run : Change s s.exitSafe
  | device : Change s s.resetBlocks
  | defined (i : SlotId) (d : Definition) (h : (s.slot i).state = .free ∨ (s.slot i).state = .held ∨ (s.slot i).state = .done) :
    Change s (s.setSlot i (Slot.defined d))
  | released (i : SlotId) (h : (s.slot i).state = .held ∨ (s.slot i).state = .done) : Change s (s.setSlot i Slot.unused)

/-- The command is answered behind its change, or waits behind it. Only an OK answer has data words, eight of them (R172). -/
inductive Answer (c : Command) (s : State) : State → Prop
  | answered {u : State} (change : Change s u) (status : Status) (data : List Word)
    (words : data.length = 0 ∨ (data.length = 8 ∧ status = .ok)) : Answer c s (u.complete c status data)
  | waits {u : State} (change : Change s u) (w : Work) : Answer c s (u.waitFor c w)

/-- A refusal changes nothing. -/
theorem Answer.refused (c : Command) (s : State) (status : Status) : Answer c s (s.complete c status []) :=
  .answered .same status [] (.inl rfl)

/-- An answer without data words. -/
theorem Answer.plain {c : Command} {s u : State} (change : Change s u) (status : Status) : Answer c s (u.complete c status []) :=
  .answered change status [] (.inl rfl)

theorem onSlot_answer {c : Command} (counts : List Nat) {s : State} {k : SlotId → State} (h : ∀ i, Answer c s (k i)) :
    Answer c s (c.onSlot counts s k) := by
  unfold Command.onSlot
  split
  · split
    · exact h _
    · exact .refused c s _
  · exact .refused c s _

theorem claim_answer {c : Command} {s : State} (i : SlotId) (w : Work) {k : State → State} (h : Answer c s (k s)) :
    Answer c s (s.claim c i w k) := by
  unfold State.claim
  split
  · exact .waits .same w
  · exact h

theorem defineSlot_answer {c : Command} {s : State} {i : SlotId} {k : State → State}
    (h : ∀ u, Change s u → Answer c s (k u)) : Answer c s (s.defineSlot c i k) := by
  have judged (free : (s.slot i).state = .free ∨ (s.slot i).state = .held ∨ (s.slot i).state = .done) :
      Answer c s (if s.hasRecord i then s.complete c .notePending []
        else match parseDefinition i c.args with
          | none => s.complete c .badArg []
          | some d => k (s.setSlot i (Slot.defined d))) := by
    split
    · exact .refused c s _
    · split
      · exact .refused c s _
      · exact h _ (.defined i _ free)
  unfold State.defineSlot
  split
  · next e => exact judged (.inl e)
  · next e => exact judged (.inr (.inl e))
  · next e => exact judged (.inr (.inr e))
  all_goals exact .refused c s _

theorem takeDefine_answer (s : State) (c : Command) (i : SlotId) : Answer c s (s.takeDefine c i) :=
  claim_answer i _ (defineSlot_answer fun _ change => .plain change .ok)

theorem takeDefineArm_answer (s : State) (c : Command) (i : SlotId) : Answer c s (s.takeDefineArm c i) :=
  claim_answer i _ (defineSlot_answer fun _ change => .waits change _)

theorem judgeCancel_answer (s : State) (c : Command) (i : SlotId) : Answer c s (s.judgeCancel c i) := by
  unfold State.judgeCancel
  split
  iterate 3 exact .waits .same _
  all_goals exact .refused c s _

theorem takeRelease_answer (s : State) (c : Command) (i : SlotId) : Answer c s (s.takeRelease c i) := by
  refine claim_answer i _ ?_
  split
  · next h => exact .plain (.released i (.inl h)) _
  · next h => exact .plain (.released i (.inr h)) _
  all_goals exact .refused c s _

theorem takeQuery_answer (s : State) (c : Command) (i : SlotId) : Answer c s (s.takeQuery c i) :=
  claim_answer i _ (.answered .same .ok _ (.inr ⟨rfl, rfl⟩))

theorem takeSetTime_answer (s : State) (c : Command) (t : Time) : Answer c s (s.takeSetTime c t) := by
  unfold State.takeSetTime
  split
  · exact .waits .same _
  · split
    · exact .plain (.time t) _
    · exact .refused c s _

theorem startOf_answer (op : Opcode) (c : Command) (s : State) :
    Answer c s (startOf op c s) := by
  have refused (status : Status) : Answer c s (s.complete c status []) := .refused c s status
  have noWords (t u : State) (ht : Answer c s t) (hu : Answer c s u) :
      Answer c s (match c.args with | [] => t | _ :: _ => u) := by split <;> assumption
  cases op
  case nop => exact noWords _ _ (refused _) (refused _)
  case resetSchedule => exact noWords _ _ (.waits .same _) (refused _)
  case define => exact onSlot_answer _ (takeDefine_answer s c)
  case defineArm => exact onSlot_answer _ (takeDefineArm_answer s c)
  case arm => exact onSlot_answer _ fun i => .waits .same _
  case retime => exact onSlot_answer _ fun i => .waits .same _
  case cancel => exact onSlot_answer _ (judgeCancel_answer s c)
  case release => exact onSlot_answer _ (takeRelease_answer s c)
  case query => exact onSlot_answer _ (takeQuery_answer s c)
  case setTime =>
    simp only [startOf, startSetTime]
    split
    · exact takeSetTime_answer s c _
    · exact refused _
  case runTime => exact noWords _ _ (.plain (.desired .run) _) (refused _)
  case holdTime => exact noWords _ _ (.plain (.desired .hold) _) (refused _)
  case setTick =>
    simp only [startOf, startSetTick]
    split
    · split
      · exact refused _
      · split
        · next hp => exact .plain (.tick _ _ _ hp) _
        · exact refused _
    · exact refused _
  case setLine =>
    simp only [startOf, startSetLine]
    split
    · split
      · exact .plain (.lines _ _) _
      · exact refused _
    · exact refused _
  case configLine =>
    simp only [startOf, startConfigLine]
    split
    · split
      · split
        · exact refused _
        · next hp => exact .plain (.line _ _ _ (by simpa using hp)) _
      · exact refused _
    · exact refused _
  case configInput =>
    simp only [startOf, startConfigInput]
    split
    · split
      · exact .plain (.input _ _) _
      · exact refused _
    · exact refused _
  case configNotify =>
    simp only [startOf, startConfigNotify]
    split
    · split
      · next ht => exact .plain (.notify _ _ _ ht) _
      · exact refused _
    · exact refused _
  case configSafe =>
    simp only [startOf, startConfigSafe]
    split
    · split
      · exact .plain (.policy _) _
      · exact refused _
    · exact refused _
  case forceSafe => exact noWords _ _ (.plain .safe _) (refused _)
  case resume =>
    simp only [startOf, startResume]
    split
    · split
      · exact refused _
      · split
        · exact refused _
        · exact .plain .run _
    · exact refused _
  case resetDevice => exact noWords _ _ (.plain .device _) (refused _)

theorem resumeOf_answer (op : Opcode) (x : Executing) (s : State) :
    resumeOf op x s = s ∨ Answer x.command s (resumeOf op x s) := by
  cases op
  case define =>
    simp only [resumeOf, resumeDefine]
    split
    · exact .inr (takeDefine_answer s x.command _)
    · exact .inl rfl
  case defineArm =>
    simp only [resumeOf, resumeDefineArm]
    split
    · exact .inr (takeDefineArm_answer s x.command _)
    · exact .inl rfl
  case cancel =>
    simp only [resumeOf, resumeCancel]
    split
    · exact .inr (judgeCancel_answer s x.command _)
    · exact .inl rfl
  case release =>
    simp only [resumeOf, resumeRelease]
    split
    · exact .inr (takeRelease_answer s x.command _)
    · exact .inl rfl
  case query =>
    simp only [resumeOf, resumeQuery]
    split
    · exact .inr (takeQuery_answer s x.command _)
    · exact .inl rfl
  case setTime =>
    simp only [resumeOf, resumeSetTime]
    split
    · exact .inr (takeSetTime_answer s x.command _)
    · exact .inl rfl
  all_goals exact .inl rfl

/-! ## The rows by families, and the laws they keep -/

/-- The rows that are neither CLK periods nor a reset, by what they work on. -/
inductive RowFamily : Instr → Prop
  | schedule {c : Instr} (h : isSchedule c = true) : RowFamily c
  | window {c : Instr} (h : isWindow c = true) : RowFamily c
  | accept : RowFamily .inputAccept
  | drive (a : AfterEffect) : RowFamily (.driveEffect a)
  | toggle (a : AfterEffect) : RowFamily (.toggleEffect a)
  | pulse (a : AfterEffect) : RowFamily (.pulseEffect a)
  | pulseEnd (n : LineId) : RowFamily (.pulseEnd n)
  | badCode (r : CommandReach) : RowFamily (.badCode r)
  | command (op : Opcode) (r : CommandReach) : RowFamily (op.row r)

theorem rowFamily {c : Instr} (h : isClkOrReset c = false) : RowFamily c := by
  cases c
  case inputAccept => exact .accept
  case driveEffect a => exact .drive a
  case toggleEffect a => exact .toggle a
  case pulseEffect a => exact .pulse a
  case pulseEnd n => exact .pulseEnd n
  case badCode r => exact .badCode r
  case nop r => exact .command .nop r
  case define r => exact .command .define r
  case defineArm r => exact .command .defineArm r
  case arm r => exact .command .arm r
  case cancel r => exact .command .cancel r
  case retime r => exact .command .retime r
  case release r => exact .command .release r
  case query r => exact .command .query r
  case setTime r => exact .command .setTime r
  case runTime r => exact .command .runTime r
  case holdTime r => exact .command .holdTime r
  case setTick r => exact .command .setTick r
  case setLine r => exact .command .setLine r
  case configLine r => exact .command .configLine r
  case configInput r => exact .command .configInput r
  case configNotify r => exact .command .configNotify r
  case configSafe r => exact .command .configSafe r
  case forceSafe r => exact .command .forceSafe r
  case resume r => exact .command .resume r
  case resetSchedule r => exact .command .resetSchedule r
  case resetDevice r => exact .command .resetDevice r
  case hardReset | powerOn | resetReleased | tick | tickEdge | safeAsserted | safeReleased => cases h
  case news | holdoff | stageWrite | resultRead | noteRead | timeLoRead | flagValueWrite | flagSelectWrite | intEnableWrite
      | errorWrite | badAddress | clearStage | commandWrite => exact .window rfl
  all_goals exact .schedule rfl

theorem effect_row (op : Opcode) (r : CommandReach) (s : State) :
    effect (op.row r) s = s.runCommand op r (startOf op) (resumeOf op) := by
  cases op <;> rfl

/-- The rows of the command unit keep `P`, whatever the command does before it is answered or waits. -/
def KeepsCommands (P : State → Prop) : Prop :=
  ∀ (mine : Command → Bool) (r : CommandReach) (start : Command → State → State) (resume : Executing → State → State),
    (∀ c t, Answer c t (start c t)) → (∀ x t, resume x t = t ∨ Answer x.command t (resume x t)) →
      Keeps P (·.takeCommand mine r start resume)

/-- What it takes for a law to be kept by every row: the moves of the schedule, the commands, the window, the lines and the parts of a
CLK period keep it. -/
structure KeptByParts (P : State → Prop) : Prop where
  move : ∀ {s t}, ScheduleMove s t → P s → P t
  commands : KeepsCommands P
  window : ∀ c, isWindow c = true → Keeps P (effect c)
  force : ∀ n v, Keeps P (·.forceLine n v)
  pulse : ∀ n w i, Keeps P fun s => (s.pulseLine n w i).2
  period : KeptInPeriod P
  pins : ∀ p, Keeps P (·.setPins p)
  reset : Keeps P State.resetBlocks

variable {P : State → Prop}

/-- A law that does not speak of the command unit. -/
theorem keepsCommands_of_change (commands : ∀ u, Keeps P (·.setCommands u)) (change : ∀ {s t}, Change s t → P s → P t) :
    KeepsCommands P := by
  intro mine r start resume hstart hresume s h
  have answer {c : Command} {s t : State} (a : Answer c s t) (h : P s) : P t := by
    cases a with
    | answered c _ _ _ => exact commands _ _ (change c h)
    | waits c _ => exact commands _ _ (change c h)
  refine takeCommand_keeps (Q := P) h (fun _ _ _ _ => ⟨commands _ s h, commands _ s h⟩) (fun _ _ => h)
    (fun c t ht => answer (hstart c t) ht) fun x _ => ?_
  obtain e | a := hresume x s
  · rwa [e]
  · exact answer a h

theorem KeptByParts.moves (k : KeptByParts P) {s t : State} (m : Moves s t) (h : P s) : P t := m.keeps k.move h

theorem KeptByParts.row (k : KeptByParts P) {c : Instr} (hc : isClkOrReset c = false) : Keeps P (effect c) := by
  intro s h
  cases rowFamily hc with
  | schedule hs => exact k.moves (effect_moves hs s) h
  | window hw => exact k.window c hw s h
  | accept => exact k.period.acceptance s h
  | drive a =>
    obtain e | ⟨n, v, m⟩ := driveStep_moves s a
    · rwa [effect, e]
    · exact k.moves m (k.force n v s h)
  | toggle a =>
    obtain e | ⟨n, v, m⟩ := toggleStep_moves s a
    · rwa [effect, e]
    · exact k.moves m (k.force n v s h)
  | pulse a =>
    obtain e | ⟨n, w, i, m⟩ := pulseStep_moves s a
    · rwa [effect, e]
    · exact k.moves m (k.pulse n w i s h)
  | pulseEnd n => exact k.period.pulseEnd n s h
  | badCode r =>
    exact k.commands (fun c => Opcode.ofCode c.code = none) r (fun c t => t.complete c .badCode []) noResume
      (fun c t => .refused c t _) (fun _ _ => .inl rfl) s h
  | command op r =>
    rw [effect_row]
    exact k.commands _ r _ _ (startOf_answer op) (resumeOf_answer op) s h

theorem KeptByParts.rows (k : KeptByParts P) : KeptByRows P where
  pins := k.pins
  reset := k.reset
  clk := k.period.clkPeriod
  row _ hc := k.row hc

end Sys2Proof.Proofs
end

section
/-! SUPPORT. The law of the lines and of the freeze mark (R91, R92, R158): every line fits the safe drive mark by itself, and the mark
moves only with the safe state. -/

namespace Sys2Proof.Proofs

open Sys2Proof.Machine Sys2Proof.Laws

/-! ## One line -/

/-- What R91 and R92 ask of one line, by the safe drive mark. -/
structure LineFits (safeDrive : Bool) (l : Line) : Prop where
  safe : safeDrive = true → l.driven = l.safe ∧ l.pulse = none
  run : safeDrive = false → l.driven = l.intended
  active : l.pulse ≠ none → l.intended = l.active

theorem lineLaw_iff (s : State) : LineLaw s ↔ (s.lineUnit.safeDrive = true ↔ s.safeController.state = .safe)
    ∧ (∀ n, LineFits s.lineUnit.safeDrive (s.line n)) ∧ (s.timebase.freeze = true → s.safeController.state = .safe) :=
  ⟨fun h => ⟨h.mark, fun n => ⟨fun d => h.safeDriven d n, fun d => h.runDriven d n, h.pulseActive n⟩, h.freeze⟩,
    fun ⟨mark, fits, freeze⟩ =>
      ⟨mark, fun d n => (fits n).safe d, fun d n => (fits n).run d, fun n => (fits n).active, freeze⟩⟩

theorem forced_fits {d : Bool} {l : Line} (h : LineFits d l) (v : Bool) : LineFits d (l.forced d v) := by
  refine ⟨fun hd => ⟨?_, rfl⟩, fun hd => ?_, fun hp => absurd rfl hp⟩
  · simpa [Line.forced, hd] using (h.safe hd).1
  · simp [Line.forced, hd]

theorem ended_fits {d : Bool} {l : Line} (h : LineFits d l) : LineFits d (l.ended d) := forced_fits h (!l.active)

theorem lineAt_fits {d : Bool} {l : Line} (h : LineFits d l) (now : Time) : LineFits d (lineAt l now d) := by
  unfold lineAt
  split
  · exact ended_fits h
  · exact h

theorem configure_fits {d : Bool} {l : Line} (h : LineFits d l) (hp : l.pulse = none) (active safe : Bool) :
    LineFits d (l.configure d active safe) := by
  refine ⟨fun hd => ⟨by simp [Line.configure, hd], hp⟩, fun hd => ?_, fun hn => absurd hp hn⟩
  simpa [Line.configure, hd] using h.run hd

/-! ## Changes that the law allows -/

/-- The lines, the safe state and the freeze mark are all that the law reads. -/
theorem lineLaw_congr {s t : State} (h : LineLaw s) (lines : t.lineUnit = s.lineUnit)
    (state : t.safeController.state = s.safeController.state) (freeze : t.timebase.freeze = s.timebase.freeze) : LineLaw t := by
  rw [lineLaw_iff] at h ⊢
  simpa only [State.line, lines, state, freeze] using h

/-- Lines may change one by one, as long as each goes on to fit. -/
theorem lineLaw_lines {s t : State} (h : LineLaw s) (drive : t.lineUnit.safeDrive = s.lineUnit.safeDrive)
    (fits : ∀ n, LineFits s.lineUnit.safeDrive (s.line n) → LineFits s.lineUnit.safeDrive (t.line n))
    (state : t.safeController.state = s.safeController.state) (freeze : t.timebase.freeze = s.timebase.freeze) : LineLaw t := by
  obtain ⟨mark, old, frozen⟩ := (lineLaw_iff s).1 h
  refine (lineLaw_iff t).2 ⟨?_, fun n => ?_, ?_⟩
  · rwa [drive, state]
  · rw [drive]
    exact fits n (old n)
  · rwa [state, freeze]

theorem lineLaw_setLine {s : State} (h : LineLaw s) (n : LineId) (l : Line)
    (fits : LineFits s.lineUnit.safeDrive (s.line n) → LineFits s.lineUnit.safeDrive l) : LineLaw (s.setLine n l) := by
  refine lineLaw_lines h rfl (fun m hm => ?_) rfl rfl
  by_cases e : m = n
  · subst e
    rw [line_setLine_same]
    exact fits hm
  · rwa [line_setLine_other _ _ _ _ e]

theorem lineLaw_move {s t : State} (m : ScheduleMove s t) (h : LineLaw s) : LineLaw t :=
  lineLaw_congr h m.beside.lineUnit (by rw [m.beside.safeController]) (by rw [m.beside.timebase])

theorem lineLaw_besideWindow {s t : State} (b : BesideWindow s t) (h : LineLaw s) : LineLaw t :=
  lineLaw_congr h b.lineUnit (by rw [b.safeController]) (by rw [b.timebase])

theorem lineLaw_forceLine (n : LineId) (v : Bool) : Keeps LineLaw (·.forceLine n v) := by
  intro s h
  simp only [forceLine_eq]
  exact lineLaw_congr (lineLaw_setLine h n _ fun hl => forced_fits hl v) rfl rfl rfl

theorem lineLaw_endPulse (n : LineId) : Keeps LineLaw (·.endPulse n) := by
  intro s h
  simp only [endPulse_eq]
  exact lineLaw_setLine h n _ fun hl => lineAt_fits hl s.now

theorem lineLaw_pulseLine {s : State} (h : LineLaw s) (n : LineId) (w : Word) (owner : SlotId) :
    LineLaw (s.pulseLine n w owner).2 := by
  unfold State.pulseLine
  split
  · exact h
  · next hd =>
    have run : ∀ {l : Line}, l.driven = l.intended → l.intended = l.active → LineFits s.lineUnit.safeDrive l := fun h1 h2 =>
      ⟨fun hd' => absurd hd' hd, fun _ => h1, fun _ => h2⟩
    simp only
    split
    · next old hp =>
      refine lineLaw_setLine (s := s.send (.slot old.owner) .retriggered s.now) (lineLaw_congr h rfl rfl rfl) n _ fun hl => ?_
      exact run (hl.run (by simpa using hd)) (hl.active (by rw [show (s.send _ _ _).line n = s.line n from rfl, hp]; nofun))
    · exact lineLaw_setLine h n _ fun _ => run rfl rfl

theorem lineLaw_enterSafe (s : State) : LineLaw s.enterSafe := by
  obtain ⟨drive, line, whole⟩ := enterSafe_entry s
  have state : s.enterSafe.safeController.state = .safe := by rw [whole]
  refine (lineLaw_iff _).2 ⟨by rw [drive, state]; simp, fun n => ?_, fun _ => state⟩
  rw [drive, line n]
  exact ⟨fun _ => ⟨rfl, rfl⟩, nofun, fun hp => absurd rfl hp⟩

theorem lineLaw_exitSafe {s : State} (h : LineLaw s) : LineLaw s.exitSafe := by
  obtain ⟨drive, line, whole⟩ := exitSafe_exit s
  have state : s.exitSafe.safeController.state = .run := by rw [whole]
  have freeze : s.exitSafe.timebase.freeze = false := by rw [whole]
  refine (lineLaw_iff _).2 ⟨by rw [drive, state]; simp, fun n => ?_, by rw [freeze]; nofun⟩
  rw [drive, line n]
  exact ⟨nofun, fun _ => rfl, h.pulseActive n⟩

theorem lineLaw_causeSafe : Keeps LineLaw State.causeSafe := by
  intro s h
  unfold State.causeSafe
  split
  · exact lineLaw_enterSafe s
  · exact h

theorem lineLaw_setSafe {s : State} (h : LineLaw s) {c : SafeController} (hc : c.state = s.safeController.state) :
    LineLaw (s.setSafe c) := lineLaw_congr h rfl hc rfl

theorem lineLaw_sampleSafe (low : Bool) : Keeps LineLaw (·.sampleSafe low) := by
  intro s h
  simp only [State.sampleSafe]
  split
  · exact lineLaw_setSafe h rfl
  · split
    · exact lineLaw_setSafe h rfl
    · split
      · exact lineLaw_causeSafe _ (lineLaw_setSafe h rfl)
      · exact lineLaw_setSafe h rfl

/-! ## CLK periods, commands, rows -/

theorem lineLaw_period : KeptInPeriod LineLaw where
  counts s b hb h := lineLaw_congr h rfl rfl hb.freeze
  tickFast s h := lineLaw_congr h rfl rfl rfl
  acceptance s h := by
    have lines : s.takeAcceptance.lineUnit = s.lineUnit := by
      unfold State.takeAcceptance
      split
      · rfl
      · rw [(accept_spec _ _).2.2.2]
    have quiet := takeAcceptance_quiet s
    exact lineLaw_congr h lines (by rw [quiet.safeController]) (by rw [quiet.timebase])
  flagEvent s h := (moves_takeFlagEvent s).keeps lineLaw_move h
  deadlines s h := (moves_expireDeadlines s).keeps lineLaw_move h
  pulseEnd := lineLaw_endPulse
  advance s h := by
    rw [advance_eq]
    exact lineLaw_congr h rfl rfl rfl
  samples pins s h := by
    show LineLaw (s.sampleInputs pins)
    rw [(sampleInputs_spec pins s).2]
    exact lineLaw_congr h rfl rfl rfl
  ages s h := lineLaw_congr h rfl rfl rfl
  safe := lineLaw_sampleSafe

theorem lineLaw_resetBlocks (s : State) : LineLaw s.resetBlocks := by
  refine (lineLaw_iff _).2 ⟨⟨nofun, nofun⟩, fun n => ?_, nofun⟩
  have line : s.resetBlocks.line n = Line.reset := by simp [State.resetBlocks, State.reset, State.line]
  rw [line]
  exact ⟨nofun, fun _ => rfl, fun hp => absurd rfl hp⟩

theorem lineLaw_endReachedPulses : Keeps LineLaw State.endReachedPulses := fun s h =>
  Keeps.foldl lineLaw_endPulse allLines s h

theorem lineLaw_replaceTime (t : Time) : Keeps LineLaw (·.replaceTime t) := by
  intro s h
  have freeze : s.timebase.freeze = s.endReachedPulses.timebase.freeze :=
    congrArg Timebase.freeze (endPulses_quiet allLines s).timebase.symm
  have ended := lineLaw_endReachedPulses s h
  show LineLaw (s.endReachedPulses.setTimebase { s.timebase with time := t }).endReachedPulses
  generalize s.endReachedPulses = u at ended freeze
  exact lineLaw_endReachedPulses _ (lineLaw_congr ended rfl rfl freeze)

theorem lineLaw_setLines (group : Nat) (w : Word) : Keeps LineLaw (·.setLines group w) := by
  refine Keeps.foldl (fun n s h => ?_) allLines
  simp only
  split
  · exact lineLaw_forceLine n _ s h
  · exact h

theorem lineLaw_change {s t : State} (c : Change s t) (h : LineLaw s) : LineLaw t := by
  cases c with
  | same => exact h
  | time t => exact lineLaw_replaceTime t s h
  | desired | tick | input | notify | defined | released => exact lineLaw_congr h rfl rfl rfl
  | lines group w => exact lineLaw_setLines group w s h
  | line n active safe hp => exact lineLaw_setLine h n _ fun hl => configure_fits hl hp active safe
  | policy p => exact lineLaw_setSafe h rfl
  | safe => exact lineLaw_causeSafe s h
  | run => exact lineLaw_exitSafe h
  | device => exact lineLaw_resetBlocks s

theorem lineLaw_kept : KeptByParts LineLaw where
  move := lineLaw_move
  commands := keepsCommands_of_change (fun _ _ h => lineLaw_congr h rfl rfl rfl) lineLaw_change
  window _ hw s h := lineLaw_besideWindow (effect_besideWindow hw s) h
  force := lineLaw_forceLine
  pulse n w i _ h := lineLaw_pulseLine h n w i
  period := lineLaw_period
  pins _ _ h := lineLaw_congr h rfl rfl rfl
  reset s _ := lineLaw_resetBlocks s

/-- Settles O58: a line fits the safe drive mark by itself, every row that touches a line leaves it fitting, and only a safe entry and
a safe exit move the mark. -/
theorem everyStepKeepsTheLineLaw : Obligations.EveryStepKeepsTheLineLaw := fun _ _ h e =>
  lineLaw_kept.rows.step (fun _ _ h => lineLaw_congr h rfl rfl rfl) h e

end Sys2Proof.Proofs
end

section
/-! SUPPORT. The law of the notification queue (R138, R142, R148), of the command path (R165, R167, R172, R173) and of the qualifiers
(R1, R9, R109, R122, R154). -/

namespace Sys2Proof.Proofs

open Sys2Proof.Machine Sys2Proof.Laws

/-! ## What is quiet in a CLK period -/

/-- A law that neither lines nor inputs, slots, waits, flags, news or the tick sources can break needs only the rest of a period. -/
theorem KeptInPeriod.of_quiet {P : State → Prop} (quiet : ∀ {s t}, Quiet s t → P s → P t)
    (counts : ∀ s b, CountsMoved s.timebase b → P s → P (s.setTimebase b)) (tickFast : Keeps P (·.raise .tickFast))
    (advance : Keeps P State.advance) (ages : Keeps P State.ageRecords) (safe : ∀ low, Keeps P (·.sampleSafe low)) :
    KeptInPeriod P where
  counts := counts
  tickFast := tickFast
  acceptance s h := quiet (takeAcceptance_quiet s) h
  flagEvent s h := quiet (takeFlagEvent_quiet s) h
  deadlines s h := quiet (expireDeadlines_quiet s) h
  pulseEnd n s h := quiet (endPulses_quiet [n] s) h
  advance := advance
  samples pins s h := quiet (sampleInputs_quiet pins s) h
  ages := ages
  safe := safe

theorem forceLine_quiet (n : LineId) (v : Bool) (s : State) : Quiet s (s.forceLine n v) := by
  rw [forceLine_eq]
  exact ⟨rfl, rfl, rfl, rfl, rfl, rfl, rfl, rfl, rfl⟩

theorem pulseLine_quiet (n : LineId) (w : Word) (i : SlotId) (s : State) : Quiet s (s.pulseLine n w i).2 := by
  unfold State.pulseLine
  split
  · exact Quiet.rfl' s
  · simp only
    split <;> exact ⟨rfl, rfl, rfl, rfl, rfl, rfl, rfl, rfl, rfl⟩

theorem setLines_quiet (group : Nat) (w : Word) (s : State) : Quiet s (s.setLines group w) := by
  refine Keeps.foldl (P := Quiet s) (fun n u h => ?_) allLines s (Quiet.rfl' s)
  simp only
  split
  · exact h.trans' (forceLine_quiet n _ u)
  · exact h

/-- A sample of SAFE# moves the safe controller, the lines, the freeze mark and the news, and nothing else. -/
structure SafeMoved (s t : State) : Prop where
  timebase : t.timebase = { s.timebase with freeze := t.timebase.freeze }
  inputUnit : t.inputUnit = s.inputUnit
  window : t.window = s.window
  commandUnit : t.commandUnit = s.commandUnit
  pending : t.pending = s.pending
  notes : t.noteQueue = { s.noteQueue with inFlight := t.noteQueue.inFlight }

theorem causeSafe_moved (s : State) : SafeMoved s s.causeSafe ∧ s.causeSafe.safeController.candidate = s.safeController.candidate := by
  obtain ⟨entered, kept⟩ := causeSafe_spec s
  cases h : s.safeController.state with
  | safe =>
    rw [kept h]
    exact ⟨⟨rfl, rfl, rfl, rfl, rfl, rfl⟩, rfl⟩
  | run =>
    obtain ⟨-, -, whole⟩ := entered h
    rw [whole]
    exact ⟨⟨rfl, rfl, rfl, rfl, rfl, rfl⟩, rfl⟩

theorem sampleSafe_moved (low : Bool) (s : State) : SafeMoved s (s.sampleSafe low) := by
  have set (c : SafeController) : SafeMoved s (s.setSafe c) := ⟨rfl, rfl, rfl, rfl, rfl, rfl⟩
  simp only [State.sampleSafe]
  split
  · exact set _
  · split
    · exact set _
    · split
      · obtain ⟨⟨h1, h2, h3, h4, h5, h6⟩, -⟩ :=
          causeSafe_moved (s.setSafe { s.safeController with candidate := 0, asserted := low })
        exact ⟨h1, h2, h3, h4, h5, h6⟩
      · exact set _

theorem exitSafe_moved (s : State) : SafeMoved s s.exitSafe ∧ s.exitSafe.safeController.candidate = s.safeController.candidate := by
  obtain ⟨-, -, whole⟩ := exitSafe_exit s
  rw [whole]
  exact ⟨⟨rfl, rfl, rfl, rfl, rfl, rfl⟩, rfl⟩

theorem endReachedPulses_quiet (s : State) : Quiet s s.endReachedPulses := endPulses_quiet allLines s

/-- A new device time ends pulses and changes nothing else outside the lines. -/
theorem replaceTime_quiet (s : State) (t : Time) :
    Quiet (s.setTimebase { s.timebase with time := t }) (s.replaceTime t) := by
  have first := endReachedPulses_quiet s
  show Quiet _ (s.endReachedPulses.setTimebase { s.timebase with time := t }).endReachedPulses
  generalize s.endReachedPulses = u at first
  refine Quiet.trans' ?_ (endReachedPulses_quiet _)
  exact ⟨rfl, first.dueQueue, first.firing, first.safeController, first.window, first.commandUnit, first.pins, first.pending,
    first.records⟩

/-! ## The law of the notification queue -/

/-- The law reads the records, the settings, attention and the cursor. -/
theorem noteLaw_congr {s t : State} (h : NoteLaw s) (notes : t.noteQueue = { s.noteQueue with inFlight := t.noteQueue.inFlight })
    (cursor : t.window.noteCursor = s.window.noteCursor) : NoteLaw t := by
  refine ⟨?_, ?_, ?_, ?_, ?_⟩ <;> rw [notes]
  · exact h.sources
  · exact h.counts
  · exact h.threshold
  · rw [cursor]
    exact h.cursor
  · exact h.attention

/-- What R138 and R142 ask of one record. -/
def RecordFits (r : NoteRecord) : Prop := 1 ≤ r.count ∧ r.count ≤ 255 ∧ r.age ≤ 65535 ∧ r.seen.getLsbD r.lastKind.code = true

/-- The records may be replaced: attention follows them. -/
theorem noteLaw_setRecords {s : State} (h : NoteLaw s) (rs : List NoteRecord) (sources : (rs.map NoteRecord.source).Nodup)
    (fits : ∀ r ∈ rs, RecordFits r) (cursor : rs = [] → s.window.noteCursor = 0) : NoteLaw (s.setRecords rs) :=
  ⟨sources, fits, h.threshold, ⟨h.cursor.1, cursor⟩, wantsAttention_iff _⟩

theorem mask_getLsbD (k : Kind) : k.mask.getLsbD k.code = true := by
  cases k <;> decide

theorem create_fits (n : NewsItem) (tag : Byte) : RecordFits (NoteRecord.create n tag) :=
  ⟨Nat.le_refl 1, Nat.le_of_ble_eq_true rfl, Nat.zero_le _, mask_getLsbD n.kind⟩

theorem merge_fits {r : NoteRecord} (h : RecordFits r) (n : NewsItem) : RecordFits (r.merge n) := by
  obtain ⟨-, -, age, -⟩ := h
  refine ⟨?_, Nat.min_le_left _ _, age, ?_⟩
  · show 1 ≤ min 255 (r.count + 1)
    omega
  · show (r.seen ||| n.kind.mask).getLsbD n.kind.code = true
    rw [BitVec.getLsbD_or, mask_getLsbD, Bool.or_true]

theorem takeInto_fits (n : NewsItem) (tag : Byte) {rs : List NoteRecord} (h : ∀ r ∈ rs, RecordFits r) :
    ∀ r ∈ takeInto n tag rs, RecordFits r := by
  induction rs with
  | nil => exact fun r hr => List.mem_singleton.1 hr ▸ create_fits n tag
  | cons x rs ih =>
    obtain ⟨hx, hrs⟩ := List.forall_mem_cons.1 h
    unfold takeInto
    split
    · exact List.forall_mem_cons.2 ⟨merge_fits hx n, hrs⟩
    · exact List.forall_mem_cons.2 ⟨hx, ih hrs⟩

theorem takeInto_nodup (n : NewsItem) (tag : Byte) {rs : List NoteRecord} (h : (rs.map NoteRecord.source).Nodup) :
    ((takeInto n tag rs).map NoteRecord.source).Nodup := by
  obtain ⟨e, -⟩ | ⟨e, fresh⟩ := takeInto_sources n tag rs <;> rw [e]
  · exact h
  · rw [← List.concat_eq_append]
    exact h.concat fresh

theorem takeInto_ne_nil (n : NewsItem) (tag : Byte) (rs : List NoteRecord) : takeInto n tag rs ≠ [] := by
  cases rs with
  | nil => nofun
  | cons x rs =>
    unfold takeInto
    split <;> nofun

theorem noteLaw_takeNews (path : NewsPath) : Keeps NoteLaw (·.takeNews path) := by
  intro s h
  simp only [State.takeNews]
  split
  · exact h
  · next n _ =>
    have taken : NoteLaw (s.setNotes { s.noteQueue with inFlight := s.noteQueue.inFlight.eraseP (·.path == path) }) :=
      noteLaw_congr h rfl rfl
    split
    · exact noteLaw_setRecords taken _ (takeInto_nodup n _ h.sources) (takeInto_fits n _ h.counts) fun e =>
        absurd e (takeInto_ne_nil _ _ _)
    · exact taken

theorem noteLaw_ageRecords : Keeps NoteLaw State.ageRecords := by
  intro s h
  refine noteLaw_setRecords h _ ?_ (fun r hr => ?_) fun e => h.cursor.2 (List.map_eq_nil_iff.1 e)
  · rw [List.map_map]
    exact h.sources
  · obtain ⟨x, hx, rfl⟩ := List.mem_map.1 hr
    obtain ⟨low, high, -, seen⟩ := h.counts x hx
    exact ⟨low, high, Nat.min_le_left _ _, seen⟩

theorem noteLaw_noteRead : Keeps NoteLaw State.noteRead := by
  intro s h
  unfold State.noteRead
  split
  · exact noteLaw_congr h rfl rfl
  · next r rest hr =>
    have moved (c : Nat) (hc : c ≤ 4) (hi : Word) (w : Word) :
        NoteLaw ((s.setWindow { s.window with noteCursor := c, noteTimeHi := hi }).returnWord w) :=
      ⟨h.sources, h.counts, h.threshold, ⟨hc, fun e => absurd (hr.symm.trans e) (List.cons_ne_nil _ _)⟩, h.attention⟩
    split
    iterate 4 exact moved _ (by decide) _ _
    · have start : NoteLaw (s.setWindow { s.window with noteCursor := 0 }) :=
        ⟨h.sources, h.counts, h.threshold, ⟨Nat.zero_le _, fun _ => rfl⟩, h.attention⟩
      have sources := h.sources
      rw [hr] at sources
      exact noteLaw_congr (noteLaw_setRecords start rest (List.nodup_cons.1 sources).2
        (fun x hx => h.counts x (hr ▸ List.mem_cons_of_mem r hx)) fun _ => rfl) rfl rfl

theorem noteLaw_recompute {s : State} (h : NoteLaw s) (threshold : Nat) (holdoff urgent : Word)
    (range : 1 ≤ threshold ∧ threshold ≤ 145) : NoteLaw (s.setNotes (NoteQueue.recompute
      { s.noteQueue with threshold := threshold, holdoff := holdoff, urgent := urgent })) :=
  ⟨h.sources, h.counts, range, h.cursor, wantsAttention_iff _⟩

theorem noteLaw_window (c : Instr) (hc : isWindow c = true) : Keeps NoteLaw (effect c) := by
  intro s h
  have either (p : Prop) [Decidable p] (t u : State) (ht : NoteLaw t) (hu : NoteLaw u) : NoteLaw (if p then t else u) := by
    split <;> assumption
  have same {t : State} (notes : t.noteQueue = s.noteQueue) (cursor : t.window.noteCursor = s.window.noteCursor) : NoteLaw t :=
    noteLaw_congr h (by rw [notes]) cursor
  cases c
  case news path => exact noteLaw_takeNews path s h
  case noteRead => exact noteLaw_noteRead s h
  case holdoff =>
    exact either _ _ _ (noteLaw_recompute h s.noteQueue.threshold s.noteQueue.holdoff s.noteQueue.urgent h.threshold) h
  case resultRead =>
    show NoteLaw s.resultRead
    unfold State.resultRead
    split
    · exact same rfl rfl
    · exact either _ _ _ (same rfl rfl) (same rfl rfl)
  case flagValueWrite w =>
    refine either _ _ _ (same rfl rfl) ?_
    rw [(writeGroup_spec s s.window.flagSelect w).2]
    exact same rfl rfl
  case badAddress a =>
    refine either _ _ _ ?_ h
    cases a <;> exact same rfl rfl
  case commandWrite w => exact either _ _ _ (same rfl rfl) (either _ _ _ (same rfl rfl) (same rfl rfl))
  case stageWrite | flagSelectWrite => exact either _ _ _ (same rfl rfl) (same rfl rfl)
  case timeLoRead | intEnableWrite | errorWrite | clearStage => exact same rfl rfl
  all_goals cases hc

theorem noteLaw_quiet {s t : State} (q : Quiet s t) (h : NoteLaw s) : NoteLaw t :=
  noteLaw_congr h q.records (by rw [q.window])

theorem noteLaw_safeMoved {s t : State} (m : SafeMoved s t) (h : NoteLaw s) : NoteLaw t :=
  noteLaw_congr h m.notes (by rw [m.window])

theorem noteLaw_resetBlocks (s : State) : NoteLaw s.resetBlocks :=
  ⟨List.nodup_nil, nofun, ⟨Nat.le_of_ble_eq_true rfl, Nat.le_of_ble_eq_true rfl⟩, ⟨Nat.zero_le _, fun _ => rfl⟩,
    wantsAttention_iff State.reset.noteQueue⟩

theorem noteLaw_change {s t : State} (c : Change s t) (h : NoteLaw s) : NoteLaw t := by
  cases c with
  | same => exact h
  | time t => exact noteLaw_quiet (replaceTime_quiet s t) (noteLaw_congr h rfl rfl)
  | lines group w => exact noteLaw_quiet (setLines_quiet group w s) h
  | notify threshold holdoff urgent range => exact noteLaw_recompute h threshold holdoff urgent range
  | safe => exact noteLaw_safeMoved (causeSafe_moved s).1 h
  | run => exact noteLaw_safeMoved (exitSafe_moved s).1 h
  | device => exact noteLaw_resetBlocks s
  | desired | tick | line | input | policy | defined | released => exact noteLaw_congr h rfl rfl

theorem noteLaw_kept : KeptByParts NoteLaw where
  move m h := noteLaw_congr h m.beside.notes (by rw [m.beside.window])
  commands := keepsCommands_of_change (fun _ _ h => noteLaw_congr h rfl rfl) noteLaw_change
  window := noteLaw_window
  force n v s h := noteLaw_quiet (forceLine_quiet n v s) h
  pulse n w i s h := noteLaw_quiet (pulseLine_quiet n w i s) h
  period := .of_quiet noteLaw_quiet (fun _ _ _ h => noteLaw_congr h rfl rfl) (fun _ h => noteLaw_congr h rfl rfl)
    (fun s h => by rw [advance_eq]; exact noteLaw_congr h rfl rfl) noteLaw_ageRecords
    fun low s h => noteLaw_safeMoved (sampleSafe_moved low s) h
  pins _ _ h := noteLaw_congr h rfl rfl
  reset s _ := noteLaw_resetBlocks s

/-! ## The law of the qualifiers -/

/-- The law reads the inputs, the count of the SAFE# qualifier, and the prescaler with its count. -/
theorem countLaw_congr {s t : State} (h : CountLaw s) (inputs : t.inputUnit.inputs = s.inputUnit.inputs)
    (candidate : t.safeController.candidate = s.safeController.candidate) (prescaler : t.timebase.prescaler = s.timebase.prescaler)
    (count : t.timebase.prescalerCount = s.timebase.prescalerCount) : CountLaw t := by
  refine ⟨fun i => ?_, by rw [candidate]; exact h.safe, by rw [prescaler, count]; exact h.prescaler⟩
  have input : t.input i = s.input i := by simp only [State.input, inputs]
  rw [input]
  exact h.inputs i

theorem countLaw_safe {s : State} (h : CountLaw s) {c : SafeController} (hc : c.candidate ≤ 3) : CountLaw (s.setSafe c) :=
  ⟨h.inputs, hc, h.prescaler⟩

theorem countLaw_safeMoved {s t : State} (m : SafeMoved s t) (candidate : t.safeController.candidate = s.safeController.candidate)
    (h : CountLaw s) : CountLaw t :=
  countLaw_congr h (by rw [m.inputUnit]) candidate (by rw [m.timebase]) (by rw [m.timebase])

theorem countLaw_sampleSafe (low : Bool) : Keeps CountLaw (·.sampleSafe low) := by
  intro s h
  simp only [State.sampleSafe]
  split
  · exact countLaw_safe h (Nat.zero_le _)
  · split
    · exact countLaw_safe h (by assumption)
    · have restarted : CountLaw (s.setSafe { s.safeController with candidate := 0, asserted := low }) :=
        countLaw_safe h (Nat.zero_le _)
      split
      · exact countLaw_safeMoved (causeSafe_moved _).1 (causeSafe_moved _).2 restarted
      · exact restarted

theorem sampled_fits {x : Input} (h : x.q ≤ 15 ∧ x.candidate ≤ x.q) (level flag : Bool) :
    (sampled x level flag).q ≤ 15 ∧ (sampled x level flag).candidate ≤ (sampled x level flag).q := by
  refine ⟨h.1, ?_⟩
  show (if level = flag then 0 else if x.candidate < x.q then x.candidate + 1 else 0) ≤ x.q
  split
  · exact Nat.zero_le _
  · split
    · assumption
    · exact Nat.zero_le _

theorem countLaw_move {s t : State} (m : ScheduleMove s t) (h : CountLaw s) : CountLaw t :=
  countLaw_congr h (by rw [m.beside.inputUnit]) (by rw [m.beside.safeController]) (by rw [m.beside.timebase])
    (by rw [m.beside.timebase])

theorem countLaw_forceLine (n : LineId) (v : Bool) : Keeps CountLaw (·.forceLine n v) := by
  intro s h
  simp only [forceLine_eq]
  exact countLaw_congr h rfl rfl rfl rfl

theorem countLaw_endPulse (n : LineId) : Keeps CountLaw (·.endPulse n) := by
  intro s h
  simp only [endPulse_eq]
  exact countLaw_congr h rfl rfl rfl rfl

theorem countLaw_period : KeptInPeriod CountLaw where
  counts s b hb h := by
    refine ⟨h.inputs, h.safe, ?_⟩
    obtain ⟨low, high, below⟩ := h.prescaler
    show 256 ≤ b.prescaler ∧ b.prescaler ≤ 65536 ∧ b.prescalerCount < b.prescaler
    rw [hb.prescaler]
    refine ⟨low, high, ?_⟩
    obtain e | e | ⟨e, lt⟩ := hb.count <;> rw [e]
    · exact below
    · omega
    · exact lt
  tickFast s h := countLaw_congr h rfl rfl rfl rfl
  acceptance s h := by
    have q := takeAcceptance_quiet s
    refine countLaw_congr h ?_ (by rw [q.safeController]) (by rw [q.timebase]) (by rw [q.timebase])
    unfold State.takeAcceptance
    split
    · rfl
    · rw [(accept_spec _ _).2.2.2]
  flagEvent s h := (moves_takeFlagEvent s).keeps countLaw_move h
  deadlines s h := (moves_expireDeadlines s).keeps countLaw_move h
  pulseEnd := countLaw_endPulse
  advance s h := by
    rw [advance_eq]
    exact countLaw_congr h rfl rfl rfl rfl
  samples pins s h := by
    have q := sampleInputs_quiet pins s
    refine ⟨fun i => ?_, ?_, ?_⟩
    · show ((s.sampleInputs pins).input i).q ≤ 15 ∧ _
      rw [(sampleInputs_spec pins s).1 i]
      exact sampled_fits (h.inputs i) _ _
    · show (s.sampleInputs pins).safeController.candidate ≤ 3
      rw [q.safeController]
      exact h.safe
    · show 256 ≤ (s.sampleInputs pins).timebase.prescaler ∧ _
      rw [q.timebase]
      exact h.prescaler
  ages s h := countLaw_congr h rfl rfl rfl rfl
  safe := countLaw_sampleSafe

theorem countLaw_resetBlocks (s : State) : CountLaw s.resetBlocks := by
  refine ⟨fun i => ?_, Nat.zero_le _, Nat.le_of_ble_eq_true rfl, Nat.le_of_ble_eq_true rfl, Nat.le_of_ble_eq_true rfl⟩
  have input : s.resetBlocks.input i = Input.reset := by simp [State.resetBlocks, State.reset, State.input]
  rw [input]
  decide

theorem countLaw_replaceTime (t : Time) : Keeps CountLaw (·.replaceTime t) := by
  intro s h
  have q := endReachedPulses_quiet s
  have ended : Keeps CountLaw State.endReachedPulses := fun u hu => Keeps.foldl countLaw_endPulse allLines u hu
  have first := ended s h
  show CountLaw (s.endReachedPulses.setTimebase { s.timebase with time := t }).endReachedPulses
  generalize s.endReachedPulses = u at q first
  have prescaler : s.timebase.prescaler = u.timebase.prescaler := by rw [q.timebase]
  have count : s.timebase.prescalerCount = u.timebase.prescalerCount := by rw [q.timebase]
  exact ended _ (countLaw_congr first rfl rfl prescaler count)

theorem prescalerOf_range {w : Word} {p : Nat} (h : prescalerOf w = some p) : 256 ≤ p ∧ p ≤ 65536 := by
  unfold prescalerOf at h
  have := w.isLt
  split at h
  · cases h
    decide
  · split at h
    · cases h
    · cases h
      omega

theorem configure_q (x : Input) (w : Word) : (x.configure w).q ≤ 15 := by
  show bits w 3 0 ≤ 15
  simp only [bits]
  omega

theorem countLaw_setInput {s : State} (h : CountLaw s) (i : LineId) {x : Input} (hx : x.q ≤ 15 ∧ x.candidate ≤ x.q) :
    CountLaw (s.setInput i x) := by
  refine ⟨fun j => ?_, h.safe, h.prescaler⟩
  by_cases e : j = i
  · subst e
    rwa [input_setInput_same]
  · rw [input_setInput_other _ _ _ _ e]
    exact h.inputs j

theorem countLaw_change {s t : State} (c : Change s t) (h : CountLaw s) : CountLaw t := by
  cases c with
  | same => exact h
  | time t => exact countLaw_replaceTime t s h
  | tick w src p hp =>
    obtain ⟨low, high⟩ := prescalerOf_range hp
    exact ⟨h.inputs, h.safe, low, high, Nat.lt_of_lt_of_le (Nat.zero_lt_succ 255) low⟩
  | lines group w =>
    refine Keeps.foldl (P := CountLaw) (fun n u h => ?_) allLines s h
    simp only
    split
    · exact countLaw_forceLine n _ u h
    · exact h
  | input i w => exact countLaw_setInput h i ⟨configure_q _ w, Nat.zero_le _⟩
  | safe => exact countLaw_safeMoved (causeSafe_moved s).1 (causeSafe_moved s).2 h
  | run => exact countLaw_safeMoved (exitSafe_moved s).1 (exitSafe_moved s).2 h
  | device => exact countLaw_resetBlocks s
  | desired | line | notify | policy | defined | released => exact countLaw_congr h rfl rfl rfl rfl

theorem countLaw_kept : KeptByParts CountLaw where
  move := countLaw_move
  commands := keepsCommands_of_change (fun _ _ h => countLaw_congr h rfl rfl rfl rfl) countLaw_change
  window c hc s h := by
    have b := effect_besideWindow hc s
    exact countLaw_congr h (by rw [b.inputUnit]) (by rw [b.safeController]) (by rw [b.timebase]) (by rw [b.timebase])
  force := countLaw_forceLine
  pulse n w i s h := by
    simp only [State.pulseLine]
    split
    · exact h
    · split <;> exact countLaw_congr h rfl rfl rfl rfl
  period := countLaw_period
  pins _ _ h := countLaw_congr h rfl rfl rfl rfl
  reset s _ := countLaw_resetBlocks s

/-! ## The law of the command path -/

/-- The law reads the command unit, the staging list and the result cursor. -/
theorem pathLaw_congr {s t : State} (h : PathLaw s) (commands : t.commandUnit = s.commandUnit)
    (staging : t.window.staging = s.window.staging) (cursor : t.window.resultCursor = s.window.resultCursor) : PathLaw t := by
  refine ⟨?_, ?_, ?_, ?_⟩
  · rw [staging]
    exact h.staging
  · rw [commands]
    exact h.budget
  · rw [commands]
    exact h.data
  · rw [commands, cursor]
    exact h.cursor

theorem pathLaw_quiet {s t : State} (q : Quiet s t) (h : PathLaw s) : PathLaw t :=
  pathLaw_congr h q.commandUnit (by rw [q.window]) (by rw [q.window])

theorem pathLaw_safeMoved {s t : State} (m : SafeMoved s t) (h : PathLaw s) : PathLaw t :=
  pathLaw_congr h m.commandUnit (by rw [m.window]) (by rw [m.window])

/-- The command path with room in the budget for the command being given to its owner (R167). -/
structure PathRoom (s : State) : Prop where
  staging : s.window.staging.length ≤ 16
  room : s.commandUnit.fifo.length + s.commandUnit.results.length ≤ 7
  data : ∀ r ∈ s.commandUnit.results, r.data.length = 0 ∨ (r.data.length = 8 ∧ r.status = .ok)
  cursor : s.window.resultCursor ≤ 9 ∧ (s.commandUnit.results = [] → s.window.resultCursor = 0)
    ∧ ∀ r rest, s.commandUnit.results = r :: rest → s.window.resultCursor < 2 + r.data.length

theorem PathRoom.congr {s t : State} (h : PathRoom s) (commands : t.commandUnit = s.commandUnit)
    (window : t.window = s.window) : PathRoom t := by
  refine ⟨?_, ?_, ?_, ?_⟩ <;> simp only [commands, window]
  · exact h.staging
  · exact h.room
  · exact h.data
  · exact h.cursor

theorem pathRoom_of_executing {s : State} (h : PathLaw s) {x : Executing} (hx : s.commandUnit.executing = some x) : PathRoom s := by
  refine ⟨h.staging, ?_, h.data, h.cursor⟩
  have budget := h.budget
  rw [hx] at budget
  simp only [Option.isSome_some, if_true] at budget
  omega

theorem PathRoom.waitFor {s : State} (h : PathRoom s) (c : Command) (w : Work) : PathLaw (s.waitFor c w) := by
  refine ⟨h.staging, ?_, h.data, h.cursor⟩
  show s.commandUnit.fifo.length + 1 + s.commandUnit.results.length ≤ 8
  have := h.room
  omega

/-- An answer goes behind the records already there (R172). -/
theorem PathRoom.complete {s : State} (h : PathRoom s) (c : Command) (status : Status) (data : List Word)
    (words : data.length = 0 ∨ (data.length = 8 ∧ status = .ok)) : PathLaw (s.complete c status data) := by
  obtain ⟨staging, room, records, nine, empty, inside⟩ := h
  rw [complete_eq]
  refine ⟨staging, ?_, fun r hr => ?_, nine, fun e => ?_, fun r rest e => ?_⟩
  · show s.commandUnit.fifo.length + 0 + (s.commandUnit.results ++ [_]).length ≤ 8
    rw [List.length_append]
    simp only [List.length_cons, List.length_nil]
    omega
  · obtain hr | hr := List.mem_append.1 hr
    · exact records r hr
    · rw [List.mem_singleton.1 hr]
      exact words
  · exact absurd e (List.append_ne_nil_of_right_ne_nil _ (List.cons_ne_nil _ _))
  · show s.window.resultCursor < 2 + r.data.length
    cases results : s.commandUnit.results with
    | nil =>
      rw [empty results]
      omega
    | cons x xs =>
      have head : s.commandUnit.results ++ [⟨c.code, c.operand, status, data⟩] = r :: rest := e
      rw [results] at head
      cases head
      exact inside _ _ results

theorem pathRoom_resetBlocks (s : State) : PathRoom s.resetBlocks :=
  ⟨Nat.zero_le _, Nat.zero_le _, nofun, Nat.zero_le _, fun _ => rfl, nofun⟩

theorem pathRoom_change {s t : State} (c : Change s t) (h : PathRoom s) : PathRoom t := by
  cases c with
  | same => exact h
  | time t =>
    have q := replaceTime_quiet s t
    exact h.congr q.commandUnit q.window
  | lines group w =>
    have q := setLines_quiet group w s
    exact h.congr q.commandUnit q.window
  | safe => exact h.congr (causeSafe_moved s).1.commandUnit (causeSafe_moved s).1.window
  | run => exact h.congr (exitSafe_moved s).1.commandUnit (exitSafe_moved s).1.window
  | device => exact pathRoom_resetBlocks s
  | desired | tick | line | input | notify | policy | defined | released => exact h.congr rfl rfl

theorem pathLaw_resetBlocks (s : State) : PathLaw s.resetBlocks :=
  ⟨Nat.zero_le _, Nat.zero_le _, nofun, Nat.zero_le _, fun _ => rfl, nofun⟩

theorem PathRoom.answer {c : Command} {s t : State} (h : PathRoom s) (a : Answer c s t) : PathLaw t := by
  cases a with
  | answered change status data words => exact (pathRoom_change change h).complete c status data words
  | waits change w => exact (pathRoom_change change h).waitFor c w

theorem pathLaw_commands : KeepsCommands PathLaw := by
  intro mine r start resume hstart hresume s h
  refine takeCommand_keeps (Q := PathRoom) h (fun c rest hx hf => ?_) (fun x hx => pathRoom_of_executing h hx)
    (fun c t ht => ht.answer (hstart c t)) fun x hx => ?_
  · have budget := h.budget
    rw [hx, hf] at budget
    have taken : PathRoom (s.setCommands { s.commandUnit with fifo := rest }) := by
      refine ⟨h.staging, ?_, h.data, h.cursor⟩
      show rest.length + s.commandUnit.results.length ≤ 7
      simp only [List.length_cons, Option.isSome_none, Bool.false_eq_true, if_false] at budget
      omega
    exact ⟨taken, taken.waitFor c .taken⟩
  · obtain e | a := hresume x s
    · rwa [e]
    · exact (pathRoom_of_executing h hx).answer a

theorem pathLaw_move {s t : State} (m : ScheduleMove s t) (h : PathLaw s) : PathLaw t := by
  cases m
  case work f =>
    refine ⟨h.staging, ?_, h.data, h.cursor⟩
    have budget := h.budget
    rw [← Option.isSome_map (f := fun x : Executing => { x with work := f x.work })] at budget
    exact budget
  case answered c w hx st => exact (pathRoom_of_executing h hx).complete c st [] (.inl rfl)
  all_goals exact pathLaw_congr h rfl rfl rfl

theorem pathLaw_resultRead : Keeps PathLaw State.resultRead := by
  intro s h
  unfold State.resultRead
  split
  · exact pathLaw_congr h rfl rfl rfl
  · next r rest hr =>
    have data := h.data r (by rw [hr]; exact List.mem_cons_self ..)
    split
    · next inside =>
      rw [words_length] at inside
      refine ⟨h.staging, h.budget, h.data, ?_, fun e => ?_, fun x xs e => ?_⟩
      · show s.window.resultCursor + 1 ≤ 9
        omega
      · exact absurd (hr.symm.trans e) (List.cons_ne_nil _ _)
      · have head : r :: rest = x :: xs := hr.symm.trans e
        cases head
        exact inside
    · have budget := h.budget
      rw [hr, List.length_cons] at budget
      refine ⟨h.staging, ?_, fun x hx => h.data x (by rw [hr]; exact List.mem_cons_of_mem r hx), Nat.zero_le _, fun _ => rfl,
        fun x xs _ => ?_⟩
      · show s.commandUnit.fifo.length + (if s.commandUnit.executing.isSome then 1 else 0) + rest.length ≤ 8
        omega
      · show 0 < 2 + x.data.length
        omega

theorem pathLaw_stageWrite (w : Word) : Keeps PathLaw (·.stageWrite w) := by
  intro s h
  simp only [State.stageWrite]
  split
  · next room =>
    refine ⟨?_, h.budget, h.data, h.cursor⟩
    show (s.window.staging ++ [w]).length ≤ 16
    rw [List.length_append]
    exact room
  · exact pathLaw_congr h rfl rfl rfl

theorem pathLaw_clearStage : Keeps PathLaw State.clearStage := fun _ h => ⟨Nat.zero_le _, h.budget, h.data, h.cursor⟩

theorem pathLaw_issueCommand (code operand : Byte) : Keeps PathLaw (·.issueCommand code operand) := by
  intro s h
  simp only [State.issueCommand]
  split
  · next room =>
    refine ⟨Nat.zero_le _, ?_, h.data, h.cursor⟩
    show (s.commandUnit.fifo ++ [_]).length + (if s.commandUnit.executing.isSome then 1 else 0)
      + s.commandUnit.results.length ≤ 8
    simp only [State.budgetUsed, State.commandsPending, Config.commandBudget] at room
    rw [List.length_append]
    simp only [List.length_cons, List.length_nil]
    omega
  · exact pathLaw_congr h rfl rfl rfl

theorem pathLaw_window (c : Instr) (hc : isWindow c = true) : Keeps PathLaw (effect c) := by
  intro s h
  have either (p : Prop) [Decidable p] (t u : State) (ht : PathLaw t) (hu : PathLaw u) : PathLaw (if p then t else u) := by
    split <;> assumption
  have same {t : State} (commands : t.commandUnit = s.commandUnit) (staging : t.window.staging = s.window.staging)
      (cursor : t.window.resultCursor = s.window.resultCursor) : PathLaw t := pathLaw_congr h commands staging cursor
  cases c
  case news path =>
    show PathLaw (s.takeNews path)
    unfold State.takeNews
    split
    · exact h
    · exact either _ _ _ (same rfl rfl rfl) (same rfl rfl rfl)
  case holdoff => exact either _ _ _ (same rfl rfl rfl) h
  case noteRead =>
    show PathLaw s.noteRead
    unfold State.noteRead
    split
    · exact same rfl rfl rfl
    · split <;> exact same rfl rfl rfl
  case resultRead => exact pathLaw_resultRead s h
  case stageWrite w => exact pathLaw_stageWrite w s h
  case clearStage => exact pathLaw_clearStage s h
  case commandWrite w => exact either _ _ _ (pathLaw_clearStage s h) (pathLaw_issueCommand _ _ s h)
  case flagValueWrite w =>
    refine either _ _ _ (same rfl rfl rfl) ?_
    rw [(writeGroup_spec s s.window.flagSelect w).2]
    exact same rfl rfl rfl
  case badAddress a =>
    refine either _ _ _ ?_ h
    cases a <;> exact same rfl rfl rfl
  case flagSelectWrite => exact either _ _ _ (same rfl rfl rfl) (same rfl rfl rfl)
  case timeLoRead | intEnableWrite | errorWrite => exact same rfl rfl rfl
  all_goals cases hc

theorem pathLaw_kept : KeptByParts PathLaw where
  move := pathLaw_move
  commands := pathLaw_commands
  window := pathLaw_window
  force n v s h := pathLaw_quiet (forceLine_quiet n v s) h
  pulse n w i s h := pathLaw_quiet (pulseLine_quiet n w i s) h
  period := .of_quiet pathLaw_quiet (fun _ _ _ h => pathLaw_congr h rfl rfl rfl) (fun _ h => pathLaw_congr h rfl rfl rfl)
    (fun s h => by rw [advance_eq]; exact pathLaw_congr h rfl rfl rfl) (fun _ h => pathLaw_congr h rfl rfl rfl)
    fun low s h => pathLaw_safeMoved (sampleSafe_moved low s) h
  pins _ _ h := pathLaw_congr h rfl rfl rfl
  reset s _ := pathLaw_resetBlocks s

/-- Settles O59: each of the three laws is kept by every part of every row. A command on its way to its owner leaves room in the budget
for its result, which is what the law of the command path turns on. -/
theorem everyStepKeepsTheRecordAndPathLaws : Obligations.EveryStepKeepsTheRecordAndPathLaws := fun _ _ e =>
  ⟨fun h => noteLaw_kept.rows.step (fun _ _ h => noteLaw_congr h rfl rfl) h e,
    fun h => pathLaw_kept.rows.step (fun _ _ h => pathLaw_congr h rfl rfl rfl) h e,
    fun h => countLaw_kept.rows.step (fun _ _ h => countLaw_congr h rfl rfl rfl rfl) h e⟩

end Sys2Proof.Proofs
end

section
/-! SUPPORT. The law of the slots (R20) and of the allowance (R19), slot by slot. A move of the schedule touches one slot, or ends waits,
or empties the schedule. -/

namespace Sys2Proof.Proofs

open Sys2Proof.Machine Sys2Proof.Laws

/-! ## The laws, slot by slot -/

/-- What R20 asks of one slot. -/
structure SlotFits (s : State) (i : SlotId) : Prop where
  queued : ∀ e ∈ s.dueQueue.entries, e.slot = i → (s.slot i).state = .armed ∧ (s.slot i).due = some e.due
  armed : (s.slot i).state = .armed → ∃ e ∈ s.dueQueue.entries, e.slot = i
  listed : ∀ e ∈ s.waitList.entries, e.slot = i → (s.slot i).state = .waiting
  waiting : (s.slot i).state = .waiting → ∃ e ∈ s.waitList.entries, e.slot = i
  hand : ∀ o, s.firing = some o → o.slot = i → (s.slot i).state = .firing ∧ (s.slot i).due = some o.due
  firing : (s.slot i).state = .firing → s.inHandOf i
  noDue : (s.slot i).state ≠ .armed → (s.slot i).state ≠ .firing → (s.slot i).due = none
  free : (s.slot i).state = .free ↔ (s.slot i).defn = none

/-- What R20 asks of the due queue and the wait list by themselves. -/
structure Orderly (s : State) : Prop where
  queueNodup : (s.dueQueue.entries.map DueEntry.slot).Nodup
  waitNodup : (s.waitList.entries.map WaitEntry.slot).Nodup
  capacity : s.waitList.entries.length ≤ 32
  whole : s.dueQueue.inFlight = none

theorem slotLaw_iff (s : State) : SlotLaw s ↔ Orderly s ∧ ∀ i, SlotFits s i := by
  constructor
  · intro h
    refine ⟨⟨h.queueNodup, h.waitNodup, h.capacity, h.whole⟩, fun i => ⟨?_, (h.armed i).1, ?_, (h.waiting i).1, ?_, (h.firing i).1,
      h.noDue i, h.free i⟩⟩
    · rintro e he rfl
      exact ⟨(h.armed _).2 ⟨e, he, rfl⟩, h.entryDue e he⟩
    · exact fun e he hi => (h.waiting i).2 ⟨e, he, hi⟩
    · rintro o ho rfl
      exact ⟨(h.firing _).2 ⟨o, ho, rfl⟩, h.handDue o ho⟩
  · rintro ⟨orderly, fits⟩
    refine ⟨fun i => ⟨(fits i).armed, ?_⟩, fun i => ⟨(fits i).waiting, ?_⟩, fun i => ⟨(fits i).firing, ?_⟩, orderly.queueNodup,
      orderly.waitNodup, fun e he => ((fits e.slot).queued e he rfl).2, fun o ho => ((fits o.slot).hand o ho rfl).2,
      fun i => (fits i).noDue, fun i => (fits i).free, orderly.capacity, orderly.whole⟩
    · exact fun ⟨e, he, hi⟩ => ((fits i).queued e he hi).1
    · exact fun ⟨e, he, hi⟩ => (fits i).listed e he hi
    · exact fun ⟨o, ho, hi⟩ => ((fits i).hand o ho hi).1

/-- What R19 asks of the counters of a slot. -/
structure CountersFit (sl : Slot) : Prop where
  unbounded : ∀ d, sl.defn = some d → d.repeatCount = 0 → sl.remaining = none
  bounded : ∀ d, sl.defn = some d → d.repeatCount ≠ 0 →
    ∃ r, sl.remaining = some r ∧ r + sl.taken + sl.misses = d.repeatCount.toNat

/-- What R19 asks of the occurrence in hand, its slot's remaining as given. -/
structure HandFits (o : Occurrence) (remaining : Option Nat) : Prop where
  left : (∃ w, o.request = some (.place w)) ∨ (o.counted = true ∧ o.request = none) ∨ remaining ≠ some 0
  outcome : o.counted = true → o.outcome ≠ none

/-- What R19 asks of one slot. -/
structure AllowanceFits (s : State) (i : SlotId) : Prop where
  counters : CountersFit (s.slot i)
  armed : (s.slot i).state = .armed → (s.slot i).remaining ≠ some 0
  hand : ∀ o, s.firing = some o → o.slot = i → HandFits o (s.slot i).remaining

theorem allowanceLaw_iff (s : State) : AllowanceLaw s ↔ ∀ i, AllowanceFits s i := by
  constructor
  · refine fun h i => ⟨⟨h.unbounded i, h.bounded i⟩, h.armed i, ?_⟩
    rintro o ho rfl
    exact ⟨h.inHand o ho, h.counted o ho⟩
  · exact fun h => ⟨fun i => (h i).counters.unbounded, fun i => (h i).counters.bounded, fun i => (h i).armed,
      fun o ho => ((h o.slot).hand o ho rfl).left, fun o ho => ((h o.slot).hand o ho rfl).outcome⟩

/-- The law of the slots, and under `q` the law of the allowance. -/
def ScheduleLaw (q : Prop) (s : State) : Prop := SlotLaw s ∧ (q → AllowanceLaw s)

theorem scheduleLaw_iff (q : Prop) (s : State) :
    ScheduleLaw q s ↔ Orderly s ∧ ∀ i, SlotFits s i ∧ (q → AllowanceFits s i) := by
  unfold ScheduleLaw
  rw [slotLaw_iff, allowanceLaw_iff]
  exact ⟨fun ⟨⟨o, f⟩, a⟩ => ⟨o, fun i => ⟨f i, fun hq => a hq i⟩⟩,
    fun ⟨o, f⟩ => ⟨⟨o, fun i => (f i).1⟩, fun hq i => (f i).2 hq⟩⟩

variable {q : Prop} {s t : State}

/-- The slots, the due queue, the firing unit and the entries of the wait list are all that the laws read. -/
theorem scheduleLaw_congr (h : ScheduleLaw q s) (slots : t.slots = s.slots) (entries : t.dueQueue.entries = s.dueQueue.entries)
    (whole : t.dueQueue.inFlight = s.dueQueue.inFlight) (firing : t.firing = s.firing)
    (waits : t.waitList.entries = s.waitList.entries) : ScheduleLaw q t := by
  have slot (i : SlotId) : t.slot i = s.slot i := by simp only [State.slot, slots]
  have hand (i : SlotId) : t.inHandOf i ↔ s.inHandOf i := by simp only [State.inHandOf, firing]
  obtain ⟨⟨hq, hw, hc, hf⟩, fits⟩ := (scheduleLaw_iff q s).1 h
  refine (scheduleLaw_iff q t).2 ⟨⟨by rwa [entries], by rwa [waits], by rwa [waits], by rwa [whole]⟩, fun i => ?_⟩
  obtain ⟨f, a⟩ := fits i
  refine ⟨⟨?_, ?_, ?_, ?_, ?_, ?_, ?_, ?_⟩, fun hq => ⟨?_, ?_, ?_⟩⟩ <;> simp only [slot, entries, waits, firing, hand]
  exacts [f.queued, f.armed, f.listed, f.waiting, f.hand, f.firing, f.noDue, f.free, (a hq).counters, (a hq).armed, (a hq).hand]

/-! ## Where a slot is not -/

theorem not_queued (h : SlotLaw s) {i : SlotId} (hi : (s.slot i).state ≠ .armed) : ∀ e ∈ s.dueQueue.entries, e.slot ≠ i :=
  fun e he e' => hi ((h.armed i).2 ⟨e, he, e'⟩)

theorem not_listed (h : SlotLaw s) {i : SlotId} (hi : (s.slot i).state ≠ .waiting) : ∀ e ∈ s.waitList.entries, e.slot ≠ i :=
  fun e he e' => hi ((h.waiting i).2 ⟨e, he, e'⟩)

theorem not_inHand (h : SlotLaw s) {i : SlotId} (hi : (s.slot i).state ≠ .firing) : ∀ o, s.firing = some o → o.slot ≠ i :=
  fun o ho e => hi ((h.firing i).2 ⟨o, ho, e⟩)

theorem inHand_state (h : SlotLaw s) {o : Occurrence} (ho : s.firing = some o) : (s.slot o.slot).state = .firing :=
  (h.firing _).2 ⟨o, ho, rfl⟩

/-! ## One slot -/

/-- The slot `i` may have changed; every other slot is as it was, in the same place. -/
structure OnlySlot (i : SlotId) (s t : State) : Prop where
  slot : ∀ j, j ≠ i → t.slot j = s.slot j
  queue : ∀ e, e.slot ≠ i → (e ∈ t.dueQueue.entries ↔ e ∈ s.dueQueue.entries)
  wait : ∀ e, e.slot ≠ i → (e ∈ t.waitList.entries ↔ e ∈ s.waitList.entries)
  hand : ∀ o, o.slot ≠ i → (t.firing = some o ↔ s.firing = some o)

/-- A change of one slot keeps the laws if that slot fits its new place. -/
theorem scheduleLaw_oneSlot {i : SlotId} (h : ScheduleLaw q s) (only : OnlySlot i s t) (orderly : Orderly t)
    (fits : SlotFits t i) (allowance : q → AllowanceFits t i) : ScheduleLaw q t := by
  refine (scheduleLaw_iff q t).2 ⟨orderly, fun j => ?_⟩
  by_cases e : j = i
  · subst e
    exact ⟨fits, allowance⟩
  · obtain ⟨f, a⟩ := ((scheduleLaw_iff q s).1 h).2 j
    have there {k : SlotId} (hk : k = j) : k ≠ i := fun hi => e (hk.symm.trans hi)
    refine ⟨⟨?_, ?_, ?_, ?_, ?_, ?_, ?_, ?_⟩, fun hq => ⟨?_, ?_, ?_⟩⟩ <;> rw [only.slot j e]
    · exact fun x hx hj => f.queued x ((only.queue x (there hj)).1 hx) hj
    · exact fun ha => (f.armed ha).imp fun x ⟨hx, hj⟩ => ⟨(only.queue x (there hj)).2 hx, hj⟩
    · exact fun x hx hj => f.listed x ((only.wait x (there hj)).1 hx) hj
    · exact fun ha => (f.waiting ha).imp fun x ⟨hx, hj⟩ => ⟨(only.wait x (there hj)).2 hx, hj⟩
    · exact fun x hx hj => f.hand x ((only.hand x (there hj)).1 hx) hj
    · exact fun ha => (f.firing ha).imp fun x ⟨hx, hj⟩ => ⟨(only.hand x (there hj)).2 hx, hj⟩
    · exact f.noDue
    · exact f.free
    · exact (a hq).counters
    · exact (a hq).armed
    · exact fun x hx hj => (a hq).hand x ((only.hand x (there hj)).1 hx) hj

/-- A slot that is FREE, HELD or DONE. -/
def Idle (st : SlotState) : Prop := st ≠ .armed ∧ st ≠ .waiting ∧ st ≠ .firing

/-- A slot outside the schedule fits. -/
theorem slotFits_idle {i : SlotId} (idle : Idle (t.slot i).state) (queue : ∀ e ∈ t.dueQueue.entries, e.slot ≠ i)
    (wait : ∀ e ∈ t.waitList.entries, e.slot ≠ i) (hand : ∀ o, t.firing = some o → o.slot ≠ i) (due : (t.slot i).due = none)
    (free : (t.slot i).state = .free ↔ (t.slot i).defn = none) : SlotFits t i := by
  obtain ⟨armed, waiting, firing⟩ := idle
  exact ⟨fun e he hi => absurd hi (queue e he), fun ha => absurd ha armed, fun e he hi => absurd hi (wait e he),
    fun ha => absurd ha waiting, fun o ho hi => absurd hi (hand o ho), fun ha => absurd ha firing, fun _ _ => due, free⟩

/-- So does its allowance, by its counters. -/
theorem allowanceFits_idle {i : SlotId} (idle : Idle (t.slot i).state) (hand : ∀ o, t.firing = some o → o.slot ≠ i)
    (counters : CountersFit (t.slot i)) : AllowanceFits t i :=
  ⟨counters, fun ha => absurd ha idle.1, fun o ho hi => absurd hi (hand o ho)⟩

theorem idle_held : Idle .held := ⟨nofun, nofun, nofun⟩
theorem idle_done : Idle .done := ⟨nofun, nofun, nofun⟩
theorem idle_free : Idle .free := ⟨nofun, nofun, nofun⟩

theorem idle_of_heldOrDone {st : SlotState} (h : st = .held ∨ st = .done) : Idle st := by
  obtain rfl | rfl := h
  exacts [idle_held, idle_done]

/-! ## The counters -/

/-- The counters depend on the definition, on what is left, and on what was taken and skipped. -/
theorem CountersFit.congr {a b : Slot} (h : CountersFit a) (defn : b.defn = a.defn) (remaining : b.remaining = a.remaining)
    (taken : b.taken = a.taken) (misses : b.misses = a.misses) : CountersFit b := by
  refine ⟨?_, ?_⟩ <;> rw [defn, remaining]
  · exact h.unbounded
  · rw [taken, misses]
    exact h.bounded

/-- The counters of a new definition, and of an arm (R18, R26, R29). -/
theorem countersFit_fresh {sl : Slot} {d : Definition} (defn : sl.defn = some d) (remaining : sl.remaining = d.allowance)
    (taken : sl.taken = 0) (misses : sl.misses = 0) : CountersFit sl := by
  refine ⟨fun d' h => ?_, fun d' h => ?_⟩ <;> obtain rfl := Option.some.inj (defn.symm.trans h) <;> intro count <;>
    rw [remaining, Definition.allowance]
  · rw [if_pos count]
  · rw [if_neg count, taken, misses]
    exact ⟨_, rfl, rfl⟩

/-- Counting takes one of what is left (R81). -/
theorem countersFit_counted {sl : Slot} (h : CountersFit sl) (left : sl.remaining ≠ some 0) : CountersFit sl.counted := by
  refine ⟨fun d hd hc => ?_, fun d hd hc => ?_⟩
  · show sl.remaining.map (· - 1) = none
    rw [h.unbounded d hd hc]
    rfl
  · obtain ⟨r, hr, sum⟩ := h.bounded d hd hc
    have some : r ≠ 0 := fun e => left (by rw [hr, e])
    have := d.repeatCount.isLt
    refine ⟨r - 1, by show sl.remaining.map (· - 1) = _; rw [hr]; rfl, ?_⟩
    show r - 1 + min 65535 (sl.taken + 1) + sl.misses = _
    omega

/-- A DROP advance skips no more than is left (R85). -/
theorem countersFit_dropped {sl : Slot} (h : CountersFit sl) (p : Phase) {k : Nat} (le : ∀ n, sl.remaining = some n → k ≤ n) :
    CountersFit (sl.dropped p k) := by
  refine ⟨fun d hd hc => ?_, fun d hd hc => ?_⟩
  · show sl.remaining.map (· - k) = none
    rw [h.unbounded d hd hc]
    rfl
  · obtain ⟨r, hr, sum⟩ := h.bounded d hd hc
    have bound := le r hr
    have := d.repeatCount.isLt
    refine ⟨r - k, by show sl.remaining.map (· - k) = _; rw [hr]; rfl, ?_⟩
    show r - k + sl.taken + min 65535 (sl.misses + k) = _
    omega

theorem countersFit_unused : CountersFit Slot.unused := by
  have undefined (d : Definition) : Slot.unused.defn ≠ some d := by simp [Slot.unused]
  exact ⟨fun d h => absurd h (undefined d), fun d h => absurd h (undefined d)⟩

theorem allowance_ne_zero (d : Definition) : d.allowance ≠ some 0 := by
  unfold Definition.allowance
  split
  · nofun
  · next h =>
    intro e
    exact h (BitVec.eq_of_toNat_eq (Option.some.inj e))

/-! ## The due queue -/

theorem insertEntry_nodup {e : DueEntry} {es : List DueEntry} (h : (es.map DueEntry.slot).Nodup) (fresh : ∀ x ∈ es, x.slot ≠ e.slot) :
    ((insertEntry e es).map DueEntry.slot).Nodup := by
  rw [((insertEntry_perm e es).map DueEntry.slot).nodup_iff, List.map_cons, List.nodup_cons]
  refine ⟨fun hm => ?_, h⟩
  obtain ⟨x, hx, e'⟩ := List.mem_map.1 hm
  exact fresh x hx e'

theorem mem_removeEntry {i : SlotId} {x : DueEntry} {es : List DueEntry} : x ∈ removeEntry i es ↔ x ∈ es ∧ x.slot ≠ i := by
  simp [removeEntry]

theorem removeEntry_nodup (i : SlotId) {es : List DueEntry} (h : (es.map DueEntry.slot).Nodup) :
    ((removeEntry i es).map DueEntry.slot).Nodup := h.sublist (List.filter_sublist.map _)

/-- Placing or moving the entry of a slot touches no other slot's entry. -/
theorem mem_insertEntry_other {i : SlotId} {due : Time} {x : DueEntry} {es : List DueEntry} (h : x.slot ≠ i) :
    x ∈ insertEntry ⟨i, due⟩ es ↔ x ∈ es := by
  rw [mem_insertEntry]
  exact ⟨fun hx => hx.resolve_left fun e => h (by rw [e]), .inr⟩

theorem mem_removeEntry_other {i : SlotId} {x : DueEntry} {es : List DueEntry} (h : x.slot ≠ i) :
    x ∈ removeEntry i es ↔ x ∈ es := by
  rw [mem_removeEntry]
  exact ⟨fun hx => hx.1, fun hx => ⟨hx, h⟩⟩

/-- A slot that is ARMED with the entry just placed fits. -/
theorem slotFits_armed {i : SlotId} {due : Time} {es : List DueEntry} (queue : t.dueQueue.entries = insertEntry ⟨i, due⟩ es)
    (fresh : ∀ e ∈ es, e.slot ≠ i) (state : (t.slot i).state = .armed) (hdue : (t.slot i).due = some due)
    (wait : ∀ e ∈ t.waitList.entries, e.slot ≠ i) (hand : ∀ o, t.firing = some o → o.slot ≠ i) (defn : (t.slot i).defn ≠ none) :
    SlotFits t i := by
  refine ⟨fun e he hi => ⟨state, ?_⟩, fun _ => ⟨⟨i, due⟩, ?_, rfl⟩, fun e he hi => absurd hi (wait e he), ?_,
    fun o ho hi => absurd hi (hand o ho), ?_, fun ha => absurd state ha, ?_⟩
  · rw [queue, mem_insertEntry] at he
    obtain rfl | he := he
    · exact hdue
    · exact absurd hi (fresh e he)
  · rw [queue, mem_insertEntry]
    exact .inl rfl
  · rw [state]
    nofun
  · rw [state]
    nofun
  · rw [state]
    exact ⟨nofun, fun e => absurd e defn⟩

end Sys2Proof.Proofs
end

section
/-! SUPPORT. Every move of the schedule keeps the laws of the slots and of the allowance (R19, R20). -/

namespace Sys2Proof.Proofs

open Sys2Proof.Machine Sys2Proof.Laws

variable {q : Prop} {s t : State}

/-! ## Slots outside the schedule -/

/-- A slot outside the schedule is written and stays outside (R26, R28, R37). -/
theorem scheduleLaw_writeIdle (h : ScheduleLaw q s) {i : SlotId} (idle : Idle (s.slot i).state) (sl : Slot) (still : Idle sl.state)
    (due : sl.due = none) (free : sl.state = .free ↔ sl.defn = none) (counters : q → AllowanceLaw s → CountersFit sl) :
    ScheduleLaw q (s.setSlot i sl) := by
  obtain ⟨law, allowance⟩ := h
  have hand := not_inHand law idle.2.2
  have own : (s.setSlot i sl).slot i = sl := slot_setSlot_same s i sl
  refine scheduleLaw_oneSlot ⟨law, allowance⟩ (i := i)
    ⟨fun j hj => slot_setSlot_other _ _ _ _ hj, fun _ _ => Iff.rfl, fun _ _ => Iff.rfl, fun _ _ => Iff.rfl⟩
    ⟨law.queueNodup, law.waitNodup, law.capacity, law.whole⟩ ?_ fun hq => ?_
  · refine slotFits_idle ?_ (not_queued law idle.1) (not_listed law idle.2.1) hand ?_ ?_ <;> rwa [own]
  · refine allowanceFits_idle ?_ hand ?_ <;> rw [own]
    · exact still
    · exact counters hq (allowance hq)

theorem scheduleLaw_defined (h : ScheduleLaw q s) {i : SlotId} (d : Definition)
    (hi : (s.slot i).state = .free ∨ (s.slot i).state = .held ∨ (s.slot i).state = .done) :
    ScheduleLaw q (s.setSlot i (Slot.defined d)) := by
  refine scheduleLaw_writeIdle h ?_ _ idle_held rfl ⟨nofun, nofun⟩ fun _ _ => countersFit_fresh (d := d) rfl rfl rfl rfl
  obtain e | e := hi
  · rw [e]
    exact idle_free
  · exact idle_of_heldOrDone e

theorem scheduleLaw_released (h : ScheduleLaw q s) {i : SlotId} (hi : (s.slot i).state = .held ∨ (s.slot i).state = .done) :
    ScheduleLaw q (s.setSlot i Slot.unused) :=
  scheduleLaw_writeIdle h (idle_of_heldOrDone hi) _ idle_free rfl ⟨fun _ => rfl, fun _ => rfl⟩ fun _ _ => countersFit_unused

/-- A slot that is HELD or DONE has a definition. -/
theorem defn_of_heldOrDone (law : SlotLaw s) {i : SlotId} (hi : (s.slot i).state = .held ∨ (s.slot i).state = .done) :
    (s.slot i).defn ≠ none := by
  intro e
  have free := (law.free i).2 e
  obtain e | e := hi <;> cases e.symm.trans free

theorem scheduleLaw_refused (h : ScheduleLaw q s) {i : SlotId} (hi : (s.slot i).state = .held ∨ (s.slot i).state = .done) :
    ScheduleLaw q (s.setSlot i { s.slot i with state := .held }) := by
  have idle := idle_of_heldOrDone hi
  refine scheduleLaw_writeIdle h idle _ idle_held (h.1.noDue i idle.1 idle.2.2)
    ⟨nofun, fun e => absurd e (defn_of_heldOrDone h.1 hi)⟩ fun _ law => ?_
  exact ((allowanceLaw_iff s).1 law i).counters.congr rfl rfl rfl rfl

/-! ## The due queue -/

theorem defn_of_armed (law : SlotLaw s) {i : SlotId} (hi : (s.slot i).state = .armed) : (s.slot i).defn ≠ none := by
  intro e
  cases hi.symm.trans ((law.free i).2 e)

/-- The entry of a slot is placed among entries that hold none for it, and the slot is ARMED with it (R29, R36, R57). -/
theorem scheduleLaw_place (h : ScheduleLaw q s) {i : SlotId} {es : List DueEntry} {due : Time} {sl : Slot} {hand : Option Occurrence}
    (others : ∀ e, e.slot ≠ i → (e ∈ es ↔ e ∈ s.dueQueue.entries)) (fresh : ∀ e ∈ es, e.slot ≠ i)
    (nodup : (es.map DueEntry.slot).Nodup) (elsewhere : ∀ o, o.slot ≠ i → (hand = some o ↔ s.firing = some o))
    (free : ∀ o, hand = some o → o.slot ≠ i) (unlisted : (s.slot i).state ≠ .waiting) (state : sl.state = .armed)
    (hdue : sl.due = some due) (defn : sl.defn ≠ none)
    (allowance : q → AllowanceLaw s → CountersFit sl ∧ sl.remaining ≠ some 0) :
    ScheduleLaw q (((s.setEntries (insertEntry ⟨i, due⟩ es)).setSlot i sl).setFiring hand) := by
  obtain ⟨law, allowed⟩ := h
  have own : (((s.setEntries (insertEntry ⟨i, due⟩ es)).setSlot i sl).setFiring hand).slot i = sl :=
    slot_setSlot_same (s.setEntries _) i sl
  refine scheduleLaw_oneSlot ⟨law, allowed⟩ (i := i)
    ⟨fun j hj => slot_setSlot_other (s.setEntries _) _ _ _ hj, fun e he => (mem_insertEntry_other he).trans (others e he),
      fun _ _ => Iff.rfl, elsewhere⟩
    ⟨insertEntry_nodup nodup fresh, law.waitNodup, law.capacity, law.whole⟩
    (slotFits_armed rfl fresh (by rw [own]; exact state) (by rw [own]; exact hdue) (not_listed law unlisted) free
      (by rw [own]; exact defn))
    fun hq => ⟨?_, fun _ => ?_, fun o ho hi => absurd hi (free o ho)⟩ <;> rw [own]
  exacts [(allowance hq (allowed hq)).1, (allowance hq (allowed hq)).2]

theorem scheduleLaw_armed (h : ScheduleLaw q s) {i : SlotId} (due : Time)
    (hi : (s.slot i).state = .held ∨ (s.slot i).state = .done) : ScheduleLaw q (s.placeArm i due) := by
  have idle := idle_of_heldOrDone hi
  have defn := defn_of_heldOrDone h.1 hi
  obtain ⟨d, hd⟩ := Option.ne_none_iff_exists'.1 defn
  have definition : (s.slot i).definition = d := by simp only [Slot.definition, hd, Option.getD_some]
  refine scheduleLaw_congr (scheduleLaw_place (hand := s.firing) (sl := (s.slot i).armedAt due) h (fun _ _ => Iff.rfl)
    (not_queued h.1 idle.1) h.1.queueNodup (fun _ _ => Iff.rfl) (not_inHand h.1 idle.2.2) idle.2.1 rfl rfl defn fun _ _ => ⟨?_, ?_⟩)
    rfl rfl rfl rfl rfl
  · exact countersFit_fresh (d := d) hd (by rw [← definition]; rfl) rfl rfl
  · exact allowance_ne_zero _

theorem scheduleLaw_retimed (h : ScheduleLaw q s) {i : SlotId} (due : Time) (hi : (s.slot i).state = .armed) :
    ScheduleLaw q ((s.setEntries (insertEntry ⟨i, due⟩ (removeEntry i s.dueQueue.entries))).setSlot i
      { s.slot i with due := some due }) := by
  refine scheduleLaw_congr (scheduleLaw_place (hand := s.firing) (sl := { s.slot i with due := some due }) h
    (fun _ he => mem_removeEntry_other he) (fun e he => (mem_removeEntry.1 he).2) (removeEntry_nodup i h.1.queueNodup)
    (fun _ _ => Iff.rfl) (not_inHand h.1 (by rw [hi]; nofun)) (by rw [hi]; nofun) hi rfl (defn_of_armed h.1 hi) fun _ law => ?_)
    rfl rfl rfl rfl rfl
  exact ⟨((allowanceLaw_iff s).1 law i).counters.congr rfl rfl rfl rfl, law.armed i hi⟩

theorem scheduleLaw_takenOut (h : ScheduleLaw q s) {i : SlotId} (hi : (s.slot i).state = .armed) : ScheduleLaw q (s.takeOut i) := by
  obtain ⟨law, allowed⟩ := h
  have own : (s.takeOut i).slot i = (s.slot i).takenOut := slot_setSlot_same (s.setEntries _) i _
  have hand := not_inHand law (i := i) (by rw [hi]; nofun)
  refine scheduleLaw_oneSlot ⟨law, allowed⟩ (i := i)
    ⟨fun j hj => slot_setSlot_other (s.setEntries _) _ _ _ hj, fun e he => mem_removeEntry_other he, fun _ _ => Iff.rfl,
      fun _ _ => Iff.rfl⟩
    ⟨removeEntry_nodup i law.queueNodup, law.waitNodup, law.capacity, law.whole⟩ ?_ fun hq => ?_
  · refine slotFits_idle ?_ (fun e he => (mem_removeEntry.1 he).2) (not_listed law (by rw [hi]; nofun)) hand ?_ ?_ <;> rw [own]
    · exact idle_held
    · rfl
    · exact ⟨nofun, fun e => absurd e (defn_of_armed law hi)⟩
  · refine allowanceFits_idle ?_ hand ?_ <;> rw [own]
    · exact idle_held
    · exact ((allowanceLaw_iff s).1 (allowed hq) i).counters.congr rfl rfl rfl rfl

/-! ## The wait list -/

theorem defn_of_waiting (law : SlotLaw s) {i : SlotId} (hi : (s.slot i).state = .waiting) : (s.slot i).defn ≠ none := by
  intro e
  cases hi.symm.trans ((law.free i).2 e)

theorem filter_waits_nodup {es : List WaitEntry} (h : (es.map WaitEntry.slot).Nodup) (p : WaitEntry → Bool) :
    ((es.filter p).map WaitEntry.slot).Nodup := h.sublist (List.filter_sublist.map _)

theorem scheduleLaw_withdrawn (h : ScheduleLaw q s) {i : SlotId} (hi : (s.slot i).state = .waiting) :
    ScheduleLaw q (s.withdraw i) := by
  obtain ⟨law, allowed⟩ := h
  have own : (s.withdraw i).slot i = (s.slot i).takenOut := slot_setSlot_same (s.setWaitEntries _) i _
  have hand := not_inHand law (i := i) (by rw [hi]; nofun)
  have entries (e : WaitEntry) : e ∈ (s.withdraw i).waitList.entries ↔ e ∈ s.waitList.entries ∧ e.slot ≠ i := by
    show e ∈ s.waitList.entries.filter (·.slot != i) ↔ _
    simp
  refine scheduleLaw_oneSlot ⟨law, allowed⟩ (i := i)
    ⟨fun j hj => slot_setSlot_other (s.setWaitEntries _) _ _ _ hj, fun _ _ => Iff.rfl,
      fun e he => (entries e).trans ⟨fun x => x.1, fun x => ⟨x, he⟩⟩, fun _ _ => Iff.rfl⟩
    ⟨law.queueNodup, filter_waits_nodup law.waitNodup _, Nat.le_trans (List.length_filter_le _ _) law.capacity, law.whole⟩
    ?_ fun hq => ?_
  · refine slotFits_idle ?_ (not_queued law (by rw [hi]; nofun)) (fun e he => ((entries e).1 he).2) hand ?_ ?_ <;> rw [own]
    · exact idle_held
    · rfl
    · exact ⟨nofun, fun e => absurd e (defn_of_waiting law hi)⟩
  · refine allowanceFits_idle ?_ hand ?_ <;> rw [own]
    · exact idle_held
    · exact ((allowanceLaw_iff s).1 (allowed hq) i).counters.congr rfl rfl rfl rfl

/-- Of two entries of one slot there is one. -/
theorem waitEntry_unique (law : SlotLaw s) {a b : WaitEntry} (ha : a ∈ s.waitList.entries) (hb : b ∈ s.waitList.entries)
    (e : a.slot = b.slot) : a = b := List.inj_on_of_nodup_map law.waitNodup ha hb e

/-- Some waits end: their slots are DONE, and the entries of the others stay (R40, R128, R129). -/
theorem scheduleLaw_waitsEnd (h : ScheduleLaw q s) (ends : WaitEntry → Bool)
    (slots : ∀ i, t.slot i = if i ∈ (s.waitList.entries.filter ends).map WaitEntry.slot then (s.slot i).finished else s.slot i)
    (entries : t.waitList.entries = s.waitList.entries.filter fun e => !ends e) (queue : t.dueQueue = s.dueQueue)
    (firing : t.firing = s.firing) : ScheduleLaw q t := by
  obtain ⟨law, allowed⟩ := h
  have kept (e : WaitEntry) : e ∈ t.waitList.entries ↔ e ∈ s.waitList.entries ∧ ends e = false := by
    rw [entries, List.mem_filter, Bool.not_eq_true']
  refine (scheduleLaw_iff q t).2 ⟨⟨by rw [queue]; exact law.queueNodup, by rw [entries]; exact filter_waits_nodup law.waitNodup _,
    by rw [entries]; exact Nat.le_trans (List.length_filter_le _ _) law.capacity, by rw [queue]; exact law.whole⟩, fun i => ?_⟩
  by_cases hi : i ∈ (s.waitList.entries.filter ends).map WaitEntry.slot
  · have own : t.slot i = (s.slot i).finished := by rw [slots, if_pos hi]
    obtain ⟨e, he, rfl⟩ := List.mem_map.1 hi
    obtain ⟨he, hends⟩ := List.mem_filter.1 he
    have waiting : (s.slot e.slot).state = .waiting := (law.waiting _).2 ⟨e, he, rfl⟩
    have hand : ∀ o, t.firing = some o → o.slot ≠ e.slot := by
      rw [firing]
      exact not_inHand law (by rw [waiting]; nofun)
    refine ⟨slotFits_idle ?_ ?_ (fun x hx e' => ?_) hand ?_ ?_, fun hq => allowanceFits_idle ?_ hand ?_⟩ <;> try rw [own]
    · exact idle_done
    · rw [queue]
      exact not_queued law (by rw [waiting]; nofun)
    · obtain ⟨hx, stays⟩ := (kept x).1 hx
      obtain rfl := waitEntry_unique law hx he e'
      exact absurd hends (by rw [stays]; exact Bool.false_ne_true)
    · rfl
    · exact ⟨nofun, fun e => absurd e (defn_of_waiting law waiting)⟩
    · exact idle_done
    · exact ((allowanceLaw_iff s).1 (allowed hq) e.slot).counters.congr rfl rfl rfl rfl
  · have own : t.slot i = s.slot i := by rw [slots, if_neg hi]
    have stays (e : WaitEntry) (he : e ∈ s.waitList.entries) (e' : e.slot = i) : e ∈ t.waitList.entries := by
      refine (kept e).2 ⟨he, Bool.eq_false_iff.2 fun hends => hi ?_⟩
      exact List.mem_map.2 ⟨e, List.mem_filter.2 ⟨he, hends⟩, e'⟩
    obtain ⟨f, a⟩ := ((scheduleLaw_iff q s).1 ⟨law, allowed⟩).2 i
    refine ⟨⟨?_, ?_, ?_, ?_, ?_, ?_, ?_, ?_⟩, fun hq => ⟨?_, ?_, ?_⟩⟩ <;> simp only [own, queue, firing, State.inHandOf]
    exacts [f.queued, f.armed, fun e he => f.listed e ((kept e).1 he).1,
      fun hw => (f.waiting hw).imp fun e ⟨he, e'⟩ => ⟨stays e he e', e'⟩, f.hand, f.firing, f.noDue, f.free, (a hq).counters,
      (a hq).armed, (a hq).hand]

/-- CLEAR: the slots that were ARMED or WAITING are HELD, and the due queue and the wait list are empty (R41). -/
theorem scheduleLaw_swept (h : ScheduleLaw q s) : ScheduleLaw q s.sweep := by
  obtain ⟨law, allowed⟩ := h
  refine (scheduleLaw_iff q _).2 ⟨⟨List.nodup_nil, List.nodup_nil, Nat.zero_le _, law.whole⟩, fun i => ?_⟩
  obtain ⟨f, a⟩ := ((scheduleLaw_iff q s).1 ⟨law, allowed⟩).2 i
  by_cases hi : (s.slot i).state = .armed ∨ (s.slot i).state = .waiting
  · have own : s.sweep.slot i = { s.slot i with state := .held, due := none } := by rw [slot_sweep, if_pos hi]
    have hand : ∀ o, s.sweep.firing = some o → o.slot ≠ i :=
      not_inHand law (by obtain e | e := hi <;> rw [e] <;> nofun)
    have defn : (s.slot i).defn ≠ none := by
      obtain e | e := hi
      exacts [defn_of_armed law e, defn_of_waiting law e]
    refine ⟨slotFits_idle ?_ (fun _ => nofun) (fun _ => nofun) hand ?_ ?_, fun hq => allowanceFits_idle ?_ hand ?_⟩ <;> rw [own]
    · exact idle_held
    · exact ⟨nofun, fun e => absurd e defn⟩
    · exact idle_held
    · exact (a hq).counters.congr rfl rfl rfl rfl
  · have own : s.sweep.slot i = s.slot i := by rw [slot_sweep, if_neg hi]
    refine ⟨⟨fun _ => nofun, ?_, fun _ => nofun, ?_, ?_, ?_, ?_, ?_⟩, fun hq => ⟨?_, ?_, ?_⟩⟩ <;> rw [own]
    exacts [fun ha => absurd (.inl ha) hi, fun hw => absurd (.inr hw) hi, f.hand, f.firing, f.noDue, f.free, (a hq).counters,
      (a hq).armed, (a hq).hand]

/-! ## The firing unit -/

theorem defn_of_firing (law : SlotLaw s) {i : SlotId} (hi : (s.slot i).state = .firing) : (s.slot i).defn ≠ none := by
  intro e
  cases hi.symm.trans ((law.free i).2 e)

/-- An occurrence that has yet to be counted leaves something to count (R19). -/
theorem remaining_ne_zero (law : AllowanceLaw s) {o : Occurrence} (ho : s.firing = some o) (u : Uncounted o) :
    (s.slot o.slot).remaining ≠ some 0 := by
  obtain ⟨w, hw⟩ | ⟨hc, hr⟩ | left := law.inHand o ho
  · exact absurd hw (u.request w)
  · obtain hk | hn | hn := u.mark
    · exact absurd hk (law.counted o ho hc)
    · exact absurd hr hn
    · rw [hn] at hc
      cases hc
  · exact left

/-- The slot in hand is written and stays in hand. -/
theorem scheduleLaw_hand (h : ScheduleLaw q s) {o o' : Occurrence} (ho : s.firing = some o) (slot : o'.slot = o.slot)
    (due : o'.due = o.due) (sl : Slot) (own : t.slot o.slot = sl) (others : ∀ j, j ≠ o.slot → t.slot j = s.slot j)
    (queue : t.dueQueue = s.dueQueue) (wait : t.waitList = s.waitList) (firing : t.firing = some o')
    (same : sl.state = (s.slot o.slot).state ∧ sl.due = (s.slot o.slot).due ∧ sl.defn = (s.slot o.slot).defn)
    (allowance : q → AllowanceLaw s → CountersFit sl ∧ HandFits o' sl.remaining) : ScheduleLaw q t := by
  obtain ⟨law, allowed⟩ := h
  obtain ⟨hstate, hdue, hdefn⟩ := same
  have state : sl.state = .firing := hstate.trans (inHand_state law ho)
  have notIn {st : SlotState} (hst : st ≠ .firing) : (s.slot o.slot).state ≠ st := by
    rw [inHand_state law ho]
    exact hst.symm
  refine scheduleLaw_oneSlot ⟨law, allowed⟩ (i := o.slot)
    ⟨others, fun _ _ => by rw [queue], fun _ _ => by rw [wait], fun x hx => ?_⟩
    ⟨by rw [queue]; exact law.queueNodup, by rw [wait]; exact law.waitNodup, by rw [wait]; exact law.capacity,
      by rw [queue]; exact law.whole⟩ ?_ fun hq => ⟨?_, ?_, ?_⟩
  · rw [firing, ho]
    exact ⟨fun e => absurd (congrArg Occurrence.slot (Option.some.inj e)) fun e' => hx (e'.symm.trans slot),
      fun e => absurd (congrArg Occurrence.slot (Option.some.inj e)) fun e' => hx e'.symm⟩
  · refine ⟨?_, ?_, ?_, ?_, ?_, ?_, ?_, ?_⟩ <;> simp only [own, queue, wait, State.inHandOf, firing]
    · exact fun e he hi => absurd hi (not_queued law (notIn nofun) e he)
    · rw [state]
      nofun
    · exact fun e he hi => absurd hi (not_listed law (notIn nofun) e he)
    · rw [state]
      nofun
    · rintro x e -
      cases e
      exact ⟨state, by rw [hdue, due]; exact law.handDue o ho⟩
    · exact fun _ => ⟨o', rfl, slot⟩
    · exact fun _ hf => absurd state hf
    · rw [state, hdefn]
      exact ⟨nofun, fun e => absurd e (defn_of_firing law (inHand_state law ho))⟩
  · rw [own]
    exact (allowance hq (allowed hq)).1
  · rw [own, state]
    nofun
  · rw [own, firing]
    rintro x e -
    cases e
    exact (allowance hq (allowed hq)).2

theorem scheduleLaw_held (h : ScheduleLaw q s) {o o' : Occurrence} (ho : s.firing = some o) (slot : o'.slot = o.slot)
    (due : o'.due = o.due) (mark : o'.counted = true → o'.outcome = none → o.counted = true ∧ o.outcome = none)
    (left : Uncounted o ∨ (s.slot o.slot).remaining ≠ some 0 ∨ ∃ w, o'.request = some (.place w)) :
    ScheduleLaw q (s.setFiring (some o')) := by
  refine scheduleLaw_hand h ho slot due (s.slot o.slot) rfl (fun _ _ => rfl) rfl rfl rfl ⟨rfl, rfl, rfl⟩ fun _ law =>
    ⟨((allowanceLaw_iff s).1 law o.slot).counters, ?_, fun hc hk => ?_⟩
  · obtain u | left | place := left
    · exact .inr (.inr (remaining_ne_zero law ho u))
    · exact .inr (.inr left)
    · exact .inl place
  · obtain ⟨c, k⟩ := mark hc hk
    exact law.counted o ho c k

theorem scheduleLaw_counted (h : ScheduleLaw q s) {o : Occurrence} (k : Kind) (hand : InHandUncounted s o) :
    ScheduleLaw q (s.count o k) := by
  obtain ⟨⟨request, mark⟩, l, c, ho⟩ := hand
  refine scheduleLaw_hand (o' := o.reported k) h ho rfl rfl (s.slot o.slot).counted (slot_setSlot_same (s.send _ _ _) o.slot _)
    (fun j hj => slot_setSlot_other (s.send _ _ _) _ _ _ hj) rfl rfl rfl ⟨rfl, rfl, rfl⟩ fun _ law => ?_
  exact ⟨countersFit_counted ((allowanceLaw_iff s).1 law o.slot).counters
      (remaining_ne_zero (o := { o with late := l, selfCancel := c }) law ho ⟨request, mark⟩),
    .inr (.inl ⟨rfl, rfl⟩), fun _ => nofun⟩

theorem scheduleLaw_phase (h : ScheduleLaw q s) {o : Occurrence} (ho : s.firing = some o) (p : Phase) :
    ScheduleLaw q (s.setSlot o.slot { s.slot o.slot with phase := p }) := by
  refine scheduleLaw_hand h ho rfl rfl _ (slot_setSlot_same s o.slot _) (fun j hj => slot_setSlot_other _ _ _ _ hj) rfl rfl ho
    ⟨rfl, rfl, rfl⟩ fun _ law => ?_
  obtain ⟨counters, -, hand⟩ := (allowanceLaw_iff s).1 law o.slot
  exact ⟨counters.congr rfl rfl rfl rfl, hand o ho rfl⟩

theorem scheduleLaw_dropped (h : ScheduleLaw q s) {o : Occurrence} (ho : s.firing = some o) (c : o.counted = true)
    (r : o.request = none) (p : Phase) {k : Nat} (le : ∀ n, (s.slot o.slot).remaining = some n → k ≤ n) :
    ScheduleLaw q (s.setSlot o.slot ((s.slot o.slot).dropped p k)) := by
  refine scheduleLaw_hand h ho rfl rfl _ (slot_setSlot_same s o.slot _) (fun j hj => slot_setSlot_other _ _ _ _ hj) rfl rfl ho
    ⟨rfl, rfl, rfl⟩ fun _ law => ?_
  exact ⟨countersFit_dropped ((allowanceLaw_iff s).1 law o.slot).counters p le, .inr (.inl ⟨c, r⟩), law.counted o ho⟩

/-- Another occurrence than the one in hand is in no hand, before and after the hand is empty. -/
theorem emptied_iff {o : Occurrence} (ho : s.firing = some o) (x : Occurrence) (hx : x.slot ≠ o.slot) :
    (none = some x) ↔ s.firing = some x :=
  ⟨nofun, fun e => absurd (congrArg Occurrence.slot (Option.some.inj (ho.symm.trans e))) fun e' => hx e'.symm⟩

theorem scheduleLaw_ended (h : ScheduleLaw q s) {o : Occurrence} (ho : s.firing = some o) {st : SlotState}
    (hst : st = .held ∨ st = .done) : ScheduleLaw q (s.endInState o.slot st) := by
  obtain ⟨law, allowed⟩ := h
  have own : (s.endInState o.slot st).slot o.slot = { s.slot o.slot with state := st, due := none } :=
    slot_setSlot_same s o.slot _
  have firing := inHand_state law ho
  have idle := idle_of_heldOrDone hst
  refine scheduleLaw_oneSlot ⟨law, allowed⟩ (i := o.slot)
    ⟨fun j hj => slot_setSlot_other s _ _ _ hj, fun _ _ => Iff.rfl, fun _ _ => Iff.rfl, emptied_iff ho⟩
    ⟨law.queueNodup, law.waitNodup, law.capacity, law.whole⟩ ?_ fun hq => ?_
  · refine slotFits_idle ?_ (not_queued law (by rw [firing]; nofun)) (not_listed law (by rw [firing]; nofun)) (fun _ => nofun)
      ?_ ?_ <;> rw [own]
    · exact idle
    · refine ⟨fun e => ?_, fun e => absurd e (defn_of_firing law firing)⟩
      obtain e' | e' := hst <;> cases e'.symm.trans e
  · refine allowanceFits_idle ?_ (fun _ => nofun) ?_ <;> rw [own]
    · exact idle
    · exact ((allowanceLaw_iff s).1 (allowed hq) o.slot).counters.congr rfl rfl rfl rfl

theorem scheduleLaw_reinserted (h : ScheduleLaw q s) {o : Occurrence} (ho : s.firing = some o) (due : Time)
    (r : o.request = some (.reinsert due)) :
    ScheduleLaw q (((s.setEntries (insertEntry ⟨o.slot, due⟩ s.dueQueue.entries)).setSlot o.slot
      { s.slot o.slot with state := .armed, due := some due }).setFiring none) := by
  have firing := inHand_state h.1 ho
  refine scheduleLaw_place h (fun _ _ => Iff.rfl) (not_queued h.1 (by rw [firing]; nofun)) h.1.queueNodup (emptied_iff ho)
    (fun _ => nofun) (by rw [firing]; nofun) rfl rfl (defn_of_firing h.1 firing) fun _ law => ?_
  exact ⟨((allowanceLaw_iff s).1 law o.slot).counters.congr rfl rfl rfl rfl,
    remaining_ne_zero law ho (uncounted_of_request r nofun)⟩

theorem scheduleLaw_placed (h : ScheduleLaw q s) {o : Occurrence} (ho : s.firing = some o) {e : WaitEntry} (slot : e.slot = o.slot)
    (room : s.waitList.entries.length < Config.waitCapacity) :
    ScheduleLaw q (((s.setWaitEntries (s.waitList.entries ++ [e])).setSlot o.slot
      { s.slot o.slot with state := .waiting, due := none }).setFiring none) := by
  obtain ⟨law, allowed⟩ := h
  have firing := inHand_state law ho
  have fresh := not_listed law (i := o.slot) (by rw [firing]; nofun)
  have own : (((s.setWaitEntries (s.waitList.entries ++ [e])).setSlot o.slot
      { s.slot o.slot with state := .waiting, due := none }).setFiring none).slot o.slot
      = { s.slot o.slot with state := .waiting, due := none } := slot_setSlot_same (s.setWaitEntries _) o.slot _
  have members (x : WaitEntry) : x ∈ s.waitList.entries ++ [e] ↔ x ∈ s.waitList.entries ∨ x = e := by
    rw [List.mem_append, List.mem_singleton]
  refine scheduleLaw_oneSlot ⟨law, allowed⟩ (i := o.slot)
    ⟨fun j hj => slot_setSlot_other (s.setWaitEntries _) _ _ _ hj, fun _ _ => Iff.rfl, fun x hx => ?_, emptied_iff ho⟩
    ⟨law.queueNodup, ?_, ?_, law.whole⟩ ⟨?_, ?_, ?_, ?_, fun _ => nofun, ?_, ?_, ?_⟩ fun hq => ⟨?_, ?_, fun _ => nofun⟩
  · exact (members x).trans ⟨fun hm => hm.resolve_right fun e' => hx (by rw [e', slot]), .inl⟩
  · show ((s.waitList.entries ++ [e]).map WaitEntry.slot).Nodup
    rw [List.map_append, List.map_singleton, ← List.concat_eq_append]
    refine law.waitNodup.concat fun hm => ?_
    obtain ⟨x, hx, e'⟩ := List.mem_map.1 hm
    exact fresh x hx (e'.trans slot)
  · show (s.waitList.entries ++ [e]).length ≤ 32
    rw [List.length_append]
    exact room
  all_goals rw [own]
  · exact fun x hx hi => absurd hi (not_queued law (by rw [firing]; nofun) x hx)
  · nofun
  · exact fun _ _ _ => rfl
  · exact fun _ => ⟨e, (members e).2 (.inr rfl), slot⟩
  · nofun
  · exact fun _ _ => rfl
  · exact ⟨nofun, fun e => absurd e (defn_of_firing law firing)⟩
  · exact ((allowanceLaw_iff s).1 (allowed hq) o.slot).counters.congr rfl rfl rfl rfl
  · nofun

/-- The release of the head: its entry leaves the queue and its slot is FIRING, in hand (R39, R48, R62). -/
theorem scheduleLaw_fired (h : ScheduleLaw q s) {e : DueEntry} {rest : List DueEntry} (idle : s.firing = none)
    (he : s.dueQueue.entries = e :: rest) (late : Nat) :
    ScheduleLaw q (((s.setEntries rest).setSlot e.slot ((s.slot e.slot).fire late)).setFiring
      (some (Occurrence.start e s.now))) := by
  obtain ⟨law, allowed⟩ := h
  have head : e ∈ s.dueQueue.entries := by rw [he]; exact List.mem_cons_self ..
  have armed : (s.slot e.slot).state = .armed := (law.armed _).2 ⟨e, head, rfl⟩
  have nodup := law.queueNodup
  rw [he, List.map_cons, List.nodup_cons] at nodup
  have gone : ∀ x ∈ rest, x.slot ≠ e.slot := fun x hx e' => nodup.1 (List.mem_map.2 ⟨x, hx, e'⟩)
  have own : (((s.setEntries rest).setSlot e.slot ((s.slot e.slot).fire late)).setFiring
      (some (Occurrence.start e s.now))).slot e.slot = (s.slot e.slot).fire late :=
    slot_setSlot_same (s.setEntries _) e.slot _
  refine scheduleLaw_oneSlot ⟨law, allowed⟩ (i := e.slot)
    ⟨fun j hj => slot_setSlot_other (s.setEntries _) _ _ _ hj, fun x hx => ?_, fun _ _ => Iff.rfl, fun x hx => ?_⟩
    ⟨nodup.2, law.waitNodup, law.capacity, law.whole⟩ ⟨?_, ?_, ?_, ?_, ?_, ?_, ?_, ?_⟩ fun hq => ⟨?_, ?_, ?_⟩
  · rw [he, List.mem_cons]
    exact ⟨.inr, fun hm => hm.resolve_left fun e' => hx (by rw [e'])⟩
  · rw [idle]
    refine ⟨fun e' => ?_, nofun⟩
    exact absurd (congrArg Occurrence.slot (Option.some.inj e')).symm hx
  all_goals rw [own]
  · exact fun x hx hi => absurd hi (gone x hx)
  · nofun
  · exact fun x hx hi => absurd hi (not_listed law (by rw [armed]; nofun) x hx)
  · nofun
  · rintro x e' -
    cases e'
    exact ⟨rfl, law.entryDue e head⟩
  · exact fun _ => ⟨_, rfl, rfl⟩
  · exact fun _ hf => absurd rfl hf
  · exact ⟨nofun, fun e' => absurd e' (defn_of_armed law armed)⟩
  · exact ((allowanceLaw_iff s).1 (allowed hq) e.slot).counters.congr rfl rfl rfl rfl
  · nofun
  · rintro x e' -
    cases e'
    exact ⟨.inr (.inr ((allowed hq).armed e.slot armed)), nofun⟩

/-! ## Every move, and every row -/

theorem scheduleLaw_move (m : ScheduleMove s t) (h : ScheduleLaw q s) : ScheduleLaw q t := by
  cases m with
  | passedOver | arms | news | flags | work | answered => exact scheduleLaw_congr h rfl rfl rfl rfl rfl
  | defined i d hi => exact scheduleLaw_defined h d hi
  | released i hi => exact scheduleLaw_released h hi
  | refused i hi => exact scheduleLaw_refused h hi
  | armed i due hi => exact scheduleLaw_armed h due hi
  | takenOut i hi => exact scheduleLaw_takenOut h hi
  | retimed i due hi => exact scheduleLaw_retimed h due hi
  | swept => exact scheduleLaw_swept h
  | withdrawn i hi => exact scheduleLaw_withdrawn h hi
  | waitsEnd ends slots news arms hs => exact scheduleLaw_waitsEnd h ends hs rfl rfl rfl
  | fired e rest idle he late => exact scheduleLaw_fired h idle he late
  | held o o' ho slot due mark left => exact scheduleLaw_held h ho slot due mark left
  | counted o k hand => exact scheduleLaw_counted h k hand
  | phase o ho p => exact scheduleLaw_phase h ho p
  | dropped o ho c r p k le => exact scheduleLaw_dropped h ho c r p le
  | ended o ho st hst => exact scheduleLaw_ended h ho hst
  | reinserted o ho due r => exact scheduleLaw_reinserted h ho due r
  | placed o ho e slot room => exact scheduleLaw_placed h ho slot room

/-- The slots, the due queue, the firing unit and the wait list are as they were. -/
structure SameSchedule (s t : State) : Prop where
  slots : t.slots = s.slots
  dueQueue : t.dueQueue = s.dueQueue
  firing : t.firing = s.firing
  waitList : t.waitList = s.waitList

theorem scheduleLaw_same (e : SameSchedule s t) (h : ScheduleLaw q s) : ScheduleLaw q t :=
  scheduleLaw_congr h e.slots (by rw [e.dueQueue]) (by rw [e.dueQueue]) e.firing (by rw [e.waitList])

theorem forceLine_schedule (n : LineId) (v : Bool) (s : State) : SameSchedule s (s.forceLine n v) := by
  rw [forceLine_eq]
  exact ⟨rfl, rfl, rfl, rfl⟩

theorem endPulse_schedule (n : LineId) (s : State) : SameSchedule s (s.endPulse n) := by
  rw [endPulse_eq]
  exact ⟨rfl, rfl, rfl, rfl⟩

theorem pulseLine_schedule (n : LineId) (w : Word) (i : SlotId) (s : State) : SameSchedule s (s.pulseLine n w i).2 := by
  unfold State.pulseLine
  split
  · exact ⟨rfl, rfl, rfl, rfl⟩
  · simp only
    split <;> exact ⟨rfl, rfl, rfl, rfl⟩

theorem causeSafe_schedule (s : State) : SameSchedule s s.causeSafe := by
  obtain ⟨entered, kept⟩ := causeSafe_spec s
  cases h : s.safeController.state with
  | safe =>
    rw [kept h]
    exact ⟨rfl, rfl, rfl, rfl⟩
  | run =>
    obtain ⟨-, -, whole⟩ := entered h
    rw [whole]
    exact ⟨rfl, rfl, rfl, rfl⟩

theorem exitSafe_schedule (s : State) : SameSchedule s s.exitSafe := by
  obtain ⟨-, -, whole⟩ := exitSafe_exit s
  rw [whole]
  exact ⟨rfl, rfl, rfl, rfl⟩

theorem sampleSafe_schedule (low : Bool) (s : State) : SameSchedule s (s.sampleSafe low) := by
  simp only [State.sampleSafe]
  split
  · exact ⟨rfl, rfl, rfl, rfl⟩
  · split
    · exact ⟨rfl, rfl, rfl, rfl⟩
    · split
      · obtain ⟨h1, h2, h3, h4⟩ := causeSafe_schedule (s.setSafe { s.safeController with candidate := 0, asserted := low })
        exact ⟨h1, h2, h3, h4⟩
      · exact ⟨rfl, rfl, rfl, rfl⟩

theorem takeAcceptance_schedule (s : State) : SameSchedule s s.takeAcceptance := by
  unfold State.takeAcceptance
  split
  · exact ⟨rfl, rfl, rfl, rfl⟩
  · rw [(accept_spec _ _).2.2.2]
    exact ⟨rfl, rfl, rfl, rfl⟩

theorem scheduleLaw_period : KeptInPeriod (ScheduleLaw q) where
  counts _ _ _ h := scheduleLaw_congr h rfl rfl rfl rfl rfl
  tickFast _ h := scheduleLaw_congr h rfl rfl rfl rfl rfl
  acceptance s h := scheduleLaw_same (takeAcceptance_schedule s) h
  flagEvent s h := (moves_takeFlagEvent s).keeps scheduleLaw_move h
  deadlines s h := (moves_expireDeadlines s).keeps scheduleLaw_move h
  pulseEnd n s h := scheduleLaw_same (endPulse_schedule n s) h
  advance s h := by
    rw [advance_eq]
    exact scheduleLaw_congr h rfl rfl rfl rfl rfl
  samples pins s h := by
    show ScheduleLaw q (s.sampleInputs pins)
    rw [(sampleInputs_spec pins s).2]
    exact scheduleLaw_congr h rfl rfl rfl rfl rfl
  ages _ h := scheduleLaw_congr h rfl rfl rfl rfl rfl
  safe low s h := scheduleLaw_same (sampleSafe_schedule low s) h

/-- After a reset the schedule is empty and no slot is defined (R42, R61, R137). -/
theorem scheduleLaw_empty (slots : ∀ i, s.slot i = Slot.unused) (entries : s.dueQueue.entries = []) (whole : s.dueQueue.inFlight = none)
    (firing : s.firing = none) (waits : s.waitList.entries = []) : ScheduleLaw q s := by
  have hand (i : SlotId) : ∀ o, s.firing = some o → o.slot ≠ i := fun o ho => nomatch firing.symm.trans ho
  refine (scheduleLaw_iff q s).2 ⟨⟨by rw [entries]; exact List.nodup_nil, by rw [waits]; exact List.nodup_nil,
    by rw [waits]; exact Nat.zero_le _, whole⟩, fun i => ⟨slotFits_idle ?_ (by rw [entries]; nofun) (by rw [waits]; nofun) (hand i)
      ?_ ?_, fun _ => allowanceFits_idle ?_ (hand i) ?_⟩⟩ <;> rw [slots]
  · exact idle_free
  · rfl
  · exact ⟨fun _ => rfl, fun _ => rfl⟩
  · exact idle_free
  · exact countersFit_unused

theorem slot_reset (i : SlotId) : State.reset.slot i = Slot.unused := by simp [State.reset, State.slot]

theorem scheduleLaw_resetBlocks (s : State) : ScheduleLaw q s.resetBlocks := scheduleLaw_empty slot_reset rfl rfl rfl rfl

theorem scheduleLaw_replaceTime (x : Time) : Keeps (ScheduleLaw q) (·.replaceTime x) := by
  have ended : Keeps (ScheduleLaw q) State.endReachedPulses := fun u h =>
    Keeps.foldl (fun n s h => scheduleLaw_same (endPulse_schedule n s) h) allLines u h
  intro s h
  have first := ended s h
  show ScheduleLaw q (s.endReachedPulses.setTimebase { s.timebase with time := x }).endReachedPulses
  generalize s.endReachedPulses = u at first
  exact ended _ (scheduleLaw_congr first rfl rfl rfl rfl rfl)

theorem scheduleLaw_change (c : Change s t) (h : ScheduleLaw q s) : ScheduleLaw q t := by
  cases c with
  | same => exact h
  | time x => exact scheduleLaw_replaceTime x s h
  | lines group w =>
    refine Keeps.foldl (P := ScheduleLaw q) (fun n u h => ?_) allLines s h
    simp only
    split
    · exact scheduleLaw_same (forceLine_schedule n _ u) h
    · exact h
  | safe => exact scheduleLaw_same (causeSafe_schedule s) h
  | run => exact scheduleLaw_same (exitSafe_schedule s) h
  | device => exact scheduleLaw_resetBlocks s
  | defined i d hi => exact scheduleLaw_defined h d hi
  | released i hi => exact scheduleLaw_released h hi
  | desired | tick | line | input | notify | policy => exact scheduleLaw_congr h rfl rfl rfl rfl rfl

theorem scheduleLaw_kept : KeptByParts (ScheduleLaw q) where
  move := scheduleLaw_move
  commands := keepsCommands_of_change (fun _ _ h => scheduleLaw_congr h rfl rfl rfl rfl rfl) scheduleLaw_change
  window c hc s h := by
    have b := effect_besideWindow hc s
    exact scheduleLaw_same ⟨b.slots, b.dueQueue, b.firing, b.waitList⟩ h
  force n v s h := scheduleLaw_same (forceLine_schedule n v s) h
  pulse n w i s h := scheduleLaw_same (pulseLine_schedule n w i s) h
  period := scheduleLaw_period
  pins _ _ h := scheduleLaw_congr h rfl rfl rfl rfl rfl
  reset s _ := scheduleLaw_resetBlocks s

/-- Settles O57: a row of the schedule is a chain of moves, and every move keeps both laws; the other rows leave the schedule alone, empty
it, or write a slot outside it. The law of the allowance is kept together with the law of the slots, which it leans on. -/
theorem everyStepKeepsTheScheduleLaws : Obligations.EveryStepKeepsTheScheduleLaws := by
  intro s t law e
  have kept : ScheduleLaw (AllowanceLaw s) t :=
    scheduleLaw_kept.rows.step (fun _ _ h => scheduleLaw_congr h rfl rfl rfl rfl rfl) ⟨law, fun h => h⟩ e
  exact kept

end Sys2Proof.Proofs
end

section
/-! SUPPORT. The queue of steps, reset, and RESET# held (R42, R164; Log 3). -/

namespace Sys2Proof.Proofs

open Sys2Proof.Machine Sys2Proof.Laws

/-! ## The queue of steps -/

/-- Every row is answered with a state. -/
theorem exec_total (c : Instr) (s : State) : ∃ t, exec c s = .next t := by
  cases c
  case badAddress a => cases a <;> exact ⟨_, rfl⟩
  case withdrawal requester after => cases requester <;> exact ⟨_, rfl⟩
  all_goals exact ⟨_, rfl⟩

/-- The steps waiting to be taken are `q`. -/
def PendingIs (q : List Instr) (s : State) : Prop := s.pending = q

theorem pending_change {q : List Instr} {s t : State} (c : Change s t) (h : PendingIs q s) : PendingIs q t := by
  cases c with
  | time t => exact (replaceTime_quiet s t).pending.trans h
  | lines group w => exact (setLines_quiet group w s).pending.trans h
  | safe => exact (causeSafe_moved s).1.pending.trans h
  | run => exact (exitSafe_moved s).1.pending.trans h
  | same | desired | tick | line | input | notify | policy | device | defined | released => exact h

theorem pending_window {q : List Instr} (c : Instr) (hc : isWindow c = true) : Keeps (PendingIs q) (effect c) := fun s h =>
  (effect_besideWindow hc s).pending.trans h

theorem pending_kept (q : List Instr) : KeptByParts (PendingIs q) where
  move m h := m.beside.pending.trans h
  commands := keepsCommands_of_change (fun _ _ h => h) pending_change
  window := pending_window
  force n v s h := (forceLine_quiet n v s).pending.trans h
  pulse n w i s h := (pulseLine_quiet n w i s).pending.trans h
  period := .of_quiet (fun qt h => qt.pending.trans h) (fun _ _ _ h => h) (fun _ h => h)
    (fun s h => by rw [advance_eq]; exact h) (fun _ h => h) fun low s h => (sampleSafe_moved low s).pending.trans h
  pins _ _ h := h
  reset _ h := h

/-- Settles O1: a step takes the front command off the queue before it executes it, and every row is answered with a state whose queue is
the one it found. -/
theorem stepTakesTheFrontCommand : Obligations.StepTakesTheFrontCommand := by
  refine ⟨fun s c rest h => ?_, fun c s => ?_⟩
  · simp only [step, h]
    rfl
  · obtain ⟨t, e⟩ := exec_total c s
    exact ⟨t, e, (pending_kept s.pending).rows.exec rfl e⟩

/-- Settles O2: the step on an empty queue is one CLK period with the tick's advance first and the SAFE# sample behind it. -/
theorem emptyQueuePassesOneClkPeriod : Obligations.EmptyQueuePassesOneClkPeriod := by
  intro s h
  have row : step s = .next (s.unlessHeld fun s => s.clkPeriod ⟨.advanceFirst, .afterTick⟩) := by
    simp only [step, h]
  refine ⟨fun held => ?_, fun released => ⟨_, ?_, clkPeriod_passed s ⟨.advanceFirst, .afterTick⟩ released⟩⟩
  · rw [row, unlessHeld_held s _ held]
  · rw [row, unlessHeld_released s _ released]

/-! ## Reset -/

theorem line_reset (n : LineId) : State.reset.line n = Line.reset := by simp [State.reset, State.line]
theorem input_reset (i : LineId) : State.reset.input i = Input.reset := by simp [State.reset, State.input]
theorem flag_reset (f : FlagId) : State.reset.flag f = false := by simp [State.reset, State.flag]

/-- Settles O3: the blocks by their reset values, the vectors entry by entry. -/
theorem resetLeavesTheStatedValues : Obligations.ResetLeavesTheStatedValues :=
  ⟨rfl, slot_reset, rfl, rfl, rfl, rfl, line_reset, input_reset, rfl, flag_reset, rfl, rfl, rfl, rfl, rfl⟩

/-- Settles O4: the three rows of reset are the reset of every block, with the level of RESET# as each leaves it. -/
theorem resetRowsSetEveryBlock : Obligations.ResetRowsSetEveryBlock := fun _ =>
  ⟨rfl, rfl, fun held => congrArg _ (if_pos held), fun released => exec_released .resetReleased released⟩

theorem isRead_iff (c : Instr) :
    isRead c = true ↔ c = .resultRead ∨ c = .noteRead ∨ c = .timeLoRead ∨ ∃ a, c = .badAddress (.read a) := by
  cases c
  case badAddress a => cases a <;> simp [isRead]
  all_goals simp [isRead]

theorem isReset_iff (c : Instr) : isReset c = true ↔ c = .hardReset ∨ c = .powerOn ∨ c = .resetReleased := by
  cases c <;> simp [isReset]

/-- Settles O5: a held read returns 0, any other held row leaves the state, and a register reads 0. -/
theorem assertedResetTakesNothing : Obligations.AssertedResetTakesNothing := by
  intro c s held notHard notPower notReleased
  have reset : isReset c = false := by
    rw [Bool.eq_false_iff]
    rintro h
    obtain e | e | e := (isReset_iff c).1 h
    exacts [notHard e, notPower e, notReleased e]
  rw [← isRead_iff]
  exact ⟨fun h => exec_held_read held h, fun h => exec_held held (Bool.eq_false_iff.2 h) reset, fun a => if_pos held⟩

/-- Settles O60: the laws hold after a reset of every block, whatever the state before. -/
theorem lawsHoldAfterReset : Obligations.LawsHoldAfterReset := by
  have schedule : ScheduleLaw True State.reset := scheduleLaw_resetBlocks State.reset
  exact ⟨schedule.1, schedule.2 trivial, lineLaw_resetBlocks State.reset, noteLaw_resetBlocks State.reset,
    pathLaw_resetBlocks State.reset, countLaw_resetBlocks State.reset⟩

end Sys2Proof.Proofs
end

section
/-! SUPPORT. The commands on the safe controller, the timebase, lines, inputs and settings, RESET_DEVICE and the taking of commands
(R7, R9, R101, R103, R122, R150, R155, R159, R161, R167, R171, R178). -/

namespace Sys2Proof.Proofs

open Sys2Proof.Machine Sys2Proof.Laws

/-! ## A row that gives a command to its owner -/

/-- The state in which a command is given to its owner: the rest is in the FIFO, and the command is on its way. -/
def givenTo (s : State) (rest : List Command) (x : Option Executing) : State :=
  { s with commandUnit := ⟨rest, x, s.commandUnit.results⟩ }

section
variable {s : State} {op : Opcode} {c : Command} {rest : List Command} {reach : CommandReach}

theorem exec_gives (h : s.Gives op c rest reach) : ∃ x, exec (op.row reach) s = .next (startOf op c (givenTo s rest x)) := by
  obtain ⟨t, row, taken⟩ := runCommand_gives s op c rest reach h (startOf op) (resumeOf op)
  refine ⟨t.commandUnit.executing, ?_⟩
  rw [exec_row, unlessHeld_released s _ h.1, row]
  exact congrArg (fun u => Host.Outcome.next (startOf op c u)) taken

theorem exec_waiting {w : Work} (h : s.IsExecuting op c w) (hw : w ≠ .taken) :
    exec (op.row reach) s = .next (resumeOf op ⟨c, w⟩ s) := by
  rw [exec_row, unlessHeld_released s _ h.1, runCommand_executing s op c w reach h hw]

/-- Where the owner answers whatever the state, so does the row. -/
theorem exec_gives_complete (h : s.Gives op c rest reach) {status : Status} {data : List Word}
    (answer : ∀ t, startOf op c t = t.complete c status data) :
    exec (op.row reach) s = .next { s with commandUnit := s.commandUnit.answered rest c status data } := by
  obtain ⟨x, row⟩ := exec_gives h
  rw [row, answer]
  rfl

end

/-- A command answered behind a change that leaves the command unit alone. -/
theorem complete_behind {u v : State} (h : v.commandUnit = u.commandUnit) (c : Command) (status : Status) (data : List Word) :
    v.complete c status data = v.setCommands (u.commandUnit.answered u.commandUnit.fifo c status data) := by
  rw [complete_eq, h]
  rfl

/-! ## FORCE_SAFE and RESUME -/

theorem startForceSafe_args {c : Command} (h : c.args ≠ []) (s : State) : startForceSafe c s = s.complete c .argCount [] := by
  obtain ⟨w, ws, e⟩ := List.exists_cons_of_ne_nil h
  rw [startForceSafe, e]

theorem startForceSafe_nil {c : Command} (h : c.args = []) (s : State) : startForceSafe c s = s.causeSafe.complete c .ok [] := by
  rw [startForceSafe, h]

/-- The command unit is no part of a safe entry or exit. -/
theorem safeEntry_setCommands {s t : State} (h : SafeEntry s t) (u : CommandUnit) : SafeEntry (s.setCommands u) (t.setCommands u) := by
  obtain ⟨drive, lines, whole⟩ := h
  exact ⟨drive, lines, congrArg (·.setCommands u) whole⟩

theorem safeExit_setCommands {s t : State} (h : SafeExit s t) (u : CommandUnit) : SafeExit (s.setCommands u) (t.setCommands u) := by
  obtain ⟨drive, lines, whole⟩ := h
  exact ⟨drive, lines, congrArg (·.setCommands u) whole⟩

/-- Settles O11: the command is a cause of safe entry, answered OK behind it. -/
theorem forceSafeEntersSafe : Obligations.ForceSafeEntersSafe := by
  intro s c rest reach h
  refine ⟨fun words => exec_gives_complete h (startForceSafe_args words), fun noWords safe => ?_, fun noWords run => ?_⟩ <;>
    obtain ⟨x, row⟩ := exec_gives h <;>
    rw [show startOf .forceSafe c (givenTo s rest x) = _ from startForceSafe_nil noWords _] at row
  · rw [(causeSafe_spec (givenTo s rest x)).2 safe] at row
    exact row
  · refine ⟨_, row, ?_⟩
    rw [complete_behind (causeSafe_moved (givenTo s rest x)).1.commandUnit]
    exact safeEntry_setCommands ((causeSafe_spec (givenTo s rest x)).1 run) _

theorem startResume_args {c : Command} (h : c.args ≠ []) (s : State) : startResume c s = s.complete c .argCount [] := by
  obtain ⟨w, ws, e⟩ := List.exists_cons_of_ne_nil h
  rw [startResume, e]

/-- Settles O12: the three refusals of R159 in their order, and the safe exit, answered OK behind it. -/
theorem resumeLeavesSafe : Obligations.ResumeLeavesSafe := by
  intro s c rest reach h
  obtain ⟨x, row⟩ := exec_gives h
  have judged (noWords : c.args = []) : startOf .resume c (givenTo s rest x) = match s.safeController.state with
      | .run => (givenTo s rest x).complete c .badState []
      | .safe => if s.safeController.asserted then (givenTo s rest x).complete c .safeActive []
        else (givenTo s rest x).exitSafe.complete c .ok [] := by
    show startResume c _ = _
    rw [startResume, noWords]
    rfl
  refine ⟨fun words => exec_gives_complete h (startResume_args words), fun noWords run => ?_, fun noWords safe asserted => ?_,
    fun noWords safe released => ⟨_, row, ?_⟩⟩
  · rw [judged noWords, run] at row
    exact row
  · rw [judged noWords, safe, asserted] at row
    exact row
  · rw [judged noWords, safe, released]
    exact safeExit_setCommands (exitSafe_exit (givenTo s rest x)) _

/-! ## SET_TIME -/

/-- A new device time, whole: the pulses over at the old time or at the new one have ended (R8; Log 5). -/
theorem replaceTime_spec (s : State) (t : Time) :
    (∀ n, (s.replaceTime t).line n
      = if (s.line n).pulseOver s.now ∨ (s.line n).pulseOver t then (s.line n).ended s.lineUnit.safeDrive else s.line n)
    ∧ s.replaceTime t = { s with
        timebase := { s.timebase with time := t }
        lineUnit := ⟨(s.replaceTime t).lineUnit.lines, s.lineUnit.safeDrive⟩ } := by
  obtain ⟨first, whole⟩ := endReachedPulses_spec s
  have unfolded : s.replaceTime t = (s.endReachedPulses.setTimebase { s.timebase with time := t }).endReachedPulses := rfl
  generalize s.endReachedPulses = u at first whole unfolded
  obtain ⟨second, whole'⟩ := endReachedPulses_spec (u.setTimebase { s.timebase with time := t })
  have drive : u.lineUnit.safeDrive = s.lineUnit.safeDrive := by rw [whole]
  rw [unfolded]
  refine ⟨fun n => ?_, ?_⟩
  · rw [second n]
    show (if (u.line n).pulseOver t then (u.line n).ended u.lineUnit.safeDrive else u.line n) = _
    rw [first n, drive]
    by_cases now : (s.line n).pulseOver s.now
    · have ended : ((s.line n).ended s.lineUnit.safeDrive).pulseOver t = false := rfl
      simp [now, ended]
    · simp [now]
  · have frame (l : LineUnit) : ({ u with timebase := { s.timebase with time := t }, lineUnit := l } : State)
        = { s with timebase := { s.timebase with time := t }, lineUnit := l } := by rw [whole]
    generalize (u.setTimebase { s.timebase with time := t }).endReachedPulses = v at whole'
    rw [show (u.setTimebase { s.timebase with time := t }).lineUnit.safeDrive = s.lineUnit.safeDrive from drive] at whole'
    exact whole'.trans (frame _)

theorem pulseOver_iff (l : Line) (now : Time) : l.pulseOver now = true ↔ ∃ p, l.pulse = some p ∧ reached p.endTime now = true := by
  unfold Line.pulseOver
  cases l.pulse with
  | none => simp
  | some p => simp

/-- SET_TIME given to its owner or taken up again is judged by what the schedule holds (R7). -/
theorem exec_setTime {s : State} {c : Command} {rest : List Command} {reach : CommandReach} {time : Time}
    (h : (∃ low high, s.Gives .setTime c rest reach ∧ c.args = [low, high] ∧ time = high ++ low)
      ∨ (s.IsExecuting .setTime c (.setTime time) ∧ s.commandUnit.fifo = rest)) :
    ∃ x, exec (.setTime reach) s = .next ((givenTo s rest x).takeSetTime c time) := by
  obtain ⟨low, high, gives, words, rfl⟩ | ⟨executing, rfl⟩ := h
  · obtain ⟨x, row⟩ := exec_gives gives
    refine ⟨x, row.trans (congrArg _ ?_)⟩
    show startSetTime c _ = _
    rw [startSetTime, words]
    rfl
  · exact ⟨s.commandUnit.executing, exec_waiting executing nofun⟩

theorem startSetTime_count {c : Command} (h : c.args.length ≠ 2) (s : State) : startSetTime c s = s.complete c .argCount [] := by
  have none : givenTime c.args = none := by
    unfold givenTime
    split
    · next e =>
      rw [e] at h
      exact absurd rfl h
    · rfl
  rw [startSetTime, none]

/-- Settles O16: the command waits for the firing unit, is refused by a schedule that is not empty, and otherwise replaces device time,
with the pulse ends before it and behind it. -/
theorem setTimeReplacesDeviceTime : Obligations.SetTimeReplacesDeviceTime := by
  refine ⟨fun s c rest reach h count => exec_gives_complete h (startSetTime_count count), fun s c rest reach time h => ?_⟩
  obtain ⟨x, row⟩ := exec_setTime h
  rw [row]
  unfold State.takeSetTime
  refine ⟨fun busy => ?_, fun idle filled => ?_, fun idle queue waits arms => ?_⟩
  · rw [if_pos (show (givenTo s rest x).firing.isSome = true from Option.isSome_iff_ne_none.2 busy)]
    rfl
  · rw [if_neg (show ¬ (givenTo s rest x).firing.isSome = true by rw [show (givenTo s rest x).firing = none from idle]; nofun),
      if_neg ?_]
    · rfl
    · simp only [Bool.and_eq_true, List.isEmpty_iff]
      rintro ⟨⟨queue, waits⟩, arms⟩
      obtain h | h | h := filled
      exacts [h queue, h waits, h arms]
  · rw [if_neg (show ¬ (givenTo s rest x).firing.isSome = true by rw [show (givenTo s rest x).firing = none from idle]; nofun),
      if_pos ?_]
    · obtain ⟨lines, whole⟩ := replaceTime_spec (givenTo s rest x) time
      generalize (givenTo s rest x).replaceTime time = v at lines whole
      refine ⟨_, rfl, fun n p hp past => (lines n).trans (if_pos ?_), fun n kept => (lines n).trans (if_neg ?_), ?_, ?_⟩
      · obtain past | past := past
        · exact .inr ((pulseOver_iff _ _).2 ⟨p, hp, past⟩)
        · exact .inl ((pulseOver_iff _ _).2 ⟨p, hp, past⟩)
      · rintro (past | past) <;> obtain ⟨p, hp, r⟩ := (pulseOver_iff _ _).1 past
        · exact Bool.false_ne_true ((kept p hp).2.symm.trans r)
        · exact Bool.false_ne_true ((kept p hp).1.symm.trans r)
      · show v.lineUnit.safeDrive = _
        rw [whole]
        rfl
      · rw [complete_behind (u := givenTo s rest x) (by rw [whole])]
        rw [whole]
        rfl
    · simp only [Bool.and_eq_true, List.isEmpty_iff]
      exact ⟨⟨queue, waits⟩, arms⟩

/-! ## SET_LINE and CONFIG_LINE -/

/-- A command with another number of argument words than it takes is answered ARG_COUNT. -/
theorem startSetLine_count {c : Command} (h : c.args.length ≠ 1) (s : State) : startSetLine c s = s.complete c .argCount [] := by
  unfold startSetLine
  split
  · next e =>
    rw [e] at h
    exact absurd rfl h
  · rfl

theorem setLineSelects_iff (half : Nat) (w : Word) (n : LineId) :
    setLineSelects half w n = true ↔ n.val / 8 = half ∧ w.getLsbD (8 + n.val % 8) = true := by
  rw [setLineSelects, Bool.and_eq_true, beq_iff_eq]

/-- Settles O17: the checks of R101, and each selected line by itself behind them. -/
theorem setLineSetsTheSelectedLines : Obligations.SetLineSetsTheSelectedLines := by
  intro s c rest reach h
  refine ⟨fun count => exec_gives_complete h (startSetLine_count count), fun w words => ⟨fun operand => ?_, fun operand => ?_⟩⟩ <;>
    obtain ⟨x, row⟩ := exec_gives h <;>
    rw [show startOf .setLine c (givenTo s rest x) = startSetLine c (givenTo s rest x) from rfl, startSetLine, words] at row
  · exact row.trans (congrArg _ (if_neg (Nat.not_lt.2 operand)))
  · obtain ⟨lines, whole⟩ := setLines_spec (givenTo s rest x) c.operand.toNat w
    refine ⟨_, row.trans (congrArg _ (if_pos operand)), ?_⟩
    generalize (givenTo s rest x).setLines c.operand.toNat w = v at lines whole
    refine ⟨fun n half selected => (lines n).trans (if_pos ((setLineSelects_iff _ _ _).2 ⟨half, selected⟩)),
      fun n other => (lines n).trans (if_neg fun selected => other ((setLineSelects_iff _ _ _).1 selected)), ?_, ?_⟩
    · show v.lineUnit.safeDrive = _
      rw [whole]
      rfl
    · rw [complete_behind (u := givenTo s rest x) (by rw [whole])]
      rw [whole]
      rfl

theorem startConfigLine_count {c : Command} (h : c.args.length ≠ 1) (s : State) :
    startConfigLine c s = s.complete c .argCount [] := by
  unfold startConfigLine
  split
  · next e =>
    rw [e] at h
    exact absurd rfl h
  · rfl

theorem lineOf_none {n : Nat} (h : 15 < n) : lineOf n = none := dif_neg (by omega)

theorem lineOf_val (n : LineId) : lineOf n.val = some n := dif_pos n.isLt

/-- A level of a two-bit field is the low bit, where the field is 0 or 1 (11.3). -/
theorem levelOf_field {x : BitVec 2} (h : x.toNat ≤ 1) : levelOf x.toNat = some (x.getLsbD 0) := by
  have : ∀ x : BitVec 2, x.toNat ≤ 1 → levelOf x.toNat = some (x.getLsbD 0) := by decide
  exact this x h

theorem levelOf_none {n : Nat} (h : 1 < n) : levelOf n = none := by
  match n with
  | 0 | 1 => exact absurd h (by decide)
  | _ + 2 => rfl

/-- Settles O18: the checks of R103 in their order, and the levels written, the safe level acting at once in SAFE. -/
theorem configLineSetsActiveAndSafeLevels : Obligations.ConfigLineSetsActiveAndSafeLevels := by
  intro s c rest reach h
  refine ⟨fun count => exec_gives_complete h (startConfigLine_count count), fun w words => ⟨fun bad => ?_,
    fun n operand active safe => ?_⟩⟩ <;>
    obtain ⟨x, row⟩ := exec_gives h <;>
    rw [show startOf .configLine c (givenTo s rest x) = startConfigLine c (givenTo s rest x) from rfl, startConfigLine, words] at row
  · refine row.trans (congrArg _ ?_)
    simp only
    split
    · next n a b hn ha hb =>
      obtain bad | bad | bad := bad
      · cases (lineOf_none bad).symm.trans hn
      · cases (levelOf_none bad).symm.trans ha
      · cases (levelOf_none bad).symm.trans hb
    · rfl
  · have line : lineOf c.operand.toNat = some n := by rw [operand, lineOf_val]
    have field1 : levelOf (bits w 1 0) = some (w.getLsbD 0) := (levelOf_field active).trans (by simp)
    have field2 : levelOf (bits w 5 4) = some (w.getLsbD 4) := (levelOf_field safe).trans (by simp)
    simp only [line, field1, field2] at row
    refine ⟨fun pulse => row.trans (congrArg _ (if_pos ?_)), fun pulse => row.trans (congrArg _ (if_neg ?_))⟩
    · exact Option.isSome_iff_ne_none.2 pulse
    · rw [show ((givenTo s rest x).line n).pulse = none from pulse]
      nofun

end Sys2Proof.Proofs
end

section
/-! SUPPORT. The settings commands, RESET_DEVICE, the commands of no kind, the budget, and SET_TICK (R1, R9, R122, R150, R161, R167,
R170, R171, R178). -/

namespace Sys2Proof.Proofs

open Sys2Proof.Machine Sys2Proof.Laws

/-! ## CONFIG_INPUT, CONFIG_NOTIFY, CONFIG_SAFE -/

theorem startConfigInput_count {c : Command} (h : c.args.length ≠ 1) (s : State) :
    startConfigInput c s = s.complete c .argCount [] := by
  unfold startConfigInput
  split
  · next e =>
    rw [e] at h
    exact absurd rfl h
  · rfl

theorem startConfigNotify_count {c : Command} (h : c.args.length ≠ 3) (s : State) :
    startConfigNotify c s = s.complete c .argCount [] := by
  unfold startConfigNotify
  split
  · next e =>
    rw [e] at h
    exact absurd rfl h
  · rfl

theorem startConfigSafe_count {c : Command} (h : c.args.length ≠ 1) (s : State) :
    startConfigSafe c s = s.complete c .argCount [] := by
  unfold startConfigSafe
  split
  · next e =>
    rw [e] at h
    exact absurd rfl h
  · rfl

/-- The codes of the edge selections (11.3). -/
theorem edgeSelectionOf_iff (x : BitVec 2) :
    (edgeSelectionOf x.toNat = .none ↔ x.toNat = 0) ∧ (edgeSelectionOf x.toNat = .rise ↔ x.toNat = 1)
      ∧ (edgeSelectionOf x.toNat = .fall ↔ x.toNat = 2) ∧ (edgeSelectionOf x.toNat = .both ↔ x.toNat = 3) := by
  revert x
  decide

theorem safePolicyOf_le {w : Word} (h : w.toNat ≤ 1) : safePolicyOf w = some (if w.toNat = 0 then .continue_ else .freeze) := by
  unfold safePolicyOf
  obtain e | e : w.toNat = 0 ∨ w.toNat = 1 := by omega
  all_goals rw [e]; rfl

theorem safePolicyOf_none {w : Word} (h : 1 < w.toNat) : safePolicyOf w = none := by
  unfold safePolicyOf
  split
  · omega
  · omega
  · rfl

theorem configInput_settings {s : State} {c : Command} {rest : List Command} {reach : CommandReach}
    (h : s.Gives .configInput c rest reach) {w : Word} (words : c.args = [w]) :
    ∃ x, exec (.configInput reach) s = .next (match lineOf c.operand.toNat with
      | some i => ((givenTo s rest x).setInput i (((givenTo s rest x).input i).configure w)).complete c .ok []
      | none => (givenTo s rest x).complete c .badArg []) := by
  obtain ⟨x, row⟩ := exec_gives h
  rw [show startOf .configInput c (givenTo s rest x) = startConfigInput c (givenTo s rest x) from rfl, startConfigInput, words] at row
  exact ⟨x, row⟩

/-- Settles O19: the checks of the three commands, and the settings each replaces. -/
theorem settingsCommandsReplaceTheirSettings : Obligations.SettingsCommandsReplaceTheirSettings := by
  refine ⟨fun s c rest reach h => ⟨fun count => exec_gives_complete h (startConfigInput_count count), fun w words => ?_⟩,
    fun s c rest reach h => ⟨fun count => exec_gives_complete h (startConfigNotify_count count),
      fun threshold holdoff urgent words => ?_⟩,
    fun s c rest reach h => ⟨fun count => exec_gives_complete h (startConfigSafe_count count), fun w words => ?_⟩⟩
  · obtain ⟨x, row⟩ := configInput_settings h words
    refine ⟨fun operand => ?_, fun i operand => ?_⟩
    · rw [lineOf_none operand] at row
      exact row
    · rw [operand, lineOf_val] at row
      obtain ⟨none, rise, fall, both⟩ := edgeSelectionOf_iff (w.extractLsb' 4 2)
      exact ⟨_, none, rise, fall, both, row⟩
  · obtain ⟨x, row⟩ := exec_gives h
    rw [show startOf .configNotify c (givenTo s rest x) = startConfigNotify c (givenTo s rest x) from rfl, startConfigNotify,
      words] at row
    refine ⟨fun range => row.trans (congrArg _ (if_neg range)), fun low high =>
      ⟨_, row.trans (congrArg _ (if_pos ⟨low, high⟩)), wantsAttention_iff _⟩⟩
  · obtain ⟨x, row⟩ := exec_gives h
    rw [show startOf .configSafe c (givenTo s rest x) = startConfigSafe c (givenTo s rest x) from rfl, startConfigSafe,
      words] at row
    refine ⟨fun bad => ?_, fun good => ?_⟩
    · simp only [safePolicyOf_none bad] at row
      exact row
    · simp only [safePolicyOf_le good] at row
      exact row

/-! ## RESET_DEVICE, codes that name no command -/

theorem startResetDevice_args {c : Command} (h : c.args ≠ []) (s : State) : startResetDevice c s = s.complete c .argCount [] := by
  obtain ⟨w, ws, e⟩ := List.exists_cons_of_ne_nil h
  rw [startResetDevice, e]

/-- Settles O29: the answer goes into the command unit that the reset has emptied. -/
theorem resetDeviceResetsEveryBlock : Obligations.ResetDeviceResetsEveryBlock := by
  intro s c rest reach h
  refine ⟨fun words => exec_gives_complete h (startResetDevice_args words), fun noWords => ?_⟩
  obtain ⟨x, row⟩ := exec_gives h
  rw [show startOf .resetDevice c (givenTo s rest x) = startResetDevice c (givenTo s rest x) from rfl, startResetDevice,
    noWords] at row
  exact row

theorem ofCode_none : ∀ code : Byte, code ∉ [0x00, 0x10, 0x11, 0x12, 0x13, 0x14, 0x15, 0x16, 0x20, 0x21, 0x22, 0x23, 0x30, 0x31,
    0x32, 0x33, 0x34, 0x40, 0x41, 0x50, 0x5A] → Opcode.ofCode code = none := by
  decide

theorem exec_badCode {s : State} {reach : CommandReach} (released : s.Released) :
    exec (.badCode reach) s = .next (s.takeCommand (fun c => decide (Opcode.ofCode c.code = none)) reach
      (fun c s => s.complete c .badCode []) noResume) := exec_released (.badCode reach) released

/-- Settles O21: a code outside the table of 11.3 names no command, and its row answers whatever the words. -/
theorem unknownCodeIsAnsweredBadCode : Obligations.UnknownCodeIsAnsweredBadCode := by
  refine ⟨fun s c rest reach released given unknown => ?_, by decide⟩
  have mine : decide (Opcode.ofCode c.code = none) = true := decide_eq_true (ofCode_none c.code unknown)
  rw [exec_badCode released]
  obtain ⟨idle, fifo, rfl⟩ | ⟨taken, rfl⟩ := given
  · rw [takeCommand_idle s _ c rest .owner idle fifo mine]
    rfl
  · rw [takeCommand_taken s _ c reach taken mine]
    rfl

/-! ## The budget, and the taking of commands -/

/-- A row that takes nothing leaves the state, whether RESET# is held or not. -/
theorem exec_row_unchanged {s : State} {op : Opcode} {reach : CommandReach}
    (h : s.runCommand op reach (startOf op) (resumeOf op) = s) : exec (op.row reach) s = .next s := by
  rw [exec_row, unlessHeld_of_unchanged h]

theorem commandsPending_eq (s : State) :
    s.commandsPending = s.commandUnit.fifo.length + if s.commandUnit.executing = none then 0 else 1 := by
  unfold State.commandsPending
  cases s.commandUnit.executing <;> rfl

theorem budgetUsed_eq (s : State) : s.budgetUsed = s.commandUnit.fifo.length + (if s.commandUnit.executing = none then 0 else 1)
    + s.commandUnit.results.length := by
  rw [State.budgetUsed, commandsPending_eq]

theorem exec_commandWrite {s : State} {w : Word} (released : s.Released) (code : w.extractLsb' 8 8 ≠ 0xFF) :
    exec (.commandWrite w) s = .next (s.issueCommand (w.extractLsb' 8 8) (w.extractLsb' 0 8)) :=
  (exec_released (.commandWrite w) released).trans (congrArg _ (if_neg code))

/-- Settles O31: a COMMAND write is judged by the budget, and a row takes the oldest command only if it is idle and the command is of
its kind. -/
theorem commandWriteIsJudgedByTheBudget : Obligations.CommandWriteIsJudgedByTheBudget := by
  refine ⟨fun s w released code => ?_, fun s op c rest released idle fifo kind => ?_, fun s c rest released idle fifo kind => ?_,
    fun s op reach idle other => ?_, fun s op reach x busy other => ?_⟩
  · rw [exec_commandWrite released code, State.issueCommand, budgetUsed_eq]
    exact ⟨fun room => congrArg _ (if_pos (Nat.lt_succ_of_le room)), fun full => congrArg _ (if_neg (Nat.not_lt.2 full))⟩
  · rw [exec_row, unlessHeld_released s _ released, State.runCommand,
      takeCommand_idle s _ c rest .unit idle fifo (decide_eq_true kind)]
  · rw [exec_badCode released, takeCommand_idle s _ c rest .unit idle fifo (decide_eq_true kind)]
  · refine exec_row_unchanged ?_
    cases fifo : s.commandUnit.fifo with
    | nil => exact takeCommand_empty s _ reach idle fifo _ _
    | cons c rest => exact runCommand_other idle fifo (other c rest fifo) reach _ _
  · exact exec_row_unchanged (runCommand_busy busy other reach _ _)

/-! ## SET_TICK -/

theorem startSetTick_count {c : Command} (h : c.args.length ≠ 2) (s : State) : startSetTick c s = s.complete c .argCount [] := by
  unfold startSetTick
  split
  · next e =>
    rw [e] at h
    exact absurd rfl h
  · rfl

theorem tickSourceOf_le {w : Word} (h : w.toNat ≤ 1) : tickSourceOf w = some (if w.toNat = 0 then .internal else .external) := by
  unfold tickSourceOf
  obtain e | e : w.toNat = 0 ∨ w.toNat = 1 := by omega
  all_goals rw [e]; rfl

theorem tickSourceOf_none {w : Word} (h : 1 < w.toNat) : tickSourceOf w = none := by
  unfold tickSourceOf
  split
  · omega
  · omega
  · rfl

theorem prescalerOf_none {w : Word} (h1 : 1 ≤ w.toNat) (h2 : w.toNat ≤ 255) : prescalerOf w = none := by
  have : w ≠ 0 := fun e => by rw [e] at h1; exact absurd h1 (by decide)
  rw [prescalerOf, if_neg this, if_pos (by omega)]

theorem prescalerOf_some {w : Word} (h : w.toNat = 0 ∨ 256 ≤ w.toNat) :
    prescalerOf w = some (if w.toNat = 0 then 65536 else w.toNat) := by
  obtain e | e := h
  · rw [prescalerOf, if_pos (BitVec.eq_of_toNat_eq e), if_pos e]
  · have : w ≠ 0 := fun h => by rw [h] at e; exact absurd e (by decide)
    rw [prescalerOf, if_neg this, if_neg (by omega), if_neg (by omega)]

/-- A TICK_EDGE under the internal source is CLK periods of the prescaler count (R1; Log 4, Log 27). -/
theorem exec_tickEdge_internal {s : State} (released : s.Released) (source : s.timebase.source = .internal) (steady low : Nat)
    (pins : BitVec 16) (order : TickOrder) (safe : SafeOrder) :
    ∃ u, exec (.tickEdge steady pins order low safe) s = .next u ∧ u.timebase.spacing = s.timebase.spacing ∧ u.window = s.window
      ∧ u.timebase.tickSample = true ∧ (s.timebase.prescalerCount + (steady + low + 1) < s.timebase.prescaler →
        u.now = s.now ∧ u.timebase.prescalerCount = s.timebase.prescalerCount + (steady + low + 1)) := by
  obtain ⟨pass, sample⟩ := externalEdge_internal s steady low pins ⟨order, safe⟩ source
  exact ⟨_, exec_released (.tickEdge steady pins order low safe) released, pass.spacing, pass.window, sample, pass.below⟩

/-- The same where the count has just started again and no edge has been counted. -/
theorem exec_tickEdge_restarted {s : State} (released : s.Released) (source : s.timebase.source = .internal)
    (spacing : s.timebase.spacing = none) (count : s.timebase.prescalerCount = 0) (steady low : Nat) (pins : BitVec 16)
    (order : TickOrder) (safe : SafeOrder) :
    ∃ u, exec (.tickEdge steady pins order low safe) s = .next u ∧ u.timebase.spacing = none ∧ u.window = s.window
      ∧ u.timebase.tickSample = true ∧ (steady + low + 1 < s.timebase.prescaler →
        u.now = s.now ∧ u.timebase.prescalerCount = steady + low + 1) := by
  obtain ⟨u, row, kept, window, sample, below⟩ := exec_tickEdge_internal released source steady low pins order safe
  rw [count, Nat.zero_add] at below
  exact ⟨u, row, kept.trans spacing, window, sample, below⟩

/-- A TICK under the external source has no effect (R1). -/
theorem exec_tick_external {s : State} (source : s.timebase.source = .external) (pins : BitVec 16) (order : TickOrder) (clk : Nat)
    (safe : SafeOrder) : exec (.tick pins order clk safe) s = .next s := by
  refine congrArg _ (unlessHeld_of_unchanged ?_)
  rw [State.internalTick, source]

/-- Settles O15: the checks of R9 in their order; behind an accepted SET_TICK the count starts again, and which rows stand for ticks is the
source's to say. -/
theorem setTickSelectsSourceAndPrescaler : Obligations.SetTickSelectsSourceAndPrescaler := by
  intro s c rest reach h
  refine ⟨fun count => exec_gives_complete h (startSetTick_count count), fun source prescaler words => ?_⟩
  obtain ⟨x, row⟩ := exec_gives h
  rw [show startOf .setTick c (givenTo s rest x) = startSetTick c (givenTo s rest x) from rfl, startSetTick, words] at row
  have held (hold : s.timebase.desired = .hold) : ¬ (givenTo s rest x).timebase.desired = .run := by
    rw [show (givenTo s rest x).timebase.desired = _ from hold]
    nofun
  refine ⟨fun run => row.trans (congrArg _ (if_pos run)), fun hold bad => ?_, fun hold low high => ?_,
    fun hold src range => ?_⟩
  · simp only [if_neg (held hold), tickSourceOf_none bad] at row
    exact row
  · simp only [if_neg (held hold), prescalerOf_none low high] at row
    refine row.trans (congrArg _ ?_)
    cases tickSourceOf source <;> rfl
  · simp only [if_neg (held hold), tickSourceOf_le src, prescalerOf_some range] at row
    refine ⟨_, row, rfl, fun internal steady pins order low safe => ?_, fun external pins order clk safe => ?_,
      fun internal steady pins order low safe => exec_tickEdge_internal h.1 internal steady low pins order safe,
      fun external pins order clk safe => exec_tick_external external pins order clk safe⟩
    · refine exec_tickEdge_restarted ?_ ?_ ?_ ?_ steady low pins order safe
      exacts [h.1, if_pos internal, rfl, rfl]
    · exact exec_tick_external (if_neg (by omega)) pins order clk safe

end Sys2Proof.Proofs
end

section
/-! SUPPORT. The commands on slots: DEFINE, DEFINE_ARM, ARM, RETIME, CANCEL, RELEASE, QUERY, RESET_SCHEDULE (R21 to R41). -/

namespace Sys2Proof.Proofs

open Sys2Proof.Machine Sys2Proof.Laws

section
variable {s : State} {op : Opcode} {c : Command} {rest : List Command} {reach : CommandReach} {counts : List Nat}
  {k : State → SlotId → State}

/-! ## The first two checks, and a claim -/

theorem exec_argCount (h : s.Gives op c rest reach) (start : ∀ t, startOf op c t = c.onSlot counts t (k t))
    (count : c.args.length ∉ counts) :
    exec (op.row reach) s = .next { s with commandUnit := s.commandUnit.answered rest c .argCount [] } :=
  exec_gives_complete h fun t => (start t).trans (onSlot_count c counts t _ count)

theorem exec_badSlot (h : s.Gives op c rest reach) (start : ∀ t, startOf op c t = c.onSlot counts t (k t))
    (count : c.args.length ∈ counts) (operand : 127 < c.operand.toNat) :
    exec (op.row reach) s = .next { s with commandUnit := s.commandUnit.answered rest c .badSlot [] } :=
  exec_gives_complete h fun t => (start t).trans (onSlot_badSlot c counts t _ count operand)

theorem exec_onSlot (h : s.Gives op c rest reach) (start : ∀ t, startOf op c t = c.onSlot counts t (k t))
    (count : c.args.length ∈ counts) {i : SlotId} (operand : c.operand.toNat = i.val) :
    ∃ x, exec (op.row reach) s = .next (k (givenTo s rest x) i) := by
  obtain ⟨x, row⟩ := exec_gives h
  refine ⟨x, row.trans (congrArg _ ?_)⟩
  rw [start, onSlot_slot c counts _ _ i count operand]

/-- A claim, judged as it is given to its owner or as it is taken up again once its slot is no longer FIRING (R21, R22). -/
theorem exec_claim {w : Work} {i : SlotId} (start : ∀ t, startOf op c t = c.onSlot counts t (k t))
    (resume : ∀ t, resumeOf op ⟨c, w⟩ t = k t i) (hw : w ≠ .taken)
    (h : (s.Gives op c rest reach ∧ c.args.length ∈ counts ∧ c.operand.toNat = i.val)
      ∨ (s.IsExecuting op c w ∧ s.commandUnit.fifo = rest)) :
    ∃ x, exec (op.row reach) s = .next (k (givenTo s rest x) i) := by
  obtain ⟨gives, count, operand⟩ | ⟨executing, rfl⟩ := h
  · exact exec_onSlot gives start count operand
  · exact ⟨s.commandUnit.executing, (exec_waiting executing hw).trans (congrArg _ (resume s))⟩

theorem claim_firing {i : SlotId} (h : (s.slot i).state = .firing) (c : Command) (w : Work) (k : State → State) :
    s.claim c i w k = s.waitFor c w := if_pos h

theorem claim_taken {i : SlotId} (h : (s.slot i).state ≠ .firing) (c : Command) (w : Work) (k : State → State) :
    s.claim c i w k = k s := if_neg h

end

/-! ## DEFINE and DEFINE_ARM -/

section
variable {s : State} {c : Command} {i : SlotId} {k : State → State}

theorem defineSlot_badState (h : (s.slot i).state = .armed ∨ (s.slot i).state = .waiting) :
    s.defineSlot c i k = s.complete c .badState [] := by
  unfold State.defineSlot
  obtain e | e := h <;> rw [e]

/-- A slot that is FREE, HELD or DONE goes on to the checks of R24 and R25. -/
theorem defineSlot_judged (h : (s.slot i).state = .free ∨ (s.slot i).state = .held ∨ (s.slot i).state = .done) :
    s.defineSlot c i k = if s.hasRecord i then s.complete c .notePending []
      else match parseDefinition i c.args with
        | none => s.complete c .badArg []
        | some d => k (s.setSlot i (Slot.defined d)) := by
  unfold State.defineSlot
  obtain e | e | e := h <;> rw [e] <;> rfl

theorem hasRecord_iff (s : State) (i : SlotId) : s.hasRecord i = true ↔ ∃ r ∈ s.noteQueue.records, r.source = .slot i := by
  simp only [State.hasRecord, List.any_eq_true, beq_iff_eq]

theorem defineSlot_notePending (h : (s.slot i).state = .free ∨ (s.slot i).state = .held ∨ (s.slot i).state = .done)
    (record : ∃ r ∈ s.noteQueue.records, r.source = .slot i) : s.defineSlot c i k = s.complete c .notePending [] :=
  (defineSlot_judged h).trans (if_pos ((hasRecord_iff s i).2 record))

theorem defineSlot_badArg (h : (s.slot i).state = .free ∨ (s.slot i).state = .held ∨ (s.slot i).state = .done)
    (record : ∀ r ∈ s.noteQueue.records, r.source ≠ .slot i) (words : parseDefinition i c.args = none) :
    s.defineSlot c i k = s.complete c .badArg [] := by
  rw [defineSlot_judged h, if_neg fun hr => ?_, words]
  obtain ⟨r, hr, e⟩ := (hasRecord_iff s i).1 hr
  exact record r hr e

theorem defineSlot_accepted (h : (s.slot i).state = .free ∨ (s.slot i).state = .held ∨ (s.slot i).state = .done)
    (record : ∀ r ∈ s.noteQueue.records, r.source ≠ .slot i) {d : Definition} (words : parseDefinition i c.args = some d) :
    s.defineSlot c i k = k (s.setSlot i (Slot.defined d)) := by
  rw [defineSlot_judged h, if_neg fun hr => ?_, words]
  obtain ⟨r, hr, e⟩ := (hasRecord_iff s i).1 hr
  exact record r hr e

theorem not_firing_of_judged {st : SlotState} (h : st = .free ∨ st = .held ∨ st = .done) : st ≠ .firing := by
  obtain rfl | rfl | rfl := h <;> nofun

theorem not_firing_of_refused {st : SlotState} (h : st = .armed ∨ st = .waiting) : st ≠ .firing := by
  obtain rfl | rfl := h <;> nofun

end

/-- A command that defines a slot, and what it does once the definition is written. -/
theorem exec_definition {s : State} {op : Opcode} {c : Command} {rest : List Command} {reach : CommandReach} {i : SlotId}
    {k : State → State}
    (row : ∃ x, exec (op.row reach) s = .next ((givenTo s rest x).claim c i (.define i) fun t => t.defineSlot c i k)) :
    ((s.slot i).state = .firing →
      exec (op.row reach) s = .next { s with commandUnit := s.commandUnit.waiting rest c (.define i) })
    ∧ ((s.slot i).state = .armed ∨ (s.slot i).state = .waiting →
      exec (op.row reach) s = .next { s with commandUnit := s.commandUnit.answered rest c .badState [] })
    ∧ ((s.slot i).state = .free ∨ (s.slot i).state = .held ∨ (s.slot i).state = .done →
      ((∃ r ∈ s.noteQueue.records, r.source = .slot i) →
        exec (op.row reach) s = .next { s with commandUnit := s.commandUnit.answered rest c .notePending [] })
      ∧ ((∀ r ∈ s.noteQueue.records, r.source ≠ .slot i) → parseDefinition i c.args = none →
        exec (op.row reach) s = .next { s with commandUnit := s.commandUnit.answered rest c .badArg [] })
      ∧ ((∀ r ∈ s.noteQueue.records, r.source ≠ .slot i) → ∀ d, parseDefinition i c.args = some d →
        ∃ x, exec (op.row reach) s = .next (k ((givenTo s rest x).setSlot i (Slot.defined d))))) := by
  obtain ⟨x, row⟩ := row
  have taken (h : ((givenTo s rest x).slot i).state ≠ .firing) :
      exec (op.row reach) s = .next ((givenTo s rest x).defineSlot c i k) := row.trans (congrArg _ (claim_taken h c _ _))
  refine ⟨fun firing => row.trans (congrArg _ (claim_firing (s := givenTo s rest x) firing c _ _)), fun refused => ?_,
    fun judged => ⟨fun record => ?_, fun record words => ?_, fun record d words => ⟨x, ?_⟩⟩⟩
  · exact (taken (not_firing_of_refused refused)).trans (congrArg _ (defineSlot_badState (s := givenTo s rest x) refused))
  · exact (taken (not_firing_of_judged judged)).trans
      (congrArg _ (defineSlot_notePending (s := givenTo s rest x) judged record))
  · exact (taken (not_firing_of_judged judged)).trans
      (congrArg _ (defineSlot_badArg (s := givenTo s rest x) judged record words))
  · exact (taken (not_firing_of_judged judged)).trans
      (congrArg _ (defineSlot_accepted (s := givenTo s rest x) judged record words))

theorem length_mem_thirteen {c : Command} : c.args.length ∈ [Config.defineWords] ↔ c.args.length = 13 := List.mem_singleton

/-- Settles O24: DEFINE is a claim, judged in the order of R21, and an accepted one is answered OK. -/
theorem defineJudgesAndWritesTheSlot : Obligations.DefineJudgesAndWritesTheSlot := by
  have start (c : Command) (t : State) : startOf .define c t = c.onSlot [Config.defineWords] t fun i => t.takeDefine c i := rfl
  refine ⟨fun s c rest reach h => ⟨fun count => exec_argCount h (start c) (mt length_mem_thirteen.1 count),
    fun count => exec_badSlot h (start c) (length_mem_thirteen.2 count)⟩, fun s c rest reach i h => ?_⟩
  have row : ∃ x, exec (.define reach) s = .next ((givenTo s rest x).takeDefine c i) :=
    exec_claim (start c) (fun _ => rfl) (w := .define i) nofun
      (h.imp_left fun ⟨gives, count, operand⟩ => ⟨gives, length_mem_thirteen.2 count, operand⟩)
  obtain ⟨firing, refused, judged⟩ := exec_definition (op := .define) row
  refine ⟨firing, refused, fun idle => ?_⟩
  obtain ⟨pending, bad, accepted⟩ := judged idle
  refine ⟨pending, bad, fun record d words => ?_⟩
  obtain ⟨x, row⟩ := accepted record d words
  exact row

/-- Settles O25: DEFINE_ARM is judged like DEFINE, and an accepted one waits for the due queue to take its arm. -/
theorem defineArmDefinesThenAsksToArm : Obligations.DefineArmDefinesThenAsksToArm := by
  have start (c : Command) (t : State) : startOf .defineArm c t = c.onSlot [Config.defineWords] t fun i => t.takeDefineArm c i := rfl
  refine ⟨fun s c rest reach h => ⟨fun count => exec_argCount h (start c) (mt length_mem_thirteen.1 count),
    fun count => exec_badSlot h (start c) (length_mem_thirteen.2 count)⟩, fun s c rest reach i h => ?_⟩
  have row : ∃ x, exec (.defineArm reach) s = .next ((givenTo s rest x).takeDefineArm c i) :=
    exec_claim (start c) (fun _ => rfl) (w := .define i) nofun
      (h.imp_left fun ⟨gives, count, operand⟩ => ⟨gives, length_mem_thirteen.2 count, operand⟩)
  obtain ⟨firing, refused, judged⟩ := exec_definition (op := .defineArm) row
  refine ⟨firing, refused, fun idle => ?_⟩
  obtain ⟨pending, bad, accepted⟩ := judged idle
  refine ⟨pending, bad, fun record d words => ?_⟩
  obtain ⟨x, row⟩ := accepted record d words
  exact row

/-! ## ARM, RETIME, CANCEL, RESET_SCHEDULE -/

theorem length_mem_zero {c : Command} : c.args.length ∈ [0] ↔ c.args = [] := by
  rw [List.mem_singleton, List.length_eq_zero_iff]

theorem length_mem_two {c : Command} : c.args.length ∈ [2] ↔ c.args.length = 2 := List.mem_singleton

theorem length_mem_zero_two {c : Command} : c.args.length ∈ [0, 2] ↔ c.args.length = 0 ∨ c.args.length = 2 := by simp

theorem givenTime_pair {c : Command} {low high : Word} (h : c.args = [low, high]) : givenTime c.args = some (high ++ low) := by
  rw [h]
  rfl

theorem exec_arm {s : State} {c : Command} {rest : List Command} {reach : CommandReach} (h : s.Gives .arm c rest reach)
    (count : c.args.length = 0 ∨ c.args.length = 2) {i : SlotId} (operand : c.operand.toNat = i.val) :
    exec (.arm reach) s = .next { s with commandUnit := s.commandUnit.waiting rest c (.arm i (givenTime c.args)) } := by
  obtain ⟨x, row⟩ := exec_onSlot h (k := fun t i => t.waitFor c (.arm i (givenTime c.args))) (fun _ => rfl)
    (length_mem_zero_two.2 count) operand
  exact row

theorem arm_asks (s : State) (c : Command) (rest : List Command) (reach : CommandReach) (h : s.Gives .arm c rest reach) :
    (c.args.length ≠ 0 → c.args.length ≠ 2 →
      exec (.arm reach) s = .next { s with commandUnit := s.commandUnit.answered rest c .argCount [] })
    ∧ (c.args.length = 0 ∨ c.args.length = 2 → 127 < c.operand.toNat →
      exec (.arm reach) s = .next { s with commandUnit := s.commandUnit.answered rest c .badSlot [] })
    ∧ (c.args = [] → ∀ i : SlotId, c.operand.toNat = i.val →
      exec (.arm reach) s = .next { s with commandUnit := s.commandUnit.waiting rest c (.arm i none) })
    ∧ ∀ low high, c.args = [low, high] → ∀ i : SlotId, c.operand.toNat = i.val →
      exec (.arm reach) s = .next { s with commandUnit := s.commandUnit.waiting rest c (.arm i (some (high ++ low))) } := by
  have start (t : State) : startOf .arm c t = c.onSlot [0, 2] t fun i => t.waitFor c (.arm i (givenTime c.args)) := rfl
  refine ⟨fun zero two => exec_argCount h start fun count => ?_, fun count operand => exec_badSlot h start ?_ operand,
    fun words i operand => ?_, fun low high words i operand => ?_⟩
  · exact (length_mem_zero_two.1 count).elim zero two
  · exact length_mem_zero_two.2 count
  · rw [exec_arm h (.inl (List.length_eq_zero_iff.2 words)) operand, words]
    rfl
  · rw [exec_arm h (.inr (by rw [words]; rfl)) operand, givenTime_pair words]

theorem retime_asks (s : State) (c : Command) (rest : List Command) (reach : CommandReach) (h : s.Gives .retime c rest reach) :
    (c.args.length ≠ 2 → exec (.retime reach) s = .next { s with commandUnit := s.commandUnit.answered rest c .argCount [] })
    ∧ (c.args.length = 2 → 127 < c.operand.toNat →
      exec (.retime reach) s = .next { s with commandUnit := s.commandUnit.answered rest c .badSlot [] })
    ∧ ∀ low high, c.args = [low, high] → ∀ i : SlotId, c.operand.toNat = i.val →
      exec (.retime reach) s = .next { s with commandUnit := s.commandUnit.waiting rest c (.retime i (high ++ low)) } := by
  have start (t : State) :
      startOf .retime c t = c.onSlot [2] t fun i => t.waitFor c (.retime i ((givenTime c.args).getD 0)) := rfl
  refine ⟨fun count => exec_argCount h start (mt length_mem_two.1 count),
    fun count operand => exec_badSlot h start (length_mem_two.2 count) operand, fun low high words i operand => ?_⟩
  obtain ⟨x, row⟩ := exec_onSlot h (k := fun t i => t.waitFor c (.retime i ((givenTime c.args).getD 0))) start
    (length_mem_two.2 (by rw [words]; rfl)) operand
  rw [givenTime_pair words] at row
  exact row

theorem judgeCancel_badState {s : State} {i : SlotId} (c : Command)
    (h : (s.slot i).state = .free ∨ (s.slot i).state = .held ∨ (s.slot i).state = .done) :
    s.judgeCancel c i = s.complete c .badState [] := by
  unfold State.judgeCancel
  obtain e | e | e := h <;> rw [e]

theorem cancel_asks (s : State) (c : Command) (rest : List Command) (reach : CommandReach) (i : SlotId)
    (h : (s.Gives .cancel c rest reach ∧ c.args = [] ∧ c.operand.toNat = i.val)
      ∨ (s.IsExecuting .cancel c (.cancel i) ∧ s.commandUnit.fifo = rest)) :
    ((s.slot i).state = .armed →
      exec (.cancel reach) s = .next { s with commandUnit := s.commandUnit.waiting rest c (.remove i) })
    ∧ ((s.slot i).state = .waiting →
      exec (.cancel reach) s = .next { s with commandUnit := s.commandUnit.waiting rest c (.withdraw i) })
    ∧ ((s.slot i).state = .firing →
      exec (.cancel reach) s = .next { s with commandUnit := s.commandUnit.waiting rest c (.cancel i) })
    ∧ ((s.slot i).state = .free ∨ (s.slot i).state = .held ∨ (s.slot i).state = .done →
      exec (.cancel reach) s = .next { s with commandUnit := s.commandUnit.answered rest c .badState [] }) := by
  obtain ⟨x, row⟩ : ∃ x, exec (.cancel reach) s = .next ((givenTo s rest x).judgeCancel c i) :=
    exec_claim (op := .cancel) (k := fun t i => t.judgeCancel c i) (counts := [0]) (fun _ => rfl) (fun _ => rfl) (w := .cancel i)
      nofun (h.imp_left fun ⟨gives, words, operand⟩ => ⟨gives, length_mem_zero.2 words, operand⟩)
  have judged {st : SlotState} (e : (s.slot i).state = st) : ((givenTo s rest x).slot i).state = st := e
  refine ⟨fun e => row.trans ?_, fun e => row.trans ?_, fun e => row.trans ?_, fun e => row.trans ?_⟩
  iterate 3
    rw [State.judgeCancel, judged e]
    rfl
  · rw [judgeCancel_badState c (s := givenTo s rest x) e]
    rfl

theorem cancel_keepsAsking (s : State) (c : Command) (reach : CommandReach) (i : SlotId)
    (h : s.IsExecuting .cancel c (.remove i) ∨ s.IsExecuting .cancel c (.withdraw i)) : exec (.cancel reach) s = .next s := by
  obtain h | h := h <;> exact exec_waiting h nofun

/-- Settles O26: after its checks each of the four commands waits for the owner of what it works on. -/
theorem slotCommandsAskTheOwnerOfTheSlot : Obligations.SlotCommandsAskTheOwnerOfTheSlot := by
  have startCancel (c : Command) (t : State) : startOf .cancel c t = c.onSlot [0] t fun i => t.judgeCancel c i := rfl
  refine ⟨arm_asks, retime_asks, fun s c rest reach h => ⟨fun words => exec_argCount h (startCancel c) (mt length_mem_zero.1 words),
    fun words => exec_badSlot h (startCancel c) (length_mem_zero.2 words)⟩, cancel_asks, cancel_keepsAsking,
    fun s c rest reach h => ⟨fun words => exec_gives_complete h fun t => ?_, fun words => ?_⟩⟩
  · obtain ⟨w, ws, e⟩ := List.exists_cons_of_ne_nil words
    show startResetSchedule c t = _
    rw [startResetSchedule, e]
  · obtain ⟨x, row⟩ := exec_gives h
    rw [show startOf .resetSchedule c (givenTo s rest x) = startResetSchedule c (givenTo s rest x) from rfl, startResetSchedule,
      words] at row
    exact row

/-! ## RELEASE and QUERY -/

/-- Settles O27: RELEASE is a claim, refused outside HELD and DONE. -/
theorem releaseReturnsTheSlotToFree : Obligations.ReleaseReturnsTheSlotToFree := by
  have start (c : Command) (t : State) : startOf .release c t = c.onSlot [0] t fun i => t.takeRelease c i := rfl
  refine ⟨fun s c rest reach h => ⟨fun words => exec_argCount h (start c) (mt length_mem_zero.1 words),
    fun words => exec_badSlot h (start c) (length_mem_zero.2 words)⟩, fun s c rest reach i h => ?_⟩
  obtain ⟨x, row⟩ : ∃ x, exec (.release reach) s = .next ((givenTo s rest x).takeRelease c i) :=
    exec_claim (start c) (fun _ => rfl) (w := .release i) nofun
      (h.imp_left fun ⟨gives, words, operand⟩ => ⟨gives, length_mem_zero.2 words, operand⟩)
  have judged {st : SlotState} (e : (s.slot i).state = st) : ((givenTo s rest x).slot i).state = st := e
  refine ⟨fun e => row.trans (congrArg _ (claim_firing (s := givenTo s rest x) e c _ _)), fun h => ?_, fun h => ?_⟩
  · obtain e | e | e := h <;>
      exact row.trans (congrArg _ ((claim_taken (by rw [judged e]; nofun) c _ _).trans (by simp only [judged e]; rfl)))
  · obtain e | e := h <;>
      exact row.trans (congrArg _ ((claim_taken (by rw [judged e]; nofun) c _ _).trans (by simp only [judged e]; rfl)))

/-- The fields of QUERY's first word, by the numbers and marks it is made of (11.4). -/
theorem queryHead_fields : ∀ (state : Fin 6) (kind : Fin 8) (due remaining : Bool),
    let head : Word := BitVec.ofNat 16 (state.val + 16 * kind.val + (if due then 256 else 0) + (if remaining then 512 else 0))
    (head.extractLsb' 0 3).toNat = state.val ∧ (head.extractLsb' 4 4).toNat = kind.val ∧ head.getLsbD 8 = due
      ∧ head.getLsbD 9 = remaining ∧ head.getLsbD 3 = false ∧ head.extractLsb' 10 6 = 0 := by
  decide

theorem state_code_lt (st : SlotState) : st.code < 6 := by
  cases st <;> decide

theorem action_code_lt (a : Action) : a.code < 8 := by
  cases a <;> simp [Action.code]

/-- The kind QUERY reports, 0 for a slot without a definition (11.4). -/
def kindNumber (defn : Option Definition) : Nat :=
  match defn with
  | some d => d.action.code
  | none => 0

theorem kindNumber_lt (defn : Option Definition) : kindNumber defn < 8 := by
  cases defn with
  | none => exact Nat.zero_lt_succ 7
  | some d => exact action_code_lt d.action

theorem queryHead_eq (sl : Slot) : sl.queryHead = BitVec.ofNat 16 (sl.state.code + 16 * kindNumber sl.defn
    + (if sl.due.isSome then 256 else 0) + (if sl.remaining.isSome then 512 else 0)) := by
  unfold Slot.queryHead kindNumber
  cases sl.defn <;> rfl

/-- Settles O28: QUERY is a claim, answered with the eight words of the slot; the fields of the first do not overlap. -/
theorem queryReportsTheRuntimePart : Obligations.QueryReportsTheRuntimePart := by
  have start (c : Command) (t : State) : startOf .query c t = c.onSlot [0] t fun i => t.takeQuery c i := rfl
  refine ⟨fun s c rest reach h => ⟨fun words => exec_argCount h (start c) (mt length_mem_zero.1 words),
    fun words => exec_badSlot h (start c) (length_mem_zero.2 words)⟩, fun s c rest reach i h => ?_⟩
  obtain ⟨x, row⟩ : ∃ x, exec (.query reach) s = .next ((givenTo s rest x).takeQuery c i) :=
    exec_claim (start c) (fun _ => rfl) (w := .query i) nofun
      (h.imp_left fun ⟨gives, words, operand⟩ => ⟨gives, length_mem_zero.2 words, operand⟩)
  refine ⟨fun e => row.trans (congrArg _ (claim_firing (s := givenTo s rest x) e c _ _)), fun e => ⟨(s.slot i).queryHead, ?_, ?_⟩⟩
  · exact row.trans (congrArg _ (claim_taken (s := givenTo s rest x) e c _ _))
  · obtain ⟨state, kind, due, remaining, gap, high⟩ := queryHead_fields ⟨(s.slot i).state.code, state_code_lt _⟩
      ⟨kindNumber (s.slot i).defn, kindNumber_lt _⟩ (s.slot i).due.isSome (s.slot i).remaining.isSome
    rw [queryHead_eq]
    refine ⟨state.trans ?_, kind.trans ?_, due, remaining, gap, high⟩
    · cases (s.slot i).state <;> rfl
    · cases (s.slot i).defn with
      | none => rfl
      | some d => cases h : d.action <;> simp only [kindNumber, h, Action.code]

end Sys2Proof.Proofs
end

section
/-! SUPPORT. The words of a definition (11.3, R24, R187): when validation refuses them, and what an accepted definition holds. -/

namespace Sys2Proof.Proofs

open Sys2Proof.Machine Sys2Proof.Laws

/-! ## Numbers out of words -/

theorem lineOf_eq_none {n : Nat} : lineOf n = none ↔ 15 < n := by
  unfold lineOf
  split <;> simp <;> omega

theorem slotOf_eq_none {n : Nat} : slotOf n = none ↔ 127 < n := by
  unfold slotOf
  split <;> simp <;> omega

theorem flagOf_eq_none {n : Nat} : flagOf n = none ↔ 63 < n := by
  unfold flagOf
  split <;> simp <;> omega

theorem lineOf_eq_some {n : Nat} {i : LineId} (h : lineOf n = some i) : i.val = n := by
  unfold lineOf at h
  split at h <;> cases h
  rfl

theorem slotOf_eq_some {n : Nat} {i : SlotId} (h : slotOf n = some i) : i.val = n := by
  unfold slotOf at h
  split at h <;> cases h
  rfl

theorem flagOf_eq_some {n : Nat} {i : FlagId} (h : flagOf n = some i) : i.val = n := by
  unfold flagOf at h
  split at h <;> cases h
  rfl

theorem levelOf_eq_none {n : Nat} : levelOf n = none ↔ 1 < n := by
  match n with
  | 0 | 1 => simp [levelOf]
  | n + 2 => simp [levelOf]

theorem levelOf_eq_some {n : Nat} {v : Bool} (h : levelOf n = some v) : v = true ↔ n = 1 := by
  unfold levelOf at h
  split at h <;> cases h <;> simp

theorem flagOpOf_eq_none (x : BitVec 2) : flagOpOf x.toNat = none ↔ x.toNat = 3 := by
  revert x
  decide

theorem flagOpOf_eq_some {n : Nat} {op : FlagOp} (h : flagOpOf n = some op) :
    (op = .set ↔ n = 0) ∧ (op = .clear ↔ n = 1) ∧ (op = .toggle ↔ n = 2) := by
  unfold flagOpOf at h
  split at h <;> cases h <;> simp

theorem conditionOf_eq_none {n : Nat} : conditionOf n = none ↔ 3 < n := by
  match n with
  | 0 | 1 | 2 | 3 => simp [conditionOf]
  | n + 4 => simp [conditionOf]

theorem conditionOf_eq_some {n : Nat} {c : Condition} (h : conditionOf n = some c) :
    (c = .level0 ↔ n = 0) ∧ (c = .level1 ↔ n = 1) ∧ (c = .rise ↔ n = 2) ∧ (c = .fall ↔ n = 3) := by
  unfold conditionOf at h
  split at h <;> cases h <;> simp

theorem notifyOf_iff (x : BitVec 2) : (notifyOf x.toNat = .none ↔ x.toNat = 0) ∧ (notifyOf x.toNat = .exceptions ↔ x.toNat = 1)
    ∧ (notifyOf x.toNat = .done ↔ x.toNat = 2) ∧ (notifyOf x.toNat = .each ↔ x.toNat = 3) := by
  revert x
  decide

/-- A field of one bit is 0 exactly when the bit is. -/
theorem bits_single (w : Word) (k : Nat) : bits w k k = 0 ↔ w.getLsbD k = false := by
  have width : k + 1 - k = 1 := by omega
  rw [bits, BitVec.extractLsb'_toNat, width, BitVec.getLsbD, Nat.testBit_eq_decide_div_mod_eq, Nat.shiftRight_eq_div_pow,
    decide_eq_false_iff_not]
  omega

/-! ## The slots a wait names -/

/-- A byte of a wait spec that R24 refuses: no slot, or the slot being defined. -/
def BadSlotByte (self : SlotId) (b : Nat) : Prop := (127 < b ∧ b ≠ 255) ∨ b = self.val

theorem otherSlot_eq_none {self : SlotId} {b : Nat} : otherSlot self b = none ↔ 127 < b ∨ b = self.val := by
  unfold otherSlot
  cases h : slotOf b with
  | none => simp [slotOf_eq_none.1 h]
  | some i =>
    have val := slotOf_eq_some h
    have := i.isLt
    rw [Option.bind_some]
    split
    · next e => exact ⟨fun _ => .inr (by rw [← val, e]), fun _ => rfl⟩
    · next e =>
      refine ⟨nofun, fun h => ?_⟩
      obtain h | h := h
      · omega
      · exact absurd (Fin.ext (val.trans h)) e

theorem otherSlot_eq_some {self : SlotId} {b : Nat} {i : SlotId} (h : otherSlot self b = some i) : i.val = b := by
  unfold otherSlot at h
  obtain ⟨j, hj, e⟩ := Option.bind_eq_some_iff.1 h
  split at e <;> cases e
  exact slotOf_eq_some hj

theorem slotByte_eq_none {self : SlotId} {b : Nat} : orAbsent b (otherSlot self b) = none ↔ BadSlotByte self b := by
  unfold orAbsent BadSlotByte
  have := self.isLt
  split
  · next e => exact ⟨nofun, fun h => by omega⟩
  · next e =>
    rw [Option.map_eq_none_iff, otherSlot_eq_none]
    omega

theorem slotByte_eq_some {self : SlotId} {b : Nat} {o : Option SlotId} (h : orAbsent b (otherSlot self b) = some o) :
    (o = none ↔ b = 255) ∧ ∀ i, o = some i → i.val = b := by
  unfold orAbsent at h
  split at h
  · next e =>
    cases h
    exact ⟨⟨fun _ => e, fun _ => rfl⟩, nofun⟩
  · next e =>
    obtain ⟨i, hi, rfl⟩ := Option.map_eq_some_iff.1 h
    refine ⟨⟨nofun, fun h => absurd h e⟩, fun j hj => ?_⟩
    cases hj
    exact otherSlot_eq_some hi

/-! ## The wait spec, the action -/

section
variable {self : SlotId} {ws : List Word}

theorem parseWait_eq_none : parseWait self ws = none ↔ 63 < bits (argWord ws 10) 7 0 ∨ 3 < bits (argWord ws 1) 14 12
    ∨ BadSlotByte self (bits (argWord ws 13) 7 0) ∨ BadSlotByte self (bits (argWord ws 13) 15 8) := by
  rw [← flagOf_eq_none, ← conditionOf_eq_none, ← slotByte_eq_none, ← slotByte_eq_none]
  unfold parseWait
  cases flagOf (bits (argWord ws 10) 7 0) with
  | none => simp
  | some f =>
    cases conditionOf (bits (argWord ws 1) 14 12) with
    | none => simp
    | some c =>
      cases orAbsent (bits (argWord ws 13) 7 0) (otherSlot self (bits (argWord ws 13) 7 0)) with
      | none => simp
      | some follow =>
        cases orAbsent (bits (argWord ws 13) 15 8) (otherSlot self (bits (argWord ws 13) 15 8)) <;> simp

/-- What an accepted wait spec holds. -/
theorem parseWait_eq_some {spec : WaitSpec} (h : parseWait self ws = some spec) :
    ∃ flag condition follow timeout, flagOf (bits (argWord ws 10) 7 0) = some flag
      ∧ conditionOf (bits (argWord ws 1) 14 12) = some condition
      ∧ orAbsent (bits (argWord ws 13) 7 0) (otherSlot self (bits (argWord ws 13) 7 0)) = some follow
      ∧ orAbsent (bits (argWord ws 13) 15 8) (otherSlot self (bits (argWord ws 13) 15 8)) = some timeout
      ∧ spec = ⟨flag, condition,
        if (argWord ws 10).extractLsb' 8 8 ++ argWord ws 11 = (0 : BitVec 24) then none
          else some ((argWord ws 10).extractLsb' 8 8 ++ argWord ws 11),
        follow.map fun i => ⟨i, argWord ws 12⟩, timeout⟩ := by
  unfold parseWait at h
  obtain ⟨flag, hflag, h⟩ := Option.bind_eq_some_iff.1 h
  obtain ⟨condition, hcondition, h⟩ := Option.bind_eq_some_iff.1 h
  obtain ⟨follow, hfollow, h⟩ := Option.bind_eq_some_iff.1 h
  obtain ⟨timeout, htimeout, h⟩ := Option.bind_eq_some_iff.1 h
  exact ⟨flag, condition, follow, timeout, hflag, hcondition, hfollow, htimeout, (Option.some.inj h).symm⟩

/-- The kind, or the target or operand of a kind other than WAIT, is one that R24 refuses. -/
def BadTarget (ws : List Word) : Prop :=
  7 < bits (argWord ws 1) 3 0
    ∨ (bits (argWord ws 1) 3 0 ≤ 2 ∧ 15 < bits (argWord ws 10) 7 0)
    ∨ (bits (argWord ws 1) 3 0 = 0 ∧ 1 < (argWord ws 11).toNat)
    ∨ (bits (argWord ws 1) 3 0 = 2 ∧ (argWord ws 11).toNat = 0)
    ∨ (bits (argWord ws 1) 3 0 = 3 ∧ (bits (argWord ws 10) 7 0 < 16 ∨ 63 < bits (argWord ws 10) 7 0
      ∨ bits (argWord ws 11) 1 0 = 3))
    ∨ ((bits (argWord ws 1) 3 0 = 4 ∨ bits (argWord ws 1) 3 0 = 5) ∧ 127 < bits (argWord ws 10) 7 0)

theorem parseAction_eq_none :
    parseAction self ws = none ↔ BadTarget ws ∨ (bits (argWord ws 1) 3 0 = 6 ∧ parseWait self ws = none) := by
  unfold BadTarget
  have operand : argWord ws 11 = 0 ↔ (argWord ws 11).toNat = 0 := BitVec.toNat_eq
  have op : flagOpOf (bits (argWord ws 11) 1 0) = none ↔ bits (argWord ws 11) 1 0 = 3 := flagOpOf_eq_none _
  simp only [parseAction]
  split
  · next e =>
    rw [e, ← lineOf_eq_none, ← levelOf_eq_none]
    cases lineOf (bits (argWord ws 10) 7 0) <;> cases levelOf (argWord ws 11).toNat <;> simp
  · next e =>
    rw [e, ← lineOf_eq_none]
    cases lineOf (bits (argWord ws 10) 7 0) <;> simp
  · next e =>
    rw [e, ← lineOf_eq_none, ← operand]
    split
    · next zero => simp [zero]
    · next zero =>
      cases lineOf (bits (argWord ws 10) 7 0) with
      | none => simp
      | some n => simpa using zero
  · next e =>
    rw [e, ← flagOf_eq_none, ← op]
    split
    · next small => simp [small]
    · next small =>
      cases flagOf (bits (argWord ws 10) 7 0) <;> cases flagOpOf (bits (argWord ws 11) 1 0) <;> simp [small]
  · next e =>
    rw [e, ← slotOf_eq_none]
    cases slotOf (bits (argWord ws 10) 7 0) <;> simp
  · next e =>
    rw [e, ← slotOf_eq_none]
    cases slotOf (bits (argWord ws 10) 7 0) <;> simp
  · next e =>
    rw [e]
    cases parseWait self ws <;> simp
  · next e => simp [e]
  · next h0 h1 h2 h3 h4 h5 h6 h7 =>
    have above : 7 < bits (argWord ws 1) 3 0 := by
      by_contra below
      interval_cases e : bits (argWord ws 1) 3 0
      exacts [h0 rfl, h1 rfl, h2 rfl, h3 rfl, h4 rfl, h5 rfl, h6 rfl, h7 rfl]
    simp [above]

/-- What an accepted action holds, kind by kind (11.3). -/
theorem parseAction_eq_some {a : Action} (h : parseAction self ws = some a) :
    (∃ n v, bits (argWord ws 1) 3 0 = 0 ∧ lineOf (bits (argWord ws 10) 7 0) = some n
      ∧ levelOf (argWord ws 11).toNat = some v ∧ a = .drive n v)
    ∨ (∃ n, bits (argWord ws 1) 3 0 = 1 ∧ lineOf (bits (argWord ws 10) 7 0) = some n ∧ a = .toggle n)
    ∨ (∃ n, bits (argWord ws 1) 3 0 = 2 ∧ lineOf (bits (argWord ws 10) 7 0) = some n ∧ a = .pulse n (argWord ws 11))
    ∨ (∃ f op, bits (argWord ws 1) 3 0 = 3 ∧ flagOf (bits (argWord ws 10) 7 0) = some f
      ∧ flagOpOf (bits (argWord ws 11) 1 0) = some op ∧ a = .flag f op)
    ∨ (∃ i, bits (argWord ws 1) 3 0 = 4 ∧ slotOf (bits (argWord ws 10) 7 0) = some i ∧ a = .arm i (argWord ws 11))
    ∨ (∃ i, bits (argWord ws 1) 3 0 = 5 ∧ slotOf (bits (argWord ws 10) 7 0) = some i ∧ a = .cancel i)
    ∨ (∃ spec, bits (argWord ws 1) 3 0 = 6 ∧ parseWait self ws = some spec ∧ a = .wait spec)
    ∨ (bits (argWord ws 1) 3 0 = 7 ∧ a = .mark) := by
  simp only [parseAction] at h
  split at h
  · next e =>
    obtain ⟨n, hn, h⟩ := Option.bind_eq_some_iff.1 h
    obtain ⟨v, hv, h⟩ := Option.bind_eq_some_iff.1 h
    exact .inl ⟨n, v, e, hn, hv, (Option.some.inj h).symm⟩
  · next e =>
    obtain ⟨n, hn, h⟩ := Option.bind_eq_some_iff.1 h
    exact .inr (.inl ⟨n, e, hn, (Option.some.inj h).symm⟩)
  · next e =>
    split at h
    · cases h
    · obtain ⟨n, hn, h⟩ := Option.bind_eq_some_iff.1 h
      exact .inr (.inr (.inl ⟨n, e, hn, (Option.some.inj h).symm⟩))
  · next e =>
    split at h
    · cases h
    · obtain ⟨f, hf, h⟩ := Option.bind_eq_some_iff.1 h
      obtain ⟨op, hop, h⟩ := Option.bind_eq_some_iff.1 h
      exact .inr (.inr (.inr (.inl ⟨f, op, e, hf, hop, (Option.some.inj h).symm⟩)))
  · next e =>
    obtain ⟨i, hi, h⟩ := Option.bind_eq_some_iff.1 h
    exact .inr (.inr (.inr (.inr (.inl ⟨i, e, hi, (Option.some.inj h).symm⟩))))
  · next e =>
    obtain ⟨i, hi, h⟩ := Option.bind_eq_some_iff.1 h
    exact .inr (.inr (.inr (.inr (.inr (.inl ⟨i, e, hi, (Option.some.inj h).symm⟩)))))
  · next e =>
    obtain ⟨spec, hspec, h⟩ := Option.bind_eq_some_iff.1 h
    exact .inr (.inr (.inr (.inr (.inr (.inr (.inl ⟨spec, e, hspec, (Option.some.inj h).symm⟩))))))
  · next e => exact .inr (.inr (.inr (.inr (.inr (.inr (.inr ⟨e, (Option.some.inj h).symm⟩))))))
  · cases h

/-- The action waits exactly when its kind is that of WAIT. -/
theorem isWait_iff {a : Action} (h : parseAction self ws = some a) :
    a.isWait = true ↔ bits (argWord ws 1) 3 0 = 6 := by
  obtain ⟨n, v, e, -, -, rfl⟩ | ⟨n, e, -, rfl⟩ | ⟨n, e, -, rfl⟩ | ⟨f, op, e, -, -, rfl⟩ | ⟨i, e, -, rfl⟩ | ⟨i, e, -, rfl⟩ |
    ⟨spec, e, -, rfl⟩ | ⟨e, rfl⟩ := parseAction_eq_some h <;> simp [e, Action.isWait]

/-! ## The due spec, the guard, the recurrence -/

theorem parseDue_eq_none : parseDue ws = none ↔ (argWord ws 1).getLsbD 4 = true ∧ 2 ^ 30 < (argWord ws 4 ++ argWord ws 3).toNat := by
  have bit := bits_single (argWord ws 1) 4
  simp only [parseDue]
  split
  · next h =>
    refine ⟨nofun, fun relative => ?_⟩
    rw [bit.1 h] at relative
    cases relative.1
  · next h =>
    have relative : (argWord ws 1).getLsbD 4 = true := by simpa [bit] using h
    split
    · next far => exact ⟨fun _ => ⟨relative, far⟩, fun _ => rfl⟩
    · next near => exact ⟨nofun, fun h => absurd h.2 near⟩

theorem parseDue_eq_some {due : DueSpec} (h : parseDue ws = some due) :
    due = if (argWord ws 1).getLsbD 4 then .relative (argWord ws 4 ++ argWord ws 3) else .absolute (argWord ws 4 ++ argWord ws 3) := by
  have bit := bits_single (argWord ws 1) 4
  simp only [parseDue] at h
  split at h
  · next absolute =>
    cases h
    rw [bit.1 absolute]
    rfl
  · next relative =>
    split at h
    · cases h
    · cases h
      rw [if_pos (by simpa [bit] using relative)]
      rfl

theorem parseGuard_eq_none : parseGuard ws = none ↔
    bits (argWord ws 2) 7 0 ≠ 255 ∧ (63 < bits (argWord ws 2) 7 0 ∨ 1 < bits (argWord ws 1) 11 10) := by
  rw [← flagOf_eq_none, ← levelOf_eq_none]
  unfold parseGuard orAbsent
  split
  · next e => simp [e]
  · next e => cases flagOf (bits (argWord ws 2) 7 0) <;> cases levelOf (bits (argWord ws 1) 11 10) <;> simp [e]

theorem parseGuard_eq_some {guard : Option Guard} (h : parseGuard ws = some guard) :
    (guard = none ↔ bits (argWord ws 2) 7 0 = 255)
    ∧ ∀ g, guard = some g → g.flag.val = bits (argWord ws 2) 7 0 ∧ (g.level = true ↔ bits (argWord ws 1) 11 10 = 1) := by
  unfold parseGuard orAbsent at h
  split at h
  · next e =>
    cases h
    exact ⟨⟨fun _ => e, fun _ => rfl⟩, nofun⟩
  · next e =>
    obtain ⟨g, hg, rfl⟩ := Option.map_eq_some_iff.1 h
    obtain ⟨flag, hflag, hg⟩ := Option.bind_eq_some_iff.1 hg
    obtain ⟨level, hlevel, hg⟩ := Option.bind_eq_some_iff.1 hg
    refine ⟨⟨nofun, fun h => absurd h e⟩, fun g' e' => ?_⟩
    cases e'
    cases hg
    exact ⟨flagOf_eq_some hflag, levelOf_eq_some hlevel⟩

theorem recurrenceAllowed_eq_false (isWait : Bool) (a b : BitVec 24) (repeatCount : Word) :
    recurrenceAllowed isWait a b repeatCount = false ↔
      (a = 0 ∧ (b ≠ 0 ∨ 1 < repeatCount.toNat)) ∨ (a ≠ 0 ∧ isWait = true) := by
  unfold recurrenceAllowed
  split
  · next h =>
    rw [Bool.and_eq_false_iff, beq_eq_false_iff_ne, decide_eq_false_iff_not, Nat.not_le]
    exact ⟨fun e => .inl ⟨h, e⟩, fun e => e.elim And.right fun e => absurd h e.1⟩
  · next h =>
    rw [Bool.not_eq_false']
    exact ⟨fun e => .inr ⟨h, e⟩, fun e => e.elim (fun e => absurd e.1 h) And.right⟩

/-- A field of 24 bits is 0 when both its parts are. -/
theorem append_eq_zero (high : BitVec 8) (low : Word) : (high ++ low : BitVec 24) = 0 ↔ low = 0 ∧ high = 0 := by
  constructor
  · intro h
    have zero {w : Nat} (i : Nat) : (0 : BitVec w).getLsbD i = false := BitVec.getLsbD_zero
    have bit (i : Nat) : (if i < 16 then low.getLsbD i else high.getLsbD (i - 16)) = false := by
      rw [← BitVec.getLsbD_append, h, zero]
    refine ⟨BitVec.eq_of_getLsbD_eq fun i hi => ?_, BitVec.eq_of_getLsbD_eq fun i hi => ?_⟩
    · rw [zero, ← bit i, if_pos hi]
    · rw [zero, ← bit (i + 16), if_neg (by omega), Nat.add_sub_cancel]
  · rintro ⟨rfl, rfl⟩
    rfl

/-! ## The whole definition -/

/-- Intervals A and B of the words (11.3). -/
def wordsIntervalA (ws : List Word) : BitVec 24 := (argWord ws 7).extractLsb' 0 8 ++ argWord ws 5
def wordsIntervalB (ws : List Word) : BitVec 24 := (argWord ws 7).extractLsb' 8 8 ++ argWord ws 6

theorem parseDefinition_eq_none : parseDefinition self ws = none ↔
    parseAction self ws = none ∨ parseDue ws = none ∨ parseGuard ws = none
    ∨ ∃ a, parseAction self ws = some a
      ∧ recurrenceAllowed a.isWait (wordsIntervalA ws) (wordsIntervalB ws) (argWord ws 8) = false := by
  unfold parseDefinition
  cases parseAction self ws with
  | none => simp
  | some a =>
    cases parseDue ws with
    | none => simp
    | some due =>
      cases parseGuard ws with
      | none => simp
      | some guard =>
        show (if recurrenceAllowed a.isWait (wordsIntervalA ws) (wordsIntervalB ws) (argWord ws 8) then some _ else none) = none ↔ _
        split
        · next h => simp [h]
        · next h => simp [h]

/-- An accepted definition, field by field. -/
theorem parseDefinition_eq_some {d : Definition} (h : parseDefinition self ws = some d) :
    ∃ action due guard, parseAction self ws = some action ∧ parseDue ws = some due ∧ parseGuard ws = some guard ∧ d = {
      action := action
      due := due
      guard := guard
      intervalA := wordsIntervalA ws
      intervalB := wordsIntervalB ws
      repeatCount := argWord ws 8
      lateLimit := argWord ws 9
      latePolicy := if bits (argWord ws 1) 5 5 = 0 then .fireLate else .skip
      missPolicy := if bits (argWord ws 1) 6 6 = 0 then .catchUp else .drop
      pastPolicy := if bits (argWord ws 1) 7 7 = 0 then .reject else .fire
      notify := notifyOf (bits (argWord ws 1) 9 8)
      tag := (argWord ws 2).extractLsb' 8 8 } := by
  unfold parseDefinition at h
  obtain ⟨action, ha, h⟩ := Option.bind_eq_some_iff.1 h
  obtain ⟨due, hd, h⟩ := Option.bind_eq_some_iff.1 h
  obtain ⟨guard, hg, h⟩ := Option.bind_eq_some_iff.1 h
  refine ⟨action, due, guard, ha, hd, hg, ?_⟩
  simp only at h
  split at h
  · exact (Option.some.inj h).symm
  · cases h

end

/-- The refusals of the action, the due, the guard and the recurrence, one by one. -/
theorem refusals_flat (target wait badWait due guard noA someB repeats : Prop) :
    ((target ∨ wait ∧ badWait) ∨ due ∨ guard
      ∨ ¬ (target ∨ wait ∧ badWait) ∧ (noA ∧ (someB ∨ repeats) ∨ ¬ noA ∧ wait))
    ↔ target ∨ wait ∧ (badWait ∨ ¬ noA) ∨ due ∨ guard ∨ noA ∧ someB ∨ noA ∧ repeats := by
  tauto

/-- Settles O22: each part of the words is refused by itself, and the recurrence fields by the kind as well. -/
theorem definitionRefusedExactlyInTheListedCases : Obligations.DefinitionRefusedExactlyInTheListedCases := by
  intro self ws
  have noA := append_eq_zero ((argWord ws 7).extractLsb' 0 8) (argWord ws 5)
  have noB := append_eq_zero ((argWord ws 7).extractLsb' 8 8) (argWord ws 6)
  have recurrence : (∃ a, parseAction self ws = some a
      ∧ recurrenceAllowed a.isWait (wordsIntervalA ws) (wordsIntervalB ws) (argWord ws 8) = false)
      ↔ parseAction self ws ≠ none ∧ ((wordsIntervalA ws = 0 ∧ (wordsIntervalB ws ≠ 0 ∨ 1 < (argWord ws 8).toNat))
        ∨ (wordsIntervalA ws ≠ 0 ∧ bits (argWord ws 1) 3 0 = 6)) := by
    cases h : parseAction self ws with
    | none => simp
    | some a => simp [recurrenceAllowed_eq_false, isWait_iff h]
  refine (parseDefinition_eq_none (self := self) (ws := ws)).trans ?_
  rw [recurrence, ne_eq, parseAction_eq_none, parseWait_eq_none, parseDue_eq_none, parseGuard_eq_none, refusals_flat]
  rw [show (wordsIntervalA ws = 0) = _ from propext noA, show (wordsIntervalB ws ≠ 0) = _ from congrArg Not (propext noB)]
  simp only [BadTarget, BadSlotByte, or_assoc]
  exact Iff.rfl

/-! ## What an accepted definition holds -/

/-- A policy of one bit (11.3). -/
theorem policy_iff {α : Type} {clear set : α} (h : clear ≠ set) (w : Word) (k : Nat) :
    (if bits w k k = 0 then clear else set) = set ↔ w.getLsbD k = true := by
  have bit := bits_single w k
  split
  · next e => simp [h, bit.1 e]
  · next e => simpa [bit] using e

/-- The slots a wait spec names, and its offsets (11.3, R125). -/
theorem wait_holds {self : SlotId} {ws : List Word} {spec : WaitSpec} (h : parseWait self ws = some spec) :
    spec.flag.val = bits (argWord ws 10) 7 0
    ∧ ((spec.condition = .level0 ↔ bits (argWord ws 1) 14 12 = 0) ∧ (spec.condition = .level1 ↔ bits (argWord ws 1) 14 12 = 1)
      ∧ (spec.condition = .rise ↔ bits (argWord ws 1) 14 12 = 2) ∧ (spec.condition = .fall ↔ bits (argWord ws 1) 14 12 = 3))
    ∧ spec.deadlineOffset = (if (argWord ws 10).extractLsb' 8 8 ++ argWord ws 11 = (0 : BitVec 24) then none
      else some ((argWord ws 10).extractLsb' 8 8 ++ argWord ws 11))
    ∧ ((spec.follow.map Follow.slot = none ↔ bits (argWord ws 13) 7 0 = 255)
      ∧ ∀ i, spec.follow.map Follow.slot = some i → i.val = bits (argWord ws 13) 7 0)
    ∧ (∀ f, spec.follow = some f → f.offset = argWord ws 12)
    ∧ ((spec.timeout = none ↔ bits (argWord ws 13) 15 8 = 255) ∧ ∀ i, spec.timeout = some i → i.val = bits (argWord ws 13) 15 8) := by
  obtain ⟨flag, condition, follow, timeout, hflag, hcondition, hfollow, htimeout, rfl⟩ := parseWait_eq_some h
  have slot : (follow.map fun i => (⟨i, argWord ws 12⟩ : Follow)).map Follow.slot = follow := by
    cases follow <;> rfl
  refine ⟨flagOf_eq_some hflag, conditionOf_eq_some hcondition, rfl, ?_, fun f hf => ?_, slotByte_eq_some htimeout⟩
  · rw [slot]
    exact slotByte_eq_some hfollow
  · obtain ⟨i, -, rfl⟩ := Option.map_eq_some_iff.1 hf
    rfl

theorem toNat_eq_one (w : Word) : w.toNat = 1 ↔ w = 1 := (BitVec.toNat_eq (y := 1)).symm

/-- Settles O23: every field of an accepted definition is read off the words it came from, the action by its kind. -/
theorem acceptedDefinitionHoldsItsWords : Obligations.AcceptedDefinitionHoldsItsWords := by
  intro self ws d h
  obtain ⟨action, due, guard, haction, hdue, hguard, rfl⟩ := parseDefinition_eq_some h
  obtain ⟨none, exceptions, done, each⟩ := notifyOf_iff ((argWord ws 1).extractLsb' 8 2)
  obtain ⟨absent, present⟩ := parseGuard_eq_some hguard
  refine ⟨parseDue_eq_some hdue, policy_iff (by decide) _ 5, policy_iff (by decide) _ 6, policy_iff (by decide) _ 7, none, exceptions,
    done, each, absent, present, rfl, rfl, rfl, rfl, rfl, ?_⟩
  obtain ⟨n, v, kind, hn, hv, rfl⟩ | ⟨n, kind, hn, rfl⟩ | ⟨n, kind, hn, rfl⟩ | ⟨f, op, kind, hf, hop, rfl⟩ | ⟨i, kind, hi, rfl⟩ |
    ⟨i, kind, hi, rfl⟩ | ⟨spec, kind, hspec, rfl⟩ | ⟨kind, rfl⟩ := parseAction_eq_some haction
  · exact ⟨kind, lineOf_eq_some hn, (levelOf_eq_some hv).trans (toNat_eq_one _)⟩
  · exact ⟨kind, lineOf_eq_some hn⟩
  · exact ⟨kind, lineOf_eq_some hn, rfl⟩
  · obtain ⟨set, clear, toggle⟩ := flagOpOf_eq_some hop
    exact ⟨kind, flagOf_eq_some hf, set, clear, toggle⟩
  · exact ⟨kind, slotOf_eq_some hi, rfl⟩
  · exact ⟨kind, slotOf_eq_some hi⟩
  · obtain ⟨flag, ⟨level0, level1, rise, fall⟩, deadline, follow, offset, timeout⟩ := wait_holds hspec
    exact ⟨kind, flag, level0, level1, rise, fall, deadline, follow, offset, timeout⟩
  · exact kind

end Sys2Proof.Proofs
end

section
/-! SUPPORT. The rows of the bus window, the reads without a side effect, and what a bus cycle is (R13, R115 to R118, R142 to R152,
R165, R173, R180 to R185). -/

namespace Sys2Proof.Proofs

open Sys2Proof.Machine Sys2Proof.Laws

/-! ## Writes -/

/-- Settles O30: sixteen words are the most the staging list holds. -/
theorem stageWriteAppendsOrOverflows : Obligations.StageWriteAppendsOrOverflows := by
  intro s w released
  rw [exec_released _ released]
  exact ⟨fun room => congrArg _ (if_pos room), fun full => congrArg _ (if_neg (Nat.not_lt.2 full))⟩

/-- Settles O36: the masked write to a group is `writeGroup`, of which `writeGroup_spec` says the flags and the events. -/
theorem flagValueWriteSetsTheMaskedFlags : Obligations.FlagValueWriteSetsTheMaskedFlags := by
  intro s w released
  rw [exec_released _ released]
  refine ⟨fun levels => congrArg _ (if_pos levels), fun written => ?_⟩
  have masked : effect (.flagValueWrite w) s = s.writeGroup s.window.flagSelect w := if_neg (Nat.not_lt.2 written)
  obtain ⟨flags, whole⟩ := writeGroup_spec s s.window.flagSelect w
  exact ⟨_, rfl, by rw [masked]; exact flags, by rw [masked]; exact whole⟩

/-- A bit of a word cleared by the bits written as 1. -/
theorem getLsbD_and_not_low (e : BitVec 6) (w : Word) (k : Nat) :
    (e &&& ~~~(w.extractLsb' 0 6)).getLsbD k = (e.getLsbD k && !w.getLsbD k) := by
  by_cases h : k < 6
  · simp [h]
  · simp [h, BitVec.getLsbD_of_ge e k (by omega)]

/-- Settles O37: a group number is taken whole or refused, the enables are replaced, the ERROR bits written as 1 are cleared. -/
theorem registerWritesReplaceOrClear : Obligations.RegisterWritesReplaceOrClear := by
  intro s w released
  simp only [exec_released _ released]
  refine ⟨fun group => ?_, fun large => congrArg _ (if_neg (by omega)), rfl, _, rfl, getLsbD_and_not_low _ w⟩
  have low : w.extractLsb' 0 3 = BitVec.ofNat 3 w.toNat := BitVec.eq_of_toNat_eq (by simp)
  show Host.Outcome.next (s.flagSelectWrite w) = _
  rw [State.flagSelectWrite, if_pos (show w.toNat < 8 by omega), low]
  rfl

/-! ## Reads with a side effect -/

theorem state_code_status_lt (st : Status) : st.code < 11 := by
  cases st <;> decide

/-- The fields of word 1 of a result record: the status in bits 3 to 0, the count of data words in bits 11 to 8 (11.4). -/
theorem resultHead_fields : ∀ (status : Fin 11) (count : Fin 16),
    ((BitVec.ofNat 16 (status.val + 256 * count.val)).extractLsb' 0 4).toNat = status.val
    ∧ ((BitVec.ofNat 16 (status.val + 256 * count.val)).extractLsb' 8 4).toNat = count.val
    ∧ (BitVec.ofNat 16 (status.val + 256 * count.val)).extractLsb' 4 4 = 0
    ∧ (BitVec.ofNat 16 (status.val + 256 * count.val)).extractLsb' 12 4 = 0 := by
  decide

/-- Settles O33: the cursor selects a word of the record, and the last word takes the record away. -/
theorem resultReadReturnsTheRecordWordByWord : Obligations.ResultReadReturnsTheRecordWordByWord := by
  intro s released
  rw [exec_released _ released]
  refine ⟨fun empty => ?_, fun r rest oldest => ⟨r.words.getD s.window.resultCursor 0, fun first => ?_, fun second short => ?_,
    fun k cursor inside => ?_, fun more => ?_, fun last => ?_⟩⟩
  · show Host.Outcome.next s.resultRead = _
    rw [State.resultRead, empty]
    rfl
  · rw [first]
    rfl
  · obtain ⟨status, count, low, high⟩ := resultHead_fields ⟨r.status.code, state_code_status_lt _⟩ ⟨r.data.length, by omega⟩
    rw [second]
    refine ⟨status.trans ?_, count, low, high⟩
    show r.status.code = _
    cases r.status <;> rfl
  · rw [cursor]
    show r.data[k]? = some (r.data.getD k 0)
    simp [inside]
  · show Host.Outcome.next s.resultRead = _
    simp only [State.resultRead, oldest]
    rw [if_pos (by rw [words_length]; exact more)]
    rfl
  · show Host.Outcome.next s.resultRead = _
    simp only [State.resultRead, oldest]
    rw [if_neg (by rw [words_length]; omega)]
    rfl

/-- Settles O34: the cursor selects a word of the record, and word 5 takes the record away and judges attention anew. -/
theorem noteReadReturnsTheRecordWordByWord : Obligations.NoteReadReturnsTheRecordWordByWord := by
  intro s released
  rw [exec_released _ released]
  show (_ → Host.Outcome.next s.noteRead = _) ∧ ∀ r rest, _ → _
  refine ⟨fun empty => by rw [State.noteRead, empty]; rfl, fun r rest oldest => ?_⟩
  refine ⟨fun cursor => ?_, fun cursor => ?_, fun cursor => ?_, fun cursor => ?_, fun cursor => ?_⟩
  case refine_5 =>
    refine ⟨NoteQueue.wantsAttention { s.noteQueue with records := rest }, ?_, wantsAttention_iff _⟩
    show Host.Outcome.next s.noteRead = _
    simp only [State.noteRead, oldest, cursor]
    cases e : r.lastKind <;> simp only [NoteRecord.word5, e] <;> rfl
  all_goals
    show Host.Outcome.next s.noteRead = _
    simp only [State.noteRead, oldest, cursor]
  case refine_1 =>
    cases e : r.source <;> simp only [NoteRecord.word1, e] <;> rfl
  all_goals rfl

/-- Settles O35: the latch is loaded from the value whose low half is returned. -/
theorem timeLowReadLatchesTheHighHalf : Obligations.TimeLowReadLatchesTheHighHalf := by
  intro s released
  refine ⟨_, exec_released _ released, rfl, ?_⟩
  rw [readRegister_released (s := effect .timeLoRead s) 0x9 released]
  show s.timebase.time.extractLsb' 16 16 ++ s.timebase.time.extractLsb' 0 16 = s.timebase.time
  rw [BitVec.extractLsb'_append_extractLsb'_eq_extractLsb' (by rfl)]
  simp

/-! ## The holdoff, and a pulse end -/

/-- Settles O56: the holdoff met is a cause of attention, and where it is not met the row changes nothing. -/
theorem holdoffTurnsAttentionOn : Obligations.HoldoffTurnsAttentionOn := by
  intro s released
  rw [exec_released _ released]
  show (∀ r rest, _ → _ → _ → Host.Outcome.next s.holdoffStep = _) ∧ (_ → Host.Outcome.next s.holdoffStep = _)
  refine ⟨fun r rest oldest on aged => ?_, fun unmet => ?_⟩
  · have met : s.noteQueue.holdoffMet = true := by simpa [NoteQueue.holdoffMet, oldest] using ⟨on, aged⟩
    have cause : s.noteQueue.wantsAttention = true := (wantsAttention_iff _).2 ⟨r, rest, oldest, .inr (.inl ⟨on, aged⟩)⟩
    rw [State.holdoffStep, if_pos met, NoteQueue.recompute, cause]
    rfl
  · have not_met : ¬ s.noteQueue.holdoffMet = true := by
      unfold NoteQueue.holdoffMet
      cases h : s.noteQueue.records with
      | nil => nofun
      | cons r rest =>
        simp only [Bool.and_eq_true, bne_iff_ne, decide_eq_true_eq]
        rintro ⟨on, aged⟩
        obtain none | off | young := unmet
        · cases h.symm.trans none
        · exact on off
        · exact Nat.lt_irrefl _ (Nat.lt_of_le_of_lt aged (young r rest h))
    rw [State.holdoffStep, if_neg not_met]

/-- Settles O49: the row ends the pulse of its line exactly when its end time is reached. -/
theorem pulseEndGoesToTheInactiveLevel : Obligations.PulseEndGoesToTheInactiveLevel := by
  intro s n released
  rw [exec_released _ released]
  refine ⟨fun p pulse reached => congrArg _ (if_pos ((pulseOver_iff _ _).2 ⟨p, pulse, reached⟩)),
    fun pending => congrArg _ (if_neg fun ended => ?_)⟩
  obtain ⟨p, pulse, reached⟩ := (pulseOver_iff _ _).1 ended
  exact Bool.false_ne_true ((pending p pulse).symm.trans reached)

end Sys2Proof.Proofs
end

section
/-! SUPPORT. The accesses the window takes, the words of the reads without a side effect, and the news the notification queue takes
(R89, R91, R108, R116, R139 to R141, R151, R185). -/

namespace Sys2Proof.Proofs

open Sys2Proof.Machine Sys2Proof.Laws

/-! ## Bus accesses (R184) -/

theorem read_isBad_iff (a : BitVec 4) : (BusAccess.read a).isBad = true ↔ a = 0xF := beq_iff_eq

theorem write_isBad_iff (a : BitVec 4) (d : Word) :
    (BusAccess.write a d).isBad = true ↔ a ∈ [0x0, 0x5, 0x6, 0x7, 0x8, 0x9, 0xC, 0xD, 0xE, 0xF] := by
  simp [BusAccess.isBad, or_assoc]

/-- A cycle is taken exactly where CS# and exactly one strobe are asserted. -/
theorem access_none {c : BusCycle} (h : c.select = false ∨ c.readStrobe = c.writeStrobe) : c.access = none := by
  refine if_neg fun taken => ?_
  obtain ⟨select, strobes⟩ := Bool.and_eq_true_iff.1 taken
  obtain h | h := h
  · exact Bool.false_ne_true (h.symm.trans select)
  · exact bne_iff_ne.1 strobes h

theorem access_read {c : BusCycle} (select : c.select = true) (r : c.readStrobe = true) (w : c.writeStrobe = false) :
    c.access = some (.read c.addr) := by
  rw [BusCycle.access, select, r, w]
  rfl

theorem access_write {c : BusCycle} (select : c.select = true) (r : c.readStrobe = false) (w : c.writeStrobe = true) :
    c.access = some (.write c.addr c.data) := by
  rw [BusCycle.access, select, r, w]
  rfl

/-- The address of an access that is taken is the cycle's. -/
theorem access_addr {c : BusCycle} {addr : BitVec 4} (h : c.access = some (.read addr)) : addr = c.addr := by
  unfold BusCycle.access at h
  split at h
  · split at h <;> cases h
    rfl
  · cases h

theorem read_row_none : ∀ a : BitVec 4, a ∉ [0x5#4, 0x6#4, 0x8#4, 0xF#4] → (BusAccess.read a).row = none := by decide

theorem write_row_ne_none (a : BitVec 4) (d : Word) : (BusAccess.write a d).row ≠ none := by
  unfold BusAccess.row
  dsimp only
  split <;> nofun

theorem read_row_bad {a : BitVec 4} (h : (BusAccess.read a).isBad = true) :
    (BusAccess.read a).row = some (.badAddress (.read a)) := by
  rw [(read_isBad_iff a).1 h]
  rfl

theorem write_row_bad {a : BitVec 4} {d : Word} (h : (BusAccess.write a d).isBad = true) :
    (BusAccess.write a d).row = some (.badAddress (.write a d)) := by
  have listed := (write_isBad_iff a d).1 h
  simp only [List.mem_cons, List.not_mem_nil, or_false] at listed
  rcases listed with rfl | rfl | rfl | rfl | rfl | rfl | rfl | rfl | rfl | rfl <;> rfl

/-- A write to COMMAND is CLEAR_STAGE or an issue, by its code (R166, R167). -/
theorem command_row (d : Word) :
    (d.extractLsb' 8 8 = 0xFF → (BusAccess.write 0x4 d).row = some (.clearStage (d.extractLsb' 0 8)))
    ∧ (d.extractLsb' 8 8 ≠ 0xFF → (BusAccess.write 0x4 d).row = some (.commandWrite d)) :=
  ⟨fun clear => congrArg some (if_pos clear), fun issue => congrArg some (if_neg issue)⟩

/-- Settles O38: an access is bad by its address, its row is the table's, and a bad one raises the bit alone. -/
theorem badAccessSetsOnlyTheErrorBit : Obligations.BadAccessSetsOnlyTheErrorBit := by
  refine ⟨read_isBad_iff, write_isBad_iff,
    fun c => ⟨access_read, access_write, fun untaken s => busCycle_untaken s c (access_none untaken)⟩,
    ⟨rfl, rfl, rfl, fun a => read_row_bad, read_row_none⟩,
    fun d => ⟨rfl, rfl, rfl, (command_row d).1, (command_row d).2, rfl, rfl, fun a => write_row_bad⟩,
    fun s c a taken => ⟨fun i row => busCycle_row s c a i taken row, fun noRow => ?_⟩,
    fun s released => ⟨fun a bad => ?_, fun a d bad => ?_⟩⟩
  · cases a with
    | read addr => exact access_addr taken ▸ busCycle_read s c addr taken noRow
    | write addr d => exact absurd noRow (write_row_ne_none addr d)
  · rw [exec_released _ released]
    exact congrArg _ (if_pos bad)
  · rw [exec_released _ released]
    exact congrArg _ (if_pos bad)

/-! ## The reads without a side effect (R185) -/

/-- The ten bits of STATUS, bit 0 first. -/
def statusBits (s : State) : List Bool :=
  [s.safeController.state == .safe, s.safeController.asserted, s.safeController.policy == .freeze,
    s.timebase.desired == .run, s.timebase.freeze, s.timebase.running, s.commandUnit.executing.isSome,
    s.noteQueue.attention, s.timebase.source == .external, s.intAsserted]

/-- The bits of a word of levels above them are 0. -/
theorem wordOfLevels_high (bs : List Bool) (n len : Nat) (h : bs.length ≤ n) (hn : n + len ≤ 16) :
    (wordOfLevels bs).extractLsb' n len = 0 := by
  refine BitVec.eq_of_getLsbD_eq fun k hk => ?_
  simp only [BitVec.getLsbD_extractLsb', hk, decide_true, Bool.true_and, BitVec.ofNat_eq_ofNat, BitVec.getLsbD_zero]
  rw [wordOfLevels_getLsbD _ _ (by omega), List.getD_eq_default _ _ (by omega)]

/-- Bit n of the word of the levels of a vector is the level of its element n. -/
theorem wordOfLevels_vector {α : Type} (xs : Vector α 16) (level : α → Bool) (n : LineId) :
    (wordOfLevels (xs.toList.map level)).getLsbD n.val = level xs[n] := by
  rw [wordOfLevels_getLsbD _ _ n.isLt]
  simp

/-- Bit k of the word of a group is its flag k (R116). -/
theorem groupWord_getLsbD (s : State) (g : BitVec 3) (k : Fin 8) : (s.groupWord g).getLsbD k.val = s.flag (groupFlag g k) := by
  rw [State.groupWord, wordOfLevels_getLsbD _ _ (by omega)]
  fin_cases k <;> rfl

/-- Settles O39: each register is a word of levels or of counts, read bit by bit. -/
theorem windowReadsShowTheLiveState : Obligations.WindowReadsShowTheLiveState := by
  intro s released
  simp only [readRegister_released _ released]
  have status (k : Nat) (hk : k < 16) : (s.registerWord 0x0).getLsbD k = (statusBits s).getD k false :=
    wordOfLevels_getLsbD (statusBits s) k hk
  refine ⟨intAsserted_iff s, ?_, ?_, ?_, ?_, ?_, ?_, ?_, ?_, ?_, ?_, wordOfLevels_high (statusBits s) 10 6 (Nat.le_refl 10) (by decide),
    rfl, rfl, rfl, ?_, rfl, rfl, rfl, groupWord_getLsbD s s.window.flagSelect,
    wordOfLevels_high _ 8 8 (by simp [groupPositions]) (by decide), wordOfLevels_vector _ Line.driven,
    wordOfLevels_vector _ Input.raw⟩
  case refine_11 =>
    rw [← commandsPending_eq]
    rfl
  all_goals rw [status _ (by decide)]
  · exact beq_iff_eq
  · exact Iff.rfl
  · exact beq_iff_eq
  · exact beq_iff_eq
  · exact Iff.rfl
  · exact running_iff s.timebase
  · exact Option.isSome_iff_ne_none
  · exact Iff.rfl
  · exact beq_iff_eq
  · exact intAsserted_iff s

end Sys2Proof.Proofs
end

section
/-! SUPPORT. The news the notification queue takes: kept by the policy of R89, merged or put at the tail (R139, R140, R141). -/

namespace Sys2Proof.Proofs

open Sys2Proof.Machine Sys2Proof.Laws

/-- The policy a slot's news meets: EXCEPTIONS where the slot has no definition (R14). -/
theorem definition_notify (sl : Slot) :
    sl.definition.notify = match sl.defn with | some d => d.notify | none => .exceptions := by
  unfold Slot.definition
  cases sl.defn <;> rfl

/-- The tag a slot's news takes: 0 where the slot has no definition (R14). -/
theorem definition_tag (sl : Slot) : sl.definition.tag = match sl.defn with | some d => d.tag | none => 0 := by
  unfold Slot.definition
  cases sl.defn <;> rfl

/-- News is kept unless it is a slot's and that slot's policy does not pass its kind. -/
theorem keeps_iff (s : State) (n : NewsItem) :
    s.keeps n = true ↔ ∀ i, n.source = .slot i → (s.slot i).definition.notify.passes n.kind = true := by
  unfold State.keeps
  cases n.source with
  | slot i => exact ⟨fun kept j same => by cases same; exact kept, fun kept => kept i rfl⟩
  | input i => exact ⟨fun _ _ h => (nomatch h), fun _ => rfl⟩
  | safe => exact ⟨fun _ _ h => (nomatch h), fun _ => rfl⟩

theorem sourceTag_slot (s : State) {n : NewsItem} {i : SlotId} (h : n.source = .slot i) :
    s.sourceTag n.source = (s.slot i).definition.tag := by
  rw [h]
  rfl

theorem sourceTag_other (s : State) {n : NewsItem} (h : ∀ i, n.source ≠ .slot i) : s.sourceTag n.source = 0 := by
  cases e : n.source with
  | slot i => exact absurd e (h i)
  | input i => rfl
  | safe => rfl

/-- Only the input unit's news comes on its path (R141). -/
theorem path_edge_iff (n : NewsItem) : n.path = .edge ↔ ∃ i, n.source = .input i := by
  unfold NewsItem.path
  cases n.source <;> simp

/-- A count that stops at 255, as a case split. -/
theorem min_255_succ (n : Nat) : min 255 (n + 1) = if n < 255 then n + 1 else 255 := by
  split <;> omega

/-- The news the notification queue takes, by whether its policy passes it. -/
theorem takeNews_kept (s : State) (path : NewsPath) {before rest : List NewsItem} {n : NewsItem}
    (h : s.noteQueue.inFlight = before ++ n :: rest) (earlier : ∀ x ∈ before, x.path ≠ path) (here : n.path = path)
    (kept : s.keeps n = true) :
    s.takeNews path = { s with noteQueue := { s.noteQueue with
      inFlight := before ++ rest
      records := takeInto n (s.sourceTag n.source) s.noteQueue.records
      attention := NoteQueue.wantsAttention { s.noteQueue with
        inFlight := before ++ rest, records := takeInto n (s.sourceTag n.source) s.noteQueue.records } } } := by
  rw [takeNews_found s path before rest n h earlier here, if_pos kept]
  rfl

theorem takeNews_dropped (s : State) (path : NewsPath) {before rest : List NewsItem} {n : NewsItem}
    (h : s.noteQueue.inFlight = before ++ n :: rest) (earlier : ∀ x ∈ before, x.path ≠ path) (here : n.path = path)
    (dropped : ¬ s.keeps n = true) :
    s.takeNews path = { s with noteQueue := { s.noteQueue with inFlight := before ++ rest } } := by
  rw [takeNews_found s path before rest n h earlier here, if_neg dropped]
  rfl

/-- Settles O55: an item the policy drops leaves the records, and a kept one is merged into its source's record or put at the tail. -/
theorem newsIsFilteredAndMerged : Obligations.NewsIsFilteredAndMerged := by
  refine ⟨fun k => by cases k <;> rfl, path_edge_iff, fun s path released => ?_⟩
  rw [exec_released _ released]
  refine ⟨fun none => congrArg _ (takeNews_none s path none), fun before n rest flight earlier here => ?_⟩
  intro policy passed kept
  have judged : s.keeps n = true ↔ kept := by
    refine (keeps_iff s n).trans (forall_congr' fun i => imp_congr_right fun _ => ?_)
    rw [definition_notify]
    exact passes_iff _ _
  refine ⟨fun dropped => congrArg _ (takeNews_dropped s path flight earlier here fun passes => dropped (judged.1 passes)),
    fun passes => ⟨_, _, congrArg _ (takeNews_kept s path flight earlier here (judged.2 passes)),
      wantsAttention_iff { s.noteQueue with records := takeInto n (s.sourceTag n.source) s.noteQueue.records }, fun fresh => ?_,
      fun front r back records others same => ?_⟩⟩
  · refine ⟨s.sourceTag n.source, fun i slot => (sourceTag_slot s slot).trans (definition_tag _), sourceTag_other s, ?_⟩
    rw [takeInto_fresh n _ _ fresh, NoteRecord.create]
    cases e : n.kind <;> rfl
  · rw [records, takeInto_merge n _ front r back others same, NoteRecord.merge, min_255_succ]
    cases e : n.kind <;> rfl

end Sys2Proof.Proofs
end

section
/-! SUPPORT. The comparisons of R10, the arm-time checks of R52, and the choice of the due queue's arbiter (R46, R47, R48). -/

namespace Sys2Proof.Proofs

open Sys2Proof.Machine Sys2Proof.Laws

/-! ## Modular distances (R10) -/

/-- The distance to a time value that is `k` ticks further back. -/
theorem toNat_sub_add (t n : Time) {k : Nat} (h : k < 4294967296) :
    (t - (n + BitVec.ofNat 32 k)).toNat = ((t - n).toNat + (4294967296 - k)) % 4294967296 := by
  simp only [BitVec.toNat_sub, BitVec.toNat_add, BitVec.toNat_ofNat]
  omega

theorem lateBy_eq (t n : Time) : lateBy t n = (n - t).toNat := rfl

/-- What the distance says of a time value (R10). -/
theorem reached_by_distance (t n : Time) : ((t - n).toNat = 0 → reached t n = true ∧ lateBy t n = 0)
    ∧ (1 ≤ (t - n).toNat → (t - n).toNat ≤ 2 ^ 31 - 1 → reached t n = false)
    ∧ (2 ^ 31 ≤ (t - n).toNat → reached t n = true ∧ lateBy t n = (n - t).toNat ∧ 1 ≤ lateBy t n ∧ lateBy t n ≤ 2 ^ 31) := by
  have flip := sub_toNat_flip t n
  have bound : (t - n).toNat < 4294967296 := (t - n).isLt
  refine ⟨fun same => ⟨(reached_iff t n).2 (.inl same), ?_⟩, fun low high => (not_reached_iff t n).2 ⟨low, by omega⟩,
    fun far => ⟨(reached_iff t n).2 (.inr (by omega)), rfl, ?_, ?_⟩⟩
  · rw [lateBy_eq, flip, if_pos same]
  · rw [lateBy_eq, flip, if_neg (by omega)]
    omega
  · rw [lateBy_eq, flip, if_neg (by omega)]
    omega

/-- Of two times half the range apart, neither is earlier. -/
theorem not_earlier_half {a b : Time} (h : (b - a).toNat = 2 ^ 31) : earlier a b = false ∧ earlier b a = false := by
  have flip := sub_toNat_flip b a
  rw [← Bool.not_eq_true, ← Bool.not_eq_true, earlier_iff, earlier_iff]
  split at flip <;> omega

/-- A time value that is ahead is reached once as many ticks have passed as it was ahead, and stays reached for half the range. -/
theorem reached_after {t n : Time} (ahead : reached t n = false) (k : Nat) :
    (k < (t - n).toNat → reached t (n + BitVec.ofNat 32 k) = false)
    ∧ ((t - n).toNat ≤ k → k ≤ (t - n).toNat + 2 ^ 31 →
      reached t (n + BitVec.ofNat 32 k) = true ∧ lateBy t (n + BitVec.ofNat 32 k) = k - (t - n).toNat) := by
  obtain ⟨low, high⟩ := (not_reached_iff t n).1 ahead
  refine ⟨fun before => ?_, fun after within => ?_⟩
  · rw [not_reached_iff, toNat_sub_add t n (by omega)]
    omega
  · have moved := toNat_sub_add t n (k := k) (by omega)
    refine ⟨?_, ?_⟩
    · rw [reached_iff, moved]
      omega
    · rw [lateBy_eq, sub_toNat_flip t, moved]
      split <;> omega

/-- Settles O40: each clause is a range of the distance mod 2^32. -/
theorem timesCompareByModularDistance : Obligations.TimesCompareByModularDistance := by
  refine ⟨reached_by_distance, fun a b => ⟨?_, not_earlier_self a, not_earlier_half⟩, fun t n => reached_after⟩
  rw [earlier_iff]
  omega

/-- Settles O41: the ranges of the distance one after another; a due more than the stale bound behind is placed at the stale floor. -/
theorem armTimeChecksClassifyTheDue : Obligations.ArmTimeChecksClassifyTheDue := by
  intro due r p
  have flip : lateBy due r = _ := sub_toNat_flip due r
  have bound : (due - r).toNat < 4294967296 := (due - r).isLt
  unfold armCheck distance Config.armHorizon Config.halfRange Config.staleBound
  refine ⟨fun near => if_pos near, fun low high => ?_, fun past reject => ?_, fun past stale fire => ?_, fun recent fire => ?_⟩
  · rw [if_neg (by omega), if_pos (by omega)]
  all_goals rw [if_neg (by omega), if_neg (by omega)]
  · rw [reject]
  · subst fire
    refine if_pos ?_
    rw [flip, if_neg (by omega)]
    omega
  · subst fire
    refine if_neg ?_
    rw [flip, if_neg (by omega)]
    omega

/-! ## The arbiter (R46, R47, R48) -/

/-- What a command that waits for `w` presents: a request on a slot only while the slot is not FIRING, CLEAR only while the firing
unit is idle, and none for any other work. -/
def workRequest (s : State) (c : Command) (w : Work) : Option (Command × CommandRequest) :=
  match w with
  | .arm i given => if (s.slot i).state = .firing then none else some (c, .insert i given)
  | .retime i due => if (s.slot i).state = .firing then none else some (c, .move i due)
  | .remove i => if (s.slot i).state = .firing then none else some (c, .remove i)
  | .clear => if s.firing = none then some (c, .clear) else none
  | _ => none

theorem commandRequest_of_work {s : State} {c : Command} {w : Work} (h : s.commandUnit.executing = some ⟨c, w⟩) :
    s.commandRequest = workRequest s c w := by
  rw [State.commandRequest, h]
  cases w
  case clear =>
    unfold workRequest
    cases s.firing <;> rfl
  all_goals rfl

theorem firingRequest_iff (s : State) (o : Occurrence) (r : Request) : s.firingRequest = some (o, r) ↔
    s.firing = some o ∧ o.request = some r
      ∧ ((∃ target due, r = .insert target due) ∨ (∃ target, r = .remove target) ∨ ∃ due, r = .reinsert due) := by
  constructor
  · intro h
    unfold State.firingRequest at h
    split at h
    · cases h
    next p hand =>
      split at h <;> cases h
      next target due asks => exact ⟨hand, asks, .inl ⟨target, due, rfl⟩⟩
      next target asks => exact ⟨hand, asks, .inr (.inl ⟨target, rfl⟩)⟩
      next due asks => exact ⟨hand, asks, .inr (.inr ⟨due, rfl⟩)⟩
  · rintro ⟨hand, asks, ⟨target, due, rfl⟩ | ⟨target, rfl⟩ | ⟨due, rfl⟩⟩ <;>
      rw [State.firingRequest, hand] <;> simp only [asks]

theorem releaseReady_iff (s : State) (e : DueEntry) : s.releaseReady = some e ↔
    s.firing = none ∧ (∃ rest, s.dueQueue.entries = e :: rest) ∧ reached e.due s.now = true := by
  constructor
  · intro h
    unfold State.releaseReady at h
    split at h
    next idle head =>
      split at h <;> cases h
      next past => exact ⟨idle, ⟨_, head⟩, past⟩
    · cases h
  · rintro ⟨idle, ⟨rest, head⟩, past⟩
    rw [State.releaseReady, idle, head]
    exact if_pos past

theorem waitOrCommand_arm (s : State) (a : PendingArm) : s.waitOrCommand (some a) = some (.waitArm a) := rfl

theorem waitOrCommand_command {s : State} {c : Command} {r : CommandRequest} (h : s.commandRequest = some (c, r)) :
    s.waitOrCommand none = some (.command c r) := by
  rw [State.waitOrCommand, h]
  rfl

theorem waitOrCommand_none {s : State} (h : s.commandRequest = none) : s.waitOrCommand none = none := by
  rw [State.waitOrCommand, h]
  rfl

section
variable {s : State} {w : Option PendingArm}

theorem grantAmong_inFlight (h : s.dueQueue.inFlight ≠ none) (f : Option (Occurrence × Request)) (w : Option PendingArm) :
    s.grantAmong f w = none :=
  if_pos (Option.isSome_iff_ne_none.2 h)

theorem grantAmong_request (h : s.dueQueue.inFlight = none) (o : Occurrence) (r : Request) (w : Option PendingArm) :
    s.grantAmong (some (o, r)) w = some (.firing o r) := by
  rw [State.grantAmong, h]
  rfl

/-- With no release ready the grant is the wait list's or the command unit's. -/
theorem grantAmong_others (h : s.dueQueue.inFlight = none) (r : s.releaseReady = none) :
    s.grantAmong none w = s.waitOrCommand w := by
  rw [State.grantAmong, h, r]
  rfl

/-- With a release ready, another request that waits goes first if the release before it did. -/
theorem grantAmong_ready {e : DueEntry} (h : s.dueQueue.inFlight = none) (r : s.releaseReady = some e) :
    s.grantAmong none w =
      if ((s.waitOrCommand w).isSome && s.dueQueue.passedOver) = true then s.waitOrCommand w else some (.release e) := by
  rw [State.grantAmong, h, r]
  rfl

theorem grantAmong_release {e : DueEntry} (h : s.dueQueue.inFlight = none) (r : s.releaseReady = some e)
    (first : s.waitOrCommand w = none ∨ s.dueQueue.passedOver = false) : s.grantAmong none w = some (.release e) := by
  refine (grantAmong_ready h r).trans (if_neg ?_)
  obtain none | fresh := first
  · simp [none]
  · simp [fresh]

theorem grantAmong_passedOver {e : DueEntry} {g : Grant} (h : s.dueQueue.inFlight = none) (r : s.releaseReady = some e)
    (passed : s.dueQueue.passedOver = true) (waits : s.waitOrCommand w = some g) : s.grantAmong none w = some g := by
  refine ((grantAmong_ready h r).trans (if_pos ?_)).trans waits
  rw [waits, passed]
  rfl

theorem releaseReady_busy (h : s.firing ≠ none) : s.releaseReady = none := by
  cases e : s.releaseReady with
  | none => rfl
  | some e' => exact absurd ((releaseReady_iff s e').1 e).1 h

end

/-- The requests of the command unit. -/
theorem commandRequest_table (s : State) (c : Command) (i : SlotId) (given : Option Time) (due : Time) :
    (s.commandUnit.executing = some ⟨c, .arm i given⟩ →
      s.commandRequest = if (s.slot i).state = .firing then none else some (c, .insert i given))
    ∧ (s.commandUnit.executing = some ⟨c, .retime i due⟩ →
      s.commandRequest = if (s.slot i).state = .firing then none else some (c, .move i due))
    ∧ (s.commandUnit.executing = some ⟨c, .remove i⟩ →
      s.commandRequest = if (s.slot i).state = .firing then none else some (c, .remove i))
    ∧ (s.commandUnit.executing = some ⟨c, .clear⟩ → s.commandRequest = if s.firing = none then some (c, .clear) else none)
    ∧ (s.commandUnit.executing = none → s.commandRequest = none)
    ∧ ∀ w, s.commandUnit.executing = some ⟨c, w⟩ →
      w ∈ [.taken, .define i, .cancel i, .withdraw i, .release i, .query i, .setTime due] → s.commandRequest = none := by
  refine ⟨commandRequest_of_work, commandRequest_of_work, commandRequest_of_work, commandRequest_of_work,
    fun idle => by rw [State.commandRequest, idle], fun w executing listed => ?_⟩
  rw [commandRequest_of_work executing]
  simp only [List.mem_cons, List.not_mem_nil, or_false] at listed
  rcases listed with rfl | rfl | rfl | rfl | rfl | rfl | rfl <;> rfl

/-- The choice among what is ready where the firing unit presents no request. -/
theorem grant_table {s : State} (free : s.dueQueue.inFlight = none) (quiet : s.firingRequest = none) :
    (∀ e, s.releaseReady = some e → s.waitRequest = none → s.commandRequest = none → s.grant = some (.release e))
    ∧ (∀ e, s.releaseReady = some e → s.dueQueue.passedOver = false → s.grant = some (.release e))
    ∧ (∀ e a, s.releaseReady = some e → s.dueQueue.passedOver = true → s.waitRequest = some a → s.grant = some (.waitArm a))
    ∧ (∀ e c r, s.releaseReady = some e → s.dueQueue.passedOver = true → s.waitRequest = none →
      s.commandRequest = some (c, r) → s.grant = some (.command c r))
    ∧ (∀ a, s.releaseReady = none → s.waitRequest = some a → s.grant = some (.waitArm a))
    ∧ (∀ c r, s.releaseReady = none → s.waitRequest = none → s.commandRequest = some (c, r) → s.grant = some (.command c r))
    ∧ (s.releaseReady = none → s.waitRequest = none → s.commandRequest = none → s.grant = none) := by
  unfold State.grant
  rw [quiet]
  refine ⟨fun e ready noArm noCommand => ?_, fun e ready fresh => grantAmong_release free ready (.inr fresh),
    fun e a ready passed arm => ?_, fun e c r ready passed noArm command => ?_, fun a notReady arm => ?_,
    fun c r notReady noArm command => ?_, fun notReady noArm noCommand => ?_⟩
  · rw [noArm]
    exact grantAmong_release free ready (.inl (waitOrCommand_none noCommand))
  · rw [arm]
    exact grantAmong_passedOver free ready passed rfl
  · rw [noArm]
    exact grantAmong_passedOver free ready passed (waitOrCommand_command command)
  · rw [arm, grantAmong_others free notReady, waitOrCommand_arm]
  · rw [noArm, grantAmong_others free notReady, waitOrCommand_command command]
  · rw [noArm, grantAmong_others free notReady, waitOrCommand_none noCommand]

/-- An operation granted before the firing unit asked went to the wait list or the command unit. -/
theorem grantAt_notYet_table {s : State} (free : s.dueQueue.inFlight = none) (busy : s.firing ≠ none) :
    (∀ a, s.waitRequest = some a → s.grantAt .notYet = some (.waitArm a))
    ∧ (∀ c r, s.waitRequest = none → s.commandRequest = some (c, r) → s.grantAt .notYet = some (.command c r))
    ∧ (s.waitRequest = none → s.commandRequest = none → s.grantAt .notYet = none) := by
  have others : s.grantAt .notYet = s.waitOrCommand s.waitRequest := grantAmong_others free (releaseReady_busy busy)
  rw [others]
  refine ⟨fun a arm => ?_, fun c r noArm command => ?_, fun noArm noCommand => ?_⟩
  · rw [arm, waitOrCommand_arm]
  · rw [noArm, waitOrCommand_command command]
  · rw [noArm, waitOrCommand_none noCommand]

/-- Settles O42: the requests by the work of the executing command, and the grant by what is ready. -/
theorem dueQueueGrantsByTheTable : Obligations.DueQueueGrantsByTheTable := by
  refine ⟨commandRequest_table, fun s none => by rw [State.waitRequest, none],
    fun s f w busy => ⟨grantAmong_inFlight busy _ _, grantAmong_inFlight busy f w⟩,
    fun s => ⟨rfl, fun quiet => ?_, grantAt_notYet_table⟩, fun s a rest oldest => by rw [State.waitRequest, oldest],
    firingRequest_iff, releaseReady_iff, fun s free => ⟨fun o r asks => ?_, grant_table free⟩⟩
  · show _ = s.grantAmong s.firingRequest s.waitRequest
    rw [quiet]
    rfl
  · rw [State.grant, asks]
    exact grantAmong_request free o r _

end Sys2Proof.Proofs
end

section
/-! SUPPORT. The rows of the due queue that take a granted request: INSERT, MOVE, CLEAR and REMOVE (R28, R36, R41, R54 to R56, R60, R74,
R76, R132). -/

namespace Sys2Proof.Proofs

open Sys2Proof.Machine Sys2Proof.Laws

/-! ## INSERT -/

theorem insertArm_commandUnit (s : State) (i : SlotId) (due r : Time) : (s.insertArm i due r).2.commandUnit = s.commandUnit := by
  obtain ⟨-, commandUnit, -⟩ := moves_insertArm s i due r
  exact commandUnit

section
variable {s : State} {after : AfterEffect} {asked : RequestPresence}

theorem insertStep_firing {o : Occurrence} {target : SlotId} {due : Time}
    (h : s.grantAt asked = some (.firing o (.insert target due))) :
    s.insertStep after asked = ((s.insertArm target due o.time).1.reportTo (s.insertArm target due o.time).2 o.slot
      o.time).afterEffect after o o.appliedKind := by
  rw [State.insertStep, h]

theorem insertStep_waitArm {a : PendingArm} (h : s.grantAt asked = some (.waitArm a)) {r : ArmOutcome × State}
    (taken : ((s.setPassedOver false).setArms s.waitList.arms.tail).insertArm a.target a.due a.endTime = r) :
    s.insertStep after asked = r.1.reportTo r.2 a.waiting a.endTime := by
  rw [State.insertStep, h, ← taken]

theorem insertStep_command {c : Command} {i : SlotId} {given : Option Time}
    (h : s.grantAt asked = some (.command c (.insert i given))) :
    s.insertStep after asked = ((s.setPassedOver false).insertArm i (s.hostDue i given) s.now).2.complete c
      ((s.setPassedOver false).insertArm i (s.hostDue i given) s.now).1.status [] := by
  rw [State.insertStep, h]

end

theorem reportTo_placed {out : ArmOutcome} (h : out = .placed) (s : State) (i : SlotId) (time : Time) : out.reportTo s i time = s :=
  if_pos h

theorem reportTo_refused {out : ArmOutcome} (h : out ≠ .placed) (s : State) (i : SlotId) (time : Time) :
    out.reportTo s i time = { s with noteQueue := s.noteQueue.sent [⟨.slot i, .armFailed, time⟩] } :=
  if_neg h

/-- The status of an arm's outcome (R54). -/
theorem status_eq (out : ArmOutcome) :
    out.status = match out with | .placed => .ok | .badState => .badState | .tooFar => .tooFar | .past => .past := by
  cases out <;> rfl

/-- The due a host arm forms from the due spec of the slot's definition (R15). -/
theorem form_due (d : DueSpec) (now : Time) :
    (∀ t, d = .absolute t → d.form now = t) ∧ ∀ offset, d = .relative offset → d.form now = now + offset := by
  cases d with
  | absolute t => exact ⟨fun _ h => by cases h; rfl, fun _ h => (nomatch h)⟩
  | relative offset => exact ⟨fun _ h => (nomatch h), fun _ h => by cases h; rfl⟩

/-- Settles O43: each requester's arm is `insertArm`, and only what is done with its outcome differs. -/
theorem insertTakesTheGrantedArm : Obligations.InsertTakesTheGrantedArm := by
  intro s after asked released
  rw [exec_released _ released]
  show (∀ o target due, _ → ∃ out m t, Host.Outcome.next (s.insertStep after asked) = _ ∧ _) ∧ (∀ a, _ → ∃ out m, _) ∧ _
  refine ⟨fun o target due granted => ?_, fun a granted => ?_, fun c i given granted => ?_⟩
  · rw [insertStep_firing granted]
    refine ⟨_, _, _, rfl, insertArm_taken s target due o.time, fun placed => ?_, fun refused => ?_⟩
    · rw [reportTo_placed placed]
      exact afterEffect_taken _ after o _
    · rw [reportTo_refused refused]
      exact afterEffect_taken _ after o _
  · refine ⟨_, _, insertArm_taken _ a.target a.due a.endTime, fun placed => ?_, fun refused => ?_⟩
    · exact congrArg _ ((insertStep_waitArm granted rfl).trans (reportTo_placed placed _ _ _))
    · exact congrArg _ ((insertStep_waitArm granted rfl).trans (reportTo_refused refused _ _ _))
  · refine ⟨s.hostDue i given, _, _, ?_, ?_, ?_, insertArm_taken _ i (s.hostDue i given) s.now, congrArg _ ?_⟩
    · rintro t rfl
      rfl
    · rintro rfl t spec
      exact (form_due _ s.now).1 t spec
    · rintro rfl offset spec
      exact (form_due _ s.now).2 offset spec
    · refine (insertStep_command granted).trans ?_
      rw [complete_behind (u := s) (insertArm_commandUnit (s.setPassedOver false) i (s.hostDue i given) s.now) c, status_eq]
      rfl

/-! ## MOVE and CLEAR -/

section
variable {s : State} {asked : RequestPresence} {c : Command} {i : SlotId} {due : Time}

theorem moveStep_command (h : s.grantAt asked = some (.command c (.move i due))) :
    s.moveStep asked
      = ((s.setPassedOver false).moveEntry i due).2.complete c ((s.setPassedOver false).moveEntry i due).1.status [] := by
  rw [State.moveStep, h]

theorem moveEntry_badState (h : (s.slot i).state ≠ .armed) : s.moveEntry i due = (.badState, s) := if_neg h

theorem moveEntry_armed (h : (s.slot i).state = .armed) :
    s.moveEntry i due = match armCheck due s.now (s.slot i).definition.pastPolicy with
      | .placed d => (.placed, (s.setEntries (insertEntry ⟨i, d⟩ (removeEntry i s.dueQueue.entries))).setSlot i
        { s.slot i with due := some d })
      | .tooFar => (.tooFar, s)
      | .past => (.past, s) :=
  if_pos h

end

theorem removeEntry_eq (i : SlotId) (es : List DueEntry) : removeEntry i es = es.filter fun e => e.slot ≠ i := by
  simp only [removeEntry, bne, ne_eq, decide_not, Bool.beq_eq_decide_eq]

/-- A granted MOVE replaces the entry or changes nothing in the queue and the slot. -/
theorem exec_move (s : State) (asked : RequestPresence) (c : Command) (i : SlotId) (due : Time) (released : s.Released)
    (granted : s.grantAt asked = some (.command c (.move i due))) :
    ((s.slot i).state ≠ .armed → exec (.move asked) s = .next { s with
      dueQueue := { s.dueQueue with passedOver := false }
      commandUnit := s.commandUnit.answered s.commandUnit.fifo c .badState [] })
    ∧ ((s.slot i).state = .armed → match armCheck due s.now (s.slot i).definition.pastPolicy with
      | .placed d => ∃ es, PlacedIn ⟨i, d⟩ (s.dueQueue.entries.filter fun e => e.slot ≠ i) es
        ∧ exec (.move asked) s = .next { s with
          dueQueue := { s.dueQueue with entries := es, passedOver := false }
          slots := s.slots.set i { s.slot i with due := some d }
          commandUnit := s.commandUnit.answered s.commandUnit.fifo c .ok [] }
      | .tooFar => exec (.move asked) s = .next { s with
          dueQueue := { s.dueQueue with passedOver := false }
          commandUnit := s.commandUnit.answered s.commandUnit.fifo c .tooFar [] }
      | .past => exec (.move asked) s = .next { s with
          dueQueue := { s.dueQueue with passedOver := false }
          commandUnit := s.commandUnit.answered s.commandUnit.fifo c .past [] }) := by
  have row : exec (.move asked) s = .next _ := (exec_released _ released).trans (congrArg _ (moveStep_command granted))
  refine ⟨fun refused => ?_, fun armed => ?_⟩
  · rw [row, moveEntry_badState (s := s.setPassedOver false) refused]
    rfl
  · have moved := moveEntry_armed (s := s.setPassedOver false) (due := due) armed
    rw [show armCheck due (s.setPassedOver false).now ((s.setPassedOver false).slot i).definition.pastPolicy
      = armCheck due s.now (s.slot i).definition.pastPolicy from rfl] at moved
    rw [row, moved]
    cases armCheck due s.now (s.slot i).definition.pastPolicy with
    | placed d =>
      rw [← removeEntry_eq]
      exact ⟨_, insertEntry_placed _ _, rfl⟩
    | tooFar => rfl
    | past => rfl

/-- RESET_SCHEDULE is granted CLEAR where no arm is presented and no release goes first. -/
theorem grantAmong_clear {s : State} {c : Command} (executing : s.commandUnit.executing = some ⟨c, .clear⟩)
    (idle : s.firing = none) (free : s.dueQueue.inFlight = none)
    (second : s.releaseReady = none ∨ s.dueQueue.passedOver = true) :
    s.grantAmong s.firingRequest none = some (.command c .clear) := by
  have request : s.waitOrCommand none = some (.command c .clear) :=
    waitOrCommand_command ((commandRequest_of_work executing).trans (if_pos idle))
  rw [show s.firingRequest = none by rw [State.firingRequest, idle]]
  cases ready : s.releaseReady with
  | none => exact (grantAmong_others free ready).trans request
  | some e =>
    obtain none | passed := second
    · cases ready.symm.trans none
    · exact grantAmong_passedOver free ready passed request

theorem clearStep_granted {s : State} {c : Command} {arms : RequestPresence}
    (h : s.grantAmong s.firingRequest (s.waitRequestAtClear arms) = some (.command c .clear)) :
    s.clearStep arms = s.sweep.complete c .ok [] := by
  rw [State.clearStep, h]

/-- Settles O44: a MOVE by its check, and a granted CLEAR as the sweep of every slot. -/
theorem moveAndClearTakeTheGrantedRequest : Obligations.MoveAndClearTakeTheGrantedRequest := by
  refine ⟨exec_move, fun s => ⟨rfl, rfl⟩, fun s c => grantAmong_clear, fun s c arms released granted => ?_⟩
  refine ⟨_, (exec_released _ released).trans (congrArg _ (clearStep_granted granted)), fun i swept => ?_,
    fun i armed waiting => ?_, rfl⟩
  · exact (slot_sweep s i).trans (if_pos swept)
  · exact (slot_sweep s i).trans (if_neg fun swept => swept.elim armed waiting)

/-! ## REMOVE -/

section
variable {s : State} {after : AfterEffect} {asked : RequestPresence}

theorem removeStep_firing {o : Occurrence} {target : SlotId} (h : s.grantAt asked = some (.firing o (.remove target))) :
    s.removeStep after asked = if (s.slot target).state = .armed then
        ((s.takeOut target).send (.slot target) .cancelled o.time).afterEffect after o o.appliedKind
      else s.afterEffect after o o.appliedKind := by
  rw [State.removeStep, h]

theorem removeStep_command {c : Command} {i : SlotId} (h : s.grantAt asked = some (.command c (.remove i))) :
    s.removeStep after asked = if (s.slot i).state = .armed then ((s.setPassedOver false).takeOut i).complete c .ok []
      else (s.setPassedOver false).complete c .badState [] := by
  rw [State.removeStep, h]

end

/-- Settles O45: an ARMED slot's entry is taken out for either requester, and a slot no longer ARMED is left. -/
theorem removeTakesTheEntryOut : Obligations.RemoveTakesTheEntryOut := by
  refine ⟨fun s o target after asked released granted => ?_, fun s c i after asked released granted => ?_⟩ <;>
    rw [exec_released _ released]
  · refine ⟨_, congrArg _ (removeStep_firing granted), fun armed => ?_, fun other => ?_⟩
    · rw [if_pos armed, takeOut_eq]
      exact afterEffect_taken _ after o _
    · rw [if_neg other]
      exact afterEffect_taken s after o _
  · have row : effect (.remove after asked) s = _ := removeStep_command granted
    refine ⟨fun armed => ?_, fun other => ?_⟩
    · rw [row, if_pos armed, takeOut_eq]
      rfl
    · rw [row, if_neg other]
      rfl

end Sys2Proof.Proofs
end

section
/-! SUPPORT. The firing unit: HANDOFF, the effects on lines and flags, and the reinsertion (R39, R47 to R50, R57, R62 to R73, R87, R88,
R93 to R99, R119; Log 32). -/

namespace Sys2Proof.Proofs

open Sys2Proof.Machine Sys2Proof.Laws

/-! ## HANDOFF -/

theorem othersWait_iff (s : State) : s.othersWait = true ↔ s.waitRequest ≠ none ∨ s.commandRequest ≠ none := by
  unfold State.othersWait State.waitOrCommand
  cases s.waitRequest with
  | some a => simp
  | none => simp [Option.isSome_iff_ne_none]

theorem firingRequest_idle {s : State} (h : s.firing = none) : s.firingRequest = none := by
  rw [State.firingRequest, h]

section
variable {s : State} {e : DueEntry} {after : AfterEffect}

/-- A reached head is granted where nothing waits before it. -/
theorem grant_release (free : s.dueQueue.inFlight = none) (ready : s.releaseReady = some e)
    (first : (s.waitRequest = none ∧ s.commandRequest = none) ∨ s.dueQueue.passedOver = false) : s.grant = some (.release e) := by
  have table := grant_table free (firingRequest_idle ((releaseReady_iff s e).1 ready).1)
  obtain ⟨alone, fresh, -⟩ := table
  obtain ⟨noArm, noCommand⟩ | notPassed := first
  · exact alone e ready noArm noCommand
  · exact fresh e ready notPassed

/-- Where the release is not ready or was passed over, an idle firing unit is granted nothing. -/
theorem grant_not_release (idle : s.firing = none)
    (later : s.dueQueue.entries = [] ∨ (∀ e rest, s.dueQueue.entries = e :: rest → reached e.due s.now = false)
      ∨ (s.dueQueue.passedOver = true ∧ (s.waitRequest ≠ none ∨ s.commandRequest ≠ none))) (e : DueEntry) :
    s.grant ≠ some (.release e) := by
  intro granted
  obtain ⟨free, cases⟩ := grant_cases s _ granted
  obtain ⟨_, _, h, -⟩ | ⟨e', h, ready, -⟩ | ⟨_, h, -⟩ | ⟨_, _, h, -⟩ := cases
  case inr.inl =>
    cases h
    obtain ⟨-, ⟨rest, head⟩, past⟩ := (releaseReady_iff s e).1 ready
    obtain empty | ahead | ⟨passed, waits⟩ := later
    · cases empty.symm.trans head
    · exact Bool.false_ne_true ((ahead e rest head).symm.trans past)
    · obtain ⟨g, waiting⟩ := Option.isSome_iff_exists.1 ((othersWait_iff s).2 waits)
      have other : s.grant = some g := by
        rw [State.grant, firingRequest_idle idle]
        exact grantAmong_passedOver free ready passed waiting
      cases other.symm.trans granted
      have : (s.waitOrCommand s.waitRequest) ≠ some (.release e) := by
        unfold State.waitOrCommand
        cases s.waitRequest with
        | some a => nofun
        | none => cases s.commandRequest <;> nofun
      exact this waiting
  all_goals cases h

theorem handoffStep_inHand {o : Occurrence} (h : s.firing = some o) : s.handoffStep after = s.goOn after o := by
  rw [State.handoffStep, h]

theorem handoffStep_release (idle : s.firing = none) (granted : s.grant = some (.release e)) :
    s.handoffStep after = s.releaseHead after e := by
  rw [State.handoffStep, idle]
  simp only [granted]

theorem handoffStep_idle (idle : s.firing = none) (notGranted : ∀ e, s.grant ≠ some (.release e)) : s.handoffStep after = s := by
  rw [State.handoffStep, idle]
  dsimp only
  split
  · next e granted => exact absurd granted (notGranted e)
  · rfl

end

/-- The release of the head, whole: the command unit's claim on the slot is withdrawn. -/
theorem takeHead_eq (s : State) (e : DueEntry) : s.takeHead e = { s with
    dueQueue := { s.dueQueue with entries := s.dueQueue.entries.tail, passedOver := s.othersWait || s.dueQueue.passedOver }
    slots := s.slots.set e.slot { s.slot e.slot with state := .firing, lastLateness := (s.now - e.due).toNat }
    firing := some ⟨e.slot, e.due, s.now, (s.now - e.due).toNat, false, none, false, none, false⟩
    commandUnit := (s.mapWork (·.heldBy e.slot)).commandUnit } := rfl

theorem goOn_decides {o : Occurrence} (r : o.request = none) (k : o.outcome = none) (s : State) (a : AfterEffect) :
    s.goOn a o = s.decideOccurrence a o := by
  rw [State.goOn, r, k]

theorem goOn_counts {o : Occurrence} {k : Kind} (r : o.request = none) (h : o.outcome = some k) (c : o.counted = false)
    (s : State) (a : AfterEffect) :
    s.goOn a o = match a with | .goesOn => s.finish o k | .staysInHand => s.count o k := by
  rw [State.goOn, r, h]
  simp only [c]
  cases a <;> rfl

theorem goOn_ends {o : Occurrence} {k : Kind} (r : o.request = none) (h : o.outcome = some k) (c : o.counted = true)
    (s : State) (a : AfterEffect) : s.goOn a o = s.endOccurrence o := by
  rw [State.goOn, r, h]
  exact if_pos c

theorem goOn_asked {o : Occurrence} (r : o.request ≠ none) (s : State) (a : AfterEffect) : s.goOn a o = s := by
  obtain ⟨asked, e⟩ := Option.ne_none_iff_exists'.1 r
  rw [State.goOn, e]

/-- Settles O46: a granted release, an occurrence that goes on by what is still to be done, and the two cases that change nothing. -/
theorem handoffReleasesTheReachedHead : Obligations.HandoffReleasesTheReachedHead := by
  intro s after released
  rw [exec_released _ released]
  show _ ∧ (∀ o, _ → _ → _ → ∃ t, Host.Outcome.next (s.handoffStep after) = _ ∧ _) ∧ _
  refine ⟨fun e rest free idle head past first => ?_, fun o hand noRequest noOutcome => ⟨s.handoffStep after, rfl, ?_⟩,
    fun o k hand noRequest outcome notCounted => ⟨s.handoffStep after, rfl, ?_⟩,
    fun o k hand noRequest outcome counted => ⟨s.handoffStep after, rfl, ?_⟩,
    fun o hand asked => congrArg _ ((handoffStep_inHand hand).trans (goOn_asked asked s after)),
    fun idle later => congrArg _ (handoffStep_idle idle (grant_not_release idle later))⟩
  · have granted := grant_release free ((releaseReady_iff s e).2 ⟨idle, ⟨rest, head⟩, past⟩) first
    refine ⟨s.othersWait || s.dueQueue.passedOver, (s.mapWork (·.heldBy e.slot)).commandUnit, _, ?_, heldBy_claimMoved s e.slot,
      congrArg _ (handoffStep_release idle granted), ?_⟩
    · rw [Bool.or_eq_true, othersWait_iff, or_comm]
    · have taken := takeHead_eq s e
      rw [head] at taken
      simp only [List.tail_cons] at taken
      rw [← taken]
      refine ⟨?_, ?_⟩ <;> rintro rfl
      · exact decideOccurrence_performed _ _ _
      · rfl
  · rw [(handoffStep_inHand hand).trans (goOn_decides noRequest noOutcome s after)]
    exact decideOccurrence_performed s after o
  · rw [(handoffStep_inHand hand).trans (goOn_counts noRequest outcome notCounted s after)]
    refine ⟨?_, ?_⟩ <;> rintro rfl
    · exact finish_ending s o k
    · exact count_counted s o k
  · rw [(handoffStep_inHand hand).trans (goOn_ends noRequest outcome counted s after)]
    exact endOccurrence_ended s o

end Sys2Proof.Proofs
end

section
/-! SUPPORT. The rows that take a request of the firing unit: the effects on lines and flags, and the reinsertion (R57, R70 to R73, R87,
R93 to R99, R115, R119). -/

namespace Sys2Proof.Proofs

open Sys2Proof.Machine Sys2Proof.Laws

/-! ## The effects on lines and flags -/

section
variable {s : State} {o : Occurrence} {after : AfterEffect}

theorem driveStep_inHand {n : LineId} {v : Bool} (hand : s.firing = some o) (asks : o.request = some (.drive n v)) :
    s.driveStep after = (s.forceLine n v).afterEffect after o o.appliedKind := by
  rw [State.driveStep, hand]
  simp only [asks]

theorem toggleStep_inHand {n : LineId} (hand : s.firing = some o) (asks : o.request = some (.toggle n)) :
    s.toggleStep after = (s.forceLine n (!(s.line n).intended)).afterEffect after o o.appliedKind := by
  rw [State.toggleStep, hand]
  simp only [asks]
  rfl

theorem pulseStep_inHand {n : LineId} {w : Word} (hand : s.firing = some o) (asks : o.request = some (.pulse n w)) :
    s.pulseStep after = (s.pulseLine n w o.slot).2.afterEffect after o ((s.pulseLine n w o.slot).1.kind o) := by
  rw [State.pulseStep, hand]
  simp only [asks]

theorem flagStep_inHand {f : FlagId} {op : FlagOp} (hand : s.firing = some o) (asks : o.request = some (.flag f op)) :
    s.flagStep after = (s.setFlag f (op.apply (s.flag f))).afterEffect after o o.appliedKind := by
  rw [State.flagStep, hand]
  simp only [asks]

/-- The line's cut is the only news of a forced line. -/
theorem forceLine_cutNews (s : State) (n : LineId) (v : Bool) : s.forceLine n v = { s with
    lineUnit := { s.lineUnit with lines := s.lineUnit.lines.set n ((s.line n).forced s.lineUnit.safeDrive v) }
    noteQueue := s.noteQueue.sent (s.cutNews (· == n)) } := by
  rw [cutNews_one, forceLine_eq]

theorem apply_eq (op : FlagOp) (v : Bool) :
    op.apply v = match op with | .set => true | .clear => false | .toggle => !v := by
  cases op <;> rfl

/-- Settles O47: the owner's change is the forced line or the flag set, and the occurrence goes on behind it. -/
theorem lineAndFlagEffectsAreTaken : Obligations.LineAndFlagEffectsAreTaken := by
  refine ⟨fun s o n v after inHand => ?_, fun s o n after inHand => ?_, fun s o f op after inHand => ?_⟩ <;>
    obtain ⟨released, hand, asks⟩ := inHand
  · refine ⟨_, (exec_released _ released).trans (congrArg _ (driveStep_inHand hand asks)), ?_⟩
    rw [forceLine_cutNews]
    exact afterEffect_taken _ after o _
  · refine ⟨_, (exec_released _ released).trans (congrArg _ (toggleStep_inHand hand asks)), ?_⟩
    rw [forceLine_cutNews]
    exact afterEffect_taken _ after o _
  · refine ⟨op.apply (s.flag f), _, apply_eq op _, (exec_released _ released).trans (congrArg _ (flagStep_inHand hand asks)),
      fun held => ?_, fun changed => ?_⟩
    · rw [State.setFlag, if_pos held.symm]
      exact afterEffect_taken s after o _
    · rw [State.setFlag, if_neg (Ne.symm changed)]
      exact afterEffect_taken _ after o _

end

section
variable {s : State} {n : LineId} {w : Word} {owner : SlotId}

theorem pulseLine_safe (safe : s.lineUnit.safeDrive = true) : s.pulseLine n w owner = (.suppressed, s) := if_pos safe

theorem pulseLine_start (run : s.lineUnit.safeDrive = false) (none : (s.line n).pulse = none) :
    s.pulseLine n w owner = (.started, { s with
      lineUnit := { s.lineUnit with lines := s.lineUnit.lines.set n { s.line n with
        intended := (s.line n).active
        driven := (s.line n).active
        pulse := some ⟨s.now + w.setWidth 32, owner⟩ } } }) := by
  rw [State.pulseLine, run, none]
  rfl

theorem pulseLine_retrigger {p : Pulse} (run : s.lineUnit.safeDrive = false) (some' : (s.line n).pulse = some p) :
    s.pulseLine n w owner = (.retriggered, { s with
      lineUnit := { s.lineUnit with lines := s.lineUnit.lines.set n { s.line n with
        pulse := some ⟨s.now + w.setWidth 32, owner⟩ } }
      noteQueue := s.noteQueue.sent [⟨.slot p.owner, .retriggered, s.now⟩] }) := by
  rw [State.pulseLine, run, some']
  rfl

end

/-- Settles O48: the line unit's answer decides the outcome kind. -/
theorem pulseEffectStartsRetriggersOrIsSuppressed : Obligations.PulseEffectStartsRetriggersOrIsSuppressed := by
  intro s o n w after ⟨released, hand, asks⟩
  refine ⟨_, (exec_released _ released).trans (congrArg _ (pulseStep_inHand hand asks)), fun safe => ?_, fun run none => ?_,
    fun run p pulse => ?_⟩
  · rw [pulseLine_safe safe]
    exact afterEffect_taken s after o _
  · rw [pulseLine_start run none]
    exact afterEffect_taken _ after o _
  · rw [pulseLine_retrigger run pulse]
    exact afterEffect_taken _ after o _

/-! ## The reinsertion -/

/-- Settles O50: the firing unit's request is what the due queue grants, and the entry is placed without checks. -/
theorem reinsertionArmsTheSlotAgain : Obligations.ReinsertionArmsTheSlotAgain := by
  intro s o due ⟨released, hand, asks⟩ free
  have granted : s.grant = some (.firing o (.reinsert due)) := by
    rw [State.grant, (firingRequest_iff s o _).2 ⟨hand, asks, .inr (.inr ⟨due, rfl⟩)⟩]
    exact grantAmong_request free o _ _
  have row : s.reinsertionStep = s.reinsert o.slot due := by rw [State.reinsertionStep, granted]
  exact ⟨_, (s.mapWork (·.presentedFor o.slot .armed)).commandUnit, insertEntry_placed _ _,
    presentedFor_claimMoved s o.slot .armed _ (if_pos rfl), (exec_released _ released).trans (congrArg _ row)⟩

end Sys2Proof.Proofs
end

section
/-! SUPPORT. The rows of the wait list: a placement, a flag change, an advance, a withdrawal (R33, R34, R40, R76, R125 to R134). -/

namespace Sys2Proof.Proofs

open Sys2Proof.Machine Sys2Proof.Laws

/-! ## WAIT_PLACEMENT -/

theorem metAtEntry_iff (c : Condition) (v : Bool) :
    c.metAtEntry v = true ↔ (c = .level0 ∧ v = false) ∨ (c = .level1 ∧ v = true) := by
  cases c <;> simp [Condition.metAtEntry]

theorem expired_iff (e : WaitEntry) (now : Time) :
    e.expired now = true ↔ ∃ d, e.deadline = some d ∧ reached d now = true := by
  unfold WaitEntry.expired
  cases e.deadline <;> simp

theorem not_expired_iff (e : WaitEntry) (now : Time) :
    ¬ e.expired now = true ↔ ∀ d, e.deadline = some d → reached d now = false := by
  simp only [expired_iff, not_exists, not_and, Bool.not_eq_true]

theorem placementStep_inHand {s : State} {o : Occurrence} {w : WaitSpec} (hand : s.firing = some o)
    (asks : o.request = some (.place w)) : s.placementStep = s.takeFlagEvents.place o w := by
  rw [State.placementStep, hand]
  simp only [asks]

section
variable {s : State} {o : Occurrence} {w : WaitSpec}

theorem place_met (met : w.condition.metAtEntry (s.flag w.flag) = true) :
    s.place o w = (s.endWait o.slot .matched o.time (followArm w.follow o.time o.slot)).setFiring none :=
  if_pos met

theorem place_expired (unmet : ¬ w.condition.metAtEntry (s.flag w.flag) = true) {d : Time}
    (deadline : (w.entry o.slot o.time).deadline = some d) (past : reached d s.now = true) :
    s.place o w = (s.endWait o.slot .timeout d (timeoutArm w.timeout d o.slot)).setFiring none := by
  have expired := (expired_iff _ _).2 ⟨d, deadline, past⟩
  refine (if_neg unmet).trans ((if_pos expired).trans ?_)
  rw [deadline]
  rfl

theorem place_full (unmet : ¬ w.condition.metAtEntry (s.flag w.flag) = true) (ahead : ¬ (w.entry o.slot o.time).expired s.now = true)
    (full : 32 ≤ s.waitList.entries.length) :
    s.place o w = (s.endWait o.slot .timeout o.time (timeoutArm w.timeout o.time o.slot)).setFiring none :=
  (if_neg unmet).trans ((if_neg ahead).trans (if_pos full))

theorem place_enters (unmet : ¬ w.condition.metAtEntry (s.flag w.flag) = true) (ahead : ¬ (w.entry o.slot o.time).expired s.now = true)
    (room : s.waitList.entries.length < 32) :
    s.place o w = (((s.setWaitEntries (s.waitList.entries ++ [w.entry o.slot o.time])).setSlot o.slot
      { s.slot o.slot with state := .waiting, due := none }).setFiring none).mapWork (·.presentedFor o.slot .waiting) :=
  (if_neg unmet).trans ((if_neg ahead).trans (if_neg (Nat.not_le.2 room)))

end

/-- Settles O51: the tests of R126 in their order, on the state in which the flag changes in flight are taken. -/
theorem placementDecidesByTheFirstTest : Obligations.PlacementDecidesByTheFirstTest := by
  intro s o w ⟨released, hand, asks⟩
  refine ⟨s.takeFlagEvents, _, runs_matches s released,
    (exec_released _ released).trans (congrArg _ (placementStep_inHand hand asks)), ?_⟩
  generalize s.takeFlagEvents = m
  intro met deadline follow timeout
  have judged : w.condition.metAtEntry (m.flag w.flag) = true ↔ met := metAtEntry_iff _ _
  have entry : (w.entry o.slot o.time).deadline = deadline := rfl
  refine ⟨fun holds => ?_, fun fails d due past => ?_, fun fails ahead full => ?_, fun fails ahead room => ?_⟩
  · rw [place_met (judged.2 holds)]
    rfl
  · rw [place_expired (fails ∘ judged.1) (entry.trans due) past]
    rfl
  · rw [place_full (fails ∘ judged.1) ((not_expired_iff _ _).2 ahead) full]
    rfl
  · rw [place_enters (fails ∘ judged.1) ((not_expired_iff _ _).2 ahead) room]
    exact ⟨_, presentedFor_claimMoved m o.slot .waiting _ (if_pos rfl), rfl⟩

/-! ## MATCHED and TIMEOUT -/

/-- While a deadline is reached and not expired, the wait list has not taken the last advance (R130; Log 8). -/
theorem waitTime_eq (s : State) :
    ((∃ e ∈ s.waitList.entries, ∃ d, e.deadline = some d ∧ reached d s.now = true) → s.waitTime = s.now - 1)
    ∧ ((∀ e ∈ s.waitList.entries, ∀ d, e.deadline = some d → reached d s.now = false) → s.waitTime = s.now) := by
  refine ⟨fun ⟨e, listed, late⟩ => if_pos ?_, fun ahead => if_neg ?_⟩
  · exact List.any_eq_true.2 ⟨e, listed, (expired_iff _ _).2 late⟩
  · rw [List.any_eq_true]
    rintro ⟨e, listed, late⟩
    exact (not_expired_iff _ _).2 (ahead e listed) late

/-- The slots of the entries a test selects. -/
theorem mem_map_slot_filter {es : List WaitEntry} {p : WaitEntry → Bool} {i : SlotId} :
    i ∈ (es.filter p).map WaitEntry.slot ↔ ∃ e ∈ es, p e = true ∧ e.slot = i := by
  simp only [List.mem_map, List.mem_filter, and_assoc]

/-- Where each slot of a selected entry has ended its wait and no other slot has changed, this is so entry by entry. -/
theorem finished_by_entry {s t : State} {p : WaitEntry → Bool}
    (h : ∀ i, t.slot i = if i ∈ (s.waitList.entries.filter p).map WaitEntry.slot then (s.slot i).finished else s.slot i) :
    (∀ i, (∃ e ∈ s.waitList.entries, p e = true ∧ e.slot = i) → t.slot i = { s.slot i with state := .done, due := none })
    ∧ ∀ i, (∀ e ∈ s.waitList.entries, p e = true → e.slot ≠ i) → t.slot i = s.slot i := by
  refine ⟨fun i ended => (h i).trans (if_pos (mem_map_slot_filter.2 ended)), fun i others => (h i).trans (if_neg ?_)⟩
  rw [mem_map_slot_filter]
  rintro ⟨e, listed, selected, same⟩
  exact others e listed selected same

/-- Settles O52: the entries the change meets end at the time of the wait list's last advance. -/
theorem flagChangeEndsTheEntriesItMeets : Obligations.FlagChangeEndsTheEntriesItMeets := by
  intro s released
  rw [exec_released _ released]
  refine ⟨fun none => congrArg _ (takeFlagEvent_none s none), fun v rest events => ⟨s.waitTime, s.takeFlagEvent, ?_⟩⟩
  intro met
  have table : met = fun e => e.metBy v := funext fun e => (metBy_eq e v).symm
  obtain ⟨slots, whole⟩ := takeFlagEvent_spec s v rest events
  obtain ⟨late, inTime⟩ := waitTime_eq s
  rw [table]
  obtain ⟨ended, others⟩ := finished_by_entry slots
  exact ⟨late, inTime, rfl, ended, others, whole⟩

/-- The arm of an entry whose deadline is reached. -/
theorem timeoutArm_expired {e : WaitEntry} {now : Time} (h : e.expired now = true) :
    timeoutArm e.timeout (e.deadline.getD now) e.slot = match e.timeout, e.deadline with
      | some i, some d => [⟨i, d, d, e.slot⟩]
      | _, _ => [] := by
  obtain ⟨d, deadline, -⟩ := (expired_iff _ _).1 h
  rw [deadline]
  cases e.timeout <;> rfl

/-- Settles O53: the entries whose deadline is reached end at their deadlines. -/
theorem advanceExpiresTheReachedDeadlines : Obligations.AdvanceExpiresTheReachedDeadlines := by
  intro s released
  refine ⟨s.expireDeadlines, ?_⟩
  intro isDue
  have table : isDue = fun e => e.expired s.now := rfl
  obtain ⟨slots, whole⟩ := expireDeadlines_spec s
  have news : (s.waitList.entries.filter (·.expired s.now)).map
        (fun e => (⟨.slot e.slot, .timeout, e.deadline.getD s.now⟩ : NewsItem))
      = (s.waitList.entries.filter (·.expired s.now)).filterMap fun e => e.deadline.map fun d => ⟨.slot e.slot, .timeout, d⟩ := by
    rw [← List.filterMap_eq_map']
    refine List.filterMap_congr fun e listed => ?_
    obtain ⟨d, deadline, -⟩ := (expired_iff _ _).1 (List.mem_filter.1 listed).2
    rw [deadline]
    rfl
  have arms := List.flatMap_congr (l := s.waitList.entries.filter (·.expired s.now))
    fun e listed => timeoutArm_expired (List.mem_filter.1 listed).2
  rw [table]
  obtain ⟨ended, others⟩ := finished_by_entry slots
  refine ⟨exec_released _ released, ended, others, ?_⟩
  rw [news, arms] at whole
  exact whole

/-! ## WITHDRAWAL -/

theorem firingWithdrawal_inHand {s : State} {o : Occurrence} {target : SlotId} {after : AfterEffect} (hand : s.firing = some o)
    (asks : o.request = some (.withdraw target)) :
    s.firingWithdrawal after = if (s.slot target).state = .waiting then
        ((s.withdraw target).send (.slot target) .cancelled o.time).afterEffect after o o.appliedKind
      else s.afterEffect after o o.appliedKind := by
  rw [State.firingWithdrawal, hand]
  simp only [asks]

theorem commandWithdrawal_executing {s : State} {c : Command} {i : SlotId}
    (executing : s.commandUnit.executing = some ⟨c, .withdraw i⟩) :
    s.commandWithdrawal = if (s.slot i).state = .waiting then (s.withdraw i).complete c .ok []
      else s.complete c .badState [] := by
  rw [State.commandWithdrawal, executing]

/-- Settles O54: the entry of a WAITING slot is removed for either requester, and a slot no longer WAITING is left. -/
theorem withdrawalRemovesTheWaitEntry : Obligations.WithdrawalRemovesTheWaitEntry := by
  refine ⟨fun s o target after ⟨released, hand, asks⟩ => ?_, fun s c i after released executing => ?_⟩ <;>
    rw [exec_released _ released]
  · refine ⟨_, congrArg _ (firingWithdrawal_inHand hand asks), fun waiting => ?_, fun ended => ?_⟩
    · rw [if_pos waiting, withdraw_eq]
      exact afterEffect_taken _ after o _
    · rw [if_neg ended]
      exact afterEffect_taken s after o _
  · have row : effect (.withdrawal .commandUnit after) s = _ := commandWithdrawal_executing executing
    refine ⟨fun waiting => ?_, fun ended => ?_⟩
    · rw [row, if_pos waiting, withdraw_eq]
      rfl
    · rw [row, if_neg ended]
      rfl

end Sys2Proof.Proofs
end

section
/-! SUPPORT. The rows that stand for CLK periods, and the acceptance of an input level (R1 to R4, R108 to R112, R154 to R157; Log 4,
Log 17, Log 27). -/

namespace Sys2Proof.Proofs

open Sys2Proof.Machine Sys2Proof.Laws

/-! ## INPUT_ACCEPT -/

/-- Settles O9: the flag bank takes the oldest acceptance as `accept_spec` says. -/
theorem acceptanceSetsLevelThenLatchThenNews : Obligations.AcceptanceSetsLevelThenLatchThenNews := by
  refine ⟨fun i => ⟨rfl, rfl⟩, fun level => ⟨rfl, rfl, rfl, rfl⟩, fun s released => ?_⟩
  rw [exec_released _ released]
  show (_ → Host.Outcome.next s.takeAcceptance = _) ∧ ∀ a rest, _ → ∃ t, Host.Outcome.next s.takeAcceptance = _ ∧ _
  refine ⟨fun none => by rw [State.takeAcceptance, none], fun a rest handed => ?_⟩
  have taken : s.takeAcceptance = State.accept { s with inputUnit := { s.inputUnit with handed := rest } } a := by
    rw [State.takeAcceptance, handed]
  obtain ⟨level, latch, others, whole⟩ := accept_spec { s with inputUnit := { s.inputUnit with handed := rest } } a
  rw [taken]
  exact ⟨_, rfl, level, latch, others, whole⟩

/-! ## SAFE_ASSERTED and SAFE_RELEASED -/

/-- Settles O10: each CLK period samples the pin once, and the samples are counted, accepted or dropped by R154. -/
theorem safePinLevelIsQualified : Obligations.SafePinLevelIsQualified := by
  intro s low samples order safe released
  have shown : (s.showSafe low).Released := released
  have pins := (clkPeriods_pins (s.showSafe low) samples ⟨order, safe⟩).pins
  have controller := clkPeriods_controller (s.showSafe low) samples ⟨order, safe⟩
  have row : exec (if low then .safeAsserted samples order safe else .safeReleased samples order safe) s
      = .next ((s.showSafe low).clkPeriods samples ⟨order, safe⟩) := by
    cases low <;> exact exec_released _ released
  have passed := clkPeriods_pass (s.showSafe low) samples ⟨order, safe⟩ shown
  generalize (s.showSafe low).clkPeriods samples ⟨order, safe⟩ = t at pins controller row passed
  replace controller : t.safeController = (sampledSafe low)^[samples] s.safeController := controller
  refine ⟨t, row, passed, congrArg Pins.safeLow pins, fun same => ?_, fun other few => ?_, fun other some enough => ?_⟩
  · rw [controller, sampledSafe_same low _ samples same]
    split
    · next none => exact ⟨same, rfl, fun some => absurd none (Nat.ne_of_gt some)⟩
    · exact ⟨same, rfl, fun _ => rfl⟩
  · rw [controller, sampledSafe_few low _ samples other few]
  · rw [controller, sampledSafe_enough low _ samples other some enough]
    refine ⟨rfl, rfl, ?_, ?_⟩ <;> rintro rfl <;> rfl

/-! ## TICK -/

theorem includes_iff (e : EdgeSelection) (level : Bool) : e.includes level = true ↔ Included e level := by
  cases e <;> simp [EdgeSelection.includes, Included]

section
variable {s : State} {clk : Nat} {pins : BitVec 16} {order : ClkOrder}

theorem internalTick_below (source : s.timebase.source = .internal) (below : clk ≤ s.timebase.beforeTick) :
    s.internalTick clk pins order = (s.showInputs pins).quietClk clk := by
  rw [State.internalTick, source]
  exact if_pos below

theorem internalTick_reaches (source : s.timebase.source = .internal) (reaches : s.timebase.beforeTick < clk) :
    s.internalTick clk pins order = ((s.showInputs pins).quietClk s.timebase.beforeTick).clkPeriod order := by
  rw [State.internalTick, source]
  exact if_neg (Nat.not_le.2 reaches)

/-- CLK periods that bring no tick under the internal source: device time stays and the prescaler count moves. -/
theorem quietClk_internal (source : s.timebase.source = .internal) (n : Nat) :
    (s.quietClk n).now = s.now ∧ (s.quietClk n).timebase.source = .internal
    ∧ (s.quietClk n).timebase.prescaler = s.timebase.prescaler
    ∧ (s.quietClk n).timebase.prescalerCount = s.timebase.prescalerCount + n := by
  obtain ⟨-, -, timebase⟩ := quietClk_frame s n
  rw [State.now, timebase, quiet_internal_all _ _ _ source]
  exact ⟨rfl, source, rfl, rfl⟩

/-- Samples of SAFE# at its qualified level leave all but the candidate count. -/
theorem quietClk_settled (source : s.timebase.source = .internal) (some : 0 < clk)
    (settled : s.pins.safeLow = s.safeController.asserted) : s.quietClk clk = { s with
      timebase := { s.timebase with prescalerCount := s.timebase.prescalerCount + clk, tickSample := s.pins.tickHigh }
      safeController := { s.safeController with candidate := 0 } } := by
  rw [State.quietClk, quiet_internal_all _ _ _ source, if_neg (Nat.ne_of_gt some)]
  exact (if_neg (Nat.ne_of_gt some)).trans (if_pos settled)

/-- The fourth asserted sample in RUN under FREEZE sets the freeze mark (R156). -/
theorem sampleSafe_freezes (h : s.safeController = ⟨.run, .freeze, false, 3⟩) : (s.sampleSafe true).timebase.freeze = true := by
  obtain ⟨-, -, accepted⟩ := sampleSafe_sampled s true
  obtain ⟨-, enters⟩ := accepted (by rw [h]; nofun) (by rw [h])
  obtain ⟨-, -, whole⟩ := enters rfl (by rw [h])
  rw [whole, h]
  exact Bool.or_true _

/-- A CLK period with that sample leaves SAFE with the freeze mark set, whatever its order. -/
theorem clkPeriod_freezes (low : s.pins.safeLow = true) (h : s.safeController = ⟨.run, .freeze, false, 3⟩) :
    (s.clkPeriod order).safeController.state = .safe ∧ (s.clkPeriod order).timebase.freeze = true := by
  refine ⟨by rw [clkPeriod_controller, low, h]; rfl, ?_⟩
  unfold State.clkPeriod
  rw [low]
  split
  · obtain ⟨-, -, -, -, -, -, freeze⟩ := runSources_frame (s.sampleSafe true) order
    exact freeze.trans (sampleSafe_freezes h)
  · obtain ⟨-, controller, -⟩ := runSources_frame s order
    exact sampleSafe_freezes (controller.trans h)

/-- Device time after a CLK period in which a tick meets that sample. -/
theorem clkPeriod_freezes_now (low : s.pins.safeLow = true) (h : s.safeController = ⟨.run, .freeze, false, 3⟩)
    (due : TickDue s) (desired : s.timebase.desired = .run) (free : s.timebase.freeze = false) :
    (s.clkPeriod order).now = if order.safe = .beforeTick then s.now else s.now + 1 := by
  split
  · next before => exact clkPeriod_frozen s order before due (by rw [low]; exact sampleSafe_freezes h)
  · next after =>
    rw [clkPeriod_ticks s order (.inl after) due]
    exact if_pos ⟨desired, free⟩

end

/-- Settles O7: below the prescaler the periods are quiet ones, and the last period of the row brings the tick. -/
theorem internalTickCountsAndSamples : Obligations.InternalTickCountsAndSamples := by
  refine ⟨fun i => ⟨rfl, rfl⟩, includes_iff, fun s pins order clk safe released => ?_⟩
  rw [exec_released _ released]
  intro shown
  refine ⟨fun external => ?_, fun internal below => ?_, fun internal some reaches => ?_,
    fun internal last some desired free low controller => ?_⟩
  · show Host.Outcome.next (s.internalTick clk pins ⟨order, safe⟩) = _
    rw [State.internalTick, external]
  · have within : clk ≤ s.timebase.beforeTick := by
      unfold Timebase.beforeTick
      omega
    obtain ⟨now, -, -, count⟩ := quietClk_internal (s := shown) internal clk
    exact ⟨_, congrArg _ (internalTick_below internal within), quietClk_pass shown clk _ released (.inl internal) (.inr within),
      now, count, quietClk_settled (s := shown) internal⟩
  · have above : s.timebase.beforeTick < clk := by
      unfold Timebase.beforeTick
      omega
    obtain ⟨-, source, prescaler, count⟩ := quietClk_internal (s := shown) internal s.timebase.beforeTick
    have passed := quietClk_pass shown s.timebase.beforeTick ⟨order, safe⟩ released (.inl internal) (.inr (Nat.le_refl _))
    have pinsKept := (quietClk_frame shown s.timebase.beforeTick).1
    refine ⟨_, _, congrArg _ (internalTick_reaches internal above), passed, source, ?_, clkPeriod_passed _ _ ?_⟩
    · rw [prescaler, count]
      show s.timebase.prescaler ≤ s.timebase.prescalerCount + (s.timebase.prescaler - (s.timebase.prescalerCount + 1)) + 1
      omega
    · rw [State.Released, pinsKept]
      exact released
  · have none : s.timebase.beforeTick = 0 := by
      unfold Timebase.beforeTick
      omega
    have row : s.internalTick clk pins ⟨order, safe⟩ = shown.clkPeriod ⟨order, safe⟩ := by
      rw [internalTick_reaches internal (by omega), none]
      rfl
    obtain ⟨entered, frozen⟩ := clkPeriod_freezes (s := shown) (order := ⟨order, safe⟩) low controller
    exact ⟨_, congrArg _ row, entered, frozen,
      clkPeriod_freezes_now (s := shown) low controller (.inl ⟨internal, Nat.le_of_eq last⟩) desired free⟩

end Sys2Proof.Proofs
end

section
/-! SUPPORT. TICK_EDGE: the CLK periods before the high sample of TICK, and the edge it makes (R2, R154; Log 4, Log 27). -/

namespace Sys2Proof.Proofs

open Sys2Proof.Machine Sys2Proof.Laws

/-! ## The high sample -/

/-- The spacing check counts an edge that comes one CLK period after its count was last taken (R2). -/
def EdgeCounts (b : Timebase) : Prop := b.spacing = none ∨ ∃ n, b.spacing = some n ∧ 256 ≤ n + 1

section
variable {s : State} {order : ClkOrder}

/-- An edge too near to the last counted one only sets ERROR.TICK_FAST. -/
theorem runSources_refused (source : s.timebase.source = .external) (high : s.pins.tickHigh = true)
    (sample : s.timebase.tickSample = false) {n : Nat} (spacing : s.timebase.spacing = some n) (near : n + 1 < 256) :
    s.runSources order = { s with
      timebase := { s.timebase with tickSample := true, spacing := some (n + 1) }
      window := { s.window with error := s.window.error ||| 0x20 } } := by
  rw [runSources_rising s order source high sample, State.judgeEdge]
  simp only [setTimebase_timebase, spacing]
  exact if_neg (Nat.not_le.2 near)

/-- A counted edge restarts the spacing and leaves the window. -/
theorem runSources_counted (source : s.timebase.source = .external) (high : s.pins.tickHigh = true)
    (sample : s.timebase.tickSample = false) (counts : EdgeCounts s.timebase) :
    (s.runSources order).timebase.spacing = some 0 ∧ (s.runSources order).window = s.window := by
  have counted : s.runSources order = (s.setTimebase { s.timebase with tickSample := true }).countEdge order := by
    rw [runSources_rising s order source high sample, State.judgeEdge]
    simp only [setTimebase_timebase]
    obtain spacing | ⟨n, spacing, far⟩ := counts <;> rw [spacing]
    exact if_pos far
  rw [counted, State.countEdge]
  obtain ⟨timebase, -, window, -⟩ := tickInPeriod_frame
    (State.setTimebase (s.setTimebase { s.timebase with tickSample := true }) { s.timebase with tickSample := true, spacing := some 0 })
    s.pins.inputs order
  exact ⟨congrArg Timebase.spacing timebase, window⟩

/-- A sample of SAFE# leaves what the edge is judged by: the pins, the window, and the timebase but for the freeze mark. -/
theorem sampleSafe_frame (s : State) (low : Bool) :
    (s.sampleSafe low).pins = s.pins ∧ (s.sampleSafe low).window = s.window
    ∧ (s.sampleSafe low).timebase = { s.timebase with freeze := (s.sampleSafe low).timebase.freeze } := by
  rw [sampleSafe_eq]
  exact sampleSafeTimes_frame s 1 low

/-- A property of device time, the spacing and the window that the tick sources bring about, wherever SAFE# is sampled. -/
theorem clkPeriod_by_sources {P : Time → Option Nat → Window → Prop}
    (h : ∀ u : State, u.pins = s.pins → u.window = s.window → u.timebase = { s.timebase with freeze := u.timebase.freeze } →
      P (u.runSources order).now (u.runSources order).timebase.spacing (u.runSources order).window) :
    P (s.clkPeriod order).now (s.clkPeriod order).timebase.spacing (s.clkPeriod order).window := by
  unfold State.clkPeriod
  split
  · obtain ⟨pins, window, timebase⟩ := sampleSafe_frame s s.pins.safeLow
    exact h _ pins window timebase
  · obtain ⟨-, window, timebase⟩ := sampleSafe_frame (s.runSources order) s.pins.safeLow
    rw [State.now, window, timebase]
    exact h s rfl rfl rfl

/-- The last CLK period of a TICK_EDGE whose edge is refused. -/
theorem clkPeriod_refused (source : s.timebase.source = .external) (high : s.pins.tickHigh = true)
    (sample : s.timebase.tickSample = false) {n : Nat} (spacing : s.timebase.spacing = some n) (near : n + 1 < 256) :
    (s.clkPeriod order).now = s.now ∧ (s.clkPeriod order).timebase.spacing = some (n + 1)
    ∧ (s.clkPeriod order).window = { s.window with error := s.window.error ||| 0x20 } := by
  refine clkPeriod_by_sources (P := fun now spacing window => now = s.now ∧ spacing = some (n + 1)
    ∧ window = { s.window with error := s.window.error ||| 0x20 }) fun u pins window timebase => ?_
  rw [runSources_refused (s := u) (by rw [timebase]; exact source) (by rw [pins]; exact high) (by rw [timebase]; exact sample)
    (by rw [timebase]; exact spacing) near]
  exact ⟨(congrArg Timebase.time timebase :), rfl, congrArg (fun w : Window => { w with error := w.error ||| 0x20 }) window⟩

/-- The last CLK period of a TICK_EDGE whose edge is counted. -/
theorem clkPeriod_counted (source : s.timebase.source = .external) (high : s.pins.tickHigh = true)
    (sample : s.timebase.tickSample = false) (counts : EdgeCounts s.timebase) :
    (s.clkPeriod order).timebase.spacing = some 0 ∧ (s.clkPeriod order).window = s.window := by
  refine clkPeriod_by_sources (P := fun _ spacing window => spacing = some 0 ∧ window = s.window) fun u pins window timebase => ?_
  obtain ⟨restarted, kept⟩ := runSources_counted (s := u) (order := order) (by rw [timebase]; exact source)
    (by rw [pins]; exact high) (by rw [timebase]; exact sample) (by rw [timebase]; exact counts)
  exact ⟨restarted, kept.trans window⟩

end

/-! ## The CLK periods before it -/

/-- What `n` CLK periods under the external source without a rising edge leave and count, with TICK at the level `high`. -/
structure FlatPass (n : Nat) (high : Bool) (s t : State) : Prop where
  window : t.window = s.window
  now : t.now = s.now
  source : t.timebase.source = .external
  spacing : t.timebase.spacing = s.timebase.spacing.map (· + n)
  tickSample : t.timebase.tickSample = if n = 0 then s.timebase.tickSample else high

theorem clkPeriods_flat {s : State} (source : s.timebase.source = .external)
    (flat : s.pins.tickHigh = false ∨ s.timebase.tickSample = true) (n : Nat) (order : ClkOrder) :
    FlatPass n s.pins.tickHigh s (s.clkPeriods n order) := by
  rw [clkPeriods_quiet s n order (.inr flat) (.inl source)]
  obtain ⟨-, window, timebase⟩ := quietClk_frame s n
  rw [quiet_external_all _ _ _ source] at timebase
  exact ⟨window, (congrArg Timebase.time timebase :), (congrArg Timebase.source timebase :).trans source,
    (congrArg Timebase.spacing timebase :), (congrArg Timebase.tickSample timebase :)⟩

/-- One such period, with TICK high since its last sample. -/
theorem clkPeriod_flat {s : State} (source : s.timebase.source = .external) (sample : s.timebase.tickSample = true)
    (order : ClkOrder) : FlatPass 1 s.pins.tickHigh s (s.clkPeriod order) := by
  have one : s.clkPeriods 1 order = s.clkPeriod order := by rw [clkPeriods_iterate]; rfl
  exact one ▸ clkPeriods_flat source (.inr sample) 1 order

theorem map_add_map_add (x : Option Nat) (m n : Nat) : (x.map (· + m)).map (· + n) = x.map (· + (m + n)) := by
  cases x <;> simp [Nat.add_assoc]

/-- The state after the CLK periods with TICK at its last sampled level. -/
def steadyPart (s : State) (steady : Nat) (pins : BitVec 16) (order : ClkOrder) : State :=
  ((s.showInputs pins).showTick s.timebase.tickSample).clkPeriods steady order

/-- The state before the high sample: those periods, and then the low ones. -/
def beforeEdge (s : State) (steady low : Nat) (pins : BitVec 16) (order : ClkOrder) : State :=
  ((steadyPart s steady pins order).showTick false).clkPeriods low order

theorem externalEdge_eq (s : State) (steady low : Nat) (pins : BitVec 16) (order : ClkOrder) :
    s.externalEdge steady low pins order = ((beforeEdge s steady low pins order).showTick true).clkPeriod order := rfl

theorem steadyPart_pins (s : State) (steady : Nat) (pins : BitVec 16) (order : ClkOrder) :
    (steadyPart s steady pins order).pins = { s.pins with tickHigh := s.timebase.tickSample, inputs := pins } :=
  (clkPeriods_pins _ steady order).pins

theorem beforeEdge_pins (s : State) (steady low : Nat) (pins : BitVec 16) (order : ClkOrder) :
    (beforeEdge s steady low pins order).pins = { s.pins with tickHigh := false, inputs := pins } := by
  refine (clkPeriods_pins _ low order).pins.trans ?_
  show { (steadyPart s steady pins order).pins with tickHigh := false } = _
  rw [steadyPart_pins]

/-- What the periods before the high sample leave and count under the external source: they make no edge. -/
theorem beforeEdge_flat {s : State} (source : s.timebase.source = .external) (steady low : Nat) (pins : BitVec 16)
    (order : ClkOrder) : (beforeEdge s steady low pins order).window = s.window
      ∧ (beforeEdge s steady low pins order).now = s.now
      ∧ (beforeEdge s steady low pins order).timebase.source = .external
      ∧ (beforeEdge s steady low pins order).timebase.spacing = s.timebase.spacing.map (· + (steady + low))
      ∧ (beforeEdge s steady low pins order).timebase.tickSample = if low = 0 then s.timebase.tickSample else false := by
  have first : FlatPass steady s.timebase.tickSample ((s.showInputs pins).showTick s.timebase.tickSample)
      (steadyPart s steady pins order) :=
    clkPeriods_flat (s := (s.showInputs pins).showTick s.timebase.tickSample) source
      (Bool.eq_false_or_eq_true s.timebase.tickSample).symm steady order
  have second : FlatPass low false ((steadyPart s steady pins order).showTick false) (beforeEdge s steady low pins order) :=
    clkPeriods_flat (s := (steadyPart s steady pins order).showTick false) first.source (.inl rfl) low order
  refine ⟨second.window.trans first.window, second.now.trans first.now, second.source, ?_, ?_⟩
  · rw [second.spacing, ← map_add_map_add]
    exact congrArg _ first.spacing
  · rw [second.tickSample, show ((steadyPart s steady pins order).showTick false).timebase.tickSample = s.timebase.tickSample from
      first.tickSample.trans (ite_self _)]

/-- Settles O8: the periods before the high sample make no edge, and the last one judges it. -/
theorem externalEdgeIsJudgedBySpacing : Obligations.ExternalEdgeIsJudgedBySpacing := by
  intro s steady pins order low safe released
  have pinsA := steadyPart_pins s steady pins ⟨order, safe⟩
  have pinsB := beforeEdge_pins s steady low pins ⟨order, safe⟩
  have releasedA : ((steadyPart s steady pins ⟨order, safe⟩).showTick false).Released := (congrArg Pins.resetHeld pinsA).trans released
  have releasedB : ((beforeEdge s steady low pins ⟨order, safe⟩).showTick true).Released :=
    (congrArg Pins.resetHeld pinsB).trans released
  refine ⟨steadyPart s steady pins ⟨order, safe⟩, beforeEdge s steady low pins ⟨order, safe⟩, _, exec_released _ released,
    clkPeriods_pass _ steady _ released, clkPeriods_pass _ low _ releasedA, clkPeriod_passed _ _ releasedB, ?_,
    clkPeriod_sample ((beforeEdge s steady low pins ⟨order, safe⟩).showTick true) ⟨order, safe⟩, fun external => ?_⟩
  · refine (clkPeriod_pins _ _).pins.trans ?_
    show { (beforeEdge s steady low pins ⟨order, safe⟩).pins with tickHigh := true } = _
    rw [pinsB]
  · obtain ⟨window, now, source, spacing, sample⟩ := beforeEdge_flat external steady low pins ⟨order, safe⟩
    have edge : effect (.tickEdge steady pins order low safe) s
      = ((beforeEdge s steady low pins ⟨order, safe⟩).showTick true).clkPeriod ⟨order, safe⟩ := externalEdge_eq s steady low pins _
    rw [edge]
    generalize beforeEdge s steady low pins ⟨order, safe⟩ = b at window now source spacing sample
    refine ⟨now, spacing, sample, fun high none => ?_, fun rises => ⟨fun n last near => ?_, fun counts => ?_⟩⟩
    · have flat : FlatPass 1 true (b.showTick true) ((b.showTick true).clkPeriod ⟨order, safe⟩) :=
        clkPeriod_flat (s := b.showTick true) source (by rw [if_pos none] at sample; exact sample.trans high) _
      refine ⟨flat.now.trans now, flat.window.trans window, flat.spacing.trans ?_⟩
      show b.timebase.spacing.map (· + 1) = _
      rw [spacing, map_add_map_add]
    all_goals
      have lowSample : b.timebase.tickSample = false := by
        rw [sample]
        obtain low' | some := rises
        · rw [low', ite_self]
        · exact if_neg (Nat.ne_of_gt some)
    · have lastB : b.timebase.spacing = some (n + (steady + low)) := by rw [spacing, last]; rfl
      obtain ⟨nowT, spacingT, windowT⟩ :=
        clkPeriod_refused (s := b.showTick true) (order := ⟨order, safe⟩) source rfl lowSample lastB near
      refine ⟨nowT.trans now, spacingT, windowT.trans ?_⟩
      show { b.window with error := b.window.error ||| 0x20 } = _
      rw [window]
    · have countsB : EdgeCounts b.timebase := by
        obtain none | ⟨n, last, far⟩ := counts
        · exact .inl (by rw [spacing, none]; rfl)
        · exact .inr ⟨n + (steady + low), by rw [spacing, last]; rfl, far⟩
      obtain ⟨spacingT, windowT⟩ := clkPeriod_counted (s := b.showTick true) (order := ⟨order, safe⟩) source rfl lowSample countsB
      exact ⟨spacingT, windowT.trans window⟩

end Sys2Proof.Proofs
end
